-- ==== Sys2Proof/Word.lean ====
section
/-! DEFINITION. The word types of the K3: 8, 16, 32, 64 and 128 bit values and 72-bit virtual addresses
(R27, R35, R199). -/

namespace Sys2Proof

abbrev Byte := BitVec 8
abbrev Half := BitVec 16
abbrev Word := BitVec 32
abbrev DWord := BitVec 64
abbrev QWord := BitVec 128
/-- A 72-bit virtual address; every value is valid (R199). -/
abbrev Addr := BitVec 72

end Sys2Proof
end

