-- ==== Sys2Proof/Syntax.lean ====
section
/-! DEFINITION. The whole syntax of the K3: operands, formats and the one inductive Instr with a constructor per
row of the opcode table: 32-bit instructions (R32, R44, R45), compact instructions (R30, R31), reed operations
(R245) and the rows that have no encoding: primitives (R247), internal steps and host inputs. -/

namespace Sys2Proof

/-! ### Operands -/

/-- A 7-bit operand code that R34 does not reserve. -/
inductive Opnd where
  | v (n : Fin 96)
  | s (n : Fin 16)
  | l (n : Fin 4)
  | vz
  | lane
  | tix
  | wix
deriving DecidableEq, Repr

/-- Member mask of format W: m5 = 0..15 names an s-register, 16 the live lanes (R47, R265). -/
inductive Mask where
  | sreg (n : Fin 16)
  | all
deriving DecidableEq, Repr

/-- Access size of formats M, N, S, Q (R32). -/
inductive Size where
  | b8 | b16 | b32 | b64 | b128
deriving DecidableEq, Repr

/-- Typed-buffer space of format Q (R32). -/
inductive BufSpace where
  | abuf | cbuf | wbuf
deriving DecidableEq, Repr

/-- Integer compare conditions 0..9 (R351). -/
inductive ICond where
  | eq | ne | lt | le | gt | ge | lo | ls | hi | hs
deriving DecidableEq, Repr

/-- Floating compare conditions 0..7 (R337). -/
inductive FCond where
  | eq | ne | lt | le | gt | ge | uo | or
deriving DecidableEq, Repr

/-- Rounding field of CVT (R95). -/
inductive Rnd where
  | rne | rz | rd | ru | rs | rk
deriving DecidableEq, Repr

/-- Rounding mode of FRND and DRND (R112). -/
inductive RndInt where
  | rne | rz | rd | ru
deriving DecidableEq, Repr

inductive CaddTy where
  | s32 | s64 | f32 | f64
deriving DecidableEq, Repr

inductive CtwoTy where
  | f32 | f64
deriving DecidableEq, Repr

/-- Types of CMIN and CMAX (R319). -/
inductive CmmTy where
  | s32 | z32 | f32 | f64
deriving DecidableEq, Repr

/-- Types of CORD, LDCT and LDCS (R46). -/
inductive BitTy where
  | b32 | b64 | b128
deriving DecidableEq, Repr

inductive CaffTy where
  | f32 | f64
deriving DecidableEq, Repr

inductive CbitTy where
  | and32 | or32 | xor32 | and64 | or64 | xor64
deriving DecidableEq, Repr

inductive ModwTy where
  | b32 | b64
deriving DecidableEq, Repr

/-- Functions of SATOM, codes 0..7 (R175). -/
inductive SatomFn where
  | addS32 | minS32 | maxS32 | minZ32 | maxZ32 | and | or | xor
deriving DecidableEq, Repr

inductive VoteFn where
  | ballot | any | all
deriving DecidableEq, Repr

/-- Functions of WRED, codes 0..9 (R393). -/
inductive WredFn where
  | addS32 | addF32 | addF64 | minS32 | maxS32 | minF32 | maxF32 | and | or | xor
deriving DecidableEq, Repr

/-- Functions of WSCAN, codes 0..5 (R394). -/
inductive WscanFn where
  | inclAddS32 | inclAddF32 | exclAddS32 | exclAddF32 | inclMaxF32 | inclMaxS32
deriving DecidableEq, Repr

/-- Functions of WSORT, codes 0..3 (R395). -/
inductive WsortFn where
  | ascF32 | descF32 | ascS32 | descS32
deriving DecidableEq, Repr

/-- Barrier levels, sub 000..100 (R78). -/
inductive Level where
  | wave | stage | core | polder | launch
deriving DecidableEq, Repr

/-- FENCE scopes, sub 000..100 (R149). -/
inductive Scope where
  | wave | core | task | dev | sys
deriving DecidableEq, Repr

/-- SETP operations 0..6 (R379). -/
inductive SetpFn where
  | and | or | xor | andn | not | one | zero
deriving DecidableEq, Repr

/-- FSGN functions 0..2 (R348). -/
inductive FsgnFn where
  | neg | abs | nabs
deriving DecidableEq, Repr

/-- BCNT functions 0..3 (R315). -/
inductive BcntFn where
  | pop | clz | ctz | rev
deriving DecidableEq, Repr

/-- The three parts of an address register (R310, R312). -/
inductive APart where
  | lo | mid | hi
deriving DecidableEq, Repr

inductive TraceFn where
  | suspend | resume | note
deriving DecidableEq, Repr

/-- Matrix element classes, codes 00..11 (R45). -/
inductive MClass where
  | i4 | i8 | n4 | n8
deriving DecidableEq, Repr

/-- Channel access paths, codes 0..2 (R322). -/
inductive ChPath where
  | lanes | copy | matrix
deriving DecidableEq, Repr

/-! ### Formats (R32) -/

structure TOp where
  b : Opnd
  a : Opnd
  d : Opnd
  w : Bool
  g : Bool
  s : Bool
deriving DecidableEq, Repr

structure CmpOp (κ : Type) where
  b : Opnd
  a : Opnd
  c : κ
  p : Fin 8
  g : Bool
  s : Bool
deriving DecidableEq, Repr

structure CmpIOp where
  imm : BitVec 8
  a : Opnd
  c : ICond
  p : Fin 8
  s : Bool
deriving DecidableEq, Repr

structure MovOp where
  a : Opnd
  d : Opnd
  w : Bool
  g : Bool
  s : Bool
deriving DecidableEq, Repr

/-- RNG: the key is the even s-register pair 2 × key (R375). -/
structure RngOp where
  key : Fin 8
  a : Opnd
  d : Opnd
  w : Bool
  g : Bool
  s : Bool
deriving DecidableEq, Repr

structure IOp where
  imm : BitVec 8
  a : Opnd
  d : Opnd
  w : Bool
  s : Bool
deriving DecidableEq, Repr

/-- Format I whose imm8 selects a function. -/
structure IFnOp (κ : Type) where
  fn : κ
  a : Opnd
  d : Opnd
  w : Bool
  s : Bool
deriving DecidableEq, Repr

structure RdlaneOp where
  ln : Fin 32
  a : Opnd
  d : Fin 16
  w : Bool
  s : Bool
deriving DecidableEq, Repr

structure LOp where
  imm : BitVec 16
  d : Opnd
  s : Bool
deriving DecidableEq, Repr

structure AaddOp where
  b : Opnd
  a : Fin 8
  d : Fin 8
  s : Bool
deriving DecidableEq, Repr

structure AaddiOp where
  imm : BitVec 16
  a : Fin 8
  d : Fin 8
  s : Bool
deriving DecidableEq, Repr

structure AputOp where
  part : APart
  a : Opnd
  d : Fin 8
  s : Bool
deriving DecidableEq, Repr

structure AgetOp where
  part : APart
  a : Fin 8
  d : Opnd
  w : Bool
  s : Bool
deriving DecidableEq, Repr

structure MOp where
  off : BitVec 9
  ar : Fin 8
  data : Opnd
  size : Size
  g : Bool
  s : Bool
deriving DecidableEq, Repr

structure NOp where
  idx : Opnd
  ar : Fin 8
  data : Opnd
  size : Size
  g : Bool
  s : Bool
deriving DecidableEq, Repr

structure SOp where
  off : BitVec 5
  base : Opnd
  data : Opnd
  size : Size
  g : Bool
  s : Bool
deriving DecidableEq, Repr

structure QOp where
  off : BitVec 3
  space : BufSpace
  base : Opnd
  data : Opnd
  size : Size
  g : Bool
  s : Bool
deriving DecidableEq, Repr

structure LdcOp where
  imm : BitVec 8
  a : Opnd
  d : Opnd
  s : Bool
deriving DecidableEq, Repr

structure EOp (κ : Type) where
  off : BitVec 9
  ar : Fin 8
  val : Opnd
  ty : κ
  g : Bool
  s : Bool
deriving DecidableEq, Repr

structure SatomOp where
  off : BitVec 5
  base : Opnd
  data : Opnd
  fn : SatomFn
  g : Bool
  s : Bool
deriving DecidableEq, Repr

structure WOp (κ : Type) where
  m : Mask
  a : Opnd
  d : Opnd
  fn : κ
  s : Bool
deriving DecidableEq, Repr

structure VoteOp where
  m : Mask
  p : Fin 8
  d : Opnd
  fn : VoteFn
  s : Bool
deriving DecidableEq, Repr

structure SreadOp where
  reg : BitVec 8
  d : Opnd
  w : Bool
  s : Bool
deriving DecidableEq, Repr

structure SwriteOp where
  reg : BitVec 8
  a : Opnd
  s : Bool
deriving DecidableEq, Repr

structure BrOp where
  off : BitVec 19
  neg : Bool
  p : Fin 8
  s : Bool
deriving DecidableEq, Repr

structure JOp where
  off : BitVec 23
  s : Bool
deriving DecidableEq, Repr

/-- Format Y with only G and S (RET, REFORM, YIELD, EXIT, BKPT, JOIN). -/
structure GOp where
  g : Bool
  s : Bool
deriving DecidableEq, Repr

structure ArOp where
  ar : Fin 8
  s : Bool
deriving DecidableEq, Repr

/-- BAR and BARW; k is the destination s-register, none for vz (R80). -/
structure BarOp where
  shape : BitVec 8
  k : Option (Fin 16)
  n : Fin 16
  lvl : Level
  s : Bool
deriving DecidableEq, Repr

structure BaraOp where
  shape : BitVec 8
  n : Fin 16
  lvl : Level
  s : Bool
deriving DecidableEq, Repr

structure TrapOp where
  n : BitVec 8
  g : Bool
  s : Bool
deriving DecidableEq, Repr

structure FenceOp where
  scope : Scope
  g : Bool
  s : Bool
deriving DecidableEq, Repr

structure FencexOp where
  frm : BitVec 5
  into : BitVec 5
  s : Bool
deriving DecidableEq, Repr

structure SpawnOp where
  slot : BitVec 8
  ar : Fin 8
  kern : Fin 16
  g : Bool
  s : Bool
deriving DecidableEq, Repr

structure TraceOp where
  fn : TraceFn
  ar : Fin 8
  g : Bool
  s : Bool
deriving DecidableEq, Repr

structure MresOp where
  p : Fin 8
  s : Bool
deriving DecidableEq, Repr

structure SOnly where
  s : Bool
deriving DecidableEq, Repr

structure MloadbOp where
  front : Bool
  arr : BitVec 2
  ch : Fin 16
  s : Bool
deriving DecidableEq, Repr

structure ScaOp where
  ca : MClass
  cb : MClass
  s : Bool
deriving DecidableEq, Repr

structure SetpOp where
  fn : SetpFn
  y : Fin 8
  x : Fin 8
  d : Fin 8
  s : Bool
deriving DecidableEq, Repr

structure CvtOp where
  r : Rnd
  a : Opnd
  d : Opnd
  s : Bool
deriving DecidableEq, Repr

/-- A conversion with a selector in e5 [4:3]: an element (Bool) or a k.fmt number (Fin 4). -/
structure CvtSelOp (κ : Type) where
  sel : κ
  r : Rnd
  a : Opnd
  d : Opnd
  s : Bool
deriving DecidableEq, Repr

structure SfuOp where
  a : Opnd
  d : Opnd
  s : Bool
deriving DecidableEq, Repr

/-- FDIV and DDIV: b is v0-v31 named by e5 (R338). -/
structure DivOp where
  b : Fin 32
  a : Opnd
  d : Opnd
  s : Bool
deriving DecidableEq, Repr

structure RndOp where
  mode : RndInt
  a : Opnd
  d : Opnd
  s : Bool
deriving DecidableEq, Repr

structure CopyOp where
  ch : Fin 16
  ar : Fin 8
  cnt : Opnd
  s : Bool
deriving DecidableEq, Repr

structure CopytOp where
  slot : Bool
  ch : Fin 16
  off : Opnd
  s : Bool
deriving DecidableEq, Repr

structure CopymOp where
  slot : Bool
  ch : Fin 16
  off : Opnd
  shape : BitVec 6
  s : Bool
deriving DecidableEq, Repr

structure CopyoOp where
  plain : Bool
  ch : Fin 16
  ar : Fin 8
  cnt : Opnd
  s : Bool
deriving DecidableEq, Repr

structure TagOp where
  tag : Opnd
  s : Bool
deriving DecidableEq, Repr

structure ChinitOp where
  ch : Fin 16
  cons : ChPath
  prod : ChPath
  s : Bool
deriving DecidableEq, Repr

structure ChwaitOp where
  free : Bool
  ch : Fin 16
  n : Opnd
  s : Bool
deriving DecidableEq, Repr

structure ChnOp where
  ch : Fin 16
  n : Opnd
  s : Bool
deriving DecidableEq, Repr

structure ChqryOp where
  ch : Fin 16
  d : Opnd
  s : Bool
deriving DecidableEq, Repr

structure ChOp where
  ch : Fin 16
  s : Bool
deriving DecidableEq, Repr

structure RangeOp where
  ar : Fin 8
  cnt : Opnd
  s : Bool
deriving DecidableEq, Repr

structure TdescOp where
  slot : Bool
  ar : Fin 8
  s : Bool
deriving DecidableEq, Repr

structure CpstatOp where
  sel : Fin 3
  d : Opnd
  s : Bool
deriving DecidableEq, Repr

structure MmulOp where
  swap : Bool
  ch : Fin 16
  ca : MClass
  cb : MClass
  s : Bool
deriving DecidableEq, Repr

/-- A compact instruction: v0-v31 as destination, a 6-bit source (R30). -/
structure COp where
  b : Opnd
  d : Fin 32
deriving DecidableEq, Repr

/-! ### Reed operations (R245) -/

structure ReedMem where
  d : Fin 16
  s : Fin 16
  w : BitVec 2
  off : BitVec 14
deriving DecidableEq, Repr

structure ReedImm where
  d : Fin 16
  imm : BitVec 16
deriving DecidableEq, Repr

structure ReedReg where
  d : Fin 16
  s : Fin 16
deriving DecidableEq, Repr

structure ReedBr where
  d : Fin 16
  s : Fin 16
  imm : BitVec 16
deriving DecidableEq, Repr

/-! ### Names that the rows without an encoding use -/

/-- One wave context: task, core index in its polder (R64), logical wave index (R67). -/
structure WaveRef where
  tid : Nat
  core : Nat
  wix : Nat
deriving DecidableEq, Repr

/-- An agent that caches translations (R209). -/
inductive Agent where
  | l1 (x y : Nat)
  | l2 (die : Nat)
  | walkCache (die : Nat)
  /-- A task's share of a core's extent table (R215). -/
  | extents (tid x y : Nat)
  | copyEngine (x y : Nat)
  | sluice
  | headworks
  /-- A page walker of a die (R8). -/
  | walker (die n : Nat)
  /-- An MSC slice of a stack (R8). -/
  | slice (stack n : Nat)
deriving DecidableEq, Repr

/-- Whose round merges: a launch's, or the one that a propagation runs (R142, R190). -/
inductive RoundOf where
  | launch (lid : Nat)
  | prop (pid : Nat)
deriving DecidableEq, Repr

/-- What bring-up finds (R304): the stages pass, or training (2) or harvest (3) fails. -/
inductive BringUp where
  | ok (working : List (BitVec 104))
  | trainingFails
deriving DecidableEq, Repr

/-- One constructor per row of the opcode table. -/
inductive Instr where
  /-- IADD (R349): Integer add modulo 2^32. -/
  | iadd (f : TOp)
  /-- ISUB (R349): Integer subtract modulo 2^32. -/
  | isub (f : TOp)
  /-- IMUL (R349): Integer multiply, low 32 bits. -/
  | imul (f : TOp)
  /-- IMULH (R349): High 32 bits of the signed product. -/
  | imulh (f : TOp)
  /-- IMULHU (R349): High 32 bits of the unsigned product. -/
  | imulhu (f : TOp)
  /-- IMAD (R349): Integer multiply-add a × b + d modulo 2^32. -/
  | imad (f : TOp)
  /-- IDIV (R349): Signed division toward zero with the R99 special cases. -/
  | idiv (f : TOp)
  /-- IDIVU (R349): Unsigned division with the R99 special cases. -/
  | idivu (f : TOp)
  /-- IREM (R349): Signed remainder with the R99 special cases. -/
  | irem (f : TOp)
  /-- IREMU (R349): Unsigned remainder with the R99 special cases. -/
  | iremu (f : TOp)
  /-- IMIN (R349): Signed minimum. -/
  | imin (f : TOp)
  /-- IMAX (R349): Signed maximum. -/
  | imax (f : TOp)
  /-- UMIN (R391): Unsigned minimum. -/
  | umin (f : TOp)
  /-- UMAX (R391): Unsigned maximum. -/
  | umax (f : TOp)
  /-- AND (R311): Bitwise and. -/
  | and (f : TOp)
  /-- OR (R368): Bitwise or. -/
  | or (f : TOp)
  /-- XOR (R396): Bitwise exclusive or. -/
  | xor (f : TOp)
  /-- ANDN (R311): Bitwise a and not b. -/
  | andn (f : TOp)
  /-- SHL (R381): Shift left by b and 31. -/
  | shl (f : TOp)
  /-- SHRU (R381): Logical shift right by b and 31. -/
  | shru (f : TOp)
  /-- SHRS (R381): Arithmetic shift right by b and 31. -/
  | shrs (f : TOp)
  /-- BFX (R316): Extract a bit field of a at the position and length given by b. -/
  | bfx (f : TOp)
  /-- BFI (R316): Insert a bit field of a into d at the position and length given by b. -/
  | bfi (f : TOp)
  /-- SEL (R378): Select a or b by p0. -/
  | sel (f : TOp)
  /-- ICMP (R351): Integer compare into a predicate. -/
  | icmp (f : CmpOp ICond)
  /-- IADDI (R350): Add a sign-extended 8-bit immediate. -/
  | iaddi (f : IOp)
  /-- ANDI (R311): And with a zero-extended immediate. -/
  | andi (f : IOp)
  /-- ORI (R368): Or with a zero-extended immediate. -/
  | ori (f : IOp)
  /-- XORI (R396): Exclusive or with a zero-extended immediate. -/
  | xori (f : IOp)
  /-- SHLI (R381): Shift left by an immediate. -/
  | shli (f : IOp)
  /-- SHRUI (R381): Logical shift right by an immediate. -/
  | shrui (f : IOp)
  /-- SHRSI (R381): Arithmetic shift right by an immediate. -/
  | shrsi (f : IOp)
  /-- MOVI (R366): Load a sign-extended 16-bit immediate. -/
  | movi (f : LOp)
  /-- MOVHI (R366): Replace the high 16 bits of d with an immediate. -/
  | movhi (f : LOp)
  /-- AADD (R308): Add a signed 32-bit offset to an address register modulo 2^72. -/
  | aadd (f : AaddOp)
  /-- AADDI (R309): Add a 16-bit immediate to an address register modulo 2^72. -/
  | aaddi (f : AaddiOp)
  /-- APUT (R312): Write one part of an address register. -/
  | aput (f : AputOp)
  /-- AGET (R310): Read one part of an address register. -/
  | aget (f : AgetOp)
  /-- LDG (R356): Global load at an address register plus a scaled offset. -/
  | ldg (f : MOp)
  /-- STG (R388): Global store at an address register plus a scaled offset. -/
  | stg (f : MOp)
  /-- LDGX (R356): Indexed global load. -/
  | ldgx (f : NOp)
  /-- STGX (R388): Indexed global store. -/
  | stgx (f : NOp)
  /-- LDS (R356): Scratch load. -/
  | lds (f : SOp)
  /-- STS (R388): Scratch store. -/
  | sts (f : SOp)
  /-- LDB (R356): Typed-buffer load from abuf, cbuf or wbuf. -/
  | ldb (f : QOp)
  /-- STB (R388): Typed-buffer store. -/
  | stb (f : QOp)
  /-- LDC (R357): Load a word from the task's argument block. -/
  | ldc (f : LdcOp)
  /-- CADD (R320): Ordered cell add sent to the cell's slice. -/
  | cadd (f : EOp CaddTy)
  /-- CTWO (R320): Ordered cell two-sum accumulation. -/
  | ctwo (f : EOp CtwoTy)
  /-- CMIN (R320): Ordered cell minimum. -/
  | cmin (f : EOp CmmTy)
  /-- CMAX (R320): Ordered cell maximum. -/
  | cmax (f : EOp CmmTy)
  /-- CORD (R320): Ordered cell overwrite. -/
  | cord (f : EOp BitTy)
  /-- CAFF (R320): Ordered cell affine update x := fma(alpha, x, beta). -/
  | caff (f : EOp CaffTy)
  /-- CBIT (R320): Ordered cell bitwise and, or or xor. -/
  | cbit (f : EOp CbitTy)
  /-- LDCT (R358): Tentative cell load of the last held fold. -/
  | ldct (f : EOp BitTy)
  /-- LDCS (R358): Settled cell load that waits for the watermark. -/
  | ldcs (f : EOp BitTy)
  /-- SATOM (R376): Atomic update of one scratch word. -/
  | satom (f : SatomOp)
  /-- SHFL (R380): Exchange a register between lanes. -/
  | shfl (f : WOp (BitVec 4))
  /-- VOTE (R392): Combine a predicate across the member lanes. -/
  | vote (f : VoteOp)
  /-- WRED (R393): Wave reduction in a fixed tree order. -/
  | wred (f : WOp WredFn)
  /-- WSCAN (R394): Sequential wave prefix. -/
  | wscan (f : WOp WscanFn)
  /-- SREAD (R385): Read a system register. -/
  | sread (f : SreadOp)
  /-- SWRITE (R385): Write a system register. -/
  | swrite (f : SwriteOp)
  /-- BR (R318): Conditional relative branch, decided per thread. -/
  | br (f : BrOp)
  /-- JMP (R352): Relative jump. -/
  | jmp (f : JOp)
  /-- CALL (R321): Relative call that writes the return offset to a7. -/
  | call (f : JOp)
  /-- RET (R374): Return to the target held in a7. -/
  | ret (f : GOp)
  /-- JMPI (R353): Indirect jump through an address register. -/
  | jmpi (f : ArOp)
  /-- REFORM (R373): File threads into REFORM bins keyed by their next PC. -/
  | reform (f : GOp)
  /-- YIELD (R397): Give up the issue slot to another ready wave. -/
  | yield (f : GOp)
  /-- EXIT (R343): End the taking-part threads. -/
  | exit (f : GOp)
  /-- BAR (R314): Arrive at a barrier and wait for the phase to complete. -/
  | bar (f : BarOp)
  /-- BARA (R314): Arrive at a barrier without waiting. -/
  | bara (f : BaraOp)
  /-- BARW (R314): Wait for the barrier phase in which this wave last arrived. -/
  | barw (f : BarOp)
  /-- TRAP (R263): Raise TRAP with an 8-bit code. -/
  | trap (f : TrapOp)
  /-- BKPT (R317): Breakpoint: raise BKPT, or make a debug stop. -/
  | bkpt (f : GOp)
  /-- FENCE (R149): Order the wave's lanes-path stores at a scope. -/
  | fence (f : FenceOp)
  /-- FENCEX (R152): Make observed writes of the from-class paths visible to the to-class paths. -/
  | fencex (f : FencexOp)
  /-- SPAWN (R383): Create a child task in a slot. -/
  | spawn (f : SpawnOp)
  /-- JOIN (R354): Wait for the wave's children and merge them. -/
  | join (f : GOp)
  /-- PROP (R190): Propagate input changes over a trace arena. -/
  | prop (f : ArOp)
  /-- MODW (R188): Write a word directly and mark the readers of its sector stale. -/
  | modw (f : EOp ModwTy)
  /-- TRACE (R186): Suspend or resume recording, or note a sector. -/
  | trace (f : TraceOp)
  /-- MRES (R367): Try to reserve the core's matrix engine. -/
  | mres (f : MresOp)
  /-- MREL (R367): Release the matrix engine once its queue has drained. -/
  | mrel (f : SOnly)
  /-- MLOADB (R360): Queue a load of a B tile into a bank. -/
  | mloadb (f : MloadbOp)
  /-- SCA (R377): Scale and accumulate partial records into FP32 accumulators. -/
  | sca (f : ScaOp)
  /-- FADD (R345): binary32 add. -/
  | fadd (f : TOp)
  /-- FSUB (R345): binary32 subtract. -/
  | fsub (f : TOp)
  /-- FMUL (R345): binary32 multiply. -/
  | fmul (f : TOp)
  /-- FMA (R345): binary32 fused multiply-add. -/
  | fma (f : TOp)
  /-- FMIN (R345): binary32 minimumNumber. -/
  | fmin (f : TOp)
  /-- FMAX (R345): binary32 maximumNumber. -/
  | fmax (f : TOp)
  /-- FCMP (R337): binary32 compare into a predicate. -/
  | fcmp (f : CmpOp FCond)
  /-- DADD (R336): binary64 add. -/
  | dadd (f : TOp)
  /-- DSUB (R336): binary64 subtract. -/
  | dsub (f : TOp)
  /-- DMUL (R336): binary64 multiply. -/
  | dmul (f : TOp)
  /-- DFMA (R336): binary64 fused multiply-add. -/
  | dfma (f : TOp)
  /-- DMIN (R336): binary64 minimumNumber. -/
  | dmin (f : TOp)
  /-- DMAX (R336): binary64 maximumNumber. -/
  | dmax (f : TOp)
  /-- DCMP (R337): binary64 compare into a predicate. -/
  | dcmp (f : CmpOp FCond)
  /-- BADD2 (R313): Packed bf16 add. -/
  | badd2 (f : TOp)
  /-- BMUL2 (R313): Packed bf16 multiply. -/
  | bmul2 (f : TOp)
  /-- BFMA2 (R313): Packed bf16 fused multiply-add. -/
  | bfma2 (f : TOp)
  /-- FSGN (R348): Flip, clear or set the sign bit. -/
  | fsgn (f : IFnOp FsgnFn)
  /-- MOV (R365): Register copy. -/
  | mov (f : MovOp)
  /-- RDLANE (R372): Read one lane's register into a wave scalar. -/
  | rdlane (f : RdlaneOp)
  /-- RNG (R375): Counter-based random generator. -/
  | rng (f : RngOp)
  /-- WSORT (R395): Stable wave sort of key and payload pairs. -/
  | wsort (f : WOp WsortFn)
  /-- BCNT (R315): Population count, leading or trailing zero count, or bit reverse. -/
  | bcnt (f : IFnOp BcntFn)
  /-- ICMPI (R351): Integer compare with an immediate into a predicate. -/
  | icmpi (f : CmpIOp)
  /-- SETP (R379): Predicate logic. -/
  | setp (f : SetpOp)
  /-- CVT_F32_D (R333): Convert binary64 to binary32. -/
  | cvtF32D (f : CvtOp)
  /-- CVT_D_F32 (R333): Convert binary32 to binary64. -/
  | cvtDF32 (f : CvtOp)
  /-- CVT_B16_F32 (R333): Convert two binary32 values to packed bf16. -/
  | cvtB16F32 (f : CvtOp)
  /-- CVT_F32_B16 (R333): Convert one bf16 element to binary32. -/
  | cvtF32B16 (f : CvtSelOp Bool)
  /-- CVT_H16_F32 (R333): Convert two binary32 values to packed binary16. -/
  | cvtH16F32 (f : CvtOp)
  /-- CVT_F32_H16 (R333): Convert one binary16 element to binary32. -/
  | cvtF32H16 (f : CvtSelOp Bool)
  /-- CVT_S32_F32 (R97): Convert binary32 to a signed 32-bit integer. -/
  | cvtS32F32 (f : CvtOp)
  /-- CVT_F32_S32 (R333): Convert a signed 32-bit integer to binary32. -/
  | cvtF32S32 (f : CvtOp)
  /-- CVT_Z32_F32 (R97): Convert binary32 to an unsigned 32-bit integer. -/
  | cvtZ32F32 (f : CvtOp)
  /-- CVT_F32_Z32 (R333): Convert an unsigned 32-bit integer to binary32. -/
  | cvtF32Z32 (f : CvtOp)
  /-- CVT_S64_D (R97): Convert binary64 to a signed 64-bit integer. -/
  | cvtS64D (f : CvtOp)
  /-- CVT_D_S64 (R333): Convert a signed 64-bit integer to binary64. -/
  | cvtDS64 (f : CvtOp)
  /-- CVT_N8_F32 (R103): Convert four binary32 values to n8 elements by a format register. -/
  | cvtN8F32 (f : CvtSelOp (Fin 4))
  /-- CVT_F32_N8 (R334): Convert an n8 element to binary32. -/
  | cvtF32N8 (f : CvtSelOp (Fin 4))
  /-- CVT_Q8_F32 (R98): Quantise four binary32 values to q8 bytes. -/
  | cvtQ8F32 (f : CvtOp)
  /-- CVT_F32_Q8 (R98): Dequantise four q8 bytes to binary32. -/
  | cvtF32Q8 (f : CvtOp)
  /-- RSQA (R371): Approximate reciprocal square root to 12 bits. -/
  | rsqa (f : SfuOp)
  /-- RCPA (R371): Approximate reciprocal to 12 bits. -/
  | rcpa (f : SfuOp)
  /-- EX2A (R342): Approximate 2^x to 12 bits. -/
  | ex2a (f : SfuOp)
  /-- LG2A (R342): Approximate log2 x to 12 bits. -/
  | lg2a (f : SfuOp)
  /-- SINA (R382): Approximate sin(pi x). -/
  | sina (f : SfuOp)
  /-- COSA (R331): Approximate cos(pi x). -/
  | cosa (f : SfuOp)
  /-- TANHA (R382): Approximate tanh x. -/
  | tanha (f : SfuOp)
  /-- FSQRT (R338): Correctly rounded binary32 square root. -/
  | fsqrt (f : SfuOp)
  /-- FDIV (R338): Correctly rounded binary32 division. -/
  | fdiv (f : DivOp)
  /-- FEX2 (R338): Correctly rounded binary32 2^x. -/
  | fex2 (f : SfuOp)
  /-- FLG2 (R338): Correctly rounded binary32 log2 x. -/
  | flg2 (f : SfuOp)
  /-- FRND (R340): Round binary32 to an integral value. -/
  | frnd (f : RndOp)
  /-- DSQRT (R338): Correctly rounded binary64 square root. -/
  | dsqrt (f : SfuOp)
  /-- DDIV (R338): Correctly rounded binary64 division. -/
  | ddiv (f : DivOp)
  /-- DRSQ (R338): Correctly rounded binary64 reciprocal square root. -/
  | drsq (f : SfuOp)
  /-- DRND (R340): Round binary64 to an integral value. -/
  | drnd (f : RndOp)
  /-- COPY (R329): Queue a copy of cnt bytes from a VA into a channel. -/
  | copy (f : CopyOp)
  /-- COPYT (R329): Queue a copy of a tensor-descriptor box into a channel. -/
  | copyt (f : CopytOp)
  /-- COPYM (R329): Queue a multicast box copy into the channel of every core of a sub-polder. -/
  | copym (f : CopymOp)
  /-- COPYO (R329): Queue a copy out of a channel or plain region to a VA. -/
  | copyo (f : CopyoOp)
  /-- COPYW (R330): Wait for the wave's copies up to a tag. -/
  | copyw (f : TagOp)
  /-- COPYX (R330): Cancel the wave's incomplete copies from a tag onward. -/
  | copyx (f : TagOp)
  /-- CHINIT (R323): Initialise a channel with its producer and consumer. -/
  | chinit (f : ChinitOp)
  /-- CHWAIT (R324): Wait for published or free bytes and set the observed pair. -/
  | chwait (f : ChwaitOp)
  /-- CHADV (R325): Advance a channel's consumer pointer. -/
  | chadv (f : ChnOp)
  /-- CHPUB (R325): Advance a channel's producer pointer. -/
  | chpub (f : ChnOp)
  /-- CHQRY (R326): Read a channel's status and set the observed pair. -/
  | chqry (f : ChqryOp)
  /-- CHFREE (R327): Free a channel once no engine command names it. -/
  | chfree (f : ChOp)
  /-- PREF (R369): Prefetch a range into the memory-side cache. -/
  | pref (f : RangeOp)
  /-- DROP (R341): Discard MSC lines of an exclusive range without write-back. -/
  | drop (f : RangeOp)
  /-- TDESC (R389): Load a tensor descriptor into a descriptor slot. -/
  | tdesc (f : TdescOp)
  /-- CPSTAT (R332): Read copy status of the wave. -/
  | cpstat (f : CpstatOp)
  /-- MMUL (R363): Queue A rows to stream through the front bank, with optional swap. -/
  | mmul (f : MmulOp)
  /-- MOV_COMPACT (R31): Compact register copy. -/
  | movCompact (f : COp)
  /-- IADD_COMPACT (R31): Compact integer add d := d + b. -/
  | iaddCompact (f : COp)
  /-- ISUB_COMPACT (R31): Compact integer subtract. -/
  | isubCompact (f : COp)
  /-- IMUL_COMPACT (R31): Compact integer multiply. -/
  | imulCompact (f : COp)
  /-- AND_COMPACT (R31): Compact bitwise and. -/
  | andCompact (f : COp)
  /-- OR_COMPACT (R31): Compact bitwise or. -/
  | orCompact (f : COp)
  /-- XOR_COMPACT (R31): Compact bitwise xor. -/
  | xorCompact (f : COp)
  /-- SHL_COMPACT (R31): Compact shift left. -/
  | shlCompact (f : COp)
  /-- SHRU_COMPACT (R31): Compact logical shift right. -/
  | shruCompact (f : COp)
  /-- SHRS_COMPACT (R31): Compact arithmetic shift right. -/
  | shrsCompact (f : COp)
  /-- FADD_COMPACT (R31): Compact binary32 add. -/
  | faddCompact (f : COp)
  /-- FSUB_COMPACT (R31): Compact binary32 subtract. -/
  | fsubCompact (f : COp)
  /-- FMUL_COMPACT (R31): Compact binary32 multiply. -/
  | fmulCompact (f : COp)
  /-- FMIN_COMPACT (R31): Compact binary32 minimum. -/
  | fminCompact (f : COp)
  /-- FMAX_COMPACT (R31): Compact binary32 maximum. -/
  | fmaxCompact (f : COp)
  /-- SEL_COMPACT (R31): Compact select d := p0 ? d : b. -/
  | selCompact (f : COp)
  /-- REED_LDW (R245): Reed operation: load 4 bytes from a window. -/
  | reedLdw (f : ReedMem)
  /-- REED_LDD (R245): Reed operation: load 8 bytes from a window. -/
  | reedLdd (f : ReedMem)
  /-- REED_LDV (R245): Reed operation: load 9 bytes from a window. -/
  | reedLdv (f : ReedMem)
  /-- REED_STW (R245): Reed operation: store 4 bytes to a window. -/
  | reedStw (f : ReedMem)
  /-- REED_STD (R245): Reed operation: store 8 bytes to a window. -/
  | reedStd (f : ReedMem)
  /-- REED_STV (R245): Reed operation: store 9 bytes to a window. -/
  | reedStv (f : ReedMem)
  /-- REED_LI (R245): Reed operation: load a sign-extended immediate. -/
  | reedLi (f : ReedImm)
  /-- REED_LIS (R245): Reed operation: shift in a 16-bit immediate. -/
  | reedLis (f : ReedImm)
  /-- REED_ADD (R245): Reed operation: add registers modulo 2^72. -/
  | reedAdd (f : ReedReg)
  /-- REED_ADDI (R245): Reed operation: add an immediate. -/
  | reedAddi (f : ReedImm)
  /-- REED_SUB (R245): Reed operation: subtract registers. -/
  | reedSub (f : ReedReg)
  /-- REED_AND (R245): Reed operation: bitwise and. -/
  | reedAnd (f : ReedReg)
  /-- REED_OR (R245): Reed operation: bitwise or. -/
  | reedOr (f : ReedReg)
  /-- REED_SHLI (R245): Reed operation: shift left by an immediate. -/
  | reedShli (f : ReedImm)
  /-- REED_SHRI (R245): Reed operation: shift right by an immediate. -/
  | reedShri (f : ReedImm)
  /-- REED_BEQ (R245): Reed operation: skip forward if equal. -/
  | reedBeq (f : ReedBr)
  /-- REED_BNE (R245): Reed operation: skip forward if not equal. -/
  | reedBne (f : ReedBr)
  /-- REED_BLTU (R245): Reed operation: skip forward if unsigned less. -/
  | reedBltu (f : ReedBr)
  /-- REED_LOOP (R245): Reed operation: repeat the following operations a bounded number of times. -/
  | reedLoop (f : ReedImm)
  /-- REED_CALL (R245): Reed operation: call a primitive with x1-x6, result in x7. -/
  | reedCall (imm : BitVec 16)
  /-- REED_END (R245): Reed operation: consume the packet and end it. -/
  | reedEnd (imm : BitVec 16)
  /-- REED_FAIL (R245): Reed operation: end the packet without consuming and set the queue to error. -/
  | reedFail (imm : BitVec 16)
  /-- OPERATION_LIMIT (R246): The 513th operation of a packet ends it as fail 0xFE. -/
  | operationLimit (q : Nat)
  /-- DV_DOORBELL (R243): A doorbell write publishes ring bytes, or sets the queue to error. -/
  | dvDoorbell (q : Nat) (val : BitVec 64)
  /-- PACKET_FETCH (R243): A queue fetcher hands a published packet to a reed engine, which starts its program. -/
  | packetFetch (q : Nat)
  /-- LAUNCH (R248): Primitive that reads a launch descriptor, checks, plans and admits a launch. -/
  | launch (q : Nat)
  /-- GANGRESERVE (R252): Primitive that reserves partitions for a gang. -/
  | gangreserve (q : Nat)
  /-- GANGCOMMIT (R252): Primitive that sets the gang start time for every staged part. -/
  | gangcommit (q : Nat)
  /-- GANGABORT (R247): Primitive that releases a gang handle and aborts its staged parts. -/
  | gangabort (q : Nat)
  /-- HEADWORKS_COPY (R247): COPY primitive: the Headworks copy engine copies bytes in queue order. -/
  | headworksCopy (q : Nat)
  /-- SIGNAL (R247): Primitive that writes a value once earlier work of the queue has completed. -/
  | signal (q : Nat)
  /-- SIGNAL_WRITE (R247): The pending SIGNAL value is written when every earlier launch and copy of the queue completes. -/
  | signalWrite (q : Nat)
  /-- WAITVAL (R247): Primitive that blocks its queue until a word meets a condition. -/
  | waitval (q : Nat)
  /-- WAITVAL_REREAD (R247): Every 1,024 ns a blocked WAITVAL re-reads its word. -/
  | waitvalReread (q : Nat)
  /-- INTERRUPT (R247): Primitive that raises a host interrupt vector. -/
  | interrupt (q : Nat)
  /-- MODWRITE (R247): Primitive that performs one MODW on a named arena. -/
  | modwrite (q : Nat)
  /-- PROPAGATE (R247): Primitive that performs one PROP on a partition and writes its result. -/
  | propagate (q : Nat)
  /-- RECLAIM (R211): Primitive that waits until old translations can no longer be used. -/
  | reclaim (q : Nat)
  /-- RECLAIM_RETURN (R247): RECLAIM returns when Drone time reaches T plus the lease sum. -/
  | reclaimReturn (q : Nat)
  /-- PREEMPT (R254): Primitive that shrinks or grows a partition, evicting or restoring tasks. -/
  | preempt (q : Nat)
  /-- PREEMPT_TIMEOUT (R254): A running wave reaching no safe point in 2^20 cycles aborts the PREEMPT. -/
  | preemptTimeout (q : Nat)
  /-- REPLAY (R220): Primitive that answers a host fault queue entry with retry or fatal. -/
  | replay (q : Nat)
  /-- DUMPTO (R268): Primitive that halts a running launch and dumps it. -/
  | dumpto (q : Nat)
  /-- GANG_START (R252): At Drone time Ts every staged gang part dispatches its first tasks. -/
  | gangStart (handle : Nat)
  /-- TASK_DISPATCH (R66): The Sluice dispatches a task once its round is admitted and its polder has room. -/
  | taskDispatch (tid x y : Nat)
  /-- TASK_RETIRE (R344): A task retires once all threads have exited, engine work has completed and children have joined. -/
  | taskRetire (tid : Nat)
  /-- ROUND_MERGE (R142): When a round's last task retires, conflicts are found and shadow lines applied in key order. -/
  | roundMerge (r : RoundOf)
  /-- CELL_ARRIVAL (R166): A cell operation arrives at its slice and is inserted or refused. -/
  | cellArrival (n : Nat)
  /-- CELL_WITHDRAWAL (R167): A withdrawal removes one stamp's entry and recomputes the suffix. -/
  | cellWithdrawal (n : Nat)
  /-- LOAD_RETURN (R356): A load's data returns and is written to its destination. -/
  | loadReturn (w : WaveRef) (n : Nat)
  /-- CHWAIT_RETURN (R324): A waiting CHWAIT returns when its channel condition holds. -/
  | chwaitReturn (w : WaveRef)
  /-- COPYW_RETURN (R330): A waiting COPYW returns when the copies it covers complete. -/
  | copywReturn (w : WaveRef)
  /-- CHFREE_RETURN (R133): A waiting CHFREE frees the channel once no engine command names it. -/
  | chfreeReturn (w : WaveRef)
  /-- JOIN_MERGE (R354): When a JOIN's children have retired, they merge in slot order. -/
  | joinMerge (w : WaveRef)
  /-- LDCS_RETURN (R358): A waiting LDCS returns its fold once W reaches the task's key. -/
  | ldcsReturn (w : WaveRef)
  /-- PROP_RETURN (R190): A propagation finishes and PROP returns its counts. -/
  | propReturn (pid : Nat)
  /-- MREL_RETURN (R367): A waiting MREL frees the engine once its commands have finished. -/
  | mrelReturn (w : WaveRef)
  /-- FENCE_COMPLETION (R149): A held FENCE completes when prior stores meet the scope's condition. -/
  | fenceCompletion (w : WaveRef)
  /-- FENCEX_COMPLETION (R152): A held FENCEX completes when covered writes are visible to the to-class paths. -/
  | fencexCompletion (w : WaveRef)
  /-- BIN_DRAIN (R73): A REFORM bin drains into a wave context when full, aged or its stage is blocked. -/
  | binDrain (x y n : Nat)
  /-- COPY_UNIT_DELIVERY (R235): A copy engine delivers one 64-byte unit and advances P. -/
  | copyUnitDelivery (x y ctx dest : Nat)
  /-- COPYO_FIRE (R329): A COPYO fires once cnt bytes are published in its channel. -/
  | copyoFire (x y ctx : Nat)
  /-- MLOADB_FIRE (R228): A queued MLOADB fires once its bank is free and its channels hold the tile. -/
  | mloadbFire (x y : Nat)
  /-- MMUL_ROW (R229): The engine converts one A row and writes its 512 records once there is room. -/
  | mmulRow (x y : Nat)
  /-- PAGE_WALK (R207): A walk reads the page table and installs its result within the window. -/
  | pageWalk (ag : Agent) (asid : BitVec 12) (va : Addr)
  /-- TRANSLATION_FAULT_SERVICE (R218): Firmware maps a page from a backing pool and replays, or passes the fault on. -/
  | translationFaultService (fid : Nat)
  /-- LEASE_EXPIRY (R206): A cached translation becomes invalid at its expiry. -/
  | leaseExpiry (n : Nat)
  /-- DRONE_BEACON (R213): Each agent compares its Drone copy with the master's beacon. -/
  | droneBeacon (ag : Agent) (dev : Int)
  /-- SHARE_REASSIGN (R76): Every 64 cycles hardware reassigns stage shares in throughput mode. -/
  | shareReassign (x y : Nat)
  /-- WATCHDOG (R85): An issue slot's count reaches the limit and raises WATCHDOG. -/
  | watchdog (x y slot : Nat)
  /-- BUDGET_PERIOD (R256): A new 8,192 ns budget period begins. -/
  | budgetPeriod
  /-- COPY_DRAIN (R268): After 4,096 ns of drain, in-flight copies are cancelled. -/
  | copyDrain (lid : Nat)
  /-- DUMP (R274): The dump engine writes header and sections to the dump buffer. -/
  | dump (lid : Nat)
  /-- DEVICE_MEMORY_READ (R147): Host read of device memory returns the committed state. -/
  | deviceMemoryRead (stream pa key : Nat) (ver : BitVec 32)
  /-- DEVICE_MEMORY_WRITE (R146): Host write of device memory, logged, written at once or refused. -/
  | deviceMemoryWrite (stream pa key : Nat) (ver : BitVec 32) (mask : BitVec 64) (data : BitVec 512)
  /-- PEER_ACCESS (R290): A peer access over a Belrin link lands in the MSC unshadowed. -/
  | peerAccess (peer pa : Nat) (write : Option (BitVec 256)) (mask : BitVec 32)
  /-- LINK_TRAINING_LOSS (R290): A Belrin port loses link training. -/
  | linkTrainingLoss (port : Nat)
  /-- HEARTBEAT (R294): A base-die management core heartbeat reaches its controller. -/
  | heartbeat (stack : Nat)
  /-- HEARTBEAT_MISS (R294): 100 µs pass without a heartbeat; the third miss takes over refresh. -/
  | heartbeatMiss (stack : Nat)
  /-- ROW_ACTIVATION (R295): A row activation updates the frequent-row tracker. -/
  | rowActivation (stack channel bank row : Nat)
  /-- TRACKER_CLEAR (R295): All frequent-row trackers clear every 32 ms. -/
  | trackerClear
  /-- SCRUB_PASS (R296): Scrub reads and corrects the lines of a stack. -/
  | scrubPass (stack : Nat) (bad : List Nat)
  /-- EOL_UPDATE (R300): The system controller recomputes the predicted end of life hourly. -/
  | eolUpdate (months : BitVec 16) (die : BitVec 8)
  /-- BRING_UP (R304): After reset the device verifies firmware, trains HBM and harvests. -/
  | bringUp (res : BringUp)
  /-- DV_ATTREQ (R299): A write requests an attestation report. -/
  | dvAttreq (val : BitVec 64)
  /-- ATTESTATION_REPORT (R299): The system controller writes the signed report and raises ATTEST. -/
  | attestationReport
  /-- DV_REEDLOAD (R246): A write loads a signed reed program, or rejects it. -/
  | dvReedload (val : BitVec 64)
  /-- DV_PART (R305): A write defines a partition, or is ignored with CONFIG. -/
  | dvPart (p : Nat) (val : BitVec 64)
  /-- DV_KEYSLOT (R305): A write loads XTS key material, refused while the slot is valid. -/
  | dvKeyslot (k : Nat) (key : BitVec 512)
  /-- DV_RHTHRESH (R295): A write sets the row-hammer threshold, or raises CONFIG. -/
  | dvRhthresh (val : BitVec 64)
  /-- DV_EVMASK (R305): A write to the event mask, raising the vector for pending events. -/
  | dvEvmask (val : BitVec 64)
  /-- REFCTL_HANDBACK (R294): Handback bit write returns refresh ownership at the next heartbeat. -/
  | refctlHandback (stack : Nat)
  /-- REFCTL_SCRUB (R301): Scrub bit write requests one scrub pass. -/
  | refctlScrub (stack : Nat)
  /-- REFCTL_REPAIR (R294): Repair-request bit write asks the management core for repair. -/
  | refctlRepair (stack : Nat)
  /-- DBGCTL_HALT (R264): Halt bit write requests a debug stop of the launch. -/
  | dbgctlHalt (p : Nat)
  /-- DBGCTL_STEP (R264): Step bit write runs each stopped wave to its next safe point. -/
  | dbgctlStep (p : Nat)
  /-- DBGCTL_RESUME (R264): Resume bit write lets every stopped wave run on. -/
  | dbgctlResume (p : Nat)
  /-- REGISTER_WRITE (R4): Write to a dv_ register that has no row of its own. -/
  | registerWrite (off n : Nat) (val : BitVec 64)
  /-- L1_LINE_REPLACEMENT (R400): A clean line leaves a core's L1 at a moment the K3 chooses, and its race tags travel to the slice. -/
  | l1LineReplacement (x y n : Nat)
  /-- CACHE_ENTRY_DROP (R209): A TLB, walk cache or extent table drops a leased entry before its expiry, by capacity or for any other reason. -/
  | cacheEntryDrop (n : Nat)
  /-- MLOADB_COMPLETION (R228): A firing MLOADB finishes writing its bank 1,024 cycles later, and the bank becomes loaded. -/
  | mloadbCompletion (x y : Nat)
  /-- TRACE_COMPACTION (R301): In hardware mode, firmware compacts a state-2 arena that no launch names once its reader index passes 3/4 used. -/
  | traceCompaction (asid : BitVec 12) (arena : Addr)
  /-- PREEMPTION_DECISION (R301): In hardware mode, firmware issues PREEMPT on its own when a queue of higher priority waits. -/
  | preemptionDecision (p : Nat) (mask : BitVec 64)
  /-- LINK_TRAINING (R290): A Belrin port that has lost link training regains it, and peer accesses over it no longer return DATAERR. -/
  | linkTraining (port : Nat)
deriving DecidableEq, Repr

end Sys2Proof
end

