-- ==== Sys2Proof/Machine/Uses.lean ====
section
/-! DEFINITION. The operands that each instruction names, with their widths and the positions that they stand in
(R34, R35, R307 and the reference entries), its length, its stop bit, its guard bit and whether R41 lists it as a
switch point. WellFormed checks these; the machine's prologue reads them (R36, R37, R41, R42, R48). -/

namespace Sys2Proof

/-- The bytes of an access size (R32). -/
def Size.bytes : Size → Nat
  | .b8 => 1 | .b16 => 2 | .b32 => 4 | .b64 => 8 | .b128 => 16

/-- The operand width of an access: sizes below 32 bits use one register (R355, R387). -/
def Size.bits : Size → Nat
  | .b8 => 32 | .b16 => 32 | .b32 => 32 | .b64 => 64 | .b128 => 128

/-- Value operand widths of R319. -/
def CaddTy.bits : CaddTy → Nat
  | .s32 => 32 | .s64 => 64 | .f32 => 32 | .f64 => 64
def CtwoTy.bits : CtwoTy → Nat
  | .f32 => 32 | .f64 => 64
def CmmTy.bits : CmmTy → Nat
  | .s32 => 32 | .z32 => 32 | .f32 => 32 | .f64 => 64
def BitTy.bits : BitTy → Nat
  | .b32 => 32 | .b64 => 64 | .b128 => 128
/-- CAFF names a pair of values: 64 bits for f32 and 128 for f64 (R319). -/
def CaffTy.bits : CaffTy → Nat
  | .f32 => 64 | .f64 => 128
def CbitTy.bits : CbitTy → Nat
  | .and32 => 32 | .or32 => 32 | .xor32 => 32 | .and64 => 64 | .or64 => 64 | .xor64 => 64
def ModwTy.bits : ModwTy → Nat
  | .b32 => 32 | .b64 => 64
/-- WRED's add.f64 is 64 bits wide, the others 32 (R393). -/
def WredFn.bits : WredFn → Nat
  | .addF64 => 64
  | .addS32 => 32 | .addF32 => 32 | .minS32 => 32 | .maxS32 => 32 | .minF32 => 32 | .maxF32 => 32
  | .and => 32 | .or => 32 | .xor => 32

/-- One operand of an instruction: a source, a destination (v or vz), a destination that may also be an s-register,
a source or destination that must be a v-register (R380, R394, R395), or a system register number. -/
inductive Use where
  | src (w : Nat) (o : Opnd)
  | srcV (w : Nat) (o : Opnd)
  /-- A source that lanes read from other lanes (R372, R380, R393, R394): its latches are not those of the reading thread. -/
  | srcX (w : Nat) (o : Opnd)
  | dst (w : Nat) (o : Opnd)
  /-- A destination of format T or I that nothing reads: with W = 1 it is named and not written (R38). -/
  | dstW (noWrite : Bool) (w : Nat) (o : Opnd)
  | dstS (w : Nat) (o : Opnd)
  | dstV (w : Nat) (o : Opnd)
  | sys (n : BitVec 8)
deriving DecidableEq, Repr

/-- The registers that a width covers: one, an aligned pair or an aligned quad (R35). -/
def regSpan (w : Nat) : Nat := if w = 32 then 1 else if w = 64 then 2 else 4

/-- R35, R36: a v-register is aligned to the width and its last register lies within the budget. -/
def vOk (budget w n : Nat) : Bool := n % regSpan w == 0 && n + regSpan w ≤ budget

/-- R35: an s-register pair is aligned; a 128-bit operand names v-registers only. -/
def sOk (w n : Nat) : Bool := w ≤ 64 && n % regSpan w == 0

/-- The system register numbers that R385 does not reserve. -/
def sysOk (n : Nat) : Bool := n ≤ 0x0E || (0x10 ≤ n && n ≤ 0x26) || (0x30 ≤ n && n ≤ 0x3F)

/-- R34–R36, R47: whether an operand is legal in its position under a register budget. -/
def Use.ok (budget : Nat) : Use → Bool
  | .src w (.v n) => vOk budget w n
  | .src w (.s n) => sOk w n
  | .src w (.l _) => w ≤ 64
  | .src _ .vz => true
  | .src w .lane => w ≤ 32
  | .src w .tix => w ≤ 32
  | .src w .wix => w ≤ 32
  | .srcV w (.v n) => vOk budget w n
  | .srcV _ _ => false
  | .srcX w (.v n) => vOk budget w n
  | .srcX w (.s n) => sOk w n
  | .srcX w (.l _) => w ≤ 64
  | .srcX _ .vz => true
  | .srcX w .lane => w ≤ 32
  | .srcX w .tix => w ≤ 32
  | .srcX w .wix => w ≤ 32
  | .dst w (.v n) => vOk budget w n
  | .dst _ .vz => true
  | .dst _ _ => false
  | .dstW _ w (.v n) => vOk budget w n
  | .dstW _ _ .vz => true
  | .dstW _ _ _ => false
  | .dstS w (.v n) => vOk budget w n
  | .dstS w (.s n) => sOk w n
  | .dstS _ .vz => true
  | .dstS _ _ => false
  | .dstV w (.v n) => vOk budget w n
  | .dstV _ _ => false
  | .sys n => sysOk n.toNat

/-- What the machine must know of an instruction before it runs it: its length in bytes, its stop bit S, its guard
bit G, whether R41 lists it as a switch point, and its operands. -/
structure LaneInfo where
  len : Nat
  s : Bool
  g : Bool
  sw : Bool
  uses : List Use
deriving DecidableEq, Repr

/-- The operands and the marks of every instruction that a wave executes; none for the rows that no wave executes. -/
def Instr.lane? : Instr → Option LaneInfo
  | .iadd f => some ⟨4, f.s, f.g, false, [.src 32 f.b, .src 32 f.a, .dstW f.w 32 f.d]⟩
  | .isub f => some ⟨4, f.s, f.g, false, [.src 32 f.b, .src 32 f.a, .dstW f.w 32 f.d]⟩
  | .imul f => some ⟨4, f.s, f.g, false, [.src 32 f.b, .src 32 f.a, .dstW f.w 32 f.d]⟩
  | .imulh f => some ⟨4, f.s, f.g, false, [.src 32 f.b, .src 32 f.a, .dstW f.w 32 f.d]⟩
  | .imulhu f => some ⟨4, f.s, f.g, false, [.src 32 f.b, .src 32 f.a, .dstW f.w 32 f.d]⟩
  | .imad f => some ⟨4, f.s, f.g, false, [.src 32 f.b, .src 32 f.a, .dst 32 f.d]⟩
  | .idiv f => some ⟨4, f.s, f.g, false, [.src 32 f.b, .src 32 f.a, .dstW f.w 32 f.d]⟩
  | .idivu f => some ⟨4, f.s, f.g, false, [.src 32 f.b, .src 32 f.a, .dstW f.w 32 f.d]⟩
  | .irem f => some ⟨4, f.s, f.g, false, [.src 32 f.b, .src 32 f.a, .dstW f.w 32 f.d]⟩
  | .iremu f => some ⟨4, f.s, f.g, false, [.src 32 f.b, .src 32 f.a, .dstW f.w 32 f.d]⟩
  | .imin f => some ⟨4, f.s, f.g, false, [.src 32 f.b, .src 32 f.a, .dstW f.w 32 f.d]⟩
  | .imax f => some ⟨4, f.s, f.g, false, [.src 32 f.b, .src 32 f.a, .dstW f.w 32 f.d]⟩
  | .umin f => some ⟨4, f.s, f.g, false, [.src 32 f.b, .src 32 f.a, .dstW f.w 32 f.d]⟩
  | .umax f => some ⟨4, f.s, f.g, false, [.src 32 f.b, .src 32 f.a, .dstW f.w 32 f.d]⟩
  | .and f => some ⟨4, f.s, f.g, false, [.src 32 f.b, .src 32 f.a, .dstW f.w 32 f.d]⟩
  | .or f => some ⟨4, f.s, f.g, false, [.src 32 f.b, .src 32 f.a, .dstW f.w 32 f.d]⟩
  | .xor f => some ⟨4, f.s, f.g, false, [.src 32 f.b, .src 32 f.a, .dstW f.w 32 f.d]⟩
  | .andn f => some ⟨4, f.s, f.g, false, [.src 32 f.b, .src 32 f.a, .dstW f.w 32 f.d]⟩
  | .shl f => some ⟨4, f.s, f.g, false, [.src 32 f.b, .src 32 f.a, .dstW f.w 32 f.d]⟩
  | .shru f => some ⟨4, f.s, f.g, false, [.src 32 f.b, .src 32 f.a, .dstW f.w 32 f.d]⟩
  | .shrs f => some ⟨4, f.s, f.g, false, [.src 32 f.b, .src 32 f.a, .dstW f.w 32 f.d]⟩
  | .bfx f => some ⟨4, f.s, f.g, false, [.src 32 f.b, .src 32 f.a, .dstW f.w 32 f.d]⟩
  | .bfi f => some ⟨4, f.s, f.g, false, [.src 32 f.b, .src 32 f.a, .dst 32 f.d]⟩
  | .sel f => some ⟨4, f.s, f.g, false, [.src 32 f.b, .src 32 f.a, .dstW f.w 32 f.d]⟩
  | .icmp f => some ⟨4, f.s, f.g, false, [.src 32 f.b, .src 32 f.a]⟩
  | .iaddi f => some ⟨4, f.s, false, false, [.src 32 f.a, .dstW f.w 32 f.d]⟩
  | .andi f => some ⟨4, f.s, false, false, [.src 32 f.a, .dstW f.w 32 f.d]⟩
  | .ori f => some ⟨4, f.s, false, false, [.src 32 f.a, .dstW f.w 32 f.d]⟩
  | .xori f => some ⟨4, f.s, false, false, [.src 32 f.a, .dstW f.w 32 f.d]⟩
  | .shli f => some ⟨4, f.s, false, false, [.src 32 f.a, .dstW f.w 32 f.d]⟩
  | .shrui f => some ⟨4, f.s, false, false, [.src 32 f.a, .dstW f.w 32 f.d]⟩
  | .shrsi f => some ⟨4, f.s, false, false, [.src 32 f.a, .dstW f.w 32 f.d]⟩
  | .movi f => some ⟨4, f.s, false, false, [.dst 32 f.d]⟩
  | .movhi f => some ⟨4, f.s, false, false, [.dst 32 f.d]⟩
  | .aadd f => some ⟨4, f.s, false, false, [.src 32 f.b]⟩
  | .aaddi f => some ⟨4, f.s, false, false, []⟩
  | .aput f => some ⟨4, f.s, false, false, [.src 32 f.a]⟩
  | .aget f => some ⟨4, f.s, false, false, [.dstW f.w 32 f.d]⟩
  | .ldg f => some ⟨4, f.s, f.g, true, [.dst f.size.bits f.data]⟩
  | .stg f => some ⟨4, f.s, f.g, true, [.src f.size.bits f.data]⟩
  | .ldgx f => some ⟨4, f.s, f.g, true, [.src 32 f.idx, .dst f.size.bits f.data]⟩
  | .stgx f => some ⟨4, f.s, f.g, true, [.src 32 f.idx, .src f.size.bits f.data]⟩
  | .lds f => some ⟨4, f.s, f.g, true, [.src 32 f.base, .dst f.size.bits f.data]⟩
  | .sts f => some ⟨4, f.s, f.g, true, [.src 32 f.base, .src f.size.bits f.data]⟩
  | .ldb f => some ⟨4, f.s, f.g, true, [.src 32 f.base, .dst f.size.bits f.data]⟩
  | .stb f => some ⟨4, f.s, f.g, true, [.src 32 f.base, .src f.size.bits f.data]⟩
  | .ldc f => some ⟨4, f.s, false, true, [.src 32 f.a, .dst 32 f.d]⟩
  | .cadd f => some ⟨4, f.s, f.g, true, [.src f.ty.bits f.val]⟩
  | .ctwo f => some ⟨4, f.s, f.g, true, [.src f.ty.bits f.val]⟩
  | .cmin f => some ⟨4, f.s, f.g, true, [.src f.ty.bits f.val]⟩
  | .cmax f => some ⟨4, f.s, f.g, true, [.src f.ty.bits f.val]⟩
  | .cord f => some ⟨4, f.s, f.g, true, [.src f.ty.bits f.val]⟩
  | .caff f => some ⟨4, f.s, f.g, true, [.src f.ty.bits f.val]⟩
  | .cbit f => some ⟨4, f.s, f.g, true, [.src f.ty.bits f.val]⟩
  | .ldct f => some ⟨4, f.s, f.g, true, [.dst f.ty.bits f.val]⟩
  | .ldcs f => some ⟨4, f.s, f.g, true, [.dst f.ty.bits f.val]⟩
  | .satom f => some ⟨4, f.s, f.g, true, [.src 32 f.base, .src 32 f.data]⟩
  | .shfl f => some ⟨4, f.s, false, false, [.srcX 32 f.a, .dstV 32 f.d]⟩
  | .vote f => some ⟨4, f.s, false, false, [.dstS 32 f.d]⟩
  | .wred f => some ⟨4, f.s, false, false, [.srcX f.fn.bits f.a, .dstS f.fn.bits f.d]⟩
  | .wscan f => some ⟨4, f.s, false, false, [.srcX 32 f.a, .dstV 32 f.d]⟩
  | .sread f => some ⟨4, f.s, false, false, [.dstW f.w 32 f.d, .sys f.reg]⟩
  | .swrite f => some ⟨4, f.s, false, false, [.src 32 f.a, .sys f.reg]⟩
  | .br f => some ⟨4, f.s, false, true, []⟩
  | .jmp f => some ⟨4, f.s, false, true, []⟩
  | .call f => some ⟨4, f.s, false, true, []⟩
  | .ret f => some ⟨4, f.s, f.g, true, []⟩
  | .jmpi f => some ⟨4, f.s, false, true, []⟩
  | .reform f => some ⟨4, f.s, f.g, true, []⟩
  | .yield f => some ⟨4, f.s, f.g, true, []⟩
  | .exit f => some ⟨4, f.s, f.g, true, []⟩
  | .bar f => some ⟨4, f.s, false, true, []⟩
  | .bara f => some ⟨4, f.s, false, true, []⟩
  | .barw f => some ⟨4, f.s, false, true, []⟩
  | .trap f => some ⟨4, f.s, f.g, false, []⟩
  | .bkpt f => some ⟨4, f.s, f.g, false, []⟩
  | .fence f => some ⟨4, f.s, f.g, false, []⟩
  | .fencex f => some ⟨4, f.s, false, false, []⟩
  | .spawn f => some ⟨4, f.s, f.g, true, []⟩
  | .join f => some ⟨4, f.s, f.g, true, []⟩
  | .prop f => some ⟨4, f.s, false, true, []⟩
  | .modw f => some ⟨4, f.s, f.g, true, [.src f.ty.bits f.val]⟩
  | .trace f => some ⟨4, f.s, f.g, true, []⟩
  | .mres f => some ⟨4, f.s, false, true, []⟩
  | .mrel f => some ⟨4, f.s, false, true, []⟩
  | .mloadb f => some ⟨4, f.s, false, true, []⟩
  | .sca f => some ⟨4, f.s, false, true, []⟩
  | .fadd f => some ⟨4, f.s, f.g, false, [.src 32 f.b, .src 32 f.a, .dstW f.w 32 f.d]⟩
  | .fsub f => some ⟨4, f.s, f.g, false, [.src 32 f.b, .src 32 f.a, .dstW f.w 32 f.d]⟩
  | .fmul f => some ⟨4, f.s, f.g, false, [.src 32 f.b, .src 32 f.a, .dstW f.w 32 f.d]⟩
  | .fma f => some ⟨4, f.s, f.g, false, [.src 32 f.b, .src 32 f.a, .dst 32 f.d]⟩
  | .fmin f => some ⟨4, f.s, f.g, false, [.src 32 f.b, .src 32 f.a, .dstW f.w 32 f.d]⟩
  | .fmax f => some ⟨4, f.s, f.g, false, [.src 32 f.b, .src 32 f.a, .dstW f.w 32 f.d]⟩
  | .fcmp f => some ⟨4, f.s, f.g, false, [.src 32 f.b, .src 32 f.a]⟩
  | .dadd f => some ⟨4, f.s, f.g, false, [.src 64 f.b, .src 64 f.a, .dstW f.w 64 f.d]⟩
  | .dsub f => some ⟨4, f.s, f.g, false, [.src 64 f.b, .src 64 f.a, .dstW f.w 64 f.d]⟩
  | .dmul f => some ⟨4, f.s, f.g, false, [.src 64 f.b, .src 64 f.a, .dstW f.w 64 f.d]⟩
  | .dfma f => some ⟨4, f.s, f.g, false, [.src 64 f.b, .src 64 f.a, .dst 64 f.d]⟩
  | .dmin f => some ⟨4, f.s, f.g, false, [.src 64 f.b, .src 64 f.a, .dstW f.w 64 f.d]⟩
  | .dmax f => some ⟨4, f.s, f.g, false, [.src 64 f.b, .src 64 f.a, .dstW f.w 64 f.d]⟩
  | .dcmp f => some ⟨4, f.s, f.g, false, [.src 64 f.b, .src 64 f.a]⟩
  | .badd2 f => some ⟨4, f.s, f.g, false, [.src 32 f.b, .src 32 f.a, .dstW f.w 32 f.d]⟩
  | .bmul2 f => some ⟨4, f.s, f.g, false, [.src 32 f.b, .src 32 f.a, .dstW f.w 32 f.d]⟩
  | .bfma2 f => some ⟨4, f.s, f.g, false, [.src 32 f.b, .src 32 f.a, .dst 32 f.d]⟩
  | .fsgn f => some ⟨4, f.s, false, false, [.src 32 f.a, .dstW f.w 32 f.d]⟩
  | .mov f => some ⟨4, f.s, f.g, false, [.src 32 f.a, .dstW f.w 32 f.d]⟩
  | .rdlane f => some ⟨4, f.s, false, false, [.srcX 32 f.a]⟩
  | .rng f => some ⟨4, f.s, f.g, false, [.src 32 f.a, .dstW f.w 32 f.d]⟩
  | .wsort f => some ⟨4, f.s, false, false, [.srcV 64 f.a, .dstV 64 f.d]⟩
  | .bcnt f => some ⟨4, f.s, false, false, [.src 32 f.a, .dstW f.w 32 f.d]⟩
  | .icmpi f => some ⟨4, f.s, false, false, [.src 32 f.a]⟩
  | .setp f => some ⟨4, f.s, false, false, []⟩
  | .cvtF32D f => some ⟨4, f.s, false, false, [.src 64 f.a, .dst 32 f.d]⟩
  | .cvtDF32 f => some ⟨4, f.s, false, false, [.src 32 f.a, .dst 64 f.d]⟩
  | .cvtB16F32 f => some ⟨4, f.s, false, false, [.src 64 f.a, .dst 32 f.d]⟩
  | .cvtF32B16 f => some ⟨4, f.s, false, false, [.src 32 f.a, .dst 32 f.d]⟩
  | .cvtH16F32 f => some ⟨4, f.s, false, false, [.src 64 f.a, .dst 32 f.d]⟩
  | .cvtF32H16 f => some ⟨4, f.s, false, false, [.src 32 f.a, .dst 32 f.d]⟩
  | .cvtS32F32 f => some ⟨4, f.s, false, false, [.src 32 f.a, .dst 32 f.d]⟩
  | .cvtF32S32 f => some ⟨4, f.s, false, false, [.src 32 f.a, .dst 32 f.d]⟩
  | .cvtZ32F32 f => some ⟨4, f.s, false, false, [.src 32 f.a, .dst 32 f.d]⟩
  | .cvtF32Z32 f => some ⟨4, f.s, false, false, [.src 32 f.a, .dst 32 f.d]⟩
  | .cvtS64D f => some ⟨4, f.s, false, false, [.src 64 f.a, .dst 64 f.d]⟩
  | .cvtDS64 f => some ⟨4, f.s, false, false, [.src 64 f.a, .dst 64 f.d]⟩
  | .cvtN8F32 f => some ⟨4, f.s, false, false, [.src 128 f.a, .dst 32 f.d]⟩
  | .cvtF32N8 f => some ⟨4, f.s, false, false, [.src 32 f.a, .dst 32 f.d]⟩
  | .cvtQ8F32 f => some ⟨4, f.s, false, false, [.src 128 f.a, .dst 32 f.d]⟩
  | .cvtF32Q8 f => some ⟨4, f.s, false, false, [.src 32 f.a, .dst 128 f.d]⟩
  | .rsqa f => some ⟨4, f.s, false, false, [.src 32 f.a, .dst 32 f.d]⟩
  | .rcpa f => some ⟨4, f.s, false, false, [.src 32 f.a, .dst 32 f.d]⟩
  | .ex2a f => some ⟨4, f.s, false, false, [.src 32 f.a, .dst 32 f.d]⟩
  | .lg2a f => some ⟨4, f.s, false, false, [.src 32 f.a, .dst 32 f.d]⟩
  | .sina f => some ⟨4, f.s, false, false, [.src 32 f.a, .dst 32 f.d]⟩
  | .cosa f => some ⟨4, f.s, false, false, [.src 32 f.a, .dst 32 f.d]⟩
  | .tanha f => some ⟨4, f.s, false, false, [.src 32 f.a, .dst 32 f.d]⟩
  | .fsqrt f => some ⟨4, f.s, false, false, [.src 32 f.a, .dst 32 f.d]⟩
  | .fdiv f => some ⟨4, f.s, false, false, [.src 32 (.v ⟨f.b, by omega⟩), .src 32 f.a, .dst 32 f.d]⟩
  | .fex2 f => some ⟨4, f.s, false, false, [.src 32 f.a, .dst 32 f.d]⟩
  | .flg2 f => some ⟨4, f.s, false, false, [.src 32 f.a, .dst 32 f.d]⟩
  | .frnd f => some ⟨4, f.s, false, false, [.src 32 f.a, .dst 32 f.d]⟩
  | .dsqrt f => some ⟨4, f.s, false, false, [.src 64 f.a, .dst 64 f.d]⟩
  | .ddiv f => some ⟨4, f.s, false, false, [.src 64 (.v ⟨f.b, by omega⟩), .src 64 f.a, .dst 64 f.d]⟩
  | .drsq f => some ⟨4, f.s, false, false, [.src 64 f.a, .dst 64 f.d]⟩
  | .drnd f => some ⟨4, f.s, false, false, [.src 64 f.a, .dst 64 f.d]⟩
  | .copy f => some ⟨4, f.s, false, true, [.src 32 f.cnt]⟩
  | .copyt f => some ⟨4, f.s, false, true, [.src 32 f.off]⟩
  | .copym f => some ⟨4, f.s, false, true, [.src 32 f.off]⟩
  | .copyo f => some ⟨4, f.s, false, true, [.src 32 f.cnt]⟩
  | .copyw f => some ⟨4, f.s, false, true, [.src 32 f.tag]⟩
  | .copyx f => some ⟨4, f.s, false, true, [.src 32 f.tag]⟩
  | .chinit f => some ⟨4, f.s, false, true, []⟩
  | .chwait f => some ⟨4, f.s, false, true, [.src 32 f.n]⟩
  | .chadv f => some ⟨4, f.s, false, true, [.src 32 f.n]⟩
  | .chpub f => some ⟨4, f.s, false, true, [.src 32 f.n]⟩
  | .chqry f => some ⟨4, f.s, false, true, [.dst 32 f.d]⟩
  | .chfree f => some ⟨4, f.s, false, true, []⟩
  | .pref f => some ⟨4, f.s, false, true, [.src 32 f.cnt]⟩
  | .drop f => some ⟨4, f.s, false, true, [.src 32 f.cnt]⟩
  | .tdesc f => some ⟨4, f.s, false, true, []⟩
  | .cpstat f => some ⟨4, f.s, false, true, [.dst 32 f.d]⟩
  | .mmul f => some ⟨4, f.s, false, true, []⟩
  | .movCompact f => some ⟨2, false, false, false, [.src 32 f.b, .dst 32 (.v ⟨f.d, by omega⟩)]⟩
  | .iaddCompact f => some ⟨2, false, false, false, [.src 32 f.b, .dst 32 (.v ⟨f.d, by omega⟩)]⟩
  | .isubCompact f => some ⟨2, false, false, false, [.src 32 f.b, .dst 32 (.v ⟨f.d, by omega⟩)]⟩
  | .imulCompact f => some ⟨2, false, false, false, [.src 32 f.b, .dst 32 (.v ⟨f.d, by omega⟩)]⟩
  | .andCompact f => some ⟨2, false, false, false, [.src 32 f.b, .dst 32 (.v ⟨f.d, by omega⟩)]⟩
  | .orCompact f => some ⟨2, false, false, false, [.src 32 f.b, .dst 32 (.v ⟨f.d, by omega⟩)]⟩
  | .xorCompact f => some ⟨2, false, false, false, [.src 32 f.b, .dst 32 (.v ⟨f.d, by omega⟩)]⟩
  | .shlCompact f => some ⟨2, false, false, false, [.src 32 f.b, .dst 32 (.v ⟨f.d, by omega⟩)]⟩
  | .shruCompact f => some ⟨2, false, false, false, [.src 32 f.b, .dst 32 (.v ⟨f.d, by omega⟩)]⟩
  | .shrsCompact f => some ⟨2, false, false, false, [.src 32 f.b, .dst 32 (.v ⟨f.d, by omega⟩)]⟩
  | .faddCompact f => some ⟨2, false, false, false, [.src 32 f.b, .dst 32 (.v ⟨f.d, by omega⟩)]⟩
  | .fsubCompact f => some ⟨2, false, false, false, [.src 32 f.b, .dst 32 (.v ⟨f.d, by omega⟩)]⟩
  | .fmulCompact f => some ⟨2, false, false, false, [.src 32 f.b, .dst 32 (.v ⟨f.d, by omega⟩)]⟩
  | .fminCompact f => some ⟨2, false, false, false, [.src 32 f.b, .dst 32 (.v ⟨f.d, by omega⟩)]⟩
  | .fmaxCompact f => some ⟨2, false, false, false, [.src 32 f.b, .dst 32 (.v ⟨f.d, by omega⟩)]⟩
  | .selCompact f => some ⟨2, false, false, false, [.src 32 f.b, .dst 32 (.v ⟨f.d, by omega⟩)]⟩
  | .reedLdw _ => none
  | .reedLdd _ => none
  | .reedLdv _ => none
  | .reedStw _ => none
  | .reedStd _ => none
  | .reedStv _ => none
  | .reedLi _ => none
  | .reedLis _ => none
  | .reedAdd _ => none
  | .reedAddi _ => none
  | .reedSub _ => none
  | .reedAnd _ => none
  | .reedOr _ => none
  | .reedShli _ => none
  | .reedShri _ => none
  | .reedBeq _ => none
  | .reedBne _ => none
  | .reedBltu _ => none
  | .reedLoop _ => none
  | .reedCall _ => none
  | .reedEnd _ => none
  | .reedFail _ => none
  | .operationLimit _ => none
  | .dvDoorbell _ _ => none
  | .packetFetch _ => none
  | .launch _ => none
  | .gangreserve _ => none
  | .gangcommit _ => none
  | .gangabort _ => none
  | .headworksCopy _ => none
  | .signal _ => none
  | .signalWrite _ => none
  | .waitval _ => none
  | .waitvalReread _ => none
  | .interrupt _ => none
  | .modwrite _ => none
  | .propagate _ => none
  | .reclaim _ => none
  | .reclaimReturn _ => none
  | .preempt _ => none
  | .preemptTimeout _ => none
  | .replay _ => none
  | .dumpto _ => none
  | .gangStart _ => none
  | .taskDispatch _ _ _ => none
  | .taskRetire _ => none
  | .roundMerge _ => none
  | .cellArrival _ => none
  | .cellWithdrawal _ => none
  | .loadReturn _ _ => none
  | .chwaitReturn _ => none
  | .copywReturn _ => none
  | .chfreeReturn _ => none
  | .joinMerge _ => none
  | .ldcsReturn _ => none
  | .propReturn _ => none
  | .mrelReturn _ => none
  | .fenceCompletion _ => none
  | .fencexCompletion _ => none
  | .binDrain _ _ _ => none
  | .copyUnitDelivery _ _ _ _ => none
  | .copyoFire _ _ _ => none
  | .mloadbFire _ _ => none
  | .mmulRow _ _ => none
  | .pageWalk _ _ _ => none
  | .translationFaultService _ => none
  | .leaseExpiry _ => none
  | .droneBeacon _ _ => none
  | .shareReassign _ _ => none
  | .watchdog _ _ _ => none
  | .budgetPeriod => none
  | .copyDrain _ => none
  | .dump _ => none
  | .deviceMemoryRead _ _ _ _ => none
  | .deviceMemoryWrite _ _ _ _ _ _ => none
  | .peerAccess _ _ _ _ => none
  | .linkTrainingLoss _ => none
  | .heartbeat _ => none
  | .heartbeatMiss _ => none
  | .rowActivation _ _ _ _ => none
  | .trackerClear => none
  | .scrubPass _ _ => none
  | .eolUpdate _ _ => none
  | .bringUp _ => none
  | .dvAttreq _ => none
  | .attestationReport => none
  | .dvReedload _ => none
  | .dvPart _ _ => none
  | .dvKeyslot _ _ => none
  | .dvRhthresh _ => none
  | .dvEvmask _ => none
  | .refctlHandback _ => none
  | .refctlScrub _ => none
  | .refctlRepair _ => none
  | .dbgctlHalt _ => none
  | .dbgctlStep _ => none
  | .dbgctlResume _ => none
  | .registerWrite _ _ _ => none
  | .l1LineReplacement _ _ _ => none
  | .cacheEntryDrop _ => none
  | .mloadbCompletion _ _ => none
  | .traceCompaction _ _ => none
  | .preemptionDecision _ _ => none
  | .linkTraining _ => none

end Sys2Proof
end

