-- ==== Sys2Proof/WellFormed.lean ====
section
/-! DEFINITION. Which instructions are well formed: reserved selectors (R33, R46) and operand rules that do not
depend on a stage's budget (R34, R35, R47). An instruction that breaks the first has no encoding that executes
(ILLEGAL); one that breaks the second raises OPERAND wherever it stands. -/

namespace Sys2Proof

/-- R65: 0 names the whole polder; otherwise [7:6] = 0 and both fields are 1..5. -/
def shapeOk (n : Nat) : Bool :=
  n == 0 || (n / 64 == 0 && 1 ≤ n / 8 % 8 && n / 8 % 8 ≤ 5 && 1 ≤ n % 8 && n % 8 ≤ 5)

/-- R80: a shape at polder level, 0 at every other level. -/
def barShapeOk (l : Level) (n : Nat) : Bool :=
  match l with
  | .polder => shapeOk n
  | .wave => n == 0
  | .stage => n == 0
  | .core => n == 0
  | .launch => n == 0

/-- R379: the fields that must be 0 for not, one and zero. -/
def setpOk (f : SetpOp) : Bool :=
  match f.fn with
  | .not => f.y.val == 0
  | .one => f.y.val == 0 && f.x.val == 0
  | .zero => f.y.val == 0 && f.x.val == 0
  | .and => true
  | .or => true
  | .xor => true
  | .andn => true

/-- R186: the a-register field is 0 unless the function is note. -/
def traceOk (f : TraceOp) : Bool :=
  match f.fn with
  | .note => true
  | .suspend => f.ar.val == 0
  | .resume => f.ar.val == 0

/-- R245: skips are 1..1,023 operations long. -/
def reedSkipOk (n : BitVec 16) : Bool := 1 ≤ n.toNat && n.toNat ≤ 1023

/-- R245: `end` consumes a multiple of 64 bytes from 64 to 256. -/
def reedEndOk (n : BitVec 16) : Bool := n.toNat % 64 == 0 && 64 ≤ n.toNat && n.toNat ≤ 256

/-- R33, R46: no selector holds a reserved value; a violation raises ILLEGAL. -/
def Instr.selOk : Instr → Bool
  | .iadd _ => true
  | .isub _ => true
  | .imul _ => true
  | .imulh _ => true
  | .imulhu _ => true
  | .imad _ => true
  | .idiv _ => true
  | .idivu _ => true
  | .irem _ => true
  | .iremu _ => true
  | .imin _ => true
  | .imax _ => true
  | .umin _ => true
  | .umax _ => true
  | .and _ => true
  | .or _ => true
  | .xor _ => true
  | .andn _ => true
  | .shl _ => true
  | .shru _ => true
  | .shrs _ => true
  | .bfx _ => true
  | .bfi _ => true
  | .sel _ => true
  | .icmp _ => true
  | .iaddi _ => true
  | .andi _ => true
  | .ori _ => true
  | .xori _ => true
  | .shli _ => true
  | .shrui _ => true
  | .shrsi _ => true
  | .movi _ => true
  | .movhi _ => true
  | .aadd _ => true
  | .aaddi _ => true
  | .aput _ => true
  | .aget _ => true
  | .ldg _ => true
  | .stg _ => true
  | .ldgx _ => true
  | .stgx _ => true
  | .lds _ => true
  | .sts _ => true
  | .ldb _ => true
  | .stb _ => true
  | .ldc _ => true
  | .cadd _ => true
  | .ctwo _ => true
  | .cmin _ => true
  | .cmax _ => true
  | .cord _ => true
  | .caff _ => true
  | .cbit _ => true
  | .ldct _ => true
  | .ldcs _ => true
  | .satom _ => true
  | .shfl _ => true
  | .vote _ => true
  | .wred _ => true
  | .wscan _ => true
  | .sread _ => true
  | .swrite _ => true
  | .br _ => true
  | .jmp _ => true
  | .call _ => true
  | .ret _ => true
  | .jmpi _ => true
  | .reform _ => true
  | .yield _ => true
  | .exit _ => true
  | .bar f => barShapeOk f.lvl f.shape.toNat
  | .bara f => barShapeOk f.lvl f.shape.toNat
  | .barw f => barShapeOk f.lvl f.shape.toNat
  | .trap _ => true
  | .bkpt _ => true
  | .fence _ => true
  | .fencex f => f.frm != 0 && f.into != 0
  | .spawn f => f.slot != 0
  | .join _ => true
  | .prop _ => true
  | .modw _ => true
  | .trace f => traceOk f
  | .mres _ => true
  | .mrel _ => true
  | .mloadb _ => true
  | .sca _ => true
  | .fadd _ => true
  | .fsub _ => true
  | .fmul _ => true
  | .fma _ => true
  | .fmin _ => true
  | .fmax _ => true
  | .fcmp _ => true
  | .dadd _ => true
  | .dsub _ => true
  | .dmul _ => true
  | .dfma _ => true
  | .dmin _ => true
  | .dmax _ => true
  | .dcmp _ => true
  | .badd2 _ => true
  | .bmul2 _ => true
  | .bfma2 _ => true
  | .fsgn _ => true
  | .mov _ => true
  | .rdlane _ => true
  | .rng _ => true
  | .wsort _ => true
  | .bcnt _ => true
  | .icmpi _ => true
  | .setp f => setpOk f
  | .cvtF32D _ => true
  | .cvtDF32 _ => true
  | .cvtB16F32 _ => true
  | .cvtF32B16 _ => true
  | .cvtH16F32 _ => true
  | .cvtF32H16 _ => true
  | .cvtS32F32 _ => true
  | .cvtF32S32 _ => true
  | .cvtZ32F32 _ => true
  | .cvtF32Z32 _ => true
  | .cvtS64D _ => true
  | .cvtDS64 _ => true
  | .cvtN8F32 _ => true
  | .cvtF32N8 _ => true
  | .cvtQ8F32 _ => true
  | .cvtF32Q8 _ => true
  | .rsqa _ => true
  | .rcpa _ => true
  | .ex2a _ => true
  | .lg2a _ => true
  | .sina _ => true
  | .cosa _ => true
  | .tanha _ => true
  | .fsqrt _ => true
  | .fdiv _ => true
  | .fex2 _ => true
  | .flg2 _ => true
  | .frnd _ => true
  | .dsqrt _ => true
  | .ddiv _ => true
  | .drsq _ => true
  | .drnd _ => true
  | .copy _ => true
  | .copyt _ => true
  | .copym f => shapeOk f.shape.toNat
  | .copyo _ => true
  | .copyw _ => true
  | .copyx _ => true
  | .chinit _ => true
  | .chwait _ => true
  | .chadv _ => true
  | .chpub _ => true
  | .chqry _ => true
  | .chfree _ => true
  | .pref _ => true
  | .drop _ => true
  | .tdesc _ => true
  | .cpstat _ => true
  | .mmul _ => true
  | .movCompact f => !(f.b == .v 0 && f.d.val == 0)
  | .iaddCompact _ => true
  | .isubCompact _ => true
  | .imulCompact _ => true
  | .andCompact _ => true
  | .orCompact _ => true
  | .xorCompact _ => true
  | .shlCompact _ => true
  | .shruCompact _ => true
  | .shrsCompact _ => true
  | .faddCompact _ => true
  | .fsubCompact _ => true
  | .fmulCompact _ => true
  | .fminCompact _ => true
  | .fmaxCompact _ => true
  | .selCompact _ => true
  | .reedLdw _ => true
  | .reedLdd _ => true
  | .reedLdv _ => true
  | .reedStw _ => true
  | .reedStd _ => true
  | .reedStv _ => true
  | .reedLi _ => true
  | .reedLis _ => true
  | .reedAdd _ => true
  | .reedAddi _ => true
  | .reedSub _ => true
  | .reedAnd _ => true
  | .reedOr _ => true
  | .reedShli _ => true
  | .reedShri _ => true
  | .reedBeq f => reedSkipOk f.imm
  | .reedBne f => reedSkipOk f.imm
  | .reedBltu f => reedSkipOk f.imm
  | .reedLoop _ => true
  | .reedCall _ => true
  | .reedEnd imm => reedEndOk imm
  | .reedFail _ => true
  | .operationLimit _ => true
  | .dvDoorbell _ _ => true
  | .packetFetch _ => true
  | .launch _ => true
  | .gangreserve _ => true
  | .gangcommit _ => true
  | .gangabort _ => true
  | .headworksCopy _ => true
  | .signal _ => true
  | .signalWrite _ => true
  | .waitval _ => true
  | .waitvalReread _ => true
  | .interrupt _ => true
  | .modwrite _ => true
  | .propagate _ => true
  | .reclaim _ => true
  | .reclaimReturn _ => true
  | .preempt _ => true
  | .preemptTimeout _ => true
  | .replay _ => true
  | .dumpto _ => true
  | .gangStart _ => true
  | .taskDispatch _ _ _ => true
  | .taskRetire _ => true
  | .roundMerge _ => true
  | .cellArrival _ => true
  | .cellWithdrawal _ => true
  | .loadReturn _ _ => true
  | .chwaitReturn _ => true
  | .copywReturn _ => true
  | .chfreeReturn _ => true
  | .joinMerge _ => true
  | .ldcsReturn _ => true
  | .propReturn _ => true
  | .mrelReturn _ => true
  | .fenceCompletion _ => true
  | .fencexCompletion _ => true
  | .binDrain _ _ _ => true
  | .copyUnitDelivery _ _ _ _ => true
  | .copyoFire _ _ _ => true
  | .mloadbFire _ _ => true
  | .mmulRow _ _ => true
  | .pageWalk _ _ _ => true
  | .translationFaultService _ => true
  | .leaseExpiry _ => true
  | .droneBeacon _ _ => true
  | .shareReassign _ _ => true
  | .watchdog _ _ _ => true
  | .budgetPeriod => true
  | .copyDrain _ => true
  | .dump _ => true
  | .deviceMemoryRead _ _ _ _ => true
  | .deviceMemoryWrite _ _ _ _ _ _ => true
  | .peerAccess _ _ _ _ => true
  | .linkTrainingLoss _ => true
  | .heartbeat _ => true
  | .heartbeatMiss _ => true
  | .rowActivation _ _ _ _ => true
  | .trackerClear => true
  | .scrubPass _ _ => true
  | .eolUpdate _ _ => true
  | .bringUp _ => true
  | .dvAttreq _ => true
  | .attestationReport => true
  | .dvReedload _ => true
  | .dvPart _ _ => true
  | .dvKeyslot _ _ => true
  | .dvRhthresh _ => true
  | .dvEvmask _ => true
  | .refctlHandback _ => true
  | .refctlScrub _ => true
  | .refctlRepair _ => true
  | .dbgctlHalt _ => true
  | .dbgctlStep _ => true
  | .dbgctlResume _ => true
  | .registerWrite _ _ _ => true
  | .l1LineReplacement _ _ _ => true
  | .cacheEntryDrop _ => true
  | .mloadbCompletion _ _ => true
  | .traceCompaction _ _ => true
  | .preemptionDecision _ _ => true
  | .linkTraining _ => true

/-- R30: the sources that the 6-bit field of a compact instruction can name. -/
def Use.inCompact : Use → Bool
  | .src _ (.v n) => n.val < 32
  | .src _ .lane => false
  | .src _ .tix => false
  | .src _ .wix => false
  | _ => true

/-- R30, R34–R36, R47: every operand is legal under the budget; a violation raises OPERAND. -/
def Instr.opOk (budget : Nat) (i : Instr) : Bool :=
  match i.lane? with
  | some l => l.uses.all (Use.ok budget) && (l.len != 2 || l.uses.all Use.inCompact)
  | none => true

/-- The greatest register budget that a stage may declare (R52). -/
def maxBudget : Nat := 96

/-- A well-formed instruction: legal selectors and legal operands under the widest budget. -/
def Instr.wf (i : Instr) : Bool := i.selOk && i.opOk maxBudget

end Sys2Proof
end

