-- ==== Sys2Proof/Decode.lean ====
section
/-! DEFINITION. The decoder and the encoder of lane instructions (R27–R35, R44–R48) and of reed operations (R245,
R246). A word is a Nat whose bit 0 is the least significant bit of its first parcel. -/

namespace Sys2Proof

/-- Why a word is no instruction: step 2 or step 3 of R48. -/
inductive DecErr where
  | illegal
  | operand
deriving DecidableEq, Repr

/-- Bits [lo + n - 1 : lo] of a word. -/
def fld (w lo n : Nat) : Nat := w / 2 ^ lo % 2 ^ n

def bit (w lo : Nat) : Bool := fld w lo 1 == 1

/-- ILLEGAL unless the condition holds (R33, R46). -/
def need (c : Bool) : Except DecErr Unit := if c then .ok () else .error .illegal

/-- R33: every listed field (lowest bit, width) is zero. -/
def zeros (w : Nat) (l : List (Nat × Nat)) : Except DecErr Unit :=
  need (l.all fun p => fld w p.1 p.2 == 0)

/-! ### Operand codes and selectors -/

/-- The operand of a 7-bit code (R34); the reserved codes raise OPERAND. -/
def opnd? (n : Nat) : Except DecErr Opnd :=
  if h : n < 96 then .ok (.v ⟨n, h⟩)
  else if h : n - 96 < 16 then .ok (.s ⟨n - 96, h⟩)
  else if h : n - 112 < 4 then .ok (.l ⟨n - 112, h⟩)
  else if n = 116 then .ok .vz
  else if n = 117 then .ok .lane
  else if n = 118 then .ok .tix
  else if n = 119 then .ok .wix
  else .error .operand

def Opnd.code : Opnd → Nat
  | .v n => n.val
  | .s n => 96 + n.val
  | .l n => 112 + n.val
  | .vz => 116
  | .lane => 117
  | .tix => 118
  | .wix => 119

/-- The 6-bit source of a compact instruction (R30, R31). -/
def copnd? (n : Nat) : Except DecErr Opnd :=
  if h : n < 32 then .ok (.v ⟨n, by omega⟩)
  else if h : n - 32 < 16 then .ok (.s ⟨n - 32, h⟩)
  else if h : n - 48 < 4 then .ok (.l ⟨n - 48, h⟩)
  else if n = 52 then .ok .vz
  else .error .operand

def Opnd.ccode : Opnd → Nat
  | .v n => n.val
  | .s n => 32 + n.val
  | .l n => 48 + n.val
  | .vz => 52
  | .lane => 53
  | .tix => 54
  | .wix => 55

/-- A number below a bound, or ILLEGAL. -/
def fin? (k n : Nat) : Except DecErr (Fin k) :=
  if h : n < k then .ok ⟨n, h⟩ else .error .illegal

/-- An s-register code, or OPERAND (R47). -/
def sreg? (n : Nat) : Except DecErr (Fin 16) :=
  if h : 96 ≤ n ∧ n - 96 < 16 then .ok ⟨n - 96, h.2⟩ else .error .operand

/-- The member mask of format W: 17..31 raise OPERAND (R47). -/
def mask? (n : Nat) : Except DecErr Mask :=
  if h : n < 16 then .ok (.sreg ⟨n, h⟩) else if n = 16 then .ok .all else .error .operand

def Mask.code : Mask → Nat
  | .sreg n => n.val
  | .all => 16

/-- The op7 field of BAR and BARW: an s-register or vz, anything else OPERAND (R80). -/
def barDest? (n : Nat) : Except DecErr (Option (Fin 16)) :=
  if h : 96 ≤ n ∧ n - 96 < 16 then .ok (some ⟨n - 96, h.2⟩) else if n = 116 then .ok none else .error .operand

def barDestCode : Option (Fin 16) → Nat
  | some k => 96 + k.val
  | none => 116

/-- A function code that does not exist in a group is ILLEGAL. -/
def illegal {α : Type} : Except DecErr α := .error .illegal

def Size.code : Size → Nat
  | .b8 => 0
  | .b16 => 1
  | .b32 => 2
  | .b64 => 3
  | .b128 => 4

def Size.of? (n : Nat) : Except DecErr Size :=
  if n = 0 then .ok .b8
  else if n = 1 then .ok .b16
  else if n = 2 then .ok .b32
  else if n = 3 then .ok .b64
  else if n = 4 then .ok .b128
  else .error .illegal

def BufSpace.code : BufSpace → Nat
  | .abuf => 0
  | .cbuf => 1
  | .wbuf => 2

def BufSpace.of? (n : Nat) : Except DecErr BufSpace :=
  if n = 0 then .ok .abuf
  else if n = 1 then .ok .cbuf
  else if n = 2 then .ok .wbuf
  else .error .illegal

def ICond.code : ICond → Nat
  | .eq => 0
  | .ne => 1
  | .lt => 2
  | .le => 3
  | .gt => 4
  | .ge => 5
  | .lo => 6
  | .ls => 7
  | .hi => 8
  | .hs => 9

def ICond.of? (n : Nat) : Except DecErr ICond :=
  if n = 0 then .ok .eq
  else if n = 1 then .ok .ne
  else if n = 2 then .ok .lt
  else if n = 3 then .ok .le
  else if n = 4 then .ok .gt
  else if n = 5 then .ok .ge
  else if n = 6 then .ok .lo
  else if n = 7 then .ok .ls
  else if n = 8 then .ok .hi
  else if n = 9 then .ok .hs
  else .error .illegal

def FCond.code : FCond → Nat
  | .eq => 0
  | .ne => 1
  | .lt => 2
  | .le => 3
  | .gt => 4
  | .ge => 5
  | .uo => 6
  | .or => 7

def FCond.of? (n : Nat) : Except DecErr FCond :=
  if n = 0 then .ok .eq
  else if n = 1 then .ok .ne
  else if n = 2 then .ok .lt
  else if n = 3 then .ok .le
  else if n = 4 then .ok .gt
  else if n = 5 then .ok .ge
  else if n = 6 then .ok .uo
  else if n = 7 then .ok .or
  else .error .illegal

def Rnd.code : Rnd → Nat
  | .rne => 0
  | .rz => 1
  | .rd => 2
  | .ru => 3
  | .rs => 4
  | .rk => 7

def Rnd.of? (n : Nat) : Except DecErr Rnd :=
  if n = 0 then .ok .rne
  else if n = 1 then .ok .rz
  else if n = 2 then .ok .rd
  else if n = 3 then .ok .ru
  else if n = 4 then .ok .rs
  else if n = 7 then .ok .rk
  else .error .illegal

def RndInt.code : RndInt → Nat
  | .rne => 0
  | .rz => 1
  | .rd => 2
  | .ru => 3

def RndInt.of? (n : Nat) : Except DecErr RndInt :=
  if n = 0 then .ok .rne
  else if n = 1 then .ok .rz
  else if n = 2 then .ok .rd
  else if n = 3 then .ok .ru
  else .error .illegal

def CaddTy.code : CaddTy → Nat
  | .s32 => 0
  | .s64 => 1
  | .f32 => 2
  | .f64 => 3

def CaddTy.of? (n : Nat) : Except DecErr CaddTy :=
  if n = 0 then .ok .s32
  else if n = 1 then .ok .s64
  else if n = 2 then .ok .f32
  else if n = 3 then .ok .f64
  else .error .illegal

def CtwoTy.code : CtwoTy → Nat
  | .f32 => 2
  | .f64 => 3

def CtwoTy.of? (n : Nat) : Except DecErr CtwoTy :=
  if n = 2 then .ok .f32
  else if n = 3 then .ok .f64
  else .error .illegal

def CmmTy.code : CmmTy → Nat
  | .s32 => 0
  | .z32 => 4
  | .f32 => 2
  | .f64 => 3

def CmmTy.of? (n : Nat) : Except DecErr CmmTy :=
  if n = 0 then .ok .s32
  else if n = 4 then .ok .z32
  else if n = 2 then .ok .f32
  else if n = 3 then .ok .f64
  else .error .illegal

def BitTy.code : BitTy → Nat
  | .b32 => 0
  | .b64 => 1
  | .b128 => 4

def BitTy.of? (n : Nat) : Except DecErr BitTy :=
  if n = 0 then .ok .b32
  else if n = 1 then .ok .b64
  else if n = 4 then .ok .b128
  else .error .illegal

def CaffTy.code : CaffTy → Nat
  | .f32 => 2
  | .f64 => 3

def CaffTy.of? (n : Nat) : Except DecErr CaffTy :=
  if n = 2 then .ok .f32
  else if n = 3 then .ok .f64
  else .error .illegal

def CbitTy.code : CbitTy → Nat
  | .and32 => 0
  | .or32 => 1
  | .xor32 => 2
  | .and64 => 4
  | .or64 => 5
  | .xor64 => 6

def CbitTy.of? (n : Nat) : Except DecErr CbitTy :=
  if n = 0 then .ok .and32
  else if n = 1 then .ok .or32
  else if n = 2 then .ok .xor32
  else if n = 4 then .ok .and64
  else if n = 5 then .ok .or64
  else if n = 6 then .ok .xor64
  else .error .illegal

def ModwTy.code : ModwTy → Nat
  | .b32 => 2
  | .b64 => 3

def ModwTy.of? (n : Nat) : Except DecErr ModwTy :=
  if n = 2 then .ok .b32
  else if n = 3 then .ok .b64
  else .error .illegal

def SatomFn.code : SatomFn → Nat
  | .addS32 => 0
  | .minS32 => 1
  | .maxS32 => 2
  | .minZ32 => 3
  | .maxZ32 => 4
  | .and => 5
  | .or => 6
  | .xor => 7

def SatomFn.of? (n : Nat) : Except DecErr SatomFn :=
  if n = 0 then .ok .addS32
  else if n = 1 then .ok .minS32
  else if n = 2 then .ok .maxS32
  else if n = 3 then .ok .minZ32
  else if n = 4 then .ok .maxZ32
  else if n = 5 then .ok .and
  else if n = 6 then .ok .or
  else if n = 7 then .ok .xor
  else .error .illegal

def VoteFn.code : VoteFn → Nat
  | .ballot => 0
  | .any => 1
  | .all => 2

def VoteFn.of? (n : Nat) : Except DecErr VoteFn :=
  if n = 0 then .ok .ballot
  else if n = 1 then .ok .any
  else if n = 2 then .ok .all
  else .error .illegal

def WredFn.code : WredFn → Nat
  | .addS32 => 0
  | .addF32 => 1
  | .addF64 => 2
  | .minS32 => 3
  | .maxS32 => 4
  | .minF32 => 5
  | .maxF32 => 6
  | .and => 7
  | .or => 8
  | .xor => 9

def WredFn.of? (n : Nat) : Except DecErr WredFn :=
  if n = 0 then .ok .addS32
  else if n = 1 then .ok .addF32
  else if n = 2 then .ok .addF64
  else if n = 3 then .ok .minS32
  else if n = 4 then .ok .maxS32
  else if n = 5 then .ok .minF32
  else if n = 6 then .ok .maxF32
  else if n = 7 then .ok .and
  else if n = 8 then .ok .or
  else if n = 9 then .ok .xor
  else .error .illegal

def WscanFn.code : WscanFn → Nat
  | .inclAddS32 => 0
  | .inclAddF32 => 1
  | .exclAddS32 => 2
  | .exclAddF32 => 3
  | .inclMaxF32 => 4
  | .inclMaxS32 => 5

def WscanFn.of? (n : Nat) : Except DecErr WscanFn :=
  if n = 0 then .ok .inclAddS32
  else if n = 1 then .ok .inclAddF32
  else if n = 2 then .ok .exclAddS32
  else if n = 3 then .ok .exclAddF32
  else if n = 4 then .ok .inclMaxF32
  else if n = 5 then .ok .inclMaxS32
  else .error .illegal

def WsortFn.code : WsortFn → Nat
  | .ascF32 => 0
  | .descF32 => 1
  | .ascS32 => 2
  | .descS32 => 3

def WsortFn.of? (n : Nat) : Except DecErr WsortFn :=
  if n = 0 then .ok .ascF32
  else if n = 1 then .ok .descF32
  else if n = 2 then .ok .ascS32
  else if n = 3 then .ok .descS32
  else .error .illegal

def Level.code : Level → Nat
  | .wave => 0
  | .stage => 1
  | .core => 2
  | .polder => 3
  | .launch => 4

def Level.of? (n : Nat) : Except DecErr Level :=
  if n = 0 then .ok .wave
  else if n = 1 then .ok .stage
  else if n = 2 then .ok .core
  else if n = 3 then .ok .polder
  else if n = 4 then .ok .launch
  else .error .illegal

def Scope.code : Scope → Nat
  | .wave => 0
  | .core => 1
  | .task => 2
  | .dev => 3
  | .sys => 4

def Scope.of? (n : Nat) : Except DecErr Scope :=
  if n = 0 then .ok .wave
  else if n = 1 then .ok .core
  else if n = 2 then .ok .task
  else if n = 3 then .ok .dev
  else if n = 4 then .ok .sys
  else .error .illegal

def SetpFn.code : SetpFn → Nat
  | .and => 0
  | .or => 1
  | .xor => 2
  | .andn => 3
  | .not => 4
  | .one => 5
  | .zero => 6

def SetpFn.of? (n : Nat) : Except DecErr SetpFn :=
  if n = 0 then .ok .and
  else if n = 1 then .ok .or
  else if n = 2 then .ok .xor
  else if n = 3 then .ok .andn
  else if n = 4 then .ok .not
  else if n = 5 then .ok .one
  else if n = 6 then .ok .zero
  else .error .illegal

def FsgnFn.code : FsgnFn → Nat
  | .neg => 0
  | .abs => 1
  | .nabs => 2

def FsgnFn.of? (n : Nat) : Except DecErr FsgnFn :=
  if n = 0 then .ok .neg
  else if n = 1 then .ok .abs
  else if n = 2 then .ok .nabs
  else .error .illegal

def BcntFn.code : BcntFn → Nat
  | .pop => 0
  | .clz => 1
  | .ctz => 2
  | .rev => 3

def BcntFn.of? (n : Nat) : Except DecErr BcntFn :=
  if n = 0 then .ok .pop
  else if n = 1 then .ok .clz
  else if n = 2 then .ok .ctz
  else if n = 3 then .ok .rev
  else .error .illegal

def APart.code : APart → Nat
  | .lo => 0
  | .mid => 1
  | .hi => 2

def APart.of? (n : Nat) : Except DecErr APart :=
  if n = 0 then .ok .lo
  else if n = 1 then .ok .mid
  else if n = 2 then .ok .hi
  else .error .illegal

def TraceFn.code : TraceFn → Nat
  | .suspend => 0
  | .resume => 1
  | .note => 2

def TraceFn.of? (n : Nat) : Except DecErr TraceFn :=
  if n = 0 then .ok .suspend
  else if n = 1 then .ok .resume
  else if n = 2 then .ok .note
  else .error .illegal

def MClass.code : MClass → Nat
  | .i4 => 0
  | .i8 => 1
  | .n4 => 2
  | .n8 => 3

def MClass.of? (n : Nat) : Except DecErr MClass :=
  if n = 0 then .ok .i4
  else if n = 1 then .ok .i8
  else if n = 2 then .ok .n4
  else if n = 3 then .ok .n8
  else .error .illegal

def ChPath.code : ChPath → Nat
  | .lanes => 0
  | .copy => 1
  | .matrix => 2

def ChPath.of? (n : Nat) : Except DecErr ChPath :=
  if n = 0 then .ok .lanes
  else if n = 1 then .ok .copy
  else if n = 2 then .ok .matrix
  else .error .illegal

/-- RNG's key: an even s-register code, anything else OPERAND (R375). -/
def rngKey? (n : Nat) : Except DecErr (Fin 8) :=
  if h : 96 ≤ n ∧ n % 2 = 0 ∧ (n - 96) / 2 < 8 then .ok ⟨(n - 96) / 2, h.2.2⟩ else .error .operand

/-! ### One decoder and one encoder per format (R32): unused fields, selectors, then operands (R48) -/

def decTOp (w : Nat) : Except DecErr (TOp) := do
  let b ← opnd? (fld w 25 7)
  let a ← opnd? (fld w 18 7)
  let d ← opnd? (fld w 11 7)
  pure { b, a, d, w := bit w 10, g := bit w 9, s := bit w 1 }

def encTOp (f : TOp) : Nat :=
  1 + f.b.code * 33554432 + f.a.code * 262144 + f.d.code * 2048 + f.w.toNat * 1024 + f.g.toNat * 512 + f.s.toNat * 2

def decCmpOpICond (w : Nat) : Except DecErr (CmpOp ICond) := do
  zeros w [(10, 1)]
  let c ← ICond.of? (fld w 14 4)
  let p ← fin? 8 (fld w 11 3)
  let b ← opnd? (fld w 25 7)
  let a ← opnd? (fld w 18 7)
  pure { c, p, b, a, g := bit w 9, s := bit w 1 }

def encCmpOpICond (f : CmpOp ICond) : Nat :=
  1 + f.c.code * 16384 + f.p.val * 2048 + f.b.code * 33554432 + f.a.code * 262144 + f.g.toNat * 512 + f.s.toNat * 2

def decCmpOpFCond (w : Nat) : Except DecErr (CmpOp FCond) := do
  zeros w [(10, 1)]
  let c ← FCond.of? (fld w 14 4)
  let p ← fin? 8 (fld w 11 3)
  let b ← opnd? (fld w 25 7)
  let a ← opnd? (fld w 18 7)
  pure { c, p, b, a, g := bit w 9, s := bit w 1 }

def encCmpOpFCond (f : CmpOp FCond) : Nat :=
  1 + f.c.code * 16384 + f.p.val * 2048 + f.b.code * 33554432 + f.a.code * 262144 + f.g.toNat * 512 + f.s.toNat * 2

def decCmpIOp (w : Nat) : Except DecErr (CmpIOp) := do
  zeros w [(9, 1)]
  let c ← ICond.of? (fld w 13 4)
  let p ← fin? 8 (fld w 10 3)
  let a ← opnd? (fld w 17 7)
  pure { c, p, imm := BitVec.ofNat 8 (fld w 24 8), a, s := bit w 1 }

def encCmpIOp (f : CmpIOp) : Nat :=
  1 + f.c.code * 8192 + f.p.val * 1024 + f.imm.toNat * 16777216 + f.a.code * 131072 + f.s.toNat * 2

def decMovOp (w : Nat) : Except DecErr (MovOp) := do
  need (fld w 25 7 == 116)
  let a ← opnd? (fld w 18 7)
  let d ← opnd? (fld w 11 7)
  pure { a, d, w := bit w 10, g := bit w 9, s := bit w 1 }

def encMovOp (f : MovOp) : Nat :=
  1 + 116 * 33554432 + f.a.code * 262144 + f.d.code * 2048 + f.w.toNat * 1024 + f.g.toNat * 512 + f.s.toNat * 2

def decRngOp (w : Nat) : Except DecErr (RngOp) := do
  let key ← rngKey? (fld w 25 7)
  let a ← opnd? (fld w 18 7)
  let d ← opnd? (fld w 11 7)
  pure { key, a, d, w := bit w 10, g := bit w 9, s := bit w 1 }

def encRngOp (f : RngOp) : Nat :=
  1 + (96 + 2 * f.key.val) * 33554432 + f.a.code * 262144 + f.d.code * 2048 + f.w.toNat * 1024 + f.g.toNat * 512 + f.s.toNat * 2

def decIOp (w : Nat) : Except DecErr (IOp) := do
  let a ← opnd? (fld w 17 7)
  let d ← opnd? (fld w 10 7)
  pure { imm := BitVec.ofNat 8 (fld w 24 8), a, d, w := bit w 9, s := bit w 1 }

def encIOp (f : IOp) : Nat :=
  1 + f.imm.toNat * 16777216 + f.a.code * 131072 + f.d.code * 1024 + f.w.toNat * 512 + f.s.toNat * 2

def decIFnOpFsgnFn (w : Nat) : Except DecErr (IFnOp FsgnFn) := do
  let fn ← FsgnFn.of? (fld w 24 8)
  let a ← opnd? (fld w 17 7)
  let d ← opnd? (fld w 10 7)
  pure { fn, a, d, w := bit w 9, s := bit w 1 }

def encIFnOpFsgnFn (f : IFnOp FsgnFn) : Nat :=
  1 + f.fn.code * 16777216 + f.a.code * 131072 + f.d.code * 1024 + f.w.toNat * 512 + f.s.toNat * 2

def decIFnOpBcntFn (w : Nat) : Except DecErr (IFnOp BcntFn) := do
  let fn ← BcntFn.of? (fld w 24 8)
  let a ← opnd? (fld w 17 7)
  let d ← opnd? (fld w 10 7)
  pure { fn, a, d, w := bit w 9, s := bit w 1 }

def encIFnOpBcntFn (f : IFnOp BcntFn) : Nat :=
  1 + f.fn.code * 16777216 + f.a.code * 131072 + f.d.code * 1024 + f.w.toNat * 512 + f.s.toNat * 2

def decRdlaneOp (w : Nat) : Except DecErr (RdlaneOp) := do
  let ln ← fin? 32 (fld w 24 8)
  let a ← opnd? (fld w 17 7)
  let d ← sreg? (fld w 10 7)
  pure { ln, a, d, w := bit w 9, s := bit w 1 }

def encRdlaneOp (f : RdlaneOp) : Nat :=
  1 + f.ln.val * 16777216 + f.a.code * 131072 + (96 + f.d.val) * 1024 + f.w.toNat * 512 + f.s.toNat * 2

def decLOp (w : Nat) : Except DecErr (LOp) := do
  let d ← opnd? (fld w 9 7)
  pure { imm := BitVec.ofNat 16 (fld w 16 16), d, s := bit w 1 }

def encLOp (f : LOp) : Nat :=
  1 + f.imm.toNat * 65536 + f.d.code * 512 + f.s.toNat * 2

def decAaddOp (w : Nat) : Except DecErr (AaddOp) := do
  zeros w [(21, 4), (14, 4), (9, 2)]
  let a ← fin? 8 (fld w 18 3)
  let d ← fin? 8 (fld w 11 3)
  let b ← opnd? (fld w 25 7)
  pure { b, a, d, s := bit w 1 }

def encAaddOp (f : AaddOp) : Nat :=
  1 + f.b.code * 33554432 + f.a.val * 262144 + f.d.val * 2048 + f.s.toNat * 2

def decAaddiOp (w : Nat) : Except DecErr (AaddiOp) := do
  zeros w [(15, 1)]
  let a ← fin? 8 (fld w 12 3)
  let d ← fin? 8 (fld w 9 3)
  pure { imm := BitVec.ofNat 16 (fld w 16 16), a, d, s := bit w 1 }

def encAaddiOp (f : AaddiOp) : Nat :=
  1 + f.imm.toNat * 65536 + f.a.val * 4096 + f.d.val * 512 + f.s.toNat * 2

def decAputOp (w : Nat) : Except DecErr (AputOp) := do
  zeros w [(13, 4), (9, 1)]
  let part ← APart.of? (fld w 24 8)
  let d ← fin? 8 (fld w 10 3)
  let a ← opnd? (fld w 17 7)
  pure { part, a, d, s := bit w 1 }

def encAputOp (f : AputOp) : Nat :=
  1 + f.part.code * 16777216 + f.a.code * 131072 + f.d.val * 1024 + f.s.toNat * 2

def decAgetOp (w : Nat) : Except DecErr (AgetOp) := do
  zeros w [(20, 4)]
  let part ← APart.of? (fld w 24 8)
  let a ← fin? 8 (fld w 17 3)
  let d ← opnd? (fld w 10 7)
  pure { part, a, d, w := bit w 9, s := bit w 1 }

def encAgetOp (f : AgetOp) : Nat :=
  1 + f.part.code * 16777216 + f.a.val * 131072 + f.d.code * 1024 + f.w.toNat * 512 + f.s.toNat * 2

def decMOp (w : Nat) : Except DecErr (MOp) := do
  let size ← Size.of? (fld w 10 3)
  let ar ← fin? 8 (fld w 20 3)
  let data ← opnd? (fld w 13 7)
  pure { size, off := BitVec.ofNat 9 (fld w 23 9), ar, data, g := bit w 9, s := bit w 1 }

def encMOp (f : MOp) : Nat :=
  1 + f.size.code * 1024 + f.off.toNat * 8388608 + f.ar.val * 1048576 + f.data.code * 8192 + f.g.toNat * 512 + f.s.toNat * 2

def decNOp (w : Nat) : Except DecErr (NOp) := do
  zeros w [(30, 2)]
  let size ← Size.of? (fld w 10 3)
  let ar ← fin? 8 (fld w 20 3)
  let idx ← opnd? (fld w 23 7)
  let data ← opnd? (fld w 13 7)
  pure { size, idx, ar, data, g := bit w 9, s := bit w 1 }

def encNOp (f : NOp) : Nat :=
  1 + f.size.code * 1024 + f.idx.code * 8388608 + f.ar.val * 1048576 + f.data.code * 8192 + f.g.toNat * 512 + f.s.toNat * 2

def decSOp (w : Nat) : Except DecErr (SOp) := do
  let size ← Size.of? (fld w 10 3)
  let base ← opnd? (fld w 20 7)
  let data ← opnd? (fld w 13 7)
  pure { size, off := BitVec.ofNat 5 (fld w 27 5), base, data, g := bit w 9, s := bit w 1 }

def encSOp (f : SOp) : Nat :=
  1 + f.size.code * 1024 + f.off.toNat * 134217728 + f.base.code * 1048576 + f.data.code * 8192 + f.g.toNat * 512 + f.s.toNat * 2

def decQOp (w : Nat) : Except DecErr (QOp) := do
  let size ← Size.of? (fld w 10 3)
  let space ← BufSpace.of? (fld w 27 2)
  let base ← opnd? (fld w 20 7)
  let data ← opnd? (fld w 13 7)
  pure { size, space, off := BitVec.ofNat 3 (fld w 29 3), base, data, g := bit w 9, s := bit w 1 }

def encQOp (f : QOp) : Nat :=
  1 + f.size.code * 1024 + f.space.code * 134217728 + f.off.toNat * 536870912 + f.base.code * 1048576 + f.data.code * 8192 + f.g.toNat * 512 + f.s.toNat * 2

def decLdcOp (w : Nat) : Except DecErr (LdcOp) := do
  zeros w [(9, 1)]
  let a ← opnd? (fld w 17 7)
  let d ← opnd? (fld w 10 7)
  pure { imm := BitVec.ofNat 8 (fld w 24 8), a, d, s := bit w 1 }

def encLdcOp (f : LdcOp) : Nat :=
  1 + f.imm.toNat * 16777216 + f.a.code * 131072 + f.d.code * 1024 + f.s.toNat * 2

def decSatomOp (w : Nat) : Except DecErr (SatomOp) := do
  let fn ← SatomFn.of? (fld w 10 3)
  let base ← opnd? (fld w 20 7)
  let data ← opnd? (fld w 13 7)
  pure { fn, off := BitVec.ofNat 5 (fld w 27 5), base, data, g := bit w 9, s := bit w 1 }

def encSatomOp (f : SatomOp) : Nat :=
  1 + f.fn.code * 1024 + f.off.toNat * 134217728 + f.base.code * 1048576 + f.data.code * 8192 + f.g.toNat * 512 + f.s.toNat * 2

def decVoteOp (w : Nat) : Except DecErr (VoteOp) := do
  zeros w [(23, 4)]
  let fn ← VoteFn.of? (fld w 9 4)
  let p ← fin? 8 (fld w 20 3)
  let m ← mask? (fld w 27 5)
  let d ← opnd? (fld w 13 7)
  pure { fn, p, m, d, s := bit w 1 }

def encVoteOp (f : VoteOp) : Nat :=
  1 + f.fn.code * 512 + f.p.val * 1048576 + f.m.code * 134217728 + f.d.code * 8192 + f.s.toNat * 2

def decSreadOp (w : Nat) : Except DecErr (SreadOp) := do
  zeros w [(17, 7)]
  let d ← opnd? (fld w 10 7)
  pure { reg := BitVec.ofNat 8 (fld w 24 8), d, w := bit w 9, s := bit w 1 }

def encSreadOp (f : SreadOp) : Nat :=
  1 + f.reg.toNat * 16777216 + f.d.code * 1024 + f.w.toNat * 512 + f.s.toNat * 2

def decSwriteOp (w : Nat) : Except DecErr (SwriteOp) := do
  zeros w [(9, 8)]
  let a ← opnd? (fld w 17 7)
  pure { reg := BitVec.ofNat 8 (fld w 24 8), a, s := bit w 1 }

def encSwriteOp (f : SwriteOp) : Nat :=
  1 + f.reg.toNat * 16777216 + f.a.code * 131072 + f.s.toNat * 2

def decBrOp (w : Nat) : Except DecErr (BrOp) := do
  let p ← fin? 8 (fld w 9 3)
  pure { off := BitVec.ofNat 19 (fld w 13 19), neg := bit w 12, p, s := bit w 1 }

def encBrOp (f : BrOp) : Nat :=
  1 + f.off.toNat * 8192 + f.neg.toNat * 4096 + f.p.val * 512 + f.s.toNat * 2

def decJOp (w : Nat) : Except DecErr (JOp) := do
  pure { off := BitVec.ofNat 23 (fld w 9 23), s := bit w 1 }

def encJOp (f : JOp) : Nat :=
  1 + f.off.toNat * 512 + f.s.toNat * 2

def decGOp (w : Nat) : Except DecErr (GOp) := do
  zeros w [(10, 22)]
  pure { g := bit w 9, s := bit w 1 }

def encGOp (f : GOp) : Nat :=
  1 + f.g.toNat * 512 + f.s.toNat * 2

def decArOp (w : Nat) : Except DecErr (ArOp) := do
  zeros w [(20, 12), (9, 8)]
  let ar ← fin? 8 (fld w 17 3)
  pure { ar, s := bit w 1 }

def encArOp (f : ArOp) : Nat :=
  1 + f.ar.val * 131072 + f.s.toNat * 2

def decBarOp (w : Nat) : Except DecErr (BarOp) := do
  zeros w [(9, 1)]
  let lvl ← Level.of? (fld w 10 3)
  let n ← fin? 16 (fld w 13 4)
  need (barShapeOk lvl (fld w 24 8))
  let k ← barDest? (fld w 17 7)
  pure { lvl, shape := BitVec.ofNat 8 (fld w 24 8), k, n, s := bit w 1 }

def encBarOp (f : BarOp) : Nat :=
  1 + f.lvl.code * 1024 + f.shape.toNat * 16777216 + barDestCode f.k * 131072 + f.n.val * 8192 + f.s.toNat * 2

def decBaraOp (w : Nat) : Except DecErr (BaraOp) := do
  zeros w [(17, 7), (9, 1)]
  let lvl ← Level.of? (fld w 10 3)
  let n ← fin? 16 (fld w 13 4)
  need (barShapeOk lvl (fld w 24 8))
  pure { lvl, shape := BitVec.ofNat 8 (fld w 24 8), n, s := bit w 1 }

def encBaraOp (f : BaraOp) : Nat :=
  1 + f.lvl.code * 1024 + f.shape.toNat * 16777216 + f.n.val * 8192 + f.s.toNat * 2

def decTrapOp (w : Nat) : Except DecErr (TrapOp) := do
  zeros w [(10, 14)]
  pure { n := BitVec.ofNat 8 (fld w 24 8), g := bit w 9, s := bit w 1 }

def encTrapOp (f : TrapOp) : Nat :=
  1 + f.n.toNat * 16777216 + f.g.toNat * 512 + f.s.toNat * 2

def decFenceOp (w : Nat) : Except DecErr (FenceOp) := do
  zeros w [(13, 19)]
  let scope ← Scope.of? (fld w 10 3)
  pure { scope, g := bit w 9, s := bit w 1 }

def encFenceOp (f : FenceOp) : Nat :=
  1 + f.scope.code * 1024 + f.g.toNat * 512 + f.s.toNat * 2

def decFencexOp (w : Nat) : Except DecErr (FencexOp) := do
  zeros w [(19, 13)]
  pure { frm := BitVec.ofNat 5 (fld w 9 5), into := BitVec.ofNat 5 (fld w 14 5), s := bit w 1 }

def encFencexOp (f : FencexOp) : Nat :=
  1 + f.frm.toNat * 512 + f.into.toNat * 16384 + f.s.toNat * 2

def decSpawnOp (w : Nat) : Except DecErr (SpawnOp) := do
  zeros w [(20, 4), (10, 3)]
  let ar ← fin? 8 (fld w 17 3)
  let kern ← fin? 16 (fld w 13 4)
  pure { slot := BitVec.ofNat 8 (fld w 24 8), ar, kern, g := bit w 9, s := bit w 1 }

def encSpawnOp (f : SpawnOp) : Nat :=
  1 + f.slot.toNat * 16777216 + f.ar.val * 131072 + f.kern.val * 8192 + f.g.toNat * 512 + f.s.toNat * 2

def decTraceOp (w : Nat) : Except DecErr (TraceOp) := do
  zeros w [(20, 12), (13, 4)]
  let fn ← TraceFn.of? (fld w 10 3)
  let ar ← fin? 8 (fld w 17 3)
  pure { fn, ar, g := bit w 9, s := bit w 1 }

def encTraceOp (f : TraceOp) : Nat :=
  1 + f.fn.code * 1024 + f.ar.val * 131072 + f.g.toNat * 512 + f.s.toNat * 2

def decMresOp (w : Nat) : Except DecErr (MresOp) := do
  zeros w [(20, 12), (9, 8)]
  let p ← fin? 8 (fld w 17 3)
  pure { p, s := bit w 1 }

def encMresOp (f : MresOp) : Nat :=
  1 + f.p.val * 131072 + f.s.toNat * 2

def decSOnly (w : Nat) : Except DecErr (SOnly) := do
  zeros w [(9, 23)]
  pure { s := bit w 1 }

def encSOnly (f : SOnly) : Nat :=
  1 + f.s.toNat * 2

def decMloadbOp (w : Nat) : Except DecErr (MloadbOp) := do
  zeros w [(27, 5), (17, 7), (9, 4)]
  let ch ← fin? 16 (fld w 13 4)
  pure { front := bit w 26, arr := BitVec.ofNat 2 (fld w 24 2), ch, s := bit w 1 }

def encMloadbOp (f : MloadbOp) : Nat :=
  1 + f.front.toNat * 67108864 + f.arr.toNat * 16777216 + f.ch.val * 8192 + f.s.toNat * 2

def decScaOp (w : Nat) : Except DecErr (ScaOp) := do
  zeros w [(13, 19)]
  let ca ← MClass.of? (fld w 11 2)
  let cb ← MClass.of? (fld w 9 2)
  pure { ca, cb, s := bit w 1 }

def encScaOp (f : ScaOp) : Nat :=
  1 + f.ca.code * 2048 + f.cb.code * 512 + f.s.toNat * 2

def decSetpOp (w : Nat) : Except DecErr (SetpOp) := do
  zeros w [(30, 2), (20, 4), (13, 4), (9, 1)]
  let fn ← SetpFn.of? (fld w 27 3)
  let y ← fin? 8 (fld w 24 3)
  let x ← fin? 8 (fld w 17 3)
  let d ← fin? 8 (fld w 10 3)
  pure { fn, y, x, d, s := bit w 1 }

def encSetpOp (f : SetpOp) : Nat :=
  1 + f.fn.code * 134217728 + f.y.val * 16777216 + f.x.val * 131072 + f.d.val * 1024 + f.s.toNat * 2

def decCvtOp (w : Nat) : Except DecErr (CvtOp) := do
  zeros w [(30, 2)]
  let r ← Rnd.of? (fld w 27 3)
  let a ← opnd? (fld w 20 7)
  let d ← opnd? (fld w 13 7)
  pure { r, a, d, s := bit w 1 }

def encCvtOp (f : CvtOp) : Nat :=
  1 + f.r.code * 134217728 + f.a.code * 1048576 + f.d.code * 8192 + f.s.toNat * 2

def decCvtSelOpBool (w : Nat) : Except DecErr (CvtSelOp Bool) := do
  zeros w [(31, 1)]
  let r ← Rnd.of? (fld w 27 3)
  let a ← opnd? (fld w 20 7)
  let d ← opnd? (fld w 13 7)
  pure { r, sel := bit w 30, a, d, s := bit w 1 }

def encCvtSelOpBool (f : CvtSelOp Bool) : Nat :=
  1 + f.r.code * 134217728 + f.sel.toNat * 1073741824 + f.a.code * 1048576 + f.d.code * 8192 + f.s.toNat * 2

def decCvtSelOpFin4 (w : Nat) : Except DecErr (CvtSelOp (Fin 4)) := do
  let r ← Rnd.of? (fld w 27 3)
  let sel ← fin? 4 (fld w 30 2)
  let a ← opnd? (fld w 20 7)
  let d ← opnd? (fld w 13 7)
  pure { r, sel, a, d, s := bit w 1 }

def encCvtSelOpFin4 (f : CvtSelOp (Fin 4)) : Nat :=
  1 + f.r.code * 134217728 + f.sel.val * 1073741824 + f.a.code * 1048576 + f.d.code * 8192 + f.s.toNat * 2

def decSfuOp (w : Nat) : Except DecErr (SfuOp) := do
  zeros w [(27, 5)]
  let a ← opnd? (fld w 20 7)
  let d ← opnd? (fld w 13 7)
  pure { a, d, s := bit w 1 }

def encSfuOp (f : SfuOp) : Nat :=
  1 + f.a.code * 1048576 + f.d.code * 8192 + f.s.toNat * 2

def decDivOp (w : Nat) : Except DecErr (DivOp) := do
  let b ← fin? 32 (fld w 27 5)
  let a ← opnd? (fld w 20 7)
  let d ← opnd? (fld w 13 7)
  pure { b, a, d, s := bit w 1 }

def encDivOp (f : DivOp) : Nat :=
  1 + f.b.val * 134217728 + f.a.code * 1048576 + f.d.code * 8192 + f.s.toNat * 2

def decRndOp (w : Nat) : Except DecErr (RndOp) := do
  let mode ← RndInt.of? (fld w 27 5)
  let a ← opnd? (fld w 20 7)
  let d ← opnd? (fld w 13 7)
  pure { mode, a, d, s := bit w 1 }

def encRndOp (f : RndOp) : Nat :=
  1 + f.mode.code * 134217728 + f.a.code * 1048576 + f.d.code * 8192 + f.s.toNat * 2

def decCopyOp (w : Nat) : Except DecErr (CopyOp) := do
  zeros w [(31, 1), (23, 4)]
  let ch ← fin? 16 (fld w 27 4)
  let ar ← fin? 8 (fld w 20 3)
  let cnt ← opnd? (fld w 13 7)
  pure { ch, ar, cnt, s := bit w 1 }

def encCopyOp (f : CopyOp) : Nat :=
  1 + f.ch.val * 134217728 + f.ar.val * 1048576 + f.cnt.code * 8192 + f.s.toNat * 2

def decCopytOp (w : Nat) : Except DecErr (CopytOp) := do
  zeros w [(13, 7)]
  let ch ← fin? 16 (fld w 27 4)
  let off ← opnd? (fld w 20 7)
  pure { slot := bit w 31, ch, off, s := bit w 1 }

def encCopytOp (f : CopytOp) : Nat :=
  1 + f.slot.toNat * 2147483648 + f.ch.val * 134217728 + f.off.code * 1048576 + f.s.toNat * 2

def decCopymOp (w : Nat) : Except DecErr (CopymOp) := do
  zeros w [(19, 1)]
  let ch ← fin? 16 (fld w 27 4)
  need (shapeOk (fld w 13 6))
  let off ← opnd? (fld w 20 7)
  pure { slot := bit w 31, ch, shape := BitVec.ofNat 6 (fld w 13 6), off, s := bit w 1 }

def encCopymOp (f : CopymOp) : Nat :=
  1 + f.slot.toNat * 2147483648 + f.ch.val * 134217728 + f.shape.toNat * 8192 + f.off.code * 1048576 + f.s.toNat * 2

def decCopyoOp (w : Nat) : Except DecErr (CopyoOp) := do
  zeros w [(23, 4)]
  let ch ← fin? 16 (fld w 27 4)
  let ar ← fin? 8 (fld w 20 3)
  let cnt ← opnd? (fld w 13 7)
  pure { plain := bit w 31, ch, ar, cnt, s := bit w 1 }

def encCopyoOp (f : CopyoOp) : Nat :=
  1 + f.plain.toNat * 2147483648 + f.ch.val * 134217728 + f.ar.val * 1048576 + f.cnt.code * 8192 + f.s.toNat * 2

def decTagOp (w : Nat) : Except DecErr (TagOp) := do
  zeros w [(27, 5), (13, 7)]
  let tag ← opnd? (fld w 20 7)
  pure { tag, s := bit w 1 }

def encTagOp (f : TagOp) : Nat :=
  1 + f.tag.code * 1048576 + f.s.toNat * 2

def decChinitOp (w : Nat) : Except DecErr (ChinitOp) := do
  zeros w [(31, 1), (17, 10)]
  let ch ← fin? 16 (fld w 27 4)
  let cons ← ChPath.of? (fld w 15 2)
  let prod ← ChPath.of? (fld w 13 2)
  pure { ch, cons, prod, s := bit w 1 }

def encChinitOp (f : ChinitOp) : Nat :=
  1 + f.ch.val * 134217728 + f.cons.code * 32768 + f.prod.code * 8192 + f.s.toNat * 2

def decChwaitOp (w : Nat) : Except DecErr (ChwaitOp) := do
  zeros w [(13, 7)]
  let ch ← fin? 16 (fld w 27 4)
  let n ← opnd? (fld w 20 7)
  pure { free := bit w 31, ch, n, s := bit w 1 }

def encChwaitOp (f : ChwaitOp) : Nat :=
  1 + f.free.toNat * 2147483648 + f.ch.val * 134217728 + f.n.code * 1048576 + f.s.toNat * 2

def decChnOp (w : Nat) : Except DecErr (ChnOp) := do
  zeros w [(31, 1), (13, 7)]
  let ch ← fin? 16 (fld w 27 4)
  let n ← opnd? (fld w 20 7)
  pure { ch, n, s := bit w 1 }

def encChnOp (f : ChnOp) : Nat :=
  1 + f.ch.val * 134217728 + f.n.code * 1048576 + f.s.toNat * 2

def decChqryOp (w : Nat) : Except DecErr (ChqryOp) := do
  zeros w [(31, 1), (20, 7)]
  let ch ← fin? 16 (fld w 27 4)
  let d ← opnd? (fld w 13 7)
  pure { ch, d, s := bit w 1 }

def encChqryOp (f : ChqryOp) : Nat :=
  1 + f.ch.val * 134217728 + f.d.code * 8192 + f.s.toNat * 2

def decChOp (w : Nat) : Except DecErr (ChOp) := do
  zeros w [(31, 1), (13, 14)]
  let ch ← fin? 16 (fld w 27 4)
  pure { ch, s := bit w 1 }

def encChOp (f : ChOp) : Nat :=
  1 + f.ch.val * 134217728 + f.s.toNat * 2

def decRangeOp (w : Nat) : Except DecErr (RangeOp) := do
  zeros w [(23, 9)]
  let ar ← fin? 8 (fld w 20 3)
  let cnt ← opnd? (fld w 13 7)
  pure { ar, cnt, s := bit w 1 }

def encRangeOp (f : RangeOp) : Nat :=
  1 + f.ar.val * 1048576 + f.cnt.code * 8192 + f.s.toNat * 2

def decTdescOp (w : Nat) : Except DecErr (TdescOp) := do
  zeros w [(28, 4), (23, 4), (13, 7)]
  let ar ← fin? 8 (fld w 20 3)
  pure { slot := bit w 27, ar, s := bit w 1 }

def encTdescOp (f : TdescOp) : Nat :=
  1 + f.slot.toNat * 134217728 + f.ar.val * 1048576 + f.s.toNat * 2

def decCpstatOp (w : Nat) : Except DecErr (CpstatOp) := do
  zeros w [(20, 7)]
  let sel ← fin? 3 (fld w 27 5)
  let d ← opnd? (fld w 13 7)
  pure { sel, d, s := bit w 1 }

def encCpstatOp (f : CpstatOp) : Nat :=
  1 + f.sel.val * 134217728 + f.d.code * 8192 + f.s.toNat * 2

def decMmulOp (w : Nat) : Except DecErr (MmulOp) := do
  zeros w [(13, 14)]
  let ch ← fin? 16 (fld w 27 4)
  let ca ← MClass.of? (fld w 11 2)
  let cb ← MClass.of? (fld w 9 2)
  pure { swap := bit w 31, ch, ca, cb, s := bit w 1 }

def encMmulOp (f : MmulOp) : Nat :=
  1 + f.swap.toNat * 2147483648 + f.ch.val * 134217728 + f.ca.code * 2048 + f.cb.code * 512 + f.s.toNat * 2

def decEOpCaddTy (w : Nat) : Except DecErr (EOp CaddTy) := do
  let ty ← CaddTy.of? (fld w 10 3)
  let ar ← fin? 8 (fld w 20 3)
  let val ← opnd? (fld w 13 7)
  pure { ty, off := BitVec.ofNat 9 (fld w 23 9), ar, val, g := bit w 9, s := bit w 1 }

def encEOpCaddTy (f : EOp CaddTy) : Nat :=
  1 + f.ty.code * 1024 + f.off.toNat * 8388608 + f.ar.val * 1048576 + f.val.code * 8192 + f.g.toNat * 512 + f.s.toNat * 2

def decEOpCtwoTy (w : Nat) : Except DecErr (EOp CtwoTy) := do
  let ty ← CtwoTy.of? (fld w 10 3)
  let ar ← fin? 8 (fld w 20 3)
  let val ← opnd? (fld w 13 7)
  pure { ty, off := BitVec.ofNat 9 (fld w 23 9), ar, val, g := bit w 9, s := bit w 1 }

def encEOpCtwoTy (f : EOp CtwoTy) : Nat :=
  1 + f.ty.code * 1024 + f.off.toNat * 8388608 + f.ar.val * 1048576 + f.val.code * 8192 + f.g.toNat * 512 + f.s.toNat * 2

def decEOpCmmTy (w : Nat) : Except DecErr (EOp CmmTy) := do
  let ty ← CmmTy.of? (fld w 10 3)
  let ar ← fin? 8 (fld w 20 3)
  let val ← opnd? (fld w 13 7)
  pure { ty, off := BitVec.ofNat 9 (fld w 23 9), ar, val, g := bit w 9, s := bit w 1 }

def encEOpCmmTy (f : EOp CmmTy) : Nat :=
  1 + f.ty.code * 1024 + f.off.toNat * 8388608 + f.ar.val * 1048576 + f.val.code * 8192 + f.g.toNat * 512 + f.s.toNat * 2

def decEOpBitTy (w : Nat) : Except DecErr (EOp BitTy) := do
  let ty ← BitTy.of? (fld w 10 3)
  let ar ← fin? 8 (fld w 20 3)
  let val ← opnd? (fld w 13 7)
  pure { ty, off := BitVec.ofNat 9 (fld w 23 9), ar, val, g := bit w 9, s := bit w 1 }

def encEOpBitTy (f : EOp BitTy) : Nat :=
  1 + f.ty.code * 1024 + f.off.toNat * 8388608 + f.ar.val * 1048576 + f.val.code * 8192 + f.g.toNat * 512 + f.s.toNat * 2

def decEOpCaffTy (w : Nat) : Except DecErr (EOp CaffTy) := do
  let ty ← CaffTy.of? (fld w 10 3)
  let ar ← fin? 8 (fld w 20 3)
  let val ← opnd? (fld w 13 7)
  pure { ty, off := BitVec.ofNat 9 (fld w 23 9), ar, val, g := bit w 9, s := bit w 1 }

def encEOpCaffTy (f : EOp CaffTy) : Nat :=
  1 + f.ty.code * 1024 + f.off.toNat * 8388608 + f.ar.val * 1048576 + f.val.code * 8192 + f.g.toNat * 512 + f.s.toNat * 2

def decEOpCbitTy (w : Nat) : Except DecErr (EOp CbitTy) := do
  let ty ← CbitTy.of? (fld w 10 3)
  let ar ← fin? 8 (fld w 20 3)
  let val ← opnd? (fld w 13 7)
  pure { ty, off := BitVec.ofNat 9 (fld w 23 9), ar, val, g := bit w 9, s := bit w 1 }

def encEOpCbitTy (f : EOp CbitTy) : Nat :=
  1 + f.ty.code * 1024 + f.off.toNat * 8388608 + f.ar.val * 1048576 + f.val.code * 8192 + f.g.toNat * 512 + f.s.toNat * 2

def decEOpModwTy (w : Nat) : Except DecErr (EOp ModwTy) := do
  let ty ← ModwTy.of? (fld w 10 3)
  let ar ← fin? 8 (fld w 20 3)
  let val ← opnd? (fld w 13 7)
  pure { ty, off := BitVec.ofNat 9 (fld w 23 9), ar, val, g := bit w 9, s := bit w 1 }

def encEOpModwTy (f : EOp ModwTy) : Nat :=
  1 + f.ty.code * 1024 + f.off.toNat * 8388608 + f.ar.val * 1048576 + f.val.code * 8192 + f.g.toNat * 512 + f.s.toNat * 2

def decWOpWredFn (w : Nat) : Except DecErr (WOp WredFn) := do
  let fn ← WredFn.of? (fld w 9 4)
  let m ← mask? (fld w 27 5)
  let a ← opnd? (fld w 20 7)
  let d ← opnd? (fld w 13 7)
  pure { fn, m, a, d, s := bit w 1 }

def encWOpWredFn (f : WOp WredFn) : Nat :=
  1 + f.fn.code * 512 + f.m.code * 134217728 + f.a.code * 1048576 + f.d.code * 8192 + f.s.toNat * 2

def decWOpWscanFn (w : Nat) : Except DecErr (WOp WscanFn) := do
  let fn ← WscanFn.of? (fld w 9 4)
  let m ← mask? (fld w 27 5)
  let a ← opnd? (fld w 20 7)
  let d ← opnd? (fld w 13 7)
  pure { fn, m, a, d, s := bit w 1 }

def encWOpWscanFn (f : WOp WscanFn) : Nat :=
  1 + f.fn.code * 512 + f.m.code * 134217728 + f.a.code * 1048576 + f.d.code * 8192 + f.s.toNat * 2

def decWOpWsortFn (w : Nat) : Except DecErr (WOp WsortFn) := do
  let fn ← WsortFn.of? (fld w 9 4)
  let m ← mask? (fld w 27 5)
  let a ← opnd? (fld w 20 7)
  let d ← opnd? (fld w 13 7)
  pure { fn, m, a, d, s := bit w 1 }

def encWOpWsortFn (f : WOp WsortFn) : Nat :=
  1 + f.fn.code * 512 + f.m.code * 134217728 + f.a.code * 1048576 + f.d.code * 8192 + f.s.toNat * 2

def decWOpBv4 (w : Nat) : Except DecErr (WOp (BitVec 4)) := do
  let m ← mask? (fld w 27 5)
  let a ← opnd? (fld w 20 7)
  let d ← opnd? (fld w 13 7)
  pure { fn := BitVec.ofNat 4 (fld w 9 4), m, a, d, s := bit w 1 }

def encWOpBv4 (f : WOp (BitVec 4)) : Nat :=
  1 + f.fn.toNat * 512 + f.m.code * 134217728 + f.a.code * 1048576 + f.d.code * 8192 + f.s.toNat * 2

/-- The instruction of a 32-bit word before its operands are checked against R35 (R44, R45). -/
def raw32 (w : Nat) : Except DecErr Instr :=
  match fld w 2 7 with
  | 1 => .iadd <$> decTOp w
  | 2 => .isub <$> decTOp w
  | 3 => .imul <$> decTOp w
  | 4 => .imulh <$> decTOp w
  | 5 => .imulhu <$> decTOp w
  | 6 => .imad <$> decTOp w
  | 7 => .idiv <$> decTOp w
  | 8 => .idivu <$> decTOp w
  | 9 => .irem <$> decTOp w
  | 10 => .iremu <$> decTOp w
  | 11 => .imin <$> decTOp w
  | 12 => .imax <$> decTOp w
  | 13 => .umin <$> decTOp w
  | 14 => .umax <$> decTOp w
  | 15 => .and <$> decTOp w
  | 16 => .or <$> decTOp w
  | 17 => .xor <$> decTOp w
  | 18 => .andn <$> decTOp w
  | 19 => .shl <$> decTOp w
  | 20 => .shru <$> decTOp w
  | 21 => .shrs <$> decTOp w
  | 22 => .bfx <$> decTOp w
  | 23 => .bfi <$> decTOp w
  | 24 => .sel <$> decTOp w
  | 25 => .icmp <$> decCmpOpICond w
  | 26 => .iaddi <$> decIOp w
  | 27 => .andi <$> decIOp w
  | 28 => .ori <$> decIOp w
  | 29 => .xori <$> decIOp w
  | 30 => .shli <$> decIOp w
  | 31 => .shrui <$> decIOp w
  | 32 => .shrsi <$> decIOp w
  | 33 => .movi <$> decLOp w
  | 34 => .movhi <$> decLOp w
  | 35 => .aadd <$> decAaddOp w
  | 36 => .aaddi <$> decAaddiOp w
  | 37 => .aput <$> decAputOp w
  | 38 => .aget <$> decAgetOp w
  | 39 => .ldg <$> decMOp w
  | 40 => .stg <$> decMOp w
  | 41 => .ldgx <$> decNOp w
  | 42 => .stgx <$> decNOp w
  | 43 => .lds <$> decSOp w
  | 44 => .sts <$> decSOp w
  | 45 => .ldb <$> decQOp w
  | 46 => .stb <$> decQOp w
  | 47 => .ldc <$> decLdcOp w
  | 48 => .cadd <$> decEOpCaddTy w
  | 49 => .ctwo <$> decEOpCtwoTy w
  | 50 => .cmin <$> decEOpCmmTy w
  | 51 => .cmax <$> decEOpCmmTy w
  | 52 => .cord <$> decEOpBitTy w
  | 53 => .caff <$> decEOpCaffTy w
  | 54 => .cbit <$> decEOpCbitTy w
  | 55 => .ldct <$> decEOpBitTy w
  | 56 => .ldcs <$> decEOpBitTy w
  | 57 => .satom <$> decSatomOp w
  | 58 => .shfl <$> decWOpBv4 w
  | 59 => .vote <$> decVoteOp w
  | 60 => .wred <$> decWOpWredFn w
  | 61 => .wscan <$> decWOpWscanFn w
  | 62 => .sread <$> decSreadOp w
  | 63 => .swrite <$> decSwriteOp w
  | 64 => .br <$> decBrOp w
  | 65 => .jmp <$> decJOp w
  | 66 => .call <$> decJOp w
  | 67 => .ret <$> decGOp w
  | 68 => .jmpi <$> decArOp w
  | 69 => .reform <$> decGOp w
  | 70 => .yield <$> decGOp w
  | 71 => .exit <$> decGOp w
  | 72 => .bar <$> decBarOp w
  | 73 => .bara <$> decBaraOp w
  | 74 => .barw <$> decBarOp w
  | 75 => .trap <$> decTrapOp w
  | 76 => .bkpt <$> decGOp w
  | 77 => .fence <$> decFenceOp w
  | 78 => .fencex <$> decFencexOp w
  | 79 => .spawn <$> decSpawnOp w
  | 80 => .join <$> decGOp w
  | 81 => .prop <$> decArOp w
  | 82 => .modw <$> decEOpModwTy w
  | 83 => .trace <$> decTraceOp w
  | 84 => .mres <$> decMresOp w
  | 85 => .mrel <$> decSOnly w
  | 86 => .mloadb <$> decMloadbOp w
  | 87 => .sca <$> decScaOp w
  | 88 => .fadd <$> decTOp w
  | 89 => .fsub <$> decTOp w
  | 90 => .fmul <$> decTOp w
  | 91 => .fma <$> decTOp w
  | 92 => .fmin <$> decTOp w
  | 93 => .fmax <$> decTOp w
  | 94 => .fcmp <$> decCmpOpFCond w
  | 95 => .dadd <$> decTOp w
  | 96 => .dsub <$> decTOp w
  | 97 => .dmul <$> decTOp w
  | 98 => .dfma <$> decTOp w
  | 99 => .dmin <$> decTOp w
  | 100 => .dmax <$> decTOp w
  | 101 => .dcmp <$> decCmpOpFCond w
  | 102 => .badd2 <$> decTOp w
  | 103 => .bmul2 <$> decTOp w
  | 104 => .bfma2 <$> decTOp w
  | 105 => .fsgn <$> decIFnOpFsgnFn w
  | 106 => .mov <$> decMovOp w
  | 107 => .rdlane <$> decRdlaneOp w
  | 108 => .rng <$> decRngOp w
  | 109 => .wsort <$> decWOpWsortFn w
  | 110 => .bcnt <$> decIFnOpBcntFn w
  | 111 => .icmpi <$> decCmpIOp w
  | 112 => .setp <$> decSetpOp w
  | 116 => .mmul <$> decMmulOp w
  | 113 => match fld w 9 4 with
    | 0 => .cvtF32D <$> decCvtOp w
    | 1 => .cvtDF32 <$> decCvtOp w
    | 2 => .cvtB16F32 <$> decCvtOp w
    | 3 => .cvtF32B16 <$> decCvtSelOpBool w
    | 4 => .cvtH16F32 <$> decCvtOp w
    | 5 => .cvtF32H16 <$> decCvtSelOpBool w
    | 6 => .cvtS32F32 <$> decCvtOp w
    | 7 => .cvtF32S32 <$> decCvtOp w
    | 8 => .cvtZ32F32 <$> decCvtOp w
    | 9 => .cvtF32Z32 <$> decCvtOp w
    | 10 => .cvtS64D <$> decCvtOp w
    | 11 => .cvtDS64 <$> decCvtOp w
    | 12 => .cvtN8F32 <$> decCvtSelOpFin4 w
    | 13 => .cvtF32N8 <$> decCvtSelOpFin4 w
    | 14 => .cvtQ8F32 <$> decCvtOp w
    | 15 => .cvtF32Q8 <$> decCvtOp w
    | _ => illegal
  | 114 => match fld w 9 4 with
    | 0 => .rsqa <$> decSfuOp w
    | 1 => .rcpa <$> decSfuOp w
    | 2 => .ex2a <$> decSfuOp w
    | 3 => .lg2a <$> decSfuOp w
    | 4 => .sina <$> decSfuOp w
    | 5 => .cosa <$> decSfuOp w
    | 6 => .tanha <$> decSfuOp w
    | 7 => .fsqrt <$> decSfuOp w
    | 8 => .fdiv <$> decDivOp w
    | 9 => .fex2 <$> decSfuOp w
    | 10 => .flg2 <$> decSfuOp w
    | 11 => .frnd <$> decRndOp w
    | 12 => .dsqrt <$> decSfuOp w
    | 13 => .ddiv <$> decDivOp w
    | 14 => .drsq <$> decSfuOp w
    | 15 => .drnd <$> decRndOp w
    | _ => illegal
  | 115 => match fld w 9 4 with
    | 0 => .copy <$> decCopyOp w
    | 1 => .copyt <$> decCopytOp w
    | 2 => .copym <$> decCopymOp w
    | 3 => .copyo <$> decCopyoOp w
    | 4 => .copyw <$> decTagOp w
    | 5 => .copyx <$> decTagOp w
    | 6 => .chinit <$> decChinitOp w
    | 7 => .chwait <$> decChwaitOp w
    | 8 => .chadv <$> decChnOp w
    | 9 => .chpub <$> decChnOp w
    | 10 => .chqry <$> decChqryOp w
    | 11 => .chfree <$> decChOp w
    | 12 => .pref <$> decRangeOp w
    | 13 => .drop <$> decRangeOp w
    | 14 => .tdesc <$> decTdescOp w
    | 15 => .cpstat <$> decCpstatOp w
    | _ => illegal
  | _ => illegal

/-- R33, R46, then R34, R35, R47: what the format alone does not decide. -/
def checked (i : Instr) : Except DecErr Instr :=
  if i.selOk then (if i.opOk maxBudget then .ok i else .error .operand) else .error .illegal

/-- Decodes a 32-bit word, whose bit 0 is 1 (R27, R48). -/
def decode32 (w : Nat) : Except DecErr Instr := do
  let i ← raw32 w
  checked i

/-- The compact operation of a parcel (R30, R31). -/
def decCOp (w : Nat) : Except DecErr COp := do
  need (w != 0)
  let d ← fin? 32 (fld w 5 5)
  let b ← copnd? (fld w 10 6)
  pure { b, d }

def encCOp (f : COp) : Nat := f.d.val * 32 + f.b.ccode * 1024

/-- Decodes a compact parcel, whose bit 0 is 0 (R27, R30). -/
def decode16 (w : Nat) : Except DecErr Instr := do
  let f ← decCOp w
  let i ← match fld w 1 4 with
    | 0 => .ok (.movCompact f)
    | 1 => .ok (.iaddCompact f)
    | 2 => .ok (.isubCompact f)
    | 3 => .ok (.imulCompact f)
    | 4 => .ok (.andCompact f)
    | 5 => .ok (.orCompact f)
    | 6 => .ok (.xorCompact f)
    | 7 => .ok (.shlCompact f)
    | 8 => .ok (.shruCompact f)
    | 9 => .ok (.shrsCompact f)
    | 10 => .ok (.faddCompact f)
    | 11 => .ok (.fsubCompact f)
    | 12 => .ok (.fmulCompact f)
    | 13 => .ok (.fminCompact f)
    | 14 => .ok (.fmaxCompact f)
    | 15 => .ok (.selCompact f)
    | _ => illegal
  checked i

/-! ### Reed operations (R245, R246) -/

def decReedMem (w : Nat) : ReedMem :=
  { d := ⟨fld w 20 4, Nat.mod_lt _ (by decide)⟩, s := ⟨fld w 16 4, Nat.mod_lt _ (by decide)⟩,
    w := BitVec.ofNat 2 (fld w 14 2), off := BitVec.ofNat 14 (fld w 0 14) }

def encReedMem (f : ReedMem) : Nat := f.d.val * 1048576 + f.s.val * 65536 + f.w.toNat * 16384 + f.off.toNat

def decReedImm (w : Nat) : ReedImm :=
  { d := ⟨fld w 20 4, Nat.mod_lt _ (by decide)⟩, imm := BitVec.ofNat 16 (fld w 0 16) }

def encReedImm (f : ReedImm) : Nat := f.d.val * 1048576 + f.imm.toNat

def decReedReg (w : Nat) : ReedReg :=
  { d := ⟨fld w 20 4, Nat.mod_lt _ (by decide)⟩, s := ⟨fld w 16 4, Nat.mod_lt _ (by decide)⟩ }

def encReedReg (f : ReedReg) : Nat := f.d.val * 1048576 + f.s.val * 65536

def decReedBr (w : Nat) : ReedBr :=
  { d := ⟨fld w 20 4, Nat.mod_lt _ (by decide)⟩, s := ⟨fld w 16 4, Nat.mod_lt _ (by decide)⟩,
    imm := BitVec.ofNat 16 (fld w 0 16) }

def encReedBr (f : ReedBr) : Nat := f.d.val * 1048576 + f.s.val * 65536 + f.imm.toNat

/-- The reed operation of a word; none for an op not in R245 or a nonzero field that the op does not use (R246). -/
def decodeReed (w : Nat) : Option Instr :=
  let i : Option Instr := match fld w 24 8 with
    | 1 => some (.reedLdw (decReedMem w))
    | 2 => some (.reedLdd (decReedMem w))
    | 3 => some (.reedLdv (decReedMem w))
    | 4 => some (.reedStw (decReedMem w))
    | 5 => some (.reedStd (decReedMem w))
    | 6 => some (.reedStv (decReedMem w))
    | 7 => if fld w 16 4 == 0 then some (.reedLi (decReedImm w)) else none
    | 8 => if fld w 16 4 == 0 then some (.reedLis (decReedImm w)) else none
    | 9 => if fld w 0 16 == 0 then some (.reedAdd (decReedReg w)) else none
    | 10 => if fld w 16 4 == 0 then some (.reedAddi (decReedImm w)) else none
    | 11 => if fld w 0 16 == 0 then some (.reedSub (decReedReg w)) else none
    | 12 => if fld w 0 16 == 0 then some (.reedAnd (decReedReg w)) else none
    | 13 => if fld w 0 16 == 0 then some (.reedOr (decReedReg w)) else none
    | 14 => if fld w 16 4 == 0 then some (.reedShli (decReedImm w)) else none
    | 15 => if fld w 16 4 == 0 then some (.reedShri (decReedImm w)) else none
    | 16 => some (.reedBeq (decReedBr w))
    | 17 => some (.reedBne (decReedBr w))
    | 18 => some (.reedBltu (decReedBr w))
    | 19 => if fld w 16 4 == 0 then some (.reedLoop (decReedImm w)) else none
    | 20 => if fld w 16 8 == 0 then some (.reedCall (BitVec.ofNat 16 (fld w 0 16))) else none
    | 21 => if fld w 16 8 == 0 then some (.reedEnd (BitVec.ofNat 16 (fld w 0 16))) else none
    | 22 => if fld w 16 8 == 0 then some (.reedFail (BitVec.ofNat 16 (fld w 0 16))) else none
    | _ => none
  match i with
  | some j => if j.selOk then some j else none
  | none => none

/-! ### The encoder -/

/-- The number of bits and the word of an instruction; none for a row that has no encoding. -/
def encode : Instr → Option (Nat × Nat)
  | .iadd f => some (32, 4 + encTOp f)
  | .isub f => some (32, 8 + encTOp f)
  | .imul f => some (32, 12 + encTOp f)
  | .imulh f => some (32, 16 + encTOp f)
  | .imulhu f => some (32, 20 + encTOp f)
  | .imad f => some (32, 24 + encTOp f)
  | .idiv f => some (32, 28 + encTOp f)
  | .idivu f => some (32, 32 + encTOp f)
  | .irem f => some (32, 36 + encTOp f)
  | .iremu f => some (32, 40 + encTOp f)
  | .imin f => some (32, 44 + encTOp f)
  | .imax f => some (32, 48 + encTOp f)
  | .umin f => some (32, 52 + encTOp f)
  | .umax f => some (32, 56 + encTOp f)
  | .and f => some (32, 60 + encTOp f)
  | .or f => some (32, 64 + encTOp f)
  | .xor f => some (32, 68 + encTOp f)
  | .andn f => some (32, 72 + encTOp f)
  | .shl f => some (32, 76 + encTOp f)
  | .shru f => some (32, 80 + encTOp f)
  | .shrs f => some (32, 84 + encTOp f)
  | .bfx f => some (32, 88 + encTOp f)
  | .bfi f => some (32, 92 + encTOp f)
  | .sel f => some (32, 96 + encTOp f)
  | .icmp f => some (32, 100 + encCmpOpICond f)
  | .iaddi f => some (32, 104 + encIOp f)
  | .andi f => some (32, 108 + encIOp f)
  | .ori f => some (32, 112 + encIOp f)
  | .xori f => some (32, 116 + encIOp f)
  | .shli f => some (32, 120 + encIOp f)
  | .shrui f => some (32, 124 + encIOp f)
  | .shrsi f => some (32, 128 + encIOp f)
  | .movi f => some (32, 132 + encLOp f)
  | .movhi f => some (32, 136 + encLOp f)
  | .aadd f => some (32, 140 + encAaddOp f)
  | .aaddi f => some (32, 144 + encAaddiOp f)
  | .aput f => some (32, 148 + encAputOp f)
  | .aget f => some (32, 152 + encAgetOp f)
  | .ldg f => some (32, 156 + encMOp f)
  | .stg f => some (32, 160 + encMOp f)
  | .ldgx f => some (32, 164 + encNOp f)
  | .stgx f => some (32, 168 + encNOp f)
  | .lds f => some (32, 172 + encSOp f)
  | .sts f => some (32, 176 + encSOp f)
  | .ldb f => some (32, 180 + encQOp f)
  | .stb f => some (32, 184 + encQOp f)
  | .ldc f => some (32, 188 + encLdcOp f)
  | .cadd f => some (32, 192 + encEOpCaddTy f)
  | .ctwo f => some (32, 196 + encEOpCtwoTy f)
  | .cmin f => some (32, 200 + encEOpCmmTy f)
  | .cmax f => some (32, 204 + encEOpCmmTy f)
  | .cord f => some (32, 208 + encEOpBitTy f)
  | .caff f => some (32, 212 + encEOpCaffTy f)
  | .cbit f => some (32, 216 + encEOpCbitTy f)
  | .ldct f => some (32, 220 + encEOpBitTy f)
  | .ldcs f => some (32, 224 + encEOpBitTy f)
  | .satom f => some (32, 228 + encSatomOp f)
  | .shfl f => some (32, 232 + encWOpBv4 f)
  | .vote f => some (32, 236 + encVoteOp f)
  | .wred f => some (32, 240 + encWOpWredFn f)
  | .wscan f => some (32, 244 + encWOpWscanFn f)
  | .sread f => some (32, 248 + encSreadOp f)
  | .swrite f => some (32, 252 + encSwriteOp f)
  | .br f => some (32, 256 + encBrOp f)
  | .jmp f => some (32, 260 + encJOp f)
  | .call f => some (32, 264 + encJOp f)
  | .ret f => some (32, 268 + encGOp f)
  | .jmpi f => some (32, 272 + encArOp f)
  | .reform f => some (32, 276 + encGOp f)
  | .yield f => some (32, 280 + encGOp f)
  | .exit f => some (32, 284 + encGOp f)
  | .bar f => some (32, 288 + encBarOp f)
  | .bara f => some (32, 292 + encBaraOp f)
  | .barw f => some (32, 296 + encBarOp f)
  | .trap f => some (32, 300 + encTrapOp f)
  | .bkpt f => some (32, 304 + encGOp f)
  | .fence f => some (32, 308 + encFenceOp f)
  | .fencex f => some (32, 312 + encFencexOp f)
  | .spawn f => some (32, 316 + encSpawnOp f)
  | .join f => some (32, 320 + encGOp f)
  | .prop f => some (32, 324 + encArOp f)
  | .modw f => some (32, 328 + encEOpModwTy f)
  | .trace f => some (32, 332 + encTraceOp f)
  | .mres f => some (32, 336 + encMresOp f)
  | .mrel f => some (32, 340 + encSOnly f)
  | .mloadb f => some (32, 344 + encMloadbOp f)
  | .sca f => some (32, 348 + encScaOp f)
  | .fadd f => some (32, 352 + encTOp f)
  | .fsub f => some (32, 356 + encTOp f)
  | .fmul f => some (32, 360 + encTOp f)
  | .fma f => some (32, 364 + encTOp f)
  | .fmin f => some (32, 368 + encTOp f)
  | .fmax f => some (32, 372 + encTOp f)
  | .fcmp f => some (32, 376 + encCmpOpFCond f)
  | .dadd f => some (32, 380 + encTOp f)
  | .dsub f => some (32, 384 + encTOp f)
  | .dmul f => some (32, 388 + encTOp f)
  | .dfma f => some (32, 392 + encTOp f)
  | .dmin f => some (32, 396 + encTOp f)
  | .dmax f => some (32, 400 + encTOp f)
  | .dcmp f => some (32, 404 + encCmpOpFCond f)
  | .badd2 f => some (32, 408 + encTOp f)
  | .bmul2 f => some (32, 412 + encTOp f)
  | .bfma2 f => some (32, 416 + encTOp f)
  | .fsgn f => some (32, 420 + encIFnOpFsgnFn f)
  | .mov f => some (32, 424 + encMovOp f)
  | .rdlane f => some (32, 428 + encRdlaneOp f)
  | .rng f => some (32, 432 + encRngOp f)
  | .wsort f => some (32, 436 + encWOpWsortFn f)
  | .bcnt f => some (32, 440 + encIFnOpBcntFn f)
  | .icmpi f => some (32, 444 + encCmpIOp f)
  | .setp f => some (32, 448 + encSetpOp f)
  | .cvtF32D f => some (32, 452 + encCvtOp f)
  | .cvtDF32 f => some (32, 964 + encCvtOp f)
  | .cvtB16F32 f => some (32, 1476 + encCvtOp f)
  | .cvtF32B16 f => some (32, 1988 + encCvtSelOpBool f)
  | .cvtH16F32 f => some (32, 2500 + encCvtOp f)
  | .cvtF32H16 f => some (32, 3012 + encCvtSelOpBool f)
  | .cvtS32F32 f => some (32, 3524 + encCvtOp f)
  | .cvtF32S32 f => some (32, 4036 + encCvtOp f)
  | .cvtZ32F32 f => some (32, 4548 + encCvtOp f)
  | .cvtF32Z32 f => some (32, 5060 + encCvtOp f)
  | .cvtS64D f => some (32, 5572 + encCvtOp f)
  | .cvtDS64 f => some (32, 6084 + encCvtOp f)
  | .cvtN8F32 f => some (32, 6596 + encCvtSelOpFin4 f)
  | .cvtF32N8 f => some (32, 7108 + encCvtSelOpFin4 f)
  | .cvtQ8F32 f => some (32, 7620 + encCvtOp f)
  | .cvtF32Q8 f => some (32, 8132 + encCvtOp f)
  | .rsqa f => some (32, 456 + encSfuOp f)
  | .rcpa f => some (32, 968 + encSfuOp f)
  | .ex2a f => some (32, 1480 + encSfuOp f)
  | .lg2a f => some (32, 1992 + encSfuOp f)
  | .sina f => some (32, 2504 + encSfuOp f)
  | .cosa f => some (32, 3016 + encSfuOp f)
  | .tanha f => some (32, 3528 + encSfuOp f)
  | .fsqrt f => some (32, 4040 + encSfuOp f)
  | .fdiv f => some (32, 4552 + encDivOp f)
  | .fex2 f => some (32, 5064 + encSfuOp f)
  | .flg2 f => some (32, 5576 + encSfuOp f)
  | .frnd f => some (32, 6088 + encRndOp f)
  | .dsqrt f => some (32, 6600 + encSfuOp f)
  | .ddiv f => some (32, 7112 + encDivOp f)
  | .drsq f => some (32, 7624 + encSfuOp f)
  | .drnd f => some (32, 8136 + encRndOp f)
  | .copy f => some (32, 460 + encCopyOp f)
  | .copyt f => some (32, 972 + encCopytOp f)
  | .copym f => some (32, 1484 + encCopymOp f)
  | .copyo f => some (32, 1996 + encCopyoOp f)
  | .copyw f => some (32, 2508 + encTagOp f)
  | .copyx f => some (32, 3020 + encTagOp f)
  | .chinit f => some (32, 3532 + encChinitOp f)
  | .chwait f => some (32, 4044 + encChwaitOp f)
  | .chadv f => some (32, 4556 + encChnOp f)
  | .chpub f => some (32, 5068 + encChnOp f)
  | .chqry f => some (32, 5580 + encChqryOp f)
  | .chfree f => some (32, 6092 + encChOp f)
  | .pref f => some (32, 6604 + encRangeOp f)
  | .drop f => some (32, 7116 + encRangeOp f)
  | .tdesc f => some (32, 7628 + encTdescOp f)
  | .cpstat f => some (32, 8140 + encCpstatOp f)
  | .mmul f => some (32, 464 + encMmulOp f)
  | .movCompact f => some (16, 0 + encCOp f)
  | .iaddCompact f => some (16, 2 + encCOp f)
  | .isubCompact f => some (16, 4 + encCOp f)
  | .imulCompact f => some (16, 6 + encCOp f)
  | .andCompact f => some (16, 8 + encCOp f)
  | .orCompact f => some (16, 10 + encCOp f)
  | .xorCompact f => some (16, 12 + encCOp f)
  | .shlCompact f => some (16, 14 + encCOp f)
  | .shruCompact f => some (16, 16 + encCOp f)
  | .shrsCompact f => some (16, 18 + encCOp f)
  | .faddCompact f => some (16, 20 + encCOp f)
  | .fsubCompact f => some (16, 22 + encCOp f)
  | .fmulCompact f => some (16, 24 + encCOp f)
  | .fminCompact f => some (16, 26 + encCOp f)
  | .fmaxCompact f => some (16, 28 + encCOp f)
  | .selCompact f => some (16, 30 + encCOp f)
  | .reedLdw f => some (32, 16777216 + encReedMem f)
  | .reedLdd f => some (32, 33554432 + encReedMem f)
  | .reedLdv f => some (32, 50331648 + encReedMem f)
  | .reedStw f => some (32, 67108864 + encReedMem f)
  | .reedStd f => some (32, 83886080 + encReedMem f)
  | .reedStv f => some (32, 100663296 + encReedMem f)
  | .reedLi f => some (32, 117440512 + encReedImm f)
  | .reedLis f => some (32, 134217728 + encReedImm f)
  | .reedAdd f => some (32, 150994944 + encReedReg f)
  | .reedAddi f => some (32, 167772160 + encReedImm f)
  | .reedSub f => some (32, 184549376 + encReedReg f)
  | .reedAnd f => some (32, 201326592 + encReedReg f)
  | .reedOr f => some (32, 218103808 + encReedReg f)
  | .reedShli f => some (32, 234881024 + encReedImm f)
  | .reedShri f => some (32, 251658240 + encReedImm f)
  | .reedBeq f => some (32, 268435456 + encReedBr f)
  | .reedBne f => some (32, 285212672 + encReedBr f)
  | .reedBltu f => some (32, 301989888 + encReedBr f)
  | .reedLoop f => some (32, 318767104 + encReedImm f)
  | .reedCall imm => some (32, 335544320 + imm.toNat)
  | .reedEnd imm => some (32, 352321536 + imm.toNat)
  | .reedFail imm => some (32, 369098752 + imm.toNat)
  | .operationLimit _ => none
  | .dvDoorbell _ _ => none
  | .packetFetch _ => none
  | .launch _ => none
  | .gangreserve _ => none
  | .gangcommit _ => none
  | .gangabort _ => none
  | .headworksCopy _ => none
  | .signal _ => none
  | .signalWrite _ => none
  | .waitval _ => none
  | .waitvalReread _ => none
  | .interrupt _ => none
  | .modwrite _ => none
  | .propagate _ => none
  | .reclaim _ => none
  | .reclaimReturn _ => none
  | .preempt _ => none
  | .preemptTimeout _ => none
  | .replay _ => none
  | .dumpto _ => none
  | .gangStart _ => none
  | .taskDispatch _ _ _ => none
  | .taskRetire _ => none
  | .roundMerge _ => none
  | .cellArrival _ => none
  | .cellWithdrawal _ => none
  | .loadReturn _ _ => none
  | .chwaitReturn _ => none
  | .copywReturn _ => none
  | .chfreeReturn _ => none
  | .joinMerge _ => none
  | .ldcsReturn _ => none
  | .propReturn _ => none
  | .mrelReturn _ => none
  | .fenceCompletion _ => none
  | .fencexCompletion _ => none
  | .binDrain _ _ _ => none
  | .copyUnitDelivery _ _ _ _ => none
  | .copyoFire _ _ _ => none
  | .mloadbFire _ _ => none
  | .mmulRow _ _ => none
  | .pageWalk _ _ _ => none
  | .translationFaultService _ => none
  | .leaseExpiry _ => none
  | .droneBeacon _ _ => none
  | .shareReassign _ _ => none
  | .watchdog _ _ _ => none
  | .budgetPeriod => none
  | .copyDrain _ => none
  | .dump _ => none
  | .deviceMemoryRead _ _ _ _ => none
  | .deviceMemoryWrite _ _ _ _ _ _ => none
  | .peerAccess _ _ _ _ => none
  | .linkTrainingLoss _ => none
  | .heartbeat _ => none
  | .heartbeatMiss _ => none
  | .rowActivation _ _ _ _ => none
  | .trackerClear => none
  | .scrubPass _ _ => none
  | .eolUpdate _ _ => none
  | .bringUp _ => none
  | .dvAttreq _ => none
  | .attestationReport => none
  | .dvReedload _ => none
  | .dvPart _ _ => none
  | .dvKeyslot _ _ => none
  | .dvRhthresh _ => none
  | .dvEvmask _ => none
  | .refctlHandback _ => none
  | .refctlScrub _ => none
  | .refctlRepair _ => none
  | .dbgctlHalt _ => none
  | .dbgctlStep _ => none
  | .dbgctlResume _ => none
  | .registerWrite _ _ _ => none
  | .l1LineReplacement _ _ _ => none
  | .cacheEntryDrop _ => none
  | .mloadbCompletion _ _ => none
  | .traceCompaction _ _ => none
  | .preemptionDecision _ _ => none
  | .linkTraining _ => none

/-! ### The machine's own entry points -/

/-- The bytes of a number, least significant first (R3). -/
def leBytes : Nat → Nat → List Byte
  | 0, _ => []
  | n + 1, w => BitVec.ofNat 8 w :: leBytes n (w / 256)

/-- The number of bytes in the order of R3. -/
def ofBytes : List Byte → Nat
  | [] => 0
  | b :: bs => b.toNat + 256 * ofBytes bs

/-- The Celermusk decoder on the bytes at a PC: bit 0 of the first parcel gives the length (R27). none where the
bytes end before the instruction does. -/
def decodeBytes : List Byte → Option (Except DecErr Instr)
  | b0 :: b1 :: rest =>
    if b0.toNat % 2 = 0 then some (decode16 (ofBytes [b0, b1]))
    else match rest with
      | b2 :: b3 :: _ => some (decode32 (ofBytes [b0, b1, b2, b3]))
      | _ => none
  | _ => none

/-- Whether 32 bits of the opcode table are a reed operation: reed programs accept them, and no wave could execute them
as a 32-bit instruction. -/
def isReedWord (nbits w : Nat) : Bool :=
  nbits == 32 && (decodeReed (ofBytes (leBytes 4 w))).isSome && match decodeBytes (leBytes 4 w) with
    | some (.ok _) => w % 2 == 0
    | _ => true

/-- The instruction that the decoder reads from an encoded row of the opcode table. -/
def decodeTableWord (nbits w : Nat) : Option Instr :=
  if isReedWord nbits w then decodeReed (ofBytes (leBytes 4 w))
  else match decodeBytes (leBytes (nbits / 8) w) with
    | some (.ok i) => some i
    | _ => none

end Sys2Proof
end

