-- ==== Sys2Proof/Config.lean ====
section
/-! DEFINITION. What the spec fixes for every K3 (figures of R8, R9, R15, R118, R171, R172, R251) and the FREE VALUES:
constants without a body for what the spec leaves open. Nothing in Lean can evaluate a free value. -/

namespace Sys2Proof.Machine

/-- Who moves next. -/
inductive Turn where
  /-- A wave issues. -/
  | wave (r : WaveRef)
  /-- A queue's reed engine runs one operation or its called primitive. -/
  | reed (q : Nat)
  /-- An event, a host request or an engine's step. -/
  | ev (i : Instr)
  /-- Time passes, in units of 100 ps. -/
  | clock (n : Nat)
  /-- The oldest store of a wave is acknowledged (R149, R280). -/
  | ack (r : WaveRef)
  /-- A shadow line spills to the arena (R141). -/
  | spill (tid line : Nat)
  /-- An agent's Drone copy moves to this deviation in units of 100 ps (R14, R213). -/
  | drift (ag : Agent) (d : Int)
  /-- The Sluice admits a launch's next round or a staged gang part. -/
  | sluice (lid : Nat)
  /-- A byte of host memory, or of peer memory at peer id * 2^52 + PA, changes from outside (R148). -/
  | outside (peer : Bool) (a : Nat) (b : Byte)
  /-- The oldest piece of a store to host memory lands (R123). -/
  | land
  /-- The host begins or stops to answer an 8-byte granule of its memory with an error (R288). -/
  | hostError (granule : Nat) (on : Bool)
  /-- A turn of a host stream: a register access that is an event of the opcode table, or a register read of n bytes (R288). -/
  | host (stream : Nat) (i : Instr)
  | regRead (stream off n : Nat)
  /-- The host declares an extent of a node for the launch with a completion record (R144). -/
  | extent (cr : Addr) (node va n : Nat) (writes : Bool)
deriving DecidableEq, Repr, Inhabited

end Sys2Proof.Machine

namespace Sys2Proof.Config

/-! ### Fixed figures -/

/-- Time is counted in units of 100 ps: a core cycle of 2.5 GHz is 4, a memory-side cycle of 2.0 GHz 5, a Drone tick
of 1 ns 10 (R14, R15). -/
def coreCycle : Nat := 4
def memCycle : Nat := 5
def droneTick : Nat := 10

/-- The installed device memory, 960 GiB (R15, R204, R289). -/
def deviceBytes : Nat := 960 * 1024 * 1024 * 1024
/-- Entries of a core's L1 TLB, of a die's L2 TLB, and of its 2 MiB walk cache at 16 bytes an entry (log 57); page walkers
of a die (R8, R11, R209). -/
def l1Tlb : Nat := 128
def l2Tlb : Nat := 8192
def walkCacheEntries : Nat := 2097152 / 16
def walkers : Nat := 128
/-- Entries of a task's share of a core's extent table (R215). -/
def extentEntries : Nat := 128
/-- The logical mesh (R9). -/
def meshW : Nat := 24
def meshH : Nat := 16
/-- Per core (R11, R66, R118): issue slots, waves, waves on one slot, tasks, register bytes. -/
def slots : Nat := 4
def wavesPerCore : Nat := 48
def wavesPerSlot : Nat := 12
def tasksPerCore : Nat := 4
def regBytes : Nat := 393216
def scratchBytes : Nat := 262144
def abufBytes : Nat := 524288
def cbufBytes : Nat := 262144
def wbufBytes : Nat := 524288
/-- REFORM bins and their entries (R72). -/
def bins : Nat := 32
def binEntries : Nat := 32
/-- The retry queue of a core and the histories of cells (R166, R171, R172). -/
def retryEntries : Nat := 32
def cellEntries : Nat := 64
def storeEntries : Nat := 32768
def tracedEntries : Nat := 4096
/-- The Sluice's task table and the entries that graph tasks leave free (R251). -/
def taskEntries : Nat := 65536
def taskReserve : Nat := 4096
/-- Fault records that a launch keeps (R261) and entries of a bad-line list (R277). -/
def keptRecords : Nat := 256
def badLines : Nat := 64

/-! ### Free values -/

/-- Who moves next where the agenda is empty: which wave, engine or event, and with what values (R77, and every moment
that the spec leaves to the K3, to its host or to its links). -/
opaque freeTurn : Nat → Machine.Turn
/-- A byte that the spec calls unspecified: turn, address. -/
opaque freeByte : Nat → Nat → BitVec 8
/-- Whether something happens that the spec leaves to the K3: turn, number of the question. -/
opaque freeBool : Nat → Nat → Bool
/-- What the spec leaves to the K3 among several: turn, number of the question. -/
opaque freePick : Nat → Nat → Nat
/-- Which way a correctly rounded transcendental result goes where the model's interval does not decide it:
function code, operand bits. -/
opaque roundUp : Nat → Nat → Bool
/-- Whether the ML-DSA-65 check of R298 accepts an image. -/
opaque signatureOk : List (BitVec 8) → Bool
/-- The device identity key's ML-DSA-65 signature, 3,309 bytes (R299). -/
opaque sign : List (BitVec 8) → List (BitVec 8)
/-- Bytes that a save of PREEMPT takes, given the bytes of what it saves: its format is the K3's own (R254). -/
opaque saveBytes : Nat → Nat
/-- The firmware images whose digests R299 reports: 0 system controller, 1 standard reed program, 2 base dies. -/
opaque firmware : Nat → List (BitVec 8)

end Sys2Proof.Config
end

