-- ==== Sys2Proof/Machine/State.lean ====
section
/-! DEFINITION. The state of the K3 as plain data: time, the three physical memories, cores with their slots, bins,
engines and caches, tasks with their waves and threads, launches, cells, traces, translation, the Headworks, the dv_
registers and the host's side; and the state after reset. -/

namespace Sys2Proof.Machine

/-- One byte-addressed store: (address, byte) pairs, addresses strictly rising, no entry equal to what an unlisted
address reads as. -/
abbrev Mem := List Host.Cell

/-! ### Threads and waves (R39–R42, R67, R70, R93, R95, R162, R262) -/

/-- A bypass latch: its value and whether it holds 64 bits (R39). -/
structure Latch where
  val : DWord
  wide : Bool
deriving DecidableEq, Repr

/-- A wave context's vector clock: the latest epoch of every context that is ordered before it (R136). -/
abbrev Clock := List ((Nat × Nat) × Nat)

/-- What a thread is doing: taking part at frontiers, parked on a page fault, or parked for good (R70, R87, R257). -/
inductive Park where
  | runs
  /-- On a page fault: the fault, and the access as its record would name it (VA, access byte of R259). -/
  | fault (fid va acc : Nat)
  | fatal
deriving DecidableEq, Repr

structure Thread where
  tix : Nat
  pc : Nat
  v : List Word := []
  a : List Addr := []
  p : List Bool := []
  latch : List Latch := []
  flags : BitVec 5 := 0
  rmode : BitVec 3 := 0
  cseq : Word := 0
  droneh : Word := 0
  faults : BitVec 8 := 0
  lastFault : BitVec 7 := 0
  recording : Bool := true
  park : Park := .runs
  /-- Waits at a barrier (R79). -/
  atBar : Bool := false
  /-- Re-executions after parking (R267). -/
  replays : Nat := 0
  /-- Region entry PC, k.cseq and k.flags on entering an idempotent region (R88). -/
  entry : Option (Nat × Word × BitVec 5) := none
  /-- What the barrier phases that it has observed order before its accesses (R136). -/
  synced : Clock := []
deriving DecidableEq, Repr

/-- A load whose data has not returned: thread, first register, registers, bytes of the value (R42, R356). -/
structure Load where
  id : Nat
  tix : Nat
  reg : Option Nat
  words : List Word
  /-- Scratch or typed buffer and the byte range, for CHADV's drain (R325). -/
  region : Option (Nat × Nat × Nat) := none
  /-- Deadline of an HBM request in Drone ns (R293). -/
  due : Option Nat := none
  /-- Host PA of a 16-byte load, whose two pieces are not atomic with one another (R123). -/
  host : Option Nat := none
  /-- A load of a cell, which is on the cell path (R151). -/
  cell : Bool := false
deriving DecidableEq, Repr

/-- A piece of a wave's 16-byte store to host memory that has not landed yet (R123): the store and its bytes. -/
structure HostHalf where
  r : WaveRef
  id : Nat
  pa : Nat
  bs : List Byte
deriving DecidableEq, Repr

/-- What bytes held before a write on an access path (R151): core-local space 0 to 3 and offset, or 4 and device PA; the
path that wrote and the wave (core index, k.wix); the paths whose readers may still see the older bytes. -/
structure Older where
  space : Nat
  addr : Nat
  old : List Byte
  path : Nat
  wave : Nat × Nat
  hidden : List Nat
  /-- Of a copy the tag, and the channel whose Q it raises. -/
  tag : Nat := 0
  ch : Option Nat := none
  /-- The waves that have observed the write complete (R152). -/
  seenBy : List (Nat × Nat) := []
deriving DecidableEq, Repr

/-- How far a store has come: performed in the core, at its slice, at the peer, at the host (R149). -/
inductive StoreKind where
  | core | slice | peer | host
deriving DecidableEq, Repr

/-- A wave's arrival record of one barrier (R79). -/
structure ArrRec where
  lvl : Level
  n : Nat
  shape : Nat
  phase : Nat
  done : Option (BitVec 5)
  clock : Clock
deriving DecidableEq, Repr

/-- A wait at a barrier: which, its phase, where the flags go, the waiting lanes and whether it is a BARW. -/
structure BarWait where
  lvl : Level
  n : Nat
  shape : Nat
  phase : Nat
  dest : Option (Fin 16)
  mask : Nat
  pc : Nat
deriving DecidableEq, Repr

/-- One lane's LDCS: lane, destination, width, the cell's device PA, key and version of its page. -/
structure CellReq where
  ln : Nat
  reg : Option Nat
  width : Nat
  pa : Nat
  tag : Nat × Nat
deriving DecidableEq, Repr

/-- What a wave waits for (R84) or is held by (R86). Masks are lanes that took part. -/
inductive Wait where
  | none
  /-- For the data of pending registers, at the switch point of R42. -/
  | pending
  /-- The instruction issues again when its turn comes; switched tells R84 from R86; kind as in R271. -/
  | retry (kind : Nat) (switched : Bool)
  | chwait (mask ch bytes : Nat) (free : Bool)
  | copyw (mask tag : Nat)
  | chfree (mask ch : Nat)
  | join (mask : Nat)
  | prop (mask pid : Nat)
  | ldcs (mask : Nat) (reqs : List CellReq)
  | mrel (mask : Nat)
  | fence (mask : Nat) (scope : Scope) (stop : Bool)
  | fencex (mask frm into : Nat) (stop : Bool)
  | cells (mask : Nat)
deriving DecidableEq, Repr

/-- A v-register marked pending (R42): the lanes whose loads marked it, which take the mark with them when they leave (R343),
and the lanes that threads have entered from a bin since, for which no register is pending (R373). -/
structure Pend where
  reg : Nat
  lanes : Nat
  joined : Nat := 0
deriving DecidableEq, Repr

/-- A fault held for a copy until its wave asks (R236). -/
structure HeldFault where
  tag : Nat
  code : Nat
  va : Nat
  ch : Nat
deriving DecidableEq, Repr

structure Wave where
  wix : Nat
  stage : Nat
  slot : Nat
  lanes : List (Option Thread)
  s : List Word := []
  fmt : List Word := []
  mc : List Word := []
  /-- v-registers marked pending for the wave (R42). -/
  pend : List Pend := []
  loads : List Load := []
  wait : Wait := .none
  barWaits : List BarWait := []
  recs : List ArrRec := []
  /-- Observed pairs: channel, P′, Q′ (R129). -/
  obs : List (Nat × Nat × Nat) := []
  /-- What is ordered before the wave's accesses to a channel's region: by channel (R132). -/
  chClocks : List (Nat × Clock) := []
  lastTag : Nat := 0
  tdesc : List (Option (List Byte)) := [none, none]
  held : List HeldFault := []
  stores : List (Nat × StoreKind × Nat) := []
  clock : Clock := []
  /-- Stopped for a debugger, and the pass that a resume or step grants (R264). -/
  stopped : Bool := false
  /-- It has stopped before executing the safe point at which it stands (R264). -/
  atSafe : Bool := false
  pass : Bool := false
  /-- Cell operations whose slices have not answered (R320). -/
  cellsLeft : List Nat := []
  /-- Transfers that the budget has let the waiting memory instruction make so far (R256). -/
  paid : Nat := 0
  /-- The step in which the wave became ready, for throughput mode's oldest-first rule (R76, R397). -/
  since : Nat := 0
deriving DecidableEq, Repr

/-! ### Task shares on a core (R120, R126, R78) -/

structure Chan where
  space : Nat
  base : Nat
  size : Nat
  elem : Nat
  valid : Bool := false
  prod : ChPath := .lanes
  cons : ChPath := .lanes
  p : Nat := 0
  q : Nat := 0
  /-- Bytes written past P that do not yet make up an element (R130). -/
  part : Nat := 0
  lastTag : Nat := 0
  lastBytes : Nat := 0
  cancelled : Bool := false
  /-- What the publications and advances of lanes have given away (R132, R325). -/
  clock : Clock := []
  /-- The core cycle and the wave of the last CHPUB (R335). -/
  pub : Option (Nat × Nat) := none
deriving DecidableEq, Repr

/-- One barrier of one scope on a core: phase, lanes arrived by context, flag field, shape, clock, who arrived. -/
structure Bar where
  lvl : Level
  n : Nat
  /-- The stage at stage level, the context at wave level, 0 otherwise (R272). -/
  key : Nat
  phase : Nat := 0
  /-- Arrival masks by context (k.wix, lanes). -/
  arrived : List (Nat × Nat) := []
  /-- Thread indices that arrived, since lanes may change by REFORM. -/
  who : List Nat := []
  /-- Members of a wave-level phase, fixed at its first arrival. -/
  members : List Nat := []
  flags : BitVec 5 := 0
  shape : Option Nat := none
  clock : Clock := []
deriving DecidableEq, Repr

/-- One access on the lanes path, for the race checker (R136–R138) and for R118. -/
structure Access where
  /-- 0 scratch, 1 abuf, 2 cbuf, 3 wbuf, 4 device memory. -/
  space : Nat
  core : Nat
  addr : Nat
  len : Nat
  va : Nat
  write : Bool
  satom : Bool
  wix : Nat
  epoch : Nat
  lane : Nat
  tix : Nat
  ordinal : Nat
  offset : Nat
  time : Nat
  /-- What is ordered before it besides its own context's earlier accesses (R136). -/
  prior : Clock := []
  /-- Its tag is still on its line in the core's L1 (R138). -/
  held : Bool := true
deriving DecidableEq, Repr

/-- A task's part on one core of its polder. -/
structure Share where
  c : Nat
  scratch : Mem := []
  abuf : Mem := []
  cbuf : Mem := []
  wbuf : Mem := []
  chans : List Chan := []
  rbfull : Word := 0
  waves : List Wave := []
  bars : List Bar := []
  /-- Writes that other paths may not see yet, newest first (R151). -/
  older : List Older := []
deriving DecidableEq, Repr

/-! ### Tasks (R58–R61, R139–R145, R161, R177–R183) -/

inductive TaskSt where
  /-- Admitted, not dispatched. -/
  | waits
  | resident
  | retired
  /-- Stopped by R258. -/
  | stopped
  /-- In a save area (R254); restart: discarded inside idempotent regions (R88). -/
  | evicted (restart : Bool)
deriving DecidableEq, Repr

/-- What is known of a line that a task holds in its shadow: its number, its VA, the key and version it was last
written under (R297), whether that was through an ORDW page (R142). -/
structure LineInfo where
  line : Nat
  va : Nat
  tag : Nat × Nat
  ordw : Bool
deriving DecidableEq, Repr

/-- A word of a MOD page that a task writes: its VA, the bytes written, the value before the first write, its device
PA, whether it lies in an exclusive range, and its post-write value once that stands (R182). -/
structure WriteRec where
  va : Nat
  mask : Nat
  pre : Nat
  pa : Nat
  direct : Bool
  post : Option Nat := none
deriving DecidableEq, Repr

/-- What a traced run of a task has recorded (R178). -/
structure Recorded where
  reads : List Nat := []
  writes : List WriteRec := []
  /-- (cseq, tix, major, type, cell va, operand). -/
  contribs : List (Nat × Nat × Nat × Nat × Nat × Nat) := []
deriving DecidableEq, Repr

structure Task where
  tid : Nat
  lid : Nat
  key : BitVec 48
  kernel : Nat
  parent : Option Nat := none
  /-- The wave whose SPAWN created it (R354). -/
  spawner : Option (Nat × Nat) := none
  slot : Nat := 0
  round : Nat := 0
  block : Addr := 0
  st : TaskSt := .waits
  x : Nat := 0
  y : Nat := 0
  shares : List Share := []
  /-- Own writes held in shadow lines, by device PA (R141). -/
  shadow : Mem := []
  /-- Device writes that the task's copies may not see yet, newest first (R151). -/
  older : List Older := []
  /-- Bytes of the parent's shadow at SPAWN (R140). -/
  inherited : Mem := []
  /-- Bytes that it wrote after the SPAWN of a child, and whether through an ORDW page: (child tid, pa, ORDW) (R143). -/
  after : List (Nat × Nat × Bool) := []
  /-- The lines of the shadow. -/
  lines : List LineInfo := []
  /-- 64-byte lines that have spilled to the shadow arena. -/
  spilled : List Nat := []
  /-- Slots that this run has spawned children in (R383). -/
  slots : List Nat := []
  joined : Bool := false
  /-- Received MERGE (R142). -/
  merged : Bool := false
  accesses : List Access := []
  /-- Races found at a slice: first access, second access (R138). -/
  races : List (Access × Access) := []
  trec : Recorded := {}
  /-- Of a run in a propagation, recorded or not: words that it has written, and contributions that it has issued: (cseq, tix,
  cell VA) (R190). -/
  wrote : List Nat := []
  issued : List (Nat × Nat × Nat) := []
  /-- Index of its task record in the launch's or the propagation's arena. -/
  record : Option Nat := none
  /-- Its records have reached the arena (R183). -/
  flushed : Bool := false
  /-- Extents: VA, bytes, writes (R144). -/
  extents : List (Nat × Nat × Bool) := []
  /-- Propagation that runs it again (R190). -/
  prop : Option Nat := none
  site : Nat := 0xFFFFFFFF
  /-- Chosen by PREEMPT: its running waves stop at their next safe points (R254). -/
  leaving : Bool := false
deriving DecidableEq, Repr

/-! ### Cells (R166, R171, R172) -/

/-- A cell operation: its stamp, what it does, where it came from. -/
structure CellOp where
  id : Nat
  lid : Nat
  scope : Nat
  tid : Nat
  core : Nat
  wix : Nat
  lane : Nat
  key : BitVec 48
  tix : Nat
  cseq : Word
  pa : Nat
  va : Nat
  major : Nat
  ty : Nat
  operand : QWord
  /-- The watermark when the slice refused it; a restored one is sent without waiting (R171). -/
  tried : Option Nat := none
  /-- The deadline of its request (R293). -/
  due : Nat := 0
deriving DecidableEq, Repr

/-- One entry of a history. -/
structure CellEntry where
  op : CellOp
  spilled : Bool
deriving DecidableEq, Repr

structure CellHist where
  pa : Nat
  /-- The launch, or the trace arena, that it belongs to. -/
  scope : Nat
  traced : Bool
  entries : List CellEntry
  /-- The watermark up to which the entries of a traced history have settled, as far as readers have been told (R151). -/
  mark : Nat := 0
deriving DecidableEq, Repr

/-! ### Engines (R222–R230, R232–R237, R329) -/

inductive CopyKind where
  | lin | box | mcast | out | plain
deriving DecidableEq, Repr

structure CopyCmd where
  tid : Nat
  core : Nat
  wix : Nat
  tag : Nat
  kind : CopyKind
  ch : Nat
  va : Addr
  cnt : Nat
  desc : List Byte := []
  off : Word := 0
  /-- Destination cores (core indices) and the units delivered to each. -/
  dests : List (Nat × Nat)
  fired : Bool := false
  recorded : Bool := true
  /-- The page fault it waits at, and its own access there (R217, R218). -/
  fault : Option Nat := none
  faultVa : Nat := 0
  /-- The Drone time at which it was issued: none of its requests is older (R293). -/
  since : Nat := 0
  /-- Bytes of the unit under way: read so far for a destination, or of a COPYO still to write (R123). -/
  got : List (Nat × List Byte) := []
deriving DecidableEq, Repr

/-- A converted B tile (R223): per column and window the q values, block exponents, special marks, SB and scale. -/
structure Tile where
  cls : MClass
  arr : Nat
  /-- Indexed by column, then window: (q of 256 rows, (E_blk, special) of 8 blocks, SB, scale entry). -/
  cols : List (List (List Int × List (Int × Bool) × Int × Half))
deriving DecidableEq, Repr

inductive MCmd where
  | load (wix ch bs : Nat) (arr : Nat) (front : Bool) (cls : MClass) (fmt : Word)
  | mul (wix ch ach asch rows arr : Nat) (swap : Bool) (ca cb : MClass) (fmt : Word)
deriving DecidableEq, Repr

/-- The 512 records of one row in a partial channel: where they begin in the stream, their class pair, arrangement,
A scale entries, the bank and its scales and sums (R229). -/
structure RowMeta where
  ch : Nat
  pos : Nat
  ca : MClass
  cb : MClass
  arr : Nat
  aScale : List Half
  bank : Bool
  bScale : List (List (Half × Int))
  /-- The records wait for SCA: the channel's consumer is the lanes. -/
  sca : Bool := true
deriving DecidableEq, Repr

/-- An MRES that found the engine its own or free: when, the wave, its lanes, the predicate and its PC (R224). -/
structure Grant where
  time : Nat
  r : WaveRef
  take : Nat
  p : Fin 8
  pc : Nat
deriving DecidableEq, Repr

structure Matrix where
  holder : Option Nat := none
  /-- The MRES instructions by which the holder has taken it in one core cycle. -/
  grants : List Grant := []
  /-- The core cycle in which an MREL has freed it, and the task. -/
  freed : Option (Nat × Nat) := none
  core : Nat := 0
  /-- Which of bank 0 and bank 1 is the front bank: true means bank 1. -/
  front : Bool := false
  bank0 : Option Tile := none
  bank1 : Option Tile := none
  queue : List MCmd := []
  /-- The tile being written by a firing MLOADB, its bank and when it is done. -/
  loading : Option (Bool × Tile × Nat) := none
  /-- Rows done of the MMUL at the head of the queue, once it has fired. -/
  row : Option Nat := none
  /-- Records of that row that are not written yet. -/
  out : List Byte := []
  metas : List RowMeta := []
deriving DecidableEq, Repr

/-! ### Cores (R11, R72, R75, R76, R171, R400) -/

/-- A filed thread, its accesses and what is ordered before them (R136). -/
structure BinEntry where
  th : Thread
  clock : Clock
deriving DecidableEq, Repr

structure Bin where
  tid : Nat
  c : Nat
  stage : Nat
  pc : Nat
  filed : Nat
  entries : List BinEntry
deriving DecidableEq, Repr

structure Slot where
  running : Option WaveRef := none
  /-- The running wave has passed a switch point: in throughput mode another may be taken (R41, R76). -/
  free : Bool := true
  /-- The wave that yielded last (R75). -/
  yielded : Option WaveRef := none
  /-- Cycles counted since the slot last switched, and the limit it uses (R85, R305). -/
  count : Nat := 0
  limit : Nat := 0x04000000
  /-- Consecutive switches that passed over each (task, stage) (R76). -/
  passed : List ((Nat × Nat) × Nat) := []
deriving DecidableEq, Repr

/-- A line of the L1: task, line number of the device PA, its 64 bytes (R400). -/
structure L1Line where
  tid : Nat
  line : Nat
  bytes : List Byte
deriving DecidableEq, Repr

/-- A memory sample under way (R266, R267). -/
structure Sample where
  tid : Nat
  c : Nat
  wix : Nat
  time : Nat
  /-- Its loads, stores and cell operations that have not come back. -/
  loads : List Nat
  bytes : List Byte
  missed : Bool := false
  /-- Its LDCS has not read its cells yet. -/
  waiting : Bool := false
  /-- When the last of its data came back, and for which lane. -/
  ended : Option (Nat × Nat) := none
deriving DecidableEq, Repr

structure Core where
  x : Nat
  y : Nat
  slots : List Slot := [{}, {}, {}, {}]
  bins : List Bin := []
  retry : List CellOp := []
  copies : List (List CopyCmd) := [[], [], [], [], [], [], [], []]
  matrix : Matrix := {}
  l1 : List L1Line := []
  gated : Bool := false
  /-- When a core that was power-gated is awake (R62). -/
  awake : Nat := 0
  /-- Shares of throughput mode: stages that have the smallest share (R76). -/
  smallest : List (Nat × Nat) := []
  memCount : Nat := 0
  samples : List Sample := []
deriving DecidableEq, Repr

/-! ### Launches (R50–R57, R248–R252) -/

structure Kernel where
  stage0 : Nat
  nstages : Nat
  logW : Nat
  logH : Nat
  argBytes : Nat
  chan0 : Nat
  nchans : Nat
  launchBar : Bool
deriving DecidableEq, Repr

structure StageRec where
  entry : Nat
  role : Nat
  budget : Nat
  waves : Nat
deriving DecidableEq, Repr

structure ChanRec where
  space : Nat
  log : Nat
  elem : Nat
deriving DecidableEq, Repr

/-- What the Headworks reads from a code object. -/
structure Code where
  va : Addr := 0
  /-- The code segment's VA and size. -/
  text : Addr := 0
  size : Nat := 0
  features : QWord := 0
  graph : List Byte := []
  kernels : List Kernel := []
  stages : List StageRec := []
  regions : List (Nat × Nat) := []
  safes : List (Nat × QWord) := []
  chans : List ChanRec := []
  nodes : List Nat := []
  edges : List (Nat × Nat) := []
deriving DecidableEq, Repr

/-- A lane fault record, with its partner (R259, R260). -/
structure FaultRec where
  code : Nat
  lane : Nat
  tix : Nat
  ordinal : Nat
  offset : Nat
  access : Nat
  va : Nat
  key : BitVec 48
  time : Nat
  partner : Option (List Byte) := none
  fatal : Bool := true
deriving DecidableEq, Repr

structure Buffer where
  id : Nat
  rewritten : Bool
  version : Word
  base : Addr
  len : Nat
deriving DecidableEq, Repr

inductive LaunchSt where
  | staged
  | running
  /-- Halted: the broadcast's time, reason of the dump, dump buffer (R268). -/
  | halting (time reason : Nat) (dump : Addr) (size : Nat)
  /-- dv_split bit 6: halted and stopped until DUMPTO (R301). -/
  | halted (time : Nat)
  | ended
deriving DecidableEq, Repr

structure Launch where
  lid : Nat
  queue : Nat
  asid : BitVec 12
  cr : Addr
  det : Bool := false
  trace : Bool := false
  checked : Bool := false
  haltFatal : Bool := false
  part : Nat := 0
  st : LaunchSt := .running
  code : Code := {}
  argBase : Addr := 0
  argStride : Nat := 0
  bufTable : Addr := 0
  buffers : List Buffer := []
  arena : Addr := 0
  shadowVa : Addr := 0
  shadowSlots : Nat := 0
  dumpVa : Addr := 0
  dumpSize : Nat := 0
  /-- Round of each node (R139), the round that runs, rounds merged. -/
  rounds : List Nat := []
  round : Nat := 0
  merged : Nat := 0
  error : Nat := 0
  status : Nat := 0
  flags : BitVec 5 := 0
  records : List FaultRec := []
  faultCount : Nat := 0
  /-- Some record beyond 256 was not kept. -/
  lost : Bool := false
  fatal : Bool := false
  /-- Declared device pages (R146) and the host log: PA, key and version, byte. -/
  hostSet : List Nat := []
  hostLog : List (Nat × (Nat × Nat) × Byte) := []
  /-- Recording into the arena: 0 no, 1 yes, 2 unusable (R185). -/
  lrec : Nat := 0
  /-- Records not yet written, per table: reads, writes, contributions. -/
  pending : Nat × Nat × Nat := (0, 0, 0)
  handle : Nat := 0
  startAt : Option Nat := none
  /-- A halt request is in force (R264). -/
  stopReq : Bool := false
  /-- Graph nodes admitted so far (R251). -/
  admitted : Nat := 0
  /-- The propagation whose reruns run here (R370). -/
  prop : Option Nat := none
deriving DecidableEq, Repr

/-- A propagation: its arena, issuer, counts and where its reruns stand (R190). -/
structure Propag where
  pid : Nat
  /-- The launch entry under which its reruns run (R370). -/
  runAs : Nat := 0
  /-- Keys of stale records that it still has to run (R193). -/
  toRun : List Nat := []
  /-- Graph records of a rerun round: its root record. -/
  root : Option Nat := none
  asid : BitVec 12
  arena : Addr
  /-- The launch that issued it; none for PROPAGATE. -/
  lid : Option Nat
  wave : Option WaveRef
  queue : Option Nat
  part : Nat := 0
  result : Addr := 0
  shadowVa : Addr := 0
  shadowSlots : Nat := 0
  /-- Running, finished with counts, or waiting for an earlier one. -/
  st : Nat := 0
  re : Word := 0
  sp : Word := 0
  di : Word := 0
  last : Option (BitVec 48) := none
  /-- Old children of a running rerun by record: (record, remaining old child records). -/
  old : List (Nat × List Nat) := []
  /-- Old write and contribution runs of a running rerun. -/
  oldRuns : List (Nat × (Nat × Nat) × (Nat × Nat)) := []
  first : Option FaultRec := none
  failed : Bool := false
deriving DecidableEq, Repr

/-! ### Translation (R200–R221) -/

/-- The attributes of a leaf entry that an access needs (R203). -/
structure Attr where
  r : Bool
  w : Bool
  x : Bool
  target : BitVec 2
  peer : BitVec 6
  cell : Bool
  mod : Bool
  ordw : Bool
  buf : Half
deriving DecidableEq, Repr

/-- A TLB or extent entry: an aligned group of 16 pages (R208). -/
structure TlbEntry where
  ag : Agent
  asid : BitVec 12
  group : Nat
  base : Int
  mask : BitVec 16
  attr : Attr
  expiry : Nat
deriving DecidableEq, Repr

structure WalkEntry where
  die : Nat
  asid : BitVec 12
  level : Nat
  index : Nat
  next : Nat
  expiry : Nat
deriving DecidableEq, Repr

/-- A walk that has read its leaf and has not installed it (R207): whose, by which walker of the die, the non-leaf
entries that it read (level, VA bits above it, next node, lease code), and when, on the walker's own Drone copy. -/
structure Walk where
  ag : Agent
  walker : Nat
  asid : BitVec 12
  va : Addr
  pte : QWord
  fills : List (Nat × Nat × Nat × Nat)
  readAt : Nat
deriving DecidableEq, Repr

structure PageFault where
  fid : Nat
  asid : BitVec 12
  page : Nat
  level : Nat
  access : Nat
  va : Addr
  refault : Bool
  xy : Nat
  time : Nat
  hostMode : Bool
  /-- Written to the host fault queue. -/
  queued : Bool := false
  /-- UNMAPPED for whatever still waits at it (R218). -/
  failed : Bool := false
deriving DecidableEq, Repr

/-! ### The Headworks (R242–R247) -/

/-- A loop of a reed program: first operation, end, runs left (R245). -/
structure ReedLoop where
  first : Nat
  last : Nat
  left : Nat
deriving DecidableEq, Repr

/-- Where a blocked primitive stands. -/
inductive Prim where
  | none
  | called (n : Nat)
  | waitval (at' : Nat)
  | reclaim (at' : Nat)
  /-- Bytes copied in whole units, those of the unit under way, and whether they are being written (R123). -/
  | copying (done : Nat) (unit : List Byte) (out : Bool)
  | propagating (pid : Nat)
  | preempting
deriving DecidableEq, Repr

/-- What a write of the Headworks on behalf of a launch says: status 0, a buffer's new version, the final status
(R249). -/
inductive OutKind where
  | admitted
  | version
  | final
deriving DecidableEq, Repr

/-- A write that waits for its turn among its queue's completions (R153) or at a page fault (R402): the launch's number, what
it writes and where, the fault. -/
structure OutWrite where
  n : Nat
  kind : OutKind
  va : Addr
  asid : BitVec 12
  data : List Byte
  fault : Option Nat := none
  faultVa : Nat := 0
deriving DecidableEq, Repr

/-- A SIGNAL that has not been written: its number among the queue's work, where, what, and the page fault it waits at. -/
structure SignalReq where
  n : Nat
  va : Addr
  value : DWord
  fault : Option Nat := none
  faultVa : Nat := 0
deriving DecidableEq, Repr

structure Packet where
  x : List Addr := []
  pc : Nat := 0
  loops : List ReedLoop := []
  ops : Nat := 0
  mem : Mem := []
  prim : Prim := .none
  fault : Option Nat := none
  faultVa : Nat := 0
  /-- It stands in one of its fetcher's two reed engines (R243); while it is stalled or blocked it does not (R244, R247). -/
  engine : Bool := true
  /-- The Drone time at which it was fetched: none of its requests is older (R293). -/
  since : Nat := 0
deriving DecidableEq, Repr

structure Queue where
  q : Nat
  /-- 0 disabled, 1 enabled, 2 stalled, 3 error. -/
  state : Nat := 0
  prio : Nat := 0
  irq : Bool := false
  fail : BitVec 8 := 0
  mask : BitVec 14 := 0
  foreign : Bool := false
  grants : Nat := 0
  faultVa : Addr := 0
  wptr : Nat := 0
  packet : Option Packet := none
  /-- SIGNAL writes that are due or will be. -/
  signals : List SignalReq := []
  /-- Completion records and new versions that wait. -/
  crWaits : List OutWrite := []
deriving DecidableEq, Repr

structure Gang where
  handle : Nat
  mask : BitVec 8
  failed : Bool := false
  start : Option Nat := none
deriving DecidableEq, Repr

/-- What a save area holds of a task beside its entry in the task table (R254). -/
structure Saved where
  tid : Nat
  bins : List Bin
  retry : List CellOp
  /-- Matrix engine by core index. -/
  matrix : List (Nat × Matrix)
  /-- The partition has grown again and the task may be restored (R253). -/
  back : Bool := false
deriving DecidableEq, Repr

/-- A PREEMPT under way on a partition (R254): since when, the cores it leaves, those before, the queue that asked for
it, the save area. -/
structure Preempt where
  since : Nat
  left : List (Nat × Nat)
  before : Option (List (Nat × Nat))
  queue : Option Nat
  area : Nat
  size : Nat
  /-- Every running wave of the chosen tasks had reached a safe point when the time for it was up (R254). -/
  stood : Bool := false
deriving DecidableEq, Repr

/-! ### The dv_ registers and the rest of the device (R305) -/

structure Part where
  p : Nat
  x0 : Nat
  y0 : Nat
  w : Nat
  h : Nat
  key : Nat
  valid : Bool
  /-- Cores that PREEMPT has left: bit y * w + x; none: all. -/
  cores : Option (List (Nat × Nat)) := none
  preempt : Option Preempt := none
deriving DecidableEq, Repr

structure Debug where
  p : Nat
  enable : Bool := false
  bps : List Word := []
deriving DecidableEq, Repr

structure Stack where
  n : Nat
  misses : Nat := 0
  /-- The controller owns refresh, at twice the normal rate (R294). -/
  owner : Bool := false
  handback : Bool := false
  /-- Scrub passes that have been asked for and not made (R301). -/
  scrubReq : Nat := 0
  repairReq : Bool := false
  /-- Drone time of the last heartbeat. -/
  lastBeat : Nat := 0
  /-- Trackers: (channel, bank, [(row, count)]) (R295). -/
  trackers : List ((Nat × Nat) × List (Nat × Nat)) := []
  /-- Directed refreshes issued: (channel, bank, row), and those that wait for their budget (R256). -/
  directed : List (Nat × Nat × Nat) := []
  refreshDue : List (Nat × Nat × Nat) := []
  /-- Scrub passes made, and the 24-hour periods that have had their own (R296). -/
  scrubs : Nat := 0
  scrubDays : Nat := 0
deriving DecidableEq, Repr

structure Dev where
  stage : Nat := 0
  failCode : BitVec 8 := 0
  ready : Bool := false
  split : BitVec 8 := 0
  event : BitVec 7 := 0
  evmask : BitVec 7 := 0
  evvec : BitVec 6 := 0
  eolMonths : BitVec 16 := 0xFFFF
  eolDie : BitVec 8 := 0
  asbase : Nat := 0
  qbase : Nat := 0
  poolbase : Nat := 0
  rhthresh : Nat := 2048
  hbmdl : DWord := 0x1F4007D003E801F4
  sampctl : Word := 0
  sampbase : Nat := 0
  sampsize : Word := 0
  samphead : Word := 0
  samptail : Word := 0
  sampdrop : Word := 0
  keyvalid : DWord := 0
  /-- The page of a pending attestation request (R299). -/
  attreq : Option Nat := none
  hfqbase : Nat := 0
  hfqlog : Nat := 0
  hfqhead : Nat := 0
  hfqtail : Nat := 0
  wdog : List Word := List.replicate 8 0x04000000
  parts : List Part := []
  budget : List Word := List.replicate 15 0xFFFFFFFF
  /-- Transfers used in this Drone period, by activity (R256). -/
  used : List Nat := List.replicate 15 0
  /-- The period that used counts for. -/
  period : Nat := 0
  /-- Transfers of queued PREFs, by activity, that wait for their budget (R256, R369). -/
  due : List Nat := List.replicate 15 0
  /-- Transfers that work under way asks for, and those already made for work that still waits, by activity (R256). -/
  asked : List Nat := List.replicate 15 0
  credit : List Nat := List.replicate 15 0
  debug : List Debug := []
  /-- Key material by slot, and how often each slot has been loaded. -/
  keys : List (Nat × BitVec 512 × Nat) := []
  peers : List (Nat × DWord) := []
  missed : List (Nat × Word) := []
  /-- Bad lines: slice, entry, line's PA (R277, R296). -/
  bad : List (Nat × Nat × Nat) := []
  /-- Lines whose data no read can correct; clearing their entry of the list does not mend them (R296). -/
  broken : List Nat := []
  hbm : List Stack := []
  /-- The queue that each fetcher served last at each priority (R243). -/
  served : List ((Nat × Nat) × Nat) := []
  /-- Ports that have lost link training (R290). -/
  lostPorts : List Nat := []
  /-- Working physical cores per die (R10). -/
  harvest : List (BitVec 104) := []
  /-- The hour of the last end-of-life prediction (R300) and the 32 ms period of the last tracker clear (R295). -/
  eolHour : Nat := 0
  clears : Nat := 0
  /-- Loaded reed programs: index, operations, bytes of the image. -/
  reeds : List (Nat × List Nat × List Byte) := []
deriving DecidableEq, Repr

/-- What the host has received: replies by stream, interrupts, and the plan cache's order (R153, R250, R288). -/
structure HostSide where
  /-- The stream whose register access is served (R288). -/
  stream : Nat := 0
  replies : List (Nat × Nat × List Byte) := []
  /-- Answers to peers that read or write this device's memory: peer id, error code, data (R290). -/
  peerReplies : List (Nat × Nat × List Byte) := []
  interrupts : List Nat := []
  /-- 8-byte granules of host memory that the host answers with an error (R288). -/
  errors : List Nat := []
  /-- Host stores that wait for log room: (pa, key slot, version, mask, data) (R146). -/
  delayed : List (Nat × Nat × Nat × BitVec 32 × BitVec 64 × BitVec 512) := []
  /-- Extents that tasks of a launch declare: completion-record VA, node, VA, bytes, writes (R144). -/
  extents : List (Addr × Nat × Nat × Nat × Bool) := []
deriving DecidableEq, Repr

/-! ### The machine -/

structure State where
  /-- Time in units of 100 ps since reset. -/
  now : Nat := 0
  dev : Dev := {}
  host : HostSide := {}
  /-- Committed device memory by PA (R140). -/
  mem : Mem := []
  /-- Host memory by host PA. -/
  hostMem : Mem := []
  /-- Pieces of stores to host memory that have not landed, oldest first (R123). -/
  halves : List HostHalf := []
  /-- Peer memory: peer id * 2^52 + PA. -/
  peerMem : Mem := []
  /-- Lines written under a key: line number, (key, version); key 0 is plaintext (R297). -/
  tags : List (Nat × Nat × Nat) := []
  cores : List Core := []
  tasks : List Task := []
  launches : List Launch := []
  props : List Propag := []
  cells : List CellHist := []
  /-- Cell operations on their way to a slice. -/
  flight : List CellOp := []
  /-- Withdrawals on their way: id, launch or propagation cell scope, pa, stamp (R167). -/
  withdrawals : List (Nat × Nat × Nat × BitVec 48 × Nat × Word) := []
  tlb : List TlbEntry := []
  walks : List Walk := []
  walkCache : List WalkEntry := []
  faults : List PageFault := []
  drift : List (Agent × Int) := []
  /-- Agents that cache nothing until a beacon finds them within 2 ns (R213), and whether dv_split asked for the host's
  consent when they lost their clock (R301). -/
  skewed : List (Agent × Bool) := []
  queues : List Queue := []
  gangs : List Gang := []
  saved : List Saved := []
  /-- Plans of the planner: graph identity, partition shape (R250). -/
  plans : List (List Byte × Nat × Nat) := []
  /-- A fresh number for tasks, launches, loads, stores, propagations, cell operations and SIGNALs. -/
  fresh : Nat := 1
  /-- The model's own counter: free values used so far. -/
  free : Nat := 0
  agenda : List Turn := []
  /-- The model's own: the wave whose turn it is, and the queue whose turn it is. -/
  issuer : Option WaveRef := none
  turnQueue : Option Nat := none
deriving DecidableEq, Repr

/-- Reasons for the model to stop. None is raised in a state that a run from reset reaches. -/
inductive Fault where
  /-- A lane instruction whose turn belongs to no wave of the state. Raised by the shared issue operation; safe. -/
  | noIssuer
  /-- A reed operation or a primitive whose turn belongs to no packet of the state. Raised by the shared reed
  operation; safe. -/
  | noPacket
deriving DecidableEq, Repr

/-- Instructions without a meaning. -/
inductive Refusal where
  /-- Rejected by name in Dispatch; safe. -/
  | notModelled (mnemonic : String)
deriving DecidableEq, Repr

/-- Right after reset (R304, R305): stage 0, nothing loaded, launched or cached, memory with nothing listed. -/
def State.reset : State := {}

end Sys2Proof.Machine
end

