-- ==== Sys2Proof/Machine/Ops.lean ====
section
/-! DEFINITION. The named operations that every meaning uses: bytes and memories, tables, the parts of the state,
time, vector clocks, fault records, and TAKING A FAULT (R257–R262) with what follows from it: parking, the stop of a
task (R258) and the halt of a launch (R268). -/

namespace Sys2Proof.Machine

open Host

/-! ### Bytes -/

/-- The byte that an address with no entry holds: the spec gives memory no reset contents. DESIGN CHOICE (log 2). -/
def blank : Byte := 0

/-- The byte at an address. -/
def Mem.get (m : Mem) (a : Nat) : Byte :=
  match m with
  | [] => blank
  | (k, b) :: r => if k = a then b else if a < k then blank else Mem.get r a

/-- Writes a byte and keeps the canonical form. -/
def Mem.set (m : Mem) (a : Nat) (b : Byte) : Mem :=
  match m with
  | [] => if b = blank then [] else [(a, b)]
  | (k, c) :: r =>
    if a < k then (if b = blank then m else (a, b) :: m)
    else if a = k then (if b = blank then r else (a, b) :: r)
    else (k, c) :: Mem.set r a b

/-- Addresses above n strictly rise and no entry is blank. -/
def Mem.wfFrom (n : Nat) : Mem → Bool
  | [] => true
  | (k, b) :: r => n ≤ k && b != blank && Mem.wfFrom (k + 1) r

/-- The canonical form of a memory. -/
def Mem.wf (m : Mem) : Bool := Mem.wfFrom 0 m

/-- n bytes from address a, lowest first. -/
def Mem.read (m : Mem) (a : Nat) : Nat → List Byte
  | 0 => []
  | n + 1 => m.get a :: m.read (a + 1) n

def Mem.write (m : Mem) (a : Nat) : List Byte → Mem
  | [] => m
  | b :: bs => (m.set a b).write (a + 1) bs

/-- A set of written bytes, by rising address; a zero byte is an entry too (shadow lines, R141). -/
abbrev Shadow := List (Nat × Byte)

def Shadow.get? (m : Shadow) (a : Nat) : Option Byte :=
  match m with
  | [] => none
  | (k, b) :: r => if k = a then some b else if a < k then none else Shadow.get? r a

def Shadow.set (m : Shadow) (a : Nat) (b : Byte) : Shadow :=
  match m with
  | [] => [(a, b)]
  | (k, c) :: r => if a < k then (a, b) :: m else if a = k then (a, b) :: r else (k, c) :: Shadow.set r a b

/-- The number of a byte list, least significant first (R3). -/
def num (bs : List Byte) : Nat := ofBytes bs

/-- The low n bytes of a number, least significant first (R3). -/
def bytes (n w : Nat) : List Byte := leBytes n w

/-- sext of the low n bits of w into an Int. -/
def sext (n w : Nat) : Int :=
  let m := w % 2 ^ n
  if 2 ^ n ≤ 2 * m then (m : Int) - (2 ^ n : Nat) else m

/-- A 72-bit address moved by a signed distance (R308, R355). -/
def addrAdd (a : Addr) (d : Int) : Addr := BitVec.ofInt 72 ((a.toNat : Int) + d)

/-! ### Lists as tables -/

def upd {α : Type} (p : α → Bool) (f : α → α) (l : List α) : List α := l.map fun a => if p a then f a else a

/-- Element n, or a default. -/
def nth {α : Type} (l : List α) (n : Nat) (d : α) : α := l.getD n d

/-- Replaces element n; a list that is too short is filled up with the default. -/
def putAt {α : Type} (d : α) : List α → Nat → α → List α
  | [], 0, v => [v]
  | [], n + 1, v => d :: putAt d [] n v
  | _ :: r, 0, v => v :: r
  | a :: r, n + 1, v => a :: putAt d r n v

/-- Inserts into a list that is sorted by the given order, behind equal elements. -/
def insertBy {α : Type} (lt : α → α → Bool) (a : α) : List α → List α
  | [] => [a]
  | b :: r => if lt a b then a :: b :: r else b :: insertBy lt a r

def sortBy {α : Type} (lt : α → α → Bool) (l : List α) : List α := l.foldl (fun acc a => insertBy lt a acc) []

/-- The lanes of a mask, ascending. -/
def lanesOf (mask : Nat) : List Nat := (List.range 32).filter fun n => mask.testBit n

def maskOf (l : List Nat) : Nat := l.foldl (fun m n => m ||| (1 <<< n)) 0

def without (a b : Nat) : Nat := a ^^^ (a &&& b)

/-! ### Parts of the state -/

def State.task? (s : State) (tid : Nat) : Option Task := s.tasks.find? (·.tid == tid)

def State.modTask (s : State) (tid : Nat) (f : Task → Task) : State :=
  { s with tasks := upd (·.tid == tid) f s.tasks }

def Task.share? (t : Task) (c : Nat) : Option Share := t.shares.find? (·.c == c)

def Task.modShare (t : Task) (c : Nat) (f : Share → Share) : Task :=
  { t with shares := upd (·.c == c) f t.shares }

def State.share? (s : State) (tid c : Nat) : Option Share := (s.task? tid).bind (·.share? c)

def State.modShare (s : State) (tid c : Nat) (f : Share → Share) : State :=
  s.modTask tid fun t => t.modShare c f

def Share.wave? (h : Share) (wix : Nat) : Option Wave := h.waves.find? (·.wix == wix)

def Share.modWave (h : Share) (wix : Nat) (f : Wave → Wave) : Share :=
  { h with waves := upd (·.wix == wix) f h.waves }

def State.wave? (s : State) (r : WaveRef) : Option Wave := (s.share? r.tid r.core).bind (·.wave? r.wix)

def State.modWave (s : State) (r : WaveRef) (f : Wave → Wave) : State :=
  s.modShare r.tid r.core fun h => h.modWave r.wix f

def State.launch? (s : State) (lid : Nat) : Option Launch := s.launches.find? (·.lid == lid)

def State.modLaunch (s : State) (lid : Nat) (f : Launch → Launch) : State :=
  { s with launches := upd (·.lid == lid) f s.launches }

def State.launchOf? (s : State) (tid : Nat) : Option Launch := (s.task? tid).bind fun t => s.launch? t.lid

def State.prop? (s : State) (pid : Nat) : Option Propag := s.props.find? (·.pid == pid)

def State.modProp (s : State) (pid : Nat) (f : Propag → Propag) : State :=
  { s with props := upd (·.pid == pid) f s.props }

def State.queue? (s : State) (q : Nat) : Option Queue := s.queues.find? (·.q == q)

/-- Queue q, at its reset values where nothing has touched it. -/
def State.queueD (s : State) (q : Nat) : Queue := (s.queue? q).getD { q }

/-- Changes queue q, which is entered where nothing has touched it. -/
def State.modQueue (s : State) (q : Nat) (f : Queue → Queue) : State :=
  if s.queues.any (·.q == q) then { s with queues := upd (·.q == q) f s.queues }
  else { s with queues := s.queues ++ [f { q }] }

/-- The core at logical (x, y), at its reset values where nothing has touched it. -/
def State.core (s : State) (x y : Nat) : Core := (s.cores.find? fun c => c.x == x && c.y == y).getD { x, y }

def State.modCore (s : State) (x y : Nat) (f : Core → Core) : State :=
  if s.cores.any (fun c => c.x == x && c.y == y) then
    { s with cores := upd (fun c => c.x == x && c.y == y) f s.cores }
  else { s with cores := s.cores ++ [f { x, y }] }

def Launch.kernel (l : Launch) (k : Nat) : Kernel := nth l.code.kernels k ⟨0, 0, 0, 0, 0, 0, 0, false⟩

/-- The stage records of a kernel (R52). -/
def Launch.stages (l : Launch) (k : Nat) : List StageRec :=
  let kr := l.kernel k
  (l.code.stages.drop kr.stage0).take kr.nstages

def Kernel.polW (k : Kernel) : Nat := 2 ^ k.logW
def Kernel.polH (k : Kernel) : Nat := 2 ^ k.logH

/-- The kernel of a task. -/
def State.kernelOf (s : State) (t : Task) : Kernel :=
  match s.launch? t.lid with
  | some l => l.kernel t.kernel
  | none => ⟨0, 0, 0, 0, 0, 0, 0, false⟩

def State.stageOf (s : State) (t : Task) (n : Nat) : StageRec :=
  match s.launch? t.lid with
  | some l => nth (l.stages t.kernel) n ⟨0, 3, 96, 1⟩
  | none => ⟨0, 3, 96, 1⟩

/-- The logical coordinates of core index c of a task's polder (R64). -/
def State.coreXY (s : State) (t : Task) (c : Nat) : Nat × Nat :=
  let w := (s.kernelOf t).polW
  (t.x + c % w, t.y + c / w)

def State.cores? (s : State) (t : Task) (c : Nat) : Core := let xy := s.coreXY t c; s.core xy.1 xy.2

/-- The compute die of a logical core (R9). -/
def dieOf (x y : Nat) : Nat := (if 12 ≤ x then 1 else 0) + (if 8 ≤ y then 2 else 0)

/-- A fresh number, and the state that has used it. -/
def State.takeFresh (s : State) : Nat × State := (s.fresh, { s with fresh := s.fresh + 1 })

/-! ### Time (R6, R14, R206) -/

/-- The Drone master's time in ns. DESIGN CHOICE (log 105): it never wraps; only what is read or stored of it is cut to the
64 or 40 bits of its field. -/
def State.drone (s : State) : Nat := s.now / Config.droneTick

/-- Whose Drone copy an agent uses (R14): a core's extent table that of the core, a die's walk cache that of its L2 TLB. -/
def Agent.clock : Agent → Agent
  | .l1 x y => .l1 x y
  | .l2 d => .l2 d
  | .walkCache d => .l2 d
  | .extents _ x y => .l1 x y
  | .copyEngine x y => .copyEngine x y
  | .sluice => .headworks
  | .headworks => .headworks
  | .walker d n => .walker d n
  | .slice k n => .slice k n

/-- The die whose walkers walk for an agent; the Headworks and the Sluice stand on die 0 (R8, R209). -/
def Agent.die : Agent → Nat
  | .l1 x y => dieOf x y
  | .l2 d => d
  | .walkCache d => d
  | .extents _ x y => dieOf x y
  | .copyEngine x y => dieOf x y
  | .sluice => 0
  | .headworks => 0
  | .walker d _ => d
  | .slice _ _ => 0

def State.drift? (s : State) (ag : Agent) : Int := ((s.drift.find? (·.1 == Agent.clock ag)).map (·.2)).getD 0

/-- The agent caches nothing until a beacon finds its copy within 2 ns (R213). -/
def State.isSkewed (s : State) (ag : Agent) : Bool := s.skewed.any fun p => p.1 == Agent.clock ag

/-- An agent's local Drone time in ns. -/
def State.droneAt (s : State) (ag : Agent) : Nat := ((s.now : Int) + s.drift? ag).toNat / Config.droneTick

/-! ### Vector clocks (R136) -/

def Clock.get (k : Clock) (c : Nat × Nat) : Nat := ((k.find? (·.1 == c)).map (·.2)).getD 0

def Clock.put (k : Clock) (c : Nat × Nat) (n : Nat) : Clock :=
  if k.any (·.1 == c) then upd (·.1 == c) (fun p => (p.1, n)) k else k ++ [(c, n)]

def Clock.join (a b : Clock) : Clock := b.foldl (fun k p => k.put p.1 (max (k.get p.1) p.2)) a

/-- The next epoch of a context: what follows is not ordered by what the clock has been given away to. -/
def Clock.tick (k : Clock) (c : Nat × Nat) : Clock := k.put c (k.get c + 1)

/-! ### Device events and interrupts (R305) -/

/-- Raises event bit n; an interrupt follows when the bit rises under its mask. -/
def State.event (s : State) (n : Nat) : State :=
  let bit : BitVec 7 := BitVec.ofNat 7 (2 ^ n)
  let old := s.dev.event &&& bit
  let s' := { s with dev := { s.dev with event := s.dev.event ||| bit } }
  if old = 0 ∧ s.dev.evmask &&& bit ≠ 0 then
    { s' with host := { s'.host with interrupts := s'.host.interrupts ++ [s.dev.evvec.toNat] } }
  else s'

/-! ### Safe points and fault records (R43, R259–R261) -/

/-- Ordinal and PC of the last safe point at or before a PC, starting at ordinal n. -/
def safeScan (pc : Nat) : List (Nat × QWord) → Nat → Nat × Nat → Nat × Nat
  | [], _, best => best
  | (p, _) :: r, n, best => if p ≤ pc then safeScan pc r (n + 1) (n, p) else best

/-- The ordinal of the nearest preceding safe point and the saturated offset from it (R43, R259). -/
def nearestSafe (c : Code) (pc : Nat) : Nat × Nat :=
  let r := safeScan pc c.safes 0 (0xFFFFFFFF, 0)
  (r.1, min (pc - r.2) 0xFFFFFF)

/-- The ordinal of the safe point at a PC (R43). -/
def safeAt (c : Code) (pc : Nat) : Option Nat :=
  (c.safes.zipIdx.find? fun p => p.1.1 == pc).map (·.2)

/-- What an instruction reports of a fault: code, VA or detail, access byte of R259, partner record. -/
structure Flt where
  code : Nat
  detail : Nat := 0
  access : Nat := 0
  partner : Option (List Byte) := none
  /-- The stamp or key to report instead of the task's (R260, HISTORY). -/
  key : Option (BitVec 48) := none
deriving DecidableEq, Repr

/-! Fault codes of R257. -/
def Flt.illegal : Nat := 0x01
def Flt.operand : Nat := 0x02
def Flt.latch : Nat := 0x03
def Flt.fetch : Nat := 0x04
def Flt.align : Nat := 0x05
def Flt.unmapped : Nat := 0x06
def Flt.perm : Nat := 0x07
def Flt.race : Nat := 0x08
def Flt.merge : Nat := 0x09
def Flt.history : Nat := 0x0A
def Flt.member : Nat := 0x0B
def Flt.bardiv : Nat := 0x0C
def Flt.barexit : Nat := 0x0D
def Flt.watchdog : Nat := 0x0E
def Flt.trap : Nat := 0x0F
def Flt.bkpt : Nat := 0x10
def Flt.spawn : Nat := 0x11
def Flt.matrix : Nat := 0x12
def Flt.channel : Nat := 0x13
def Flt.format : Nat := 0x14
def Flt.cellst : Nat := 0x15
def Flt.dataerr : Nat := 0x16
def Flt.tracecap : Nat := 0x17
def Flt.range : Nat := 0x18
def Flt.nested : Nat := 0x19

/-- The 32 bytes of a record (R259). -/
def FaultRec.bytes (r : FaultRec) : List Byte :=
  Machine.bytes 1 r.code ++ Machine.bytes 1 r.lane ++ Machine.bytes 2 r.tix ++ Machine.bytes 4 r.ordinal ++
    Machine.bytes 3 r.offset ++ Machine.bytes 1 r.access ++ Machine.bytes 9 r.va ++ Machine.bytes 6 r.key.toNat ++
    Machine.bytes 5 r.time

/-- Record order: key, then k.tix, then Drone time, then code (R261). -/
def FaultRec.lt (a b : FaultRec) : Bool :=
  a.key < b.key || (a.key == b.key && (a.tix < b.tix || (a.tix == b.tix && (a.time < b.time ||
    (a.time == b.time && a.code < b.code)))))

/-- How many kept records a record takes, its partner included (R260). -/
def FaultRec.size (r : FaultRec) : Nat := if r.partner.isSome then 2 else 1

/-- The first n records, partners included (R261): the last place may hold a record whose partner has none. -/
def firstRecords : Nat → List FaultRec → List FaultRec
  | 0, _ => []
  | _ + 1, [] => []
  | n + 1, r :: rest => if r.size ≤ n + 1 then r :: firstRecords (n + 1 - r.size) rest else [{ r with partner := none }]

/-- Whether a launch still records faults: until the core cycle of its halt broadcast has passed (R268, R278). -/
def Launch.hears (l : Launch) (now : Nat) : Bool :=
  match l.st with
  | .halting time _ _ _ => now / Config.coreCycle ≤ time / Config.coreCycle
  | .halted time => now / Config.coreCycle ≤ time / Config.coreCycle
  | .staged => true
  | .running => true
  | .ended => true

/-- A fault record enters a launch: counted, kept among the first 256 in record order, and, when it is fatal, marked
(R261). Faults after the halt broadcast are not recorded (R268); one in the broadcast's own cycle is (R278). -/
def Launch.record (l : Launch) (now : Nat) (r : FaultRec) : Launch :=
  if !l.hears now then l
  else
    let all := insertBy FaultRec.lt r l.records
    let kept := firstRecords Config.keptRecords all
    { l with records := kept
             lost := l.lost || Config.keptRecords < (all.map FaultRec.size).sum
             faultCount := min (l.faultCount + 1) 0xFFFFFFFF
             fatal := l.fatal || r.fatal }

/-- The first fatal fault other than MERGE halts a halt-on-fatal launch (R268), or leaves it halted and stopped in
host-assisted mode of bit 6 (R301). -/
def State.haltIf (s : State) (lid : Nat) (r : FaultRec) : State :=
  match s.launch? lid with
  | some l =>
    if l.haltFatal && r.fatal && r.code != Flt.merge && l.st == .running then
      s.modLaunch lid fun l => { l with
        st := if s.dev.split.getLsbD 6 then .halted s.now else .halting s.now 1 l.dumpVa l.dumpSize }
    else s
  | none => s

/-- Enters a record and halts where R268 says so. The records of a re-executed task go to the launch that issued the
propagation, or to the propagation itself for PROPAGATE (R194). -/
def State.report (s : State) (t : Task) (r : FaultRec) : State :=
  match t.prop with
  | none => (s.modLaunch t.lid fun l => l.record s.now r).haltIf t.lid r
  | some pid =>
    let s := s.modProp pid fun p => { p with
      failed := p.failed || r.fatal
      first := match p.first with
        | none => some r
        | some f => some (if r.lt f then r else f) }
    match (s.prop? pid).bind (·.lid) with
    | some lid => (s.modLaunch lid fun l => l.record s.now r).haltIf lid r
    | none => s

/-- A launch whose tasks may run: neither halted nor ended, and for reruns the launch that issued the propagation
likewise (R194, R268). -/
def State.launchRuns (s : State) (l : Launch) : Bool :=
  l.st == .running && match (l.prop.bind s.prop?).bind (·.lid) with
    | some lid => match s.launch? lid with | some o => o.st == .running | none => false
    | none => true

/-- A task that stands on its cores and whose launch runs: its waits can end, and it can retire (R268). -/
def State.taskRuns (s : State) (t : Task) : Bool :=
  t.st == .resident && match s.launch? t.lid with | some l => s.launchRuns l | none => false

/-! ### Taking a fault (R257, R258) -/

/-- The lane of a thread in a wave. -/
def Wave.laneOf (w : Wave) (tix : Nat) : Option Nat :=
  (w.lanes.zipIdx.find? fun p => match p.1 with | some th => th.tix == tix | none => false).map (·.2)

def Wave.thread? (w : Wave) (ln : Nat) : Option Thread := nth w.lanes ln none

def Wave.modLane (w : Wave) (ln : Nat) (f : Thread → Thread) : Wave :=
  { w with lanes := w.lanes.zipIdx.map fun p => if p.2 == ln then p.1.map f else p.1 }

/-- Changes every thread of the mask. -/
def Wave.modLanes (w : Wave) (mask : Nat) (f : Nat → Thread → Thread) : Wave :=
  { w with lanes := w.lanes.zipIdx.map fun p => if mask.testBit p.2 then p.1.map (f p.2) else p.1 }

/-- The lanes whose thread meets a condition. -/
def Wave.maskWhere (w : Wave) (p : Thread → Bool) : Nat :=
  maskOf ((w.lanes.zipIdx.filter fun q => match q.1 with | some th => p th | none => false).map (·.2))

/-- Lanes of a mask in ascending k.tix. -/
def Wave.byTix (w : Wave) (mask : Nat) : List Nat :=
  let l := (lanesOf mask).filterMap fun n => (w.thread? n).map fun th => (th.tix, n)
  (sortBy (fun a b => a.1 < b.1) l).map (·.2)

def Thread.park! (th : Thread) : Thread := { th with park := .fatal, atBar := false }

/-- The record of a fault of the thread in a lane at a PC (R259). -/
def State.recordOf (s : State) (t : Task) (ln tix pc : Nat) (f : Flt) : FaultRec :=
  let code := match s.launch? t.lid with | some l => l.code | none => {}
  let sp := nearestSafe code pc
  { code := f.code, lane := ln, tix, ordinal := sp.1, offset := sp.2, access := f.access, va := f.detail,
    key := f.key.getD t.key, time := s.drone, partner := f.partner }

/-- THE SHARED FAULT ENTRY: the thread in a lane receives a fatal fault at its PC: it parks with a fatal record
(R257), and the record reaches its launch (R261). -/
def State.raise (s : State) (r : WaveRef) (ln : Nat) (f : Flt) : State :=
  match s.task? r.tid, (s.wave? r).bind (·.thread? ln) with
  | some t, some th =>
    let rec_ := s.recordOf t ln th.tix th.pc f
    (s.modWave r fun w => w.modLane ln Thread.park!).report t rec_
  | _, _ => s

/-- The same fault in every lane of a mask, in ascending k.tix. -/
def State.raiseAll (s : State) (r : WaveRef) (mask : Nat) (f : Flt) : State :=
  match s.wave? r with
  | some w => (w.byTix mask).foldl (fun s ln => s.raise r ln f) s
  | none => s

/-- A record that no thread receives (R185, R344). -/
def State.reportNoThread (s : State) (t : Task) (f : Flt) (fatal : Bool) : State :=
  s.report t { code := f.code, lane := 0xFF, tix := 0xFFFF, ordinal := 0xFFFFFFFF, offset := 0, access := f.access,
               va := f.detail, key := f.key.getD t.key, time := s.drone, partner := f.partner, fatal }

/-- A non-fatal report to a thread: TRACECAP, or a resumed BKPT that only counts (R262). -/
def Thread.count (th : Thread) (code : Nat) : Thread :=
  { th with faults := if th.faults = 0xFF then 0xFF else th.faults + 1, lastFault := BitVec.ofNat 7 code }

/-! ### Waiting, stopping (R84, R258) -/

/-- Whether a wait is one of R84. -/
def Wait.switched : Wait → Bool
  | .none => false
  | .pending => false
  | .retry _ b => b
  | .chwait _ _ _ _ => true
  | .copyw _ _ => true
  | .chfree _ _ => true
  | .join _ => true
  | .prop _ _ => true
  | .ldcs _ _ => true
  | .mrel _ => true
  | .fence _ _ _ => false
  | .fencex _ _ _ _ => false
  | .cells _ => false

/-- Threads of the wave wait at a barrier, or none do. -/
def Wave.barKind (w : Wave) : Nat := if w.barWaits.isEmpty then 0 else 1

/-- The wait kind of a register dump (R271). -/
def Wave.waitKind (w : Wave) : Nat :=
  match w.wait with
  | .none => w.barKind
  | .pending => w.barKind
  | .retry k switched => if !switched then w.barKind else if k = 11 then 8 else k
  | .chwait _ _ _ _ => 2
  | .copyw _ _ => 6
  | .chfree _ _ => 7
  | .join _ => 3
  | .prop _ _ => 5
  | .ldcs _ _ => 4
  | .mrel _ => 9
  | .fence _ _ _ => w.barKind
  | .fencex _ _ _ _ => w.barKind
  | .cells _ => w.barKind

def Thread.running (th : Thread) : Bool := th.park == .runs && !th.atBar

/-- Threads that could stand at the frontier (R70). -/
def Wave.ready (w : Wave) : Nat := w.maskWhere Thread.running

/-- Every thread has exited, is parked or waits at a barrier (R70). -/
def Wave.blocked (w : Wave) : Bool := w.ready == 0

/-- The frontier PC and the lanes at it (R70). -/
def Wave.frontier (w : Wave) : Option (Nat × Nat) :=
  let l := w.lanes.filterMap fun o => match o with
    | some th => if th.running then some th.pc else none
    | none => none
  match l with
  | [] => none
  | p :: ps =>
    let pc := ps.foldl min p
    some (pc, w.maskWhere fun th => th.running && th.pc == pc)

/-- Threads of a task that are neither waiting nor parked with a fatal record (R258). -/
def Wave.active (w : Wave) : Bool :=
  if w.wait.switched then w.maskWhere (fun th => match th.park with | .fault _ _ _ => true | _ => false) != 0
  else w.maskWhere (fun th => match th.park with
    | .runs => !th.atBar
    | .fault _ _ _ => true
    | .fatal => false) != 0

def Task.hasFatal (t : Task) : Bool :=
  t.shares.any fun h => h.waves.any fun w => w.maskWhere (fun th => th.park == .fatal) != 0

def Task.active (t : Task) : Bool := t.shares.any fun h => h.waves.any Wave.active

/-- A task that counts as retired for admission, merge and the watermark (R258). -/
def Task.over (t : Task) : Bool := t.st == .retired || t.st == .stopped

/-- Frees what a task holds on its cores: slots, bins, copy contexts, matrix engine, L1 lines, retry entries; nothing more
comes back for its samples. -/
def State.freeCores (s : State) (t : Task) : State :=
  { s with
    cores := s.cores.map fun c => { c with
      slots := c.slots.map fun sl => { sl with
        running := match sl.running with | some r => if r.tid == t.tid then none else some r | none => none
        yielded := match sl.yielded with | some r => if r.tid == t.tid then none else some r | none => none }
      bins := c.bins.filter (·.tid != t.tid)
      copies := c.copies.map fun q => q.filter (·.tid != t.tid)
      matrix := if c.matrix.holder == some t.tid then {} else c.matrix
      l1 := c.l1.filter (·.tid != t.tid)
      retry := c.retry.filter (·.tid != t.tid)
      samples := upd (fun p => p.tid == t.tid) (fun p => { p with loads := [], waiting := false }) c.samples }
    tlb := s.tlb.filter fun e => match e.ag with | .extents n _ _ => n != t.tid | _ => true
    flight := s.flight }

/-- The children of tasks, and their children, to the depth that a key allows (R161). -/
def State.descend (s : State) : Nat → List Nat → List Nat
  | 0, l => l
  | n + 1, l =>
    l ++ s.descend n ((s.tasks.filter fun t => !t.joined && (match t.parent with | some p => l.contains p | none => false)).map
      (·.tid))

/-- What stays of a share once its task is over: who has arrived at launch-level barriers (R78, R83). -/
def Share.left (h : Share) : Share := { c := h.c, bars := h.bars.filter (·.lvl == .launch) }

/-- The first conflicting byte of a pair: a VA, or an offset for scratch. -/
def raceByte (a b : Access) : Nat := a.va + (max a.addr b.addr - a.addr)

/-- The size that a record gives for an access: none for one wider than 16 bytes, which no lane load or store is (R259). -/
def Access.byte (a : Access) : Nat := if a.len ≤ 16 then a.len else 0

/-- The record of access x in a race with y, and its partner (R260). -/
def raceRec (t : Task) (x y : Access) (time : Nat) : FaultRec :=
  let at' := raceByte x y
  let p : FaultRec := { code := Flt.race + 128, lane := y.lane, tix := y.tix, ordinal := y.ordinal, offset := y.offset,
                        access := y.byte, va := at', key := t.key, time := y.time }
  { code := Flt.race, lane := x.lane, tix := x.tix, ordinal := x.ordinal, offset := x.offset, access := x.byte,
    va := at', key := t.key, time, partner := some p.bytes }

/-- The races of a task that no barrier has closed are reported when it ends; no thread parks (R138). -/
def State.endRaces (s : State) (t : Task) : State :=
  t.races.foldl (fun s p => (s.report t (raceRec t p.1 p.2 s.drone)).report t (raceRec t p.2 p.1 s.drone))
    (s.modTask t.tid fun t => { t with races := [] })

/-- The record of a word that a stopped task has written: one in an exclusive range stands, with the value that the task has
left; the others never merge (R178). -/
def WriteRec.left (w : WriteRec) (mem : Mem) : Option WriteRec :=
  if w.direct then some { w with post := some (w.post.getD (num (mem.read w.pa 8))) } else none

/-- A task stops: it and its unjoined descendants lose their shadow lines and resources (R258); races that no barrier has
closed are reported all the same (R138). -/
def State.stopTask (s : State) (tid : Nat) : State :=
  let all := s.descend 4 [tid]
  let s := s.tasks.foldl (fun s t => if all.contains t.tid && !t.over then s.endRaces t else s) s
  let s := s.tasks.foldl (fun s t => if all.contains t.tid && !t.over then s.freeCores t else s) s
  { s with
    tasks := s.tasks.map fun t => if all.contains t.tid && !t.over then
      { t with st := .stopped, shares := t.shares.map Share.left, shadow := [], inherited := [], spilled := []
               trec := { t.trec with writes := t.trec.writes.filterMap fun w => w.left s.mem } } else t
    saved := s.saved.filter fun v => !all.contains v.tid }

/-- A fatal record stands in a task: in a context, or in a thread that REFORM has filed (R138, R258). -/
def State.fatalIn (s : State) (t : Task) : Bool :=
  t.hasFatal || s.cores.any fun c => c.bins.any fun b => b.tid == t.tid && b.entries.any fun e => e.th.park == .fatal

/-- R258: the task stops once a fatal record stands in it and every other live thread waits or has exited; threads that
REFORM has filed into bins wait (R84). A task of a halted launch stays as the halt has found it (R268). -/
def State.settle (s : State) (tid : Nat) : State :=
  match s.task? tid with
  | some t => if s.taskRuns t && s.fatalIn t && !t.active then s.stopTask tid else s
  | none => s

end Sys2Proof.Machine
end

