-- ==== Sys2Proof/Machine/Float.lean ====
section
/-! DEFINITION. Floating-point arithmetic (R90–R97, R111, R112, R336–R340): exact values, one rounding, the flags of
R93. A finite value is (-1)^s × m × 2^e with m a natural number; every operation is exact until it is rounded. -/

namespace Sys2Proof.Machine

/-- A binary interchange format: exponent and fraction bits. -/
structure Fmt where
  eb : Nat
  mb : Nat
deriving DecidableEq, Repr

def Fmt.f64 : Fmt := ⟨11, 52⟩
def Fmt.f32 : Fmt := ⟨8, 23⟩
def Fmt.f16 : Fmt := ⟨5, 10⟩
def Fmt.bf16 : Fmt := ⟨8, 7⟩

def Fmt.bias (f : Fmt) : Nat := 2 ^ (f.eb - 1) - 1
def Fmt.emin (f : Fmt) : Int := 1 - (f.bias : Int)
/-- All exponent bits ones. -/
def Fmt.top (f : Fmt) : Nat := 2 ^ f.eb - 1
def Fmt.signBit (f : Fmt) (s : Bool) : Nat := if s then 2 ^ (f.eb + f.mb) else 0
def Fmt.inf (f : Fmt) (s : Bool) : Nat := f.signBit s + f.top * 2 ^ f.mb
/-- The largest finite value. -/
def Fmt.max (f : Fmt) (s : Bool) : Nat := f.inf s - 1
/-- The canonical NaN (R91). -/
def Fmt.nan (f : Fmt) : Nat := f.top * 2 ^ f.mb + 2 ^ (f.mb - 1)

/-! The flags of R93. -/
abbrev Flags := BitVec 5
def fNV : Flags := 16
def fDZ : Flags := 8
def fOF : Flags := 4
def fUF : Flags := 2
def fNX : Flags := 1

/-- A value: NaN (signalling or not), infinity, or finite. -/
inductive FV where
  | nan (sig : Bool)
  | inf (s : Bool)
  | fin (s : Bool) (m : Nat) (e : Int)
deriving DecidableEq, Repr

def Fmt.unpack (f : Fmt) (x : Nat) : FV :=
  let s := x / 2 ^ (f.eb + f.mb) % 2 == 1
  let e := x / 2 ^ f.mb % 2 ^ f.eb
  let m := x % 2 ^ f.mb
  if e = f.top then (if m = 0 then .inf s else .nan (m / 2 ^ (f.mb - 1) == 0))
  else if e = 0 then .fin s m (f.emin - f.mb)
  else .fin s (m + 2 ^ f.mb) ((e : Int) - f.bias - f.mb)

/-! ### Rounding (R90, R93, R95, R96) -/

/-- A rounding mode; stochastic rounding carries its 24-bit draw h >> 8 (R96). -/
inductive Round where
  | rne | rz | rd | ru
  | rs (h : Nat)
deriving DecidableEq, Repr

/-- Whether the magnitude q + rem / 2^k is rounded away from zero. -/
def Round.away (md : Round) (s : Bool) (q rem k : Nat) : Bool :=
  match md with
  | .rne => 2 ^ k < 2 * rem || (2 ^ k == 2 * rem && q % 2 == 1)
  | .rz => false
  | .rd => s && rem != 0
  | .ru => !s && rem != 0
  | .rs h => h * 2 ^ k < rem * 2 ^ 24

/-- Stochastic rounding, which draws (R96). -/
def Round.drawn : Round → Bool
  | .rne => false
  | .rz => false
  | .rd => false
  | .ru => false
  | .rs _ => true

/-- m × 2^e to a multiple of 2^q: the multiple and whether it is exact. -/
def roundAt (md : Round) (s : Bool) (m : Nat) (e q : Int) : Nat × Bool :=
  if q ≤ e then (m * 2 ^ (e - q).toNat, true)
  else
    let k := (q - e).toNat
    let a := m / 2 ^ k
    let rem := m % 2 ^ k
    (if md.away s a rem k then a + 1 else a, rem == 0)

/-- The exponent of the leading bit of m × 2^e, m ≠ 0. -/
def lead (m : Nat) (e : Int) : Int := e + (Nat.log2 m : Nat)

/-- Rounds (-1)^s × m × 2^e, m ≠ 0, into a format. Tininess is detected after rounding (R90). -/
def Fmt.round (f : Fmt) (md : Round) (s : Bool) (m : Nat) (e : Int) : Nat × Flags :=
  let l := lead m e
  -- |x| beyond the largest finite value: stochastic rounding takes the overflow result of rne (R96)
  let beyond_ := md.drawn && (decide (f.bias < l) ||
    (l == (f.bias : Int) && decide ((2 ^ (f.mb + 1) - 1) < (roundAt .ru false m e (l - f.mb)).1)))
  let q := (if l < f.emin then f.emin else l) - f.mb
  let r := roundAt md s m e q
  let nx : Flags := if r.2 then 0 else fNX
  if beyond_ then (f.inf s, fOF ||| fNX)
  else if r.1 = 0 then (f.signBit s, if r.2 then 0 else fUF ||| fNX)
  else
    let el := lead r.1 q
    if (f.bias : Int) < el then
      let toInf := match md with
        | .rne => true
        | .rz => false
        | .rd => s
        | .ru => !s
        | .rs _ => true
      (if toInf then f.inf s else f.max s, fOF ||| fNX)
    else
      let free := roundAt md s m e (l - f.mb)
      let tiny := decide (lead free.1 (l - f.mb) < f.emin)
      let uf : Flags := if tiny && !r.2 then fUF else 0
      if el < f.emin then (f.signBit s + r.1, nx ||| uf)
      else
        -- r.1 has mb + 1 bits, or one more after a carry
        let mant := if el = lead 1 q + f.mb then r.1 else r.1 / 2
        (f.signBit s + ((el + f.bias).toNat * 2 ^ f.mb + (mant - 2 ^ f.mb)), nx ||| uf)

/-- Rounds a finite value; an exact zero keeps the given sign. -/
def Fmt.pack (f : Fmt) (md : Round) (s : Bool) (m : Nat) (e : Int) : Nat × Flags :=
  if m = 0 then (f.signBit s, 0) else f.round md s m e

/-! ### Arithmetic -/

def FV.isSig : FV → Bool
  | .nan true => true
  | _ => false

def FV.isNaN : FV → Bool
  | .nan _ => true
  | _ => false

/-- The canonical NaN, with NV where an operand is signalling. -/
def Fmt.nanOf (f : Fmt) (l : List FV) : Nat × Flags := (f.nan, if l.any FV.isSig then fNV else 0)

/-- The exact sum of two finite values; an exact zero is signed by R336. -/
def addFin (s1 : Bool) (m1 : Nat) (e1 : Int) (s2 : Bool) (m2 : Nat) (e2 : Int) : Bool × Nat × Int :=
  let e := if e1 ≤ e2 then e1 else e2
  let a : Int := (m1 * 2 ^ (e1 - e).toNat : Nat)
  let b : Int := (m2 * 2 ^ (e2 - e).toNat : Nat)
  let c := (if s1 then -a else a) + (if s2 then -b else b)
  if c = 0 then (s1 && s2, 0, e) else (decide (c < 0), c.natAbs, e)

def FV.neg : FV → FV
  | .nan b => .nan b
  | .inf s => .inf (!s)
  | .fin s m e => .fin (!s) m e

/-- The sum of two values, rounded (R90). -/
def Fmt.addV (f : Fmt) (md : Round) (a b : FV) : Nat × Flags :=
  match a, b with
  | .nan x, y => f.nanOf [.nan x, y]
  | x, .nan y => f.nanOf [x, .nan y]
  | .inf s, .inf t => if s = t then (f.inf s, 0) else (f.nan, fNV)
  | .inf s, .fin _ _ _ => (f.inf s, 0)
  | .fin _ _ _, .inf t => (f.inf t, 0)
  | .fin s1 m1 e1, .fin s2 m2 e2 =>
    let r := addFin s1 m1 e1 s2 m2 e2
    f.pack md r.1 r.2.1 r.2.2

/-- The product of two values, before rounding: none is invalid (0 × ∞). -/
def mulV (a b : FV) : Option FV :=
  match a, b with
  | .nan x, _ => some (.nan x)
  | _, .nan y => some (.nan y)
  | .inf s, .inf t => some (.inf (s != t))
  | .inf s, .fin t m _ => if m = 0 then none else some (.inf (s != t))
  | .fin s m _, .inf t => if m = 0 then none else some (.inf (s != t))
  | .fin s m e, .fin t n g => some (.fin (s != t) (m * n) (e + g))

def Fmt.mul (f : Fmt) (x y : Nat) : Nat × Flags :=
  let a := f.unpack x
  let b := f.unpack y
  if a.isNaN || b.isNaN then f.nanOf [a, b]
  else match mulV a b with
    | none => (f.nan, fNV)
    | some (.nan _) => (f.nan, 0)
    | some (.inf s) => (f.inf s, 0)
    | some (.fin s m e) => f.pack .rne s m e

def Fmt.add (f : Fmt) (x y : Nat) : Nat × Flags := f.addV .rne (f.unpack x) (f.unpack y)

def Fmt.sub (f : Fmt) (x y : Nat) : Nat × Flags := f.addV .rne (f.unpack x) (f.unpack y).neg

/-- x × y + z with one rounding; 0 × ∞ is invalid whatever z is (R90). -/
def Fmt.fma (f : Fmt) (x y z : Nat) : Nat × Flags :=
  let a := f.unpack x
  let b := f.unpack y
  let c := f.unpack z
  if a.isNaN || b.isNaN then f.nanOf [a, b, c]
  else match mulV a b with
    | none => (f.nan, fNV)
    | some p => f.addV .rne p c

/-- The order of R92 on numbers: −0 below +0. -/
def ltV (a b : FV) : Bool :=
  match a, b with
  | .nan _, _ => false
  | _, .nan _ => false
  | .inf s, .inf t => s && !t
  | .inf s, .fin _ _ _ => s
  | .fin _ _ _, .inf t => !t
  | .fin s1 m1 e1, .fin s2 m2 e2 =>
    if m1 = 0 ∧ m2 = 0 then s1 && !s2
    else
      let r := addFin s1 m1 e1 (!s2) m2 e2
      r.1 && r.2.1 != 0

/-- minimumNumber, or maximumNumber (R92). -/
def Fmt.minmax (f : Fmt) (greater : Bool) (x y : Nat) : Nat × Flags :=
  let a := f.unpack x
  let b := f.unpack y
  let fl : Flags := if a.isSig || b.isSig then fNV else 0
  if a.isNaN && b.isNaN then (f.nan, fl)
  else if a.isNaN then (y, fl)
  else if b.isNaN then (x, fl)
  else if greater then (if ltV a b then y else x, 0) else (if ltV b a then y else x, 0)

/-- Numeric equality and order, zeros equal (R92, R337). -/
def eqV (a b : FV) : Bool :=
  match a, b with
  | .fin _ 0 _, .fin _ 0 _ => true
  | _, _ => !ltV a b && !ltV b a && !a.isNaN && !b.isNaN

/-- A compare condition and its NV flag (R92, R337). -/
def Fmt.cmp (f : Fmt) (c : FCond) (x y : Nat) : Bool × Flags :=
  let a := f.unpack x
  let b := f.unpack y
  let nan := a.isNaN || b.isNaN
  let sigF : Flags := if a.isSig || b.isSig then fNV else 0
  let nanF : Flags := if nan then fNV else 0
  let lt := ltV a b && !eqV a b
  let gt := ltV b a && !eqV a b
  match c with
  | .eq => (!nan && eqV a b, sigF)
  | .ne => (nan || !eqV a b, sigF)
  | .lt => (!nan && lt, nanF)
  | .le => (!nan && (lt || eqV a b), nanF)
  | .gt => (!nan && gt, nanF)
  | .ge => (!nan && (gt || eqV a b), nanF)
  | .uo => (nan, sigF)
  | .or => (!nan, sigF)

/-! ### Division and roots (R111, R339) -/

/-- Rounds a quotient p / q of naturals, q ≠ 0, scaled by 2^e: enough bits and a sticky bit decide every rounding. -/
def Fmt.ratio (f : Fmt) (md : Round) (s : Bool) (p q : Nat) (e : Int) : Nat × Flags :=
  if p = 0 then (f.signBit s, 0)
  else
    let k := 2 * f.mb + 8 + Nat.log2 q
    let n := p * 2 ^ k
    let m := n / q
    let st := if n % q = 0 then 0 else 1
    f.round md s (2 * m + st) (e - k - 1)

def Fmt.div (f : Fmt) (x y : Nat) : Nat × Flags :=
  match f.unpack x, f.unpack y with
  | .nan a, b => f.nanOf [.nan a, b]
  | a, .nan b => f.nanOf [a, .nan b]
  | .inf _, .inf _ => (f.nan, fNV)
  | .inf s, .fin t _ _ => (f.inf (s != t), 0)
  | .fin s _ _, .inf t => (f.signBit (s != t), 0)
  | .fin s m e, .fin t n g =>
    if n = 0 then (if m = 0 then (f.nan, fNV) else (f.inf (s != t), fDZ))
    else f.ratio .rne (s != t) m n (e - g)

/-- The integer square root of n below 2^(2 × fuel), from bit fuel − 1 down. -/
def isqrtFrom (n : Nat) : Nat → Nat → Nat
  | 0, r => r
  | k + 1, r => let t := r + 2 ^ k; if t * t ≤ n then isqrtFrom n k t else isqrtFrom n k r

def isqrt (n : Nat) : Nat := isqrtFrom n (Nat.log2 n / 2 + 1) 0

/-- Rounds √(m × 2^e), m ≠ 0. -/
def Fmt.root (f : Fmt) (m : Nat) (e : Int) : Nat × Flags :=
  let k : Nat := 2 * (f.mb + 8)
  let odd : Nat := if e % 2 = 0 then 0 else 1
  let n := m * 2 ^ (k + odd)
  let r := isqrt n
  let st := if r * r = n then 0 else 1
  f.round .rne false (2 * r + st) ((e - odd) / 2 - (f.mb + 8 : Nat) - 1)

def Fmt.sqrt (f : Fmt) (x : Nat) : Nat × Flags :=
  match f.unpack x with
  | .nan a => f.nanOf [.nan a]
  | .inf false => (f.inf false, 0)
  | .inf true => (f.nan, fNV)
  | .fin s m e => if m = 0 then (f.signBit s, 0) else if s then (f.nan, fNV) else f.root m e

/-- Rounds 1/√(m × 2^e), m ≠ 0. -/
def Fmt.invRoot (f : Fmt) (md : Round) (m : Nat) (e : Int) : Nat × Flags :=
  -- 1/√(m 2^e) = √(2^(2k) / m) × 2^(-k) × 2^(-e/2)
  let odd : Nat := if e % 2 = 0 then 0 else 1
  let k : Nat := 2 * f.mb + 16 + Nat.log2 m
  let mm := m * 2 ^ odd
  let n := 2 ^ (2 * k) / mm
  let r := isqrt n
  let st := if r * r * mm = 2 ^ (2 * k) then 0 else 1
  f.round md false (2 * r + st) (-(k : Int) - (e - odd) / 2 - 1)

/-- 1/√x (R111, R339). -/
def Fmt.rsqrt (f : Fmt) (x : Nat) : Nat × Flags :=
  match f.unpack x with
  | .nan a => f.nanOf [.nan a]
  | .inf false => (f.signBit false, 0)
  | .inf true => (f.nan, fNV)
  | .fin s m e =>
    if m = 0 then (f.inf s, fDZ) else if s then (f.nan, fNV) else f.invRoot .rne m e

/-! ### Integral values and integers (R97, R112, R340) -/

def rndInt : RndInt → Round
  | .rne => .rne
  | .rz => .rz
  | .rd => .rd
  | .ru => .ru

/-- FRND and DRND: the integral value with the sign kept, no flag but NV (R340). -/
def Fmt.rint (f : Fmt) (md : Round) (x : Nat) : Nat × Flags :=
  match f.unpack x with
  | .nan a => f.nanOf [.nan a]
  | .inf s => (f.inf s, 0)
  | .fin s m e =>
    if 0 ≤ e ∨ m = 0 then (x, 0)
    else (( f.pack .rne s (roundAt md s m e 0).1 0).1, 0)

/-- Float to integer of a width (R97). -/
def Fmt.toInt (f : Fmt) (md : Round) (signed : Bool) (w : Nat) (x : Nat) : Nat × Flags :=
  let hi : Int := if signed then 2 ^ (w - 1) - 1 else 2 ^ w - 1
  let lo : Int := if signed then -(2 ^ (w - 1)) else 0
  let code (i : Int) : Nat := (i % (2 ^ w : Nat)).toNat
  match f.unpack x with
  | .nan _ => (0, fNV)
  | .inf s => (code (if s then lo else hi), fNV)
  | .fin s m e =>
    let r := roundAt md s m e 0
    let v : Int := if s then -(r.1 : Int) else r.1
    if hi < v then (code hi, fNV) else if v < lo then (code lo, fNV)
    else (code v, if r.2 then 0 else fNX)

/-- Integer to float (R97). -/
def Fmt.ofInt (f : Fmt) (md : Round) (i : Int) : Nat × Flags := f.pack md (decide (i < 0)) i.natAbs 0

/-- Float to a narrower float (R97). -/
def cvtNarrow (a b : Fmt) (md : Round) (x : Nat) : Nat × Flags :=
  match a.unpack x with
  | .nan s => b.nanOf [.nan s]
  | .inf s => (b.inf s, 0)
  | .fin s m e => b.pack md s m e

/-- A widening conversion, exact (R97). -/
def cvtWiden (a b : Fmt) (x : Nat) : Nat × Flags := cvtNarrow a b .rne x

end Sys2Proof.Machine
end

