-- ==== Sys2Proof/Machine/Elementary.lean ====
section
/-! DEFINITION. The special functions (R110, R111, R331, R338, R339, R342, R371, R382). Roots, quotients and exact
cases are computed exactly. 2^x, log2 x, sin πx, cos πx and tanh x are enclosed between two rationals of 640 fraction
bits; when both ends round to one result, that result is delivered; otherwise the rounding is the free value
Config.roundUp (log 9). -/

namespace Sys2Proof.Machine

/-! ### Fixed-point enclosures: lo ≤ value × 2^640 ≤ hi -/

def fxBits : Nat := 640
def fxOne : Nat := 2 ^ fxBits

/-- floor (π × 2^640). -/
def fxPi : Nat := 14333329926761567455775730701799299831126131522901418329710873694248203755857903894978459978948837038337184470360789102305252273090192709030764248428292776480232102476327552185579501988876367276
/-- floor (ln 2 × 2^640). -/
def fxLn2 : Nat := 3162442850577000144542819255265044123884198300717798677536341180773118696995660441338367561063358767323571958122307070903190084685977847936741854327993944726832264493303953239866611699627604094

/-- Product of fixed-point numbers, rounded down. -/
def fxMul (a b : Nat) : Nat := a * b / fxOne

/-- Σ x^n / n! by Horner from term n down, for 0 ≤ x < 2^640: 1 + x/1 (1 + x/2 (1 + …)). -/
def fxExpFrom (x : Nat) : Nat → Nat → Nat
  | 0, acc => acc
  | n + 1, acc => fxExpFrom x n (fxOne + x * acc / fxOne / (n + 1))

/-- Within 2^20 units: each of the 150 steps loses at most two, and the tail is below one. -/
def fxSlack : Nat := 2 ^ 20

/-- exp x for 0 ≤ x < 1. -/
def fxExp (x : Nat) : Nat := fxExpFrom x 150 fxOne

/-- Σ (−1)^n x^(2n) / (2n)! and its odd sister, by Horner on x². `odd` = 1 gives sin x / x. -/
def fxTrigFrom (x2 odd : Nat) : Nat → Nat → Nat
  | 0, acc => acc
  | n + 1, acc => fxTrigFrom x2 odd n (fxOne - x2 * acc / fxOne / ((2 * n + 1 + odd) * (2 * n + 2 + odd)))

/-- cos x for 0 ≤ x ≤ π/2. -/
def fxCos (x : Nat) : Nat := fxTrigFrom (fxMul x x) 0 90 fxOne

/-- sin x for 0 ≤ x ≤ π/2. -/
def fxSin (x : Nat) : Nat := fxMul x (fxTrigFrom (fxMul x x) 1 90 fxOne)

/-- log2 of a fixed-point number in [1, 2), bit by bit: square, and take a bit where the square reaches 2. -/
def fxLog2From : Nat → Nat → Nat → Nat
  | 0, _, acc => acc
  | n + 1, z, acc =>
    let q := z * z / fxOne
    if 2 * fxOne ≤ q then fxLog2From n (q / 2) (2 * acc + 1) else fxLog2From n q (2 * acc)

/-- The first 200 fraction bits of log2 z; the squarings keep an error below 2^(200 + 8 − 640), far below 2^-200. -/
def fxLogBits : Nat := 200
def fxLog2 (z : Nat) : Nat := fxLog2From fxLogBits z 0

/-! ### Rounding an enclosure -/

/-- A rounding of a positive value: to a format (R111), or to 12 bits within binary32's range (R110). -/
def round12 (s : Bool) (m : Nat) (e : Int) : Nat :=
  if m = 0 then Fmt.f32.signBit s
  else
    let l := lead m e
    let q0 := l - 11
    let q := if q0 < -149 then -149 else q0
    let r := (roundAt .rne s m e q).1
    let v := Fmt.f32.pack .rne s r q
    if 128 ≤ lead r q then
      Fmt.f32.signBit s + 0x7F7FF000 else v.1

/-- Rounds a value that lies between lo × 2^e and hi × 2^e. fn and x name the free choice where the two ends round
apart. -/
def roundBetween (rnd : Nat → Int → Nat × Flags) (fn x lo hi : Nat) (e : Int) : Nat × Flags :=
  let a := rnd (2 * lo + 1) (e - 1)
  let b := rnd (2 * hi + 1) (e - 1)
  if a = b then a else if Config.roundUp fn x then b else a

def rnd32 (s : Bool) (m : Nat) (e : Int) : Nat × Flags := Fmt.f32.pack .rne s m e
def rnd12 (s : Bool) (m : Nat) (e : Int) : Nat × Flags := (round12 s m e, 0)

/-! ### 2^x -/

/-- x = m × 2^e split into floor and the fraction in units of 2^-640 (exact for binary32 operands). -/
def splitInt (s : Bool) (m : Nat) (e : Int) : Int × Nat :=
  let n : Int := if 0 ≤ e then (m * 2 ^ (e.toNat + fxBits) : Nat)
    else if -(fxBits : Int) ≤ e then (m * 2 ^ (fxBits - (-e).toNat) : Nat) else 0
  let v := if s then -n else n
  (v / (fxOne : Int), (v % (fxOne : Int)).toNat)

/-- 2^x for a finite x with |x| below 2^8, rounded by rnd: exact at integers. -/
def exp2Fin (rnd : Nat → Int → Nat × Flags) (fn x : Nat) (s : Bool) (m : Nat) (e : Int) : Nat × Flags :=
  let k := splitInt s m e
  if k.2 = 0 then rnd 1 k.1
  else
    let y := fxExp (fxMul k.2 fxLn2)
    roundBetween rnd fn x (y - fxSlack) (y + fxSlack) (k.1 - fxBits)

/-- EX2A (R342). -/
def ex2a (x : Nat) : Nat × Flags :=
  match Fmt.f32.unpack x with
  | .nan a => Fmt.f32.nanOf [.nan a]
  | .inf s => (if s then 0 else Fmt.f32.inf false, 0)
  | .fin s m e =>
    if m = 0 then (0x3F800000, 0)
    else if ¬ s ∧ 128 * 2 ^ 200 ≤ m * 2 ^ (e + 200).toNat then (0x7F7FF000, 0)
    else if s ∧ 150 * 2 ^ 200 ≤ m * 2 ^ (e + 200).toNat then (0, 0)
    else exp2Fin (rnd12 false) 2 x s m e

/-- FEX2 (R338, R339). -/
def fex2 (x : Nat) : Nat × Flags :=
  match Fmt.f32.unpack x with
  | .nan a => Fmt.f32.nanOf [.nan a]
  | .inf s => (if s then 0 else Fmt.f32.inf false, 0)
  | .fin s m e =>
    if m = 0 then (0x3F800000, 0)
    else if ¬ s ∧ 128 * 2 ^ 200 ≤ m * 2 ^ (e + 200).toNat then (Fmt.f32.inf false, fOF ||| fNX)
    else if s ∧ 160 * 2 ^ 200 ≤ m * 2 ^ (e + 200).toNat then (0, fUF ||| fNX)
    else exp2Fin (rnd32 false) 9 x s m e

/-! ### log2 x -/

/-- log2 of m × 2^e, m ≠ 0, rounded: exact at powers of two. -/
def log2Fin (rnd : Bool → Nat → Int → Nat × Flags) (fn x : Nat) (m : Nat) (e : Int) : Nat × Flags :=
  let l := lead m e
  let b := Nat.log2 m
  if m = 2 ^ b then rnd (decide (l < 0)) l.natAbs 0
  else
    let f := fxLog2 (m * 2 ^ (fxBits - b))
    -- the value is l + f / 2^200, f within one unit below
    let lo : Int := l * (2 ^ fxLogBits : Nat) + f - 1
    let hi : Int := l * (2 ^ fxLogBits : Nat) + f + 2
    if l < 0 then roundBetween (rnd true) fn x hi.natAbs lo.natAbs (-(fxLogBits : Int))
    else roundBetween (rnd false) fn x lo.natAbs hi.natAbs (-(fxLogBits : Int))

def log2Of (rnd : Bool → Nat → Int → Nat × Flags) (fn x : Nat) : Nat × Flags :=
  match Fmt.f32.unpack x with
  | .nan a => Fmt.f32.nanOf [.nan a]
  | .inf s => if s then (Fmt.f32.nan, fNV) else (Fmt.f32.inf false, 0)
  | .fin s m e =>
    if m = 0 then (Fmt.f32.inf true, fDZ) else if s then (Fmt.f32.nan, fNV) else log2Fin rnd fn x m e

/-- LG2A (R342). -/
def lg2a (x : Nat) : Nat × Flags := log2Of rnd12 3 x
/-- FLG2 (R338, R339). -/
def flg2 (x : Nat) : Nat × Flags := log2Of rnd32 10 x

/-! ### sin πx and cos πx -/

/-- The fraction of |x| in [0, 2) as a fixed-point number; |x| below 2^24. -/
def mod2 (m : Nat) (e : Int) : Nat :=
  let k := splitInt false m e
  (k.1 % 2).toNat * fxOne + k.2

/-- sin π t for 0 ≤ t < 2 as a sign and an enclosure that is exact at multiples of 1/2; t fixed-point. -/
def sinpi (t : Nat) : Bool × Nat × Nat :=
  let s := decide (fxOne ≤ t)
  let u := if fxOne ≤ t then t - fxOne else t
  let v := if fxOne / 2 < u then fxOne - u else u
  if v = 0 then (s, 0, 0)
  else if v = fxOne / 2 then (s, fxOne, fxOne)
  else
    let y := fxSin (fxMul v fxPi)
    (s, y - fxSlack, y + fxSlack)

/-- A small argument: sin πx = πx (1 − (πx)²/6 + …), scaled so that tiny operands keep their bits. -/
def sinSmall (fn x : Nat) (s : Bool) (m : Nat) (e : Int) : Nat × Flags :=
  -- |x| < 2^-100: the relative error of πx is below 2^-190
  roundBetween (rnd12 s) fn x (m * (fxPi / 2 ^ 400) - m) (m * (fxPi / 2 ^ 400 + 2)) (e - 240)

/-- SINA (R382). -/
def sina (x : Nat) : Nat × Flags :=
  match Fmt.f32.unpack x with
  | .nan a => Fmt.f32.nanOf [.nan a]
  | .inf _ => (Fmt.f32.nan, fNV)
  | .fin s m e =>
    if m = 0 ∨ 0 ≤ e then (Fmt.f32.signBit s, 0)
    else if lead m e < -100 then sinSmall 4 x s m e
    else
      let r := sinpi (mod2 m e)
      if r.2.1 = 0 ∧ r.2.2 = 0 then (Fmt.f32.signBit s, 0)
      else if r.2.1 = r.2.2 then rnd12 (s != r.1) r.2.1 (-(fxBits : Int))
      else roundBetween (rnd12 (s != r.1)) 4 x r.2.1 r.2.2 (-(fxBits : Int))

/-- COSA (R331): cos πx = sin π(x + 1/2). -/
def cosa (x : Nat) : Nat × Flags :=
  match Fmt.f32.unpack x with
  | .nan a => Fmt.f32.nanOf [.nan a]
  | .inf _ => (Fmt.f32.nan, fNV)
  | .fin _ m e =>
    if m = 0 then (0x3F800000, 0)
    else if 1 ≤ e then (0x3F800000, 0)
    else if lead m e < -100 then (0x3F800000, 0)
    else
      let r := sinpi ((mod2 m e + fxOne / 2) % (2 * fxOne))
      if r.2.1 = 0 ∧ r.2.2 = 0 then (0, 0)
      else if r.2.1 = r.2.2 then rnd12 r.1 r.2.1 (-(fxBits : Int))
      else roundBetween (rnd12 r.1) 5 x r.2.1 r.2.2 (-(fxBits : Int))

/-! ### tanh x, 1/x, 1/√x -/

/-- TANHA (R382): 1 − 2/(exp 2|x| + 1), with exp 2|x| = 2^k exp r. -/
def tanha (x : Nat) : Nat × Flags :=
  match Fmt.f32.unpack x with
  | .nan a => Fmt.f32.nanOf [.nan a]
  | .inf s => (Fmt.f32.signBit s + 0x3F800000, 0)
  | .fin s m e =>
    if m = 0 then (Fmt.f32.signBit s, 0)
    else if 5 ≤ lead m e then (Fmt.f32.signBit s + 0x3F800000, 0)
    else if lead m e < -60 then
      -- tanh x = x (1 − x²/3 + …): below x by less than 2^-120 of it
      roundBetween (rnd12 s) 6 x (m * 2 ^ 110 - m) (m * 2 ^ 110 - 1) (e - 110)
    else
      let t := (splitInt false m e).2 + (splitInt false m e).1.toNat * fxOne
      let k := 2 * t / fxLn2
      let y := fxExp (2 * t - k * fxLn2) * 2 ^ k
      -- the error of k × ln 2 is below k units, that of y below 2^20 × 2^k
      let d := fxSlack * 2 ^ (k + 8)
      let f (z : Nat) : Nat := (z - fxOne) * fxOne / (z + fxOne)
      roundBetween (rnd12 s) 6 x (f (y - d) - 1) (f (y + d) + 1) (-(fxBits : Int))

/-- RCPA (R371). -/
def rcpa (x : Nat) : Nat × Flags :=
  match Fmt.f32.unpack x with
  | .nan a => Fmt.f32.nanOf [.nan a]
  | .inf s => (Fmt.f32.signBit s, 0)
  | .fin s m e =>
    if m = 0 then (Fmt.f32.inf s, fDZ)
    else
      let n := 2 ^ 120
      let q := n / m
      (round12 s (2 * q + (if n % m = 0 then 0 else 1)) (-e - 121), 0)

/-- RSQA (R371). -/
def rsqa (x : Nat) : Nat × Flags :=
  match Fmt.f32.unpack x with
  | .nan a => Fmt.f32.nanOf [.nan a]
  | .inf s => if s then (Fmt.f32.nan, fNV) else (0, 0)
  | .fin s m e =>
    if m = 0 then (Fmt.f32.inf s, fDZ)
    else if s then (Fmt.f32.nan, fNV)
    else
      let odd : Nat := if e % 2 = 0 then 0 else 1
      let mm := m * 2 ^ odd
      let n := 2 ^ 160 / mm
      let r := isqrt n
      (round12 false (2 * r + (if r * r * mm = 2 ^ 160 then 0 else 1)) (-(80 : Int) - (e - odd) / 2 - 1), 0)

end Sys2Proof.Machine
end

