-- ==== Sys2Proof/Machine/Narrow.lean ====
section
/-! DEFINITION. The generator of R113, the narrow element formats (R100–R103, R334), the unsigned E5M3 scale (R98,
R108), quantisation (R98) and the arithmetic of the matrix path from element to accumulator (R104–R109). -/

namespace Sys2Proof.Machine

/-! ### The generator (R113) -/

def rngHash (ctr lo hi : Word) : Word :=
  let x := ctr ^^^ lo
  let x := x * 0x2C9277B5
  let x := x ^^^ (x >>> 15)
  let x := x ^^^ hi
  let x := x * 0xAC564B05
  x ^^^ (x >>> 16)

/-! ### Format registers (R100–R102) -/

/-- A format register's fields. -/
structure NFmt where
  cls : Nat
  special : Nat
  bias : Int
  sgn : Nat
  mb : Nat
  eb : Nat
deriving DecidableEq, Repr

def NFmt.of (w : Word) : NFmt :=
  { cls := fld w.toNat 18 2, special := fld w.toNat 16 2, bias := sext 8 (fld w.toNat 8 8), sgn := fld w.toNat 6 1,
    mb := fld w.toNat 3 3, eb := fld w.toNat 0 3 }

/-- R101: whether an instruction that requires class cls (1 n4, 2 n8) may use the register. -/
def nfmtOk (cls : Nat) (w : Word) : Bool :=
  let f := NFmt.of w
  fld w.toNat 20 12 == 0 && fld w.toNat 7 1 == 0 && f.special != 3 && f.cls == cls &&
    f.sgn + f.eb + f.mb ≤ (if cls = 2 then 8 else 4) && !(f.eb == 0 && f.mb == 0) &&
    !(f.special == 2 && (f.eb == 0 || f.mb == 0))

/-- The value of an element and its exponent (R102). -/
def NFmt.value (f : NFmt) (x : Nat) : FV × Int :=
  let m := x % 2 ^ f.mb
  let e := x / 2 ^ f.mb % 2 ^ f.eb
  let s := f.sgn == 1 && x / 2 ^ (f.mb + f.eb) % 2 == 1
  if f.special = 1 ∧ e = 2 ^ f.eb - 1 ∧ m = 2 ^ f.mb - 1 then (.nan false, 0)
  else if f.special = 2 ∧ e = 2 ^ f.eb - 1 then (if m = 0 then .inf s else .nan false, 0)
  else if f.eb = 0 then (.fin s m (-f.bias), (f.mb : Int) - 1 - f.bias)
  else if e = 0 then (.fin s m (1 - f.bias - f.mb), 1 - f.bias)
  else (.fin s (m + 2 ^ f.mb) ((e : Int) - f.bias - f.mb), (e : Int) - f.bias)

/-- The greatest magnitude code of a finite element. -/
def NFmt.maxCode (f : NFmt) : Nat :=
  match f.special with
  | 1 => 2 ^ (f.eb + f.mb) - 2
  | 2 => (2 ^ f.eb - 1) * 2 ^ f.mb - 1
  | _ => 2 ^ (f.eb + f.mb) - 1

/-- The magnitude code of r × 2^q where q is the quantum that goes with it. -/
def NFmt.magnitude (f : NFmt) (r : Nat) (q : Int) : Nat :=
  if f.eb = 0 then r
  else
    let l := lead r q
    if r = 0 then 0
    else if l < 1 - f.bias then r
    else (l + f.bias).toNat * 2 ^ f.mb + (r * 2 ^ f.mb / 2 ^ Nat.log2 r - 2 ^ f.mb)

/-- Converts a value into an element (R103). DESIGN CHOICE (log 103): a signalling NaN raises NV for special 10 too, whose
cell of the table lists no flag, and −∞ with S = 0 takes the table's last row for every special rule. -/
def NFmt.conv (f : NFmt) (md : Round) (v : FV) : Nat × Flags :=
  let sbit (s : Bool) : Nat := if s && f.sgn == 1 then 2 ^ (f.eb + f.mb) else 0
  let ones : Nat := 2 ^ (f.eb + f.mb) - 1
  match v with
  | .nan sig =>
    match f.special with
    | 1 => (ones, if sig then fNV else 0)
    | 2 => ((2 ^ f.eb - 1) * 2 ^ f.mb + 2 ^ (f.mb - 1), if sig then fNV else 0)
    | _ => (0, fNV)
  | .inf s =>
    if s ∧ f.sgn = 0 then (0, fNV)
    else match f.special with
      | 1 => (ones, fNV)
      | 2 => (sbit s + (2 ^ f.eb - 1) * 2 ^ f.mb, 0)
      | _ => (sbit s + f.maxCode, fNV)
  | .fin s m e =>
    if m = 0 then (sbit s, 0)
    else if s ∧ f.sgn = 0 then (0, fNV)
    else
      let l := lead m e
      let quantum (l : Int) : Int :=
        if f.eb = 0 then -f.bias else (if l < 1 - f.bias then 1 - f.bias else l) - f.mb
      let q := quantum l
      let up := roundAt .ru false m e q
      -- stochastic rounding overflows wherever |x| is beyond the largest finite value (R96)
      let beyond_ := md.drawn && decide (f.maxCode < f.magnitude up.1 q)
      let r := roundAt md s m e q
      let c := f.magnitude r.1 q
      if beyond_ || decide (f.maxCode < c) then
        let toInf : Bool := match md with
          | .rne => true
          | .rz => false
          | .rd => s
          | .ru => !s
          | .rs _ => true
        (sbit s + (if f.special == 2 && toInf then (2 ^ f.eb - 1) * 2 ^ f.mb else f.maxCode), fOF ||| fNX)
      else
        let free := roundAt md s m e (l - f.mb)
        let tiny := f.eb != 0 && decide (lead free.1 (l - f.mb) < 1 - f.bias)
        let nx : Flags := if r.2 then 0 else fNX
        (sbit s + c, nx ||| (if tiny && !r.2 then fUF else 0))

/-- CVT.F32.N8: exact unless the value exceeds binary32 (R334). -/
def NFmt.toF32 (f : NFmt) (x : Nat) : Nat × Flags :=
  match (f.value x).1 with
  | .nan _ => (Fmt.f32.nan, 0)
  | .inf s => (Fmt.f32.inf s, 0)
  | .fin s m e => Fmt.f32.pack .rne s m e

/-! ### The scale of R98 and R108 -/

/-- Unsigned E5M3: value is the first × 2^second. -/
def e5m3 (x : Nat) : Nat × Int :=
  let e := x / 8 % 32
  let m := x % 8
  if e = 0 then (m, -17) else (8 + m, (e : Int) - 18)

/-- Quantise one binary32 value (R98): the byte and the flags. DESIGN CHOICE (log 104): a NaN with a scale of 0 raises NV
alone, and an inexact quotient raises NX, also beside the NV of a clamp. -/
def quantise (md : Round) (scale : Nat) (z : Int) (x : Nat) : Nat × Flags :=
  let sc := e5m3 scale
  let byte (i : Int) : Nat := (i % 256).toNat
  let clamp (i : Int) (fl : Flags) : Nat × Flags :=
    if 127 < i then (byte 127, fl ||| fNV) else if i < -128 then (byte (-128), fl ||| fNV) else (byte i, fl)
  match Fmt.f32.unpack x with
  | .nan _ => (byte z, fNV)
  | .inf s =>
    if sc.1 = 0 then (byte z, fDZ) else clamp (if s then -1000 else 1000) 0
  | .fin s m e =>
    if sc.1 = 0 then (byte z, fDZ)
    else
      -- the exact quotient m × 2^e / (sc.1 × 2^sc.2), with sticky bits far below one unit
      let d := e - sc.2
      let k : Nat := if d < 0 then (-d).toNat + 40 else 40
      let n := m * 2 ^ (d + k).toNat
      let q := n / sc.1
      let st := if n % sc.1 = 0 then 0 else 1
      let r := roundAt md s (2 * q + st) (-(k : Int) - 1) 0
      let v : Int := if s then -(r.1 : Int) else r.1
      clamp (v + z) (if r.2 then 0 else fNX)

/-- Dequantise one byte (R98): exact. DESIGN CHOICE (log 104): a zero product is signed as q − z is, so a scale of 0 with
q < z gives −0. -/
def dequantise (scale : Nat) (z : Int) (b : Nat) : Nat :=
  let sc := e5m3 scale
  let d := sext 8 b - z
  (Fmt.f32.pack .rne (decide (d < 0)) (d.natAbs * sc.1) sc.2).1

/-! ### The matrix path (R104–R109) -/

end Sys2Proof.Machine

namespace Sys2Proof

def MClass.isInt : MClass → Bool
  | .i4 => true
  | .i8 => true
  | .n4 => false
  | .n8 => false

/-- Bits of an element's container. -/
def MClass.bits : MClass → Nat
  | .i4 => 4
  | .i8 => 8
  | .n4 => 4
  | .n8 => 8

/-- Bit-planes of an A class (R104, R362). -/
def MClass.planes : MClass → Nat
  | .i4 => 4
  | .i8 => 8
  | .n4 => 8
  | .n8 => 16

/-- The fraction bits that conversion keeps below E_blk (R104). -/
def MClass.keep : MClass → Int
  | .i4 => 0
  | .i8 => 0
  | .n4 => 6
  | .n8 => 14

end Sys2Proof

namespace Sys2Proof.Machine

/-- sign × trunc (m × 2^e). -/
def truncScale (s : Bool) (m : Nat) (e : Int) : Int :=
  let t : Int := (roundAt .rz false m e 0).1
  if s then -t else t

/-- One block of up to 32 elements: the q values, E_blk and the special mark (R104). -/
def convBlock (cls : MClass) (f : NFmt) (xs : List Nat) : List Int × Int × Bool :=
  if cls.isInt then (xs.map fun x => sext cls.bits x, 0, false)
  else
    let vs := xs.map f.value
    let exps := vs.filterMap fun v => match v.1 with
      | .fin _ m _ => if m = 0 then none else some v.2
      | .nan _ => none
      | .inf _ => none
    let eb : Int := match exps with
      | [] => if f.eb = 0 then (f.mb : Int) - 1 - f.bias else 1 - f.bias
      | a :: r => r.foldl max a
    let special := vs.any fun v => match v.1 with
      | .fin _ _ _ => false
      | .nan _ => true
      | .inf _ => true
    (vs.map fun v => match v.1 with
      | .fin s m e => truncScale s m (e + cls.keep - eb)
      | .nan _ => 0
      | .inf _ => 0, eb, special)

/-- Cuts a list into pieces of n; the first argument bounds the number of pieces. -/
def chunks {α : Type} (n : Nat) : Nat → List α → List (List α)
  | 0, _ => []
  | k + 1, l => if l.isEmpty then [] else l.take n :: chunks n k (l.drop n)

/-- One window of 256 elements: q values, block exponents with special marks, and their sum Σ q (R104, R105). -/
def convWindow (cls : MClass) (f : NFmt) (xs : List Nat) : List Int × List (Int × Bool) × Int :=
  let bs := (chunks 32 8 xs).map (convBlock cls f)
  let q := (bs.map (·.1)).flatten
  (q, bs.map (·.2), q.foldl (· + ·) 0)

/-- The weight exponent of a block on one side (R106). -/
def blockX (cls : MClass) (e : Int) : Int := if cls.isInt then 0 else e - cls.keep

def dot : List Int → List Int → Int
  | a :: r, b :: t => a * b + dot r t
  | _, _ => 0

/-- The partial record of one window: S, X, special (R106). -/
def combine (ca cb : MClass) (a b : List Int × List (Int × Bool)) : Int × Int × Bool :=
  let qa := chunks 32 8 a.1
  let qb := chunks 32 8 b.1
  let blocks := ((qa.zip qb).zip (a.2.zip b.2)).map fun p =>
    (dot p.1.1 p.1.2, blockX ca p.2.1.1 + blockX cb p.2.2.1, p.2.1.2 || p.2.2.2)
  match blocks with
  | [] => (0, 0, false)
  | b0 :: r =>
    let x := r.foldl (fun m p => max m p.2.1) b0.2.1
    let s := blocks.foldl (fun acc p => acc + truncScale (decide (p.1 < 0)) p.1.natAbs (p.2.1 - x)) 0
    (s, x, blocks.any (·.2.2))

/-- The 16 bytes of a partial record (R107). -/
def recordBytes (s x sa : Int) (special : Bool) : List Byte :=
  bytes 8 (s % (2 ^ 64 : Nat)).toNat ++ bytes 2 (x % (2 ^ 16 : Nat)).toNat ++
    bytes 4 (sa % (2 ^ 32 : Nat)).toNat ++ bytes 2 (if special then 1 else 0)

/-- One record applied to an accumulator (R109). -/
def accumulate (intPair : Bool) (aScale bScale : Half) (sb : Int) (rec_ : List Byte) (acc : Nat) : Nat × Flags :=
  let s := sext 64 (num (rec_.take 8))
  let x := sext 16 (num ((rec_.drop 8).take 2))
  let sa := sext 32 (num ((rec_.drop 10).take 4))
  let special := num ((rec_.drop 14).take 1) % 2 == 1
  if special then (Fmt.f32.nan, fNV)
  else
    let zA := if intPair then sext 8 (aScale.toNat / 256) else 0
    let zB := if intPair then sext 8 (bScale.toNat / 256) else 0
    let t := s - zB * sa - zA * sb + 256 * zA * zB
    let u := Fmt.f32.pack .rne (decide (t < 0)) t.natAbs x
    let a := e5m3 (aScale.toNat % 256)
    let b := e5m3 (bScale.toNat % 256)
    let sc := (Fmt.f32.pack .rne false (a.1 * b.1) (a.2 + b.2)).1
    let p := Fmt.f32.mul u.1 sc
    let r := Fmt.f32.add acc p.1
    (r.1, u.2 ||| p.2 ||| r.2)

end Sys2Proof.Machine
end

