-- ==== Sys2Proof/Machine/Operands.lean ====
section
/-! DEFINITION. Operand forms (R34–R36, R40), results and latches (R38, R39), and THE SHARED ISSUE of a lane
instruction: the checks of R48, the guard (R37), pending registers (R42), the advance of the PCs, switch points (R41)
and what the issue slot does (R75, R76). -/

namespace Sys2Proof.Machine

open Host

/-! ### Registers of a thread and a wave -/

def Thread.rv (th : Thread) (n : Nat) : Word := nth th.v n 0
def Thread.ra (th : Thread) (n : Nat) : Addr := nth th.a n 0
def Thread.rp (th : Thread) (n : Nat) : Bool := nth th.p n false
def Thread.setV (th : Thread) (n : Nat) (x : Word) : Thread := { th with v := putAt 0 th.v n x }
def Thread.setA (th : Thread) (n : Nat) (x : Addr) : Thread := { th with a := putAt 0 th.a n x }
def Thread.setP (th : Thread) (n : Nat) (x : Bool) : Thread := { th with p := putAt false th.p n x }
def Wave.rs (w : Wave) (n : Nat) : Word := nth w.s n 0
def Wave.setS (w : Wave) (n : Nat) (x : Word) : Wave := { w with s := putAt 0 w.s n x }
def Wave.rfmt (w : Wave) (n : Nat) : Word := nth w.fmt n 0
def Wave.rmc (w : Wave) (n : Nat) : Word := nth w.mc n 0

/-- The 32-bit words of a value, lowest first. -/
def words : Nat → Nat → List Word
  | 0, _ => []
  | n + 1, x => BitVec.ofNat 32 x :: words n (x / 2 ^ 32)

/-- The value of 32-bit words, lowest first (R35). -/
def ofWords : List Word → Nat
  | [] => 0
  | w :: r => w.toNat + 2 ^ 32 * ofWords r

/-- n consecutive registers as one value, ascending significance (R35). -/
def Thread.rvs (th : Thread) (n k : Nat) : Nat := ofWords ((List.range k).map fun i => th.rv (n + i))
def Wave.rss (w : Wave) (n k : Nat) : Nat := ofWords ((List.range k).map fun i => w.rs (n + i))

def Thread.setVs (th : Thread) (n : Nat) : List Word → Thread
  | [] => th
  | x :: r => (th.setV n x).setVs (n + 1) r

def Wave.setSs (w : Wave) (n : Nat) : List Word → Wave
  | [] => w
  | x :: r => (w.setS n x).setSs (n + 1) r

/-- The value of a source operand of a width (R34, R35); none where reading a latch raises LATCH (R40). -/
def readOp (w : Wave) (ln : Nat) (th : Thread) (width : Nat) : Opnd → Option Nat
  | .v n => some (th.rvs n (regSpan width))
  | .s n => some (w.rss n (regSpan width))
  | .l n =>
    match th.latch[n.val]? with
    | some l => if width = 64 ∧ ¬ l.wide then none else some (l.val.toNat % 2 ^ width)
    | none => none
  | .vz => some 0
  | .lane => some (ln % 2 ^ 32)
  | .tix => some (th.tix % 2 ^ 32)
  | .wix => some (w.wix % 2 ^ 32)

/-- A source operand where the prologue has checked its latch. -/
def src (w : Wave) (ln : Nat) (th : Thread) (width : Nat) (o : Opnd) : Nat := (readOp w ln th width o).getD 0

def src32 (w : Wave) (ln : Nat) (th : Thread) (o : Opnd) : Word := BitVec.ofNat 32 (src w ln th 32 o)
def src64 (w : Wave) (ln : Nat) (th : Thread) (o : Opnd) : DWord := BitVec.ofNat 64 (src w ln th 64 o)

/-- A result enters the latches (R39): at most four, newest first. -/
def Thread.enter (th : Thread) (wide : Bool) (x : DWord) : Thread :=
  { th with latch := ({ val := x, wide } :: th.latch).take 4 }

/-- Writes a 32-bit result to a v-register or discards it, and enters it (R38, R39). -/
def Thread.put32 (th : Thread) (d : Opnd) (noWrite : Bool) (x : Word) : Thread :=
  let th := match d with
    | .v n => if noWrite then th else th.setV n x
    | _ => th
  th.enter false (x.setWidth 64)

/-- Writes a 64-bit result to an even pair or discards it, and enters it. -/
def Thread.put64 (th : Thread) (d : Opnd) (noWrite : Bool) (x : DWord) : Thread :=
  let th := match d with
    | .v n => if noWrite then th else th.setVs n (words 2 x.toNat)
    | _ => th
  th.enter true x

/-- R40: every latch that the uses read is valid and wide enough. -/
def latchesOk (w : Wave) (ln : Nat) (th : Thread) (uses : List Use) : Bool :=
  uses.all fun u => match u with
    | .src b o => (readOp w ln th b o).isSome
    | .srcV _ _ => true
    | .srcX _ _ => true
    | .dst _ _ => true
    | .dstW _ _ _ => true
    | .dstS _ _ => true
    | .dstV _ _ => true
    | .sys _ => true

/-- The v-registers that an operand names. -/
def opRegs (b : Nat) : Opnd → List Nat
  | .v n => (List.range (regSpan b)).map (n.val + ·)
  | .s _ => []
  | .l _ => []
  | .vz => []
  | .lane => []
  | .tix => []
  | .wix => []

/-- The v-registers that a use reads or writes (R38, R42). -/
def Use.regs : Use → List Nat
  | .src b o => opRegs b o
  | .srcV b o => opRegs b o
  | .srcX b o => opRegs b o
  | .dst b o => opRegs b o
  | .dstW noWrite b o => if noWrite then [] else opRegs b o
  | .dstS b o => opRegs b o
  | .dstV b o => opRegs b o
  | .sys _ => []

/-- The lanes of a mask whose latch cannot be read at a width (R40). -/
def Wave.unread (w : Wave) (mask width : Nat) (o : Opnd) : Nat :=
  maskOf ((lanesOf mask).filter fun ln => match w.thread? ln with
    | some th => (readOp w ln th width o).isNone
    | none => false)

/-! ### Pending registers (R42, R343) -/

/-- A v-register is marked pending for a wave whose frontier has these lanes. -/
def Wave.isPending (w : Wave) (front n : Nat) : Bool := w.pend.any fun p => p.reg == n && without front p.joined != 0

/-- The marks after the lanes of a mask have marked one more register. -/
def markReg (mask : Nat) (l : List Pend) (n : Nat) : List Pend :=
  if l.any (·.reg == n) then upd (·.reg == n) (fun p => { reg := n, lanes := p.lanes ||| mask }) l
  else l ++ [{ reg := n, lanes := mask }]

/-- The marks after a load of the lanes of a mask into a destination. -/
def Wave.marked (w : Wave) (mask : Nat) (d : Opnd) (width : Nat) : List Pend :=
  if mask = 0 then w.pend else (opRegs width d).foldl (markReg mask) w.pend

/-- The marks of the lanes of a mask are dropped: their threads have left (R343, R373). -/
def Wave.dropMarks (w : Wave) (mask : Nat) : Wave :=
  { w with pend := (w.pend.map fun p => { p with lanes := without p.lanes mask }).filter (·.lanes != 0) }

/-- A thread enters a lane from a bin, with no register pending (R373). -/
def Wave.joinMarks (w : Wave) (ln : Nat) : Wave :=
  { w with pend := w.pend.map fun p => { p with joined := p.joined ||| 2 ^ ln } }

/-! ### The issue slot (R75, R76, R85) -/

/-- Whether a wave may issue: at a frontier, not waiting, not held except to try again, not stopped (R70, R76). -/
def Wave.canIssue (w : Wave) : Bool :=
  !w.blocked && (!w.stopped || w.pass) && match w.wait with
    | .none => true
    | .pending => true
    | .retry _ switched => !switched
    | .chwait _ _ _ _ => false
    | .copyw _ _ => false
    | .chfree _ _ => false
    | .join _ => false
    | .prop _ _ => false
    | .ldcs _ _ => false
    | .mrel _ => false
    | .fence _ _ _ => false
    | .fencex _ _ _ _ => false
    | .cells _ => false

/-- The running wave leaves its slot: the watchdog count restarts with the limit now in force (R85, R305). -/
def State.leaveSlot (s : State) (r : WaveRef) (yielded : Bool) : State :=
  match s.task? r.tid, s.wave? r with
  | some t, some w =>
    let xy := s.coreXY t r.core
    let limit := match s.launch? t.lid with
      | some l => (nth s.dev.wdog l.part 0x04000000).toNat
      | none => 0x04000000
    let s := s.modCore xy.1 xy.2 fun c => { c with
      slots := c.slots.zipIdx.map fun p => if p.2 == w.slot then
        { p.1 with running := none, yielded := if yielded then some r else none, count := 0, limit } else p.1 }
    s.modWave r fun w => { w with since := s.free }
  | _, _ => s

/-- In throughput mode the slot that runs a wave may take another from here (R76): the wave has passed a switch point. -/
def State.openSlot (s : State) (r : WaveRef) : State :=
  match s.task? r.tid, s.wave? r, s.launchOf? r.tid with
  | some t, some w, some l =>
    if l.det then s
    else
      let xy := s.coreXY t r.core
      let open_ := fun (sl : Slot) => if sl.running == some r then { sl with free := true } else sl
      s.modCore xy.1 xy.2 fun c => { c with slots := c.slots.modify w.slot open_ }
  | _, _, _ => s

/-! ### Issue -/

/-- One issue of a wave: who, the instruction, its PC, the lanes at the frontier and those whose guard lets them
execute. -/
structure Iss where
  r : WaveRef
  i : Instr
  info : LaneInfo
  pc : Nat
  front : Nat
  take : Nat
deriving DecidableEq, Repr

/-- What an instruction leaves: the state, the lanes that go on at the next PC, whether it has completed. -/
structure Done where
  s : State
  adv : Nat
  complete : Bool

/-- The instruction word that ILLEGAL, OPERAND and LATCH report (R260). -/
def insWord (i : Instr) : Nat := ((encode i).map (·.2)).getD 0

/-- Instructions at which a cooperative slot switches away (R75). -/
def switches : Instr → Bool × Bool
  | .yield _ => (true, true)
  | .reform _ => (true, false)
  | .join _ => (true, false)
  | .exit _ => (true, false)
  | _ => (false, false)

/-- Lanes of a mask whose thread still runs (it has not parked in this instruction, exited or been filed). -/
def Wave.still (w : Wave) (mask : Nat) : Nat :=
  maskOf ((lanesOf mask).filter fun n => match w.thread? n with | some th => th.park == .runs | none => false)

/-- A thread that enters or leaves an idempotent region keeps or drops its region entry (R88). -/
def Code.enterRegion (c : Code) (th : Thread) : Thread :=
  match c.regions.find? fun p => p.1 ≤ th.pc && th.pc < p.2 with
  | some p =>
    match th.entry with
    | some e => if p.1 ≤ e.1 ∧ e.1 < p.2 then th else { th with entry := some (th.pc, th.cseq, th.flags) }
    | none => { th with entry := some (th.pc, th.cseq, th.flags) }
  | none => { th with entry := none }

/-- What the end of an instruction makes of its wave: threads go on with no re-execution behind them (R267), region entries
are noted (R88), a completed switch point clears latches (R41). -/
def Wave.completed (w : Wave) (code : Code) (adv pc : Nat) (complete sw : Bool) : Wave :=
  let w := w.modLanes (w.still adv) fun _ th => { th with pc, replays := 0 }
  let w := w.modLanes 0xFFFFFFFF fun _ th => code.enterRegion th
  let w := if complete then { w with pass := false } else w
  if complete && sw then w.modLanes 0xFFFFFFFF fun _ th => { th with latch := [] } else w

/-- A wave that cannot go on now: it waits for another event, or none of its threads runs. -/
def State.held (s : State) (r : WaveRef) : Bool :=
  match s.wave? r with
  | some w => w.wait.switched || w.blocked
  | none => true

/-- What the issue slot and the task do after an instruction: the slot switches where R75 says, it may take another wave
after a switch point (R76), a task that is to stop stops (R258). -/
def afterIssue (iss : Iss) (sw complete : Bool) (s : State) : State :=
  let wait := s.held iss.r
  let sx := switches iss.i
  let s := if (complete && sx.1) || wait then s.leaveSlot iss.r (complete && sx.2) else s
  let s := if complete && sw then s.openSlot iss.r else s
  let stopReq := match s.launchOf? iss.r.tid with | some l => l.stopReq | none => false
  let s := if wait && stopReq then s.modWave iss.r fun w => if w.stopped then w else { w with stopped := true, atSafe := false } else s
  s.settle iss.r.tid

/-- The code of the launch that a task belongs to. -/
def State.codeOf (s : State) (tid : Nat) : Code := match s.launchOf? tid with | some l => l.code | none => {}

/-- After an instruction: its wave, then its slot and its task. -/
def finish (iss : Iss) (sw : Bool) (d : Done) : State :=
  afterIssue iss sw d.complete (d.s.modWave iss.r fun w =>
    w.completed (d.s.codeOf iss.r.tid) d.adv (iss.pc + iss.info.len) d.complete sw)

/-- Clears the pending marks (R42). -/
def State.clearPend (s : State) (r : WaveRef) : State := s.modWave r fun w => { w with pend := [] }

/-- THE SHARED ISSUE. OPERAND under the stage's budget in every thread at the frontier (R36, R48); the wait for
pending registers (R42, R86); the guard (R37); LATCH (R40) in each executing thread; then the body, which receives
the lanes that execute. -/
def issue (i : Instr) (body : Iss → State → Done) (s : State) : Outcome State Fault Refusal :=
  match s.issuer, i.lane? with
  | some r, some info =>
    match s.task? r.tid, s.wave? r with
    | some t, some w =>
      match w.frontier with
      | none => .next s
      | some (pc, front) =>
        let iss : Iss := { r, i, info, pc, front, take := front }
        if !i.selOk then
          .next ((s.raiseAll r front { code := Flt.illegal, detail := insWord i }).settle r.tid)
        else if !i.opOk (s.stageOf t w.stage).budget then
          .next ((s.raiseAll r front { code := Flt.operand, detail := insWord i }).settle r.tid)
        else
          let hit := info.uses.any fun u => (Use.regs u).any (w.isPending front)
          if hit && !w.loads.isEmpty then
            .next ((s.modWave r fun w => { w with wait := .pending }).openSlot r)
          else
            let s := s.modWave r fun w => { w with wait := .none, pend := if hit then [] else w.pend }
            let guarded := if info.g then w.maskWhere fun th => !th.rp 0 else 0
            let take := without front guarded
            let badLatch := maskOf ((lanesOf take).filter fun ln => match w.thread? ln with
              | some th => !latchesOk w ln th info.uses
              | none => false)
            let s := s.raiseAll r badLatch { code := Flt.latch, detail := insWord i }
            let d := body { iss with take := without take badLatch } s
            .next (finish iss (info.sw || info.s || hit) d)
    | _, _ => .fault .noIssuer
  | _, _ => .fault .noIssuer

/-- The body completed and every thread of the frontier that still runs goes on. -/
def Iss.done (iss : Iss) (s : State) : Done := { s, adv := iss.front, complete := true }

/-- The instruction will issue again: no thread moves (R84, R86). -/
def Iss.again (iss : Iss) (s : State) (kind : Nat) (switched : Bool) : Done :=
  { s := s.modWave iss.r fun w => { w with wait := .retry kind switched }, adv := 0, complete := false }

/-- The wave begins a wait: the executing threads stay, guarded-off threads go on (R37). -/
def Iss.waits (iss : Iss) (s : State) (wait : Wait) : Done :=
  { s := s.modWave iss.r fun w => { w with wait }, adv := without iss.front iss.take, complete := false }

/-- A wait or a hold ends: the lanes of its mask go on at the next instruction, and the task may stop (R258). At a switch
point the wave's latches are invalid (R41) and its slot may take another wave where it still runs this one (R76). -/
def State.goesOn (s : State) (r : WaveRef) (mask : Nat) (sw : Bool) : State :=
  let s := s.modWave r fun w =>
    let w := { w with wait := .none, pass := false, since := s.free }
    let w := w.modLanes (w.still mask) fun _ th => (s.codeOf r.tid).enterRegion { th with pc := th.pc + 4, replays := 0 }
    if sw then w.modLanes 0xFFFFFFFF fun _ th => { th with latch := [] } else w
  (if sw then s.openSlot r else s).settle r.tid

/-- A wait of R84 ends: its instruction is a switch point. -/
def State.endWait (s : State) (r : WaveRef) (mask : Nat) : State := s.goesOn r mask true

/-- LATCH in some of the executing threads, the others go on (R40, R48). -/
def Iss.badLatch (iss : Iss) (s : State) (bad : Nat) : Iss × State :=
  ({ iss with take := without iss.take bad }, s.raiseAll iss.r bad { code := Flt.latch, detail := insWord iss.i })

/-- Applies a function to each executing thread; nothing else changes. -/
def Iss.map (iss : Iss) (s : State) (f : Wave → Nat → Thread → Thread) : State :=
  s.modWave iss.r fun w => w.modLanes iss.take (f w)

/-- The executing lanes in which a check fails, with the fault. -/
def Iss.faults (iss : Iss) (s : State) (f : Wave → Nat → Thread → Option Flt) : List (Nat × Flt) :=
  match s.wave? iss.r with
  | some w => (w.byTix iss.take).filterMap fun ln => (w.thread? ln).bind fun th => (f w ln th).map fun x => (ln, x)
  | none => []

/-- Raises a list of faults. -/
def Iss.raiseList (iss : Iss) (s : State) (l : List (Nat × Flt)) : State :=
  l.foldl (fun s p => s.raise iss.r p.1 p.2) s

/-- Checks each executing thread, raises the faults, and applies f to the threads that pass. -/
def Iss.checkedMap (iss : Iss) (s : State) (chk : Wave → Nat → Thread → Option Flt)
    (f : Wave → Nat → Thread → Thread) : State :=
  let l : List (Nat × Flt) := iss.faults s chk
  let s := iss.raiseList s l
  let iss2 : Iss := { iss with take := without iss.take (maskOf (l.map Prod.fst)) }
  iss2.map s f

/-- The executing lane with the lowest k.tix (R226). -/
def Iss.lead (iss : Iss) (s : State) : Option (Nat × Thread) :=
  match s.wave? iss.r with
  | some w => ((w.byTix iss.take).head?).bind fun ln => (w.thread? ln).map fun th => (ln, th)
  | none => none

/-- A per-thread instruction without faults of its own. -/
def perThread (i : Instr) (f : Wave → Nat → Thread → Thread) (s : State) : Outcome State Fault Refusal :=
  issue i (fun iss s => iss.done (iss.map s f)) s

/-- A fault of a once-per-wave command in the lowest-k.tix thread that takes part: nothing else happens (R226). -/
def Iss.leadFault (iss : Iss) (s : State) (f : Flt) : Done :=
  match iss.lead s with
  | some (ln, _) => iss.done (s.raise iss.r ln f)
  | none => iss.done s

end Sys2Proof.Machine
end

