-- ==== Sys2Proof/Machine/Flags.lean ====
section
/-! DEFINITION. How results reach a thread: the sticky flags of k.flags (R93), integer and floating results with their
latch entry (R38, R39), predicates, and the rounding mode of a conversion (R95, R96). -/

namespace Sys2Proof.Machine

open Host

/-- ORs flags into k.flags (R93). -/
def Thread.flag (th : Thread) (fl : Flags) : Thread := { th with flags := th.flags ||| fl }

/-- A 32-bit floating result with its flags. -/
def Thread.putF32 (th : Thread) (d : Opnd) (noWrite : Bool) (r : Nat × Flags) : Thread :=
  (th.put32 d noWrite (BitVec.ofNat 32 r.1)).flag r.2

/-- A 64-bit floating result with its flags. -/
def Thread.putF64 (th : Thread) (d : Opnd) (noWrite : Bool) (r : Nat × Flags) : Thread :=
  (th.put64 d noWrite (BitVec.ofNat 64 r.1)).flag r.2

/-! ### Shapes of instructions -/

/-- Format T on 32 bits: d := op a b, with d read first. -/
def alu3 (i : Instr) (f : TOp) (op : Word → Word → Word → Word) (s : State) : Outcome State Fault Refusal :=
  perThread i (fun w ln th => th.put32 f.d f.w (op (src32 w ln th f.a) (src32 w ln th f.b) (src32 w ln th f.d))) s

def alu2 (i : Instr) (f : TOp) (op : Word → Word → Word) (s : State) : Outcome State Fault Refusal :=
  alu3 i f (fun a b _ => op a b) s

/-- Format I on 32 bits: d := op a imm8. -/
def aluImm (i : Instr) (f : IOp) (op : Word → BitVec 8 → Word) (s : State) : Outcome State Fault Refusal :=
  perThread i (fun w ln th => th.put32 f.d f.w (op (src32 w ln th f.a) f.imm)) s

/-- Format C: d := op d b (R31). -/
def compact2 (i : Instr) (f : COp) (op : Word → Word → Word) (s : State) : Outcome State Fault Refusal :=
  perThread i (fun w ln th =>
    let d : Opnd := .v ⟨f.d, by omega⟩
    th.put32 d false (op (th.rv f.d) (src32 w ln th f.b))) s

/-- Format C on binary32 values (R31). -/
def compactF (i : Instr) (f : COp) (op : Nat → Nat → Nat × Flags) (s : State) : Outcome State Fault Refusal :=
  perThread i (fun w ln th =>
    let d : Opnd := .v ⟨f.d, by omega⟩
    th.putF32 d false (op (th.rv f.d).toNat (src32 w ln th f.b).toNat)) s

/-- binary32 in format T, d read first (R345). -/
def fpu3 (i : Instr) (f : TOp) (op : Nat → Nat → Nat → Nat × Flags) (s : State) : Outcome State Fault Refusal :=
  perThread i (fun w ln th =>
    th.putF32 f.d f.w (op (src w ln th 32 f.a) (src w ln th 32 f.b) (src w ln th 32 f.d))) s

/-- binary64 in format T, d read first (R336). -/
def dpu3 (i : Instr) (f : TOp) (op : Nat → Nat → Nat → Nat × Flags) (s : State) : Outcome State Fault Refusal :=
  perThread i (fun w ln th =>
    th.putF64 f.d f.w (op (src w ln th 64 f.a) (src w ln th 64 f.b) (src w ln th 64 f.d))) s

/-- Two packed bf16 elements; their flags ORed (R94, R313). -/
def packed (op : Nat → Nat → Nat → Nat × Flags) (a b d : Nat) : Nat × Flags :=
  let lo := op (a % 65536) (b % 65536) (d % 65536)
  let hi := op (a / 65536) (b / 65536) (d / 65536)
  (lo.1 + 65536 * hi.1, lo.2 ||| hi.2)

/-- A predicate result (R337, R351): no latch. -/
def setPred (i : Instr) (p : Fin 8) (f : Wave → Nat → Thread → Bool × Flags) (s : State) :
    Outcome State Fault Refusal :=
  perThread i (fun w ln th => let r := f w ln th; (th.setP p r.1).flag r.2) s

/-- A 32-bit special function (R338). -/
def sfu32 (i : Instr) (f : SfuOp) (op : Nat → Nat × Flags) (s : State) : Outcome State Fault Refusal :=
  perThread i (fun w ln th => th.putF32 f.d false (op (src w ln th 32 f.a))) s

/-- A 64-bit special function (R338). -/
def sfu64 (i : Instr) (f : SfuOp) (op : Nat → Nat × Flags) (s : State) : Outcome State Fault Refusal :=
  perThread i (fun w ln th => th.putF64 f.d false (op (src w ln th 64 f.a))) s

/-! ### The rounding of a conversion (R95, R96) -/

/-- The stochastic draw of element j: h >> 8, with s14 and s15 of the wave as the key (R96). -/
def draw (w : Wave) (th : Thread) (j : Nat) : Round :=
  .rs ((rngHash (BitVec.ofNat 32 (th.tix + 0x10000 * j)) (w.rs 14) (w.rs 15)).toNat / 256)

/-- A k.rmode code; SWRITE stores no other (R95). -/
def rmodeRound (w : Wave) (th : Thread) (j : Nat) : Round :=
  match th.rmode.toNat with
  | 1 => .rz
  | 2 => .rd
  | 3 => .ru
  | 4 => draw w th j
  | _ => .rne

/-- The rounding of element j under e5 [2:0] (R95). -/
def cvtRound (w : Wave) (th : Thread) (r : Rnd) (j : Nat) : Round :=
  match r with
  | .rne => .rne
  | .rz => .rz
  | .rd => .rd
  | .ru => .ru
  | .rs => draw w th j
  | .rk => rmodeRound w th j

/-! ### Integer arithmetic (R99, R315, R316, R349, R351) -/

def mulHigh (a b : Int) : Word := BitVec.ofInt 32 (a * b / 2 ^ 32)

/-- IDIV (R99). -/
def sdiv32 (a b : Word) : Word :=
  if b = 0 then 0xFFFFFFFF else BitVec.ofInt 32 (Int.tdiv a.toInt b.toInt)

def udiv32 (a b : Word) : Word := if b = 0 then 0xFFFFFFFF else BitVec.ofNat 32 (a.toNat / b.toNat)

/-- IREM: the sign of the dividend; a divisor of 0 gives the dividend (R99). -/
def srem32 (a b : Word) : Word := if b = 0 then a else BitVec.ofInt 32 (Int.tmod a.toInt b.toInt)

def urem32 (a b : Word) : Word := if b = 0 then a else BitVec.ofNat 32 (a.toNat % b.toNat)

def smin32 (a b : Word) : Word := if b.slt a then b else a
def smax32 (a b : Word) : Word := if a.slt b then b else a
def umin32 (a b : Word) : Word := if b.toNat < a.toNat then b else a
def umax32 (a b : Word) : Word := if a.toNat < b.toNat then b else a

def shl32 (a : Word) (n : Nat) : Word := a <<< (n % 32)
def shru32 (a : Word) (n : Nat) : Word := a >>> (n % 32)
def shrs32 (a : Word) (n : Nat) : Word := a.sshiftRight (n % 32)

/-- BFX (R316). -/
def bfx32 (a b : Word) : Word :=
  let pos := b.toNat % 256
  let len := min (b.toNat / 256 % 256) 32
  BitVec.ofNat 32 (a.toNat / 2 ^ pos % 2 ^ len)

/-- BFI (R316). -/
def bfi32 (a b d : Word) : Word :=
  let pos := b.toNat % 256
  let len := min (b.toNat / 256 % 256) 32
  let mask : Word := BitVec.ofNat 32 ((2 ^ len - 1) * 2 ^ pos)
  (d &&& ~~~mask) ||| (BitVec.ofNat 32 (a.toNat * 2 ^ pos) &&& mask)

def popCount : Nat → Word → Nat
  | 0, _ => 0
  | n + 1, a => (if a.getLsbD n then 1 else 0) + popCount n a

/-- 0 bits from bit n − 1 down to the highest 1 bit. -/
def leadZeros : Nat → Word → Nat
  | 0, _ => 0
  | n + 1, a => if a.getLsbD n then 0 else 1 + leadZeros n a

/-- Bit i of the result is bit 31 − i of a. -/
def revBits (a : Word) : Word :=
  BitVec.ofNat 32 (maskOf ((List.range 32).filter fun i => a.getLsbD (31 - i)))

/-- BCNT (R315). -/
def bcnt32 (fn : BcntFn) (a : Word) : Word :=
  match fn with
  | .pop => BitVec.ofNat 32 (popCount 32 a)
  | .clz => BitVec.ofNat 32 (leadZeros 32 a)
  | .ctz => BitVec.ofNat 32 (leadZeros 32 (revBits a))
  | .rev => revBits a

/-- The ten integer conditions (R351). -/
def icmp32 (c : ICond) (a b : Word) : Bool :=
  match c with
  | .eq => a == b
  | .ne => a != b
  | .lt => a.slt b
  | .le => !b.slt a
  | .gt => b.slt a
  | .ge => !a.slt b
  | .lo => decide (a.toNat < b.toNat)
  | .ls => decide (a.toNat ≤ b.toNat)
  | .hi => decide (b.toNat < a.toNat)
  | .hs => decide (b.toNat ≤ a.toNat)

end Sys2Proof.Machine
end

