-- ==== Sys2Proof/Machine/Alu.lean ====
section
/-! DEFINITION. The meanings of the lane arithmetic: integer and bit instructions, immediates, address registers,
moves, predicates, floating point, special functions and the compact forms. -/

namespace Sys2Proof.Machine

open Host

/-! ### Integer arithmetic and logic (R311, R349, R368, R381, R391, R396) -/

def execIadd (f : TOp) (s : State) : Outcome State Fault Refusal := alu2 (.iadd f) f (· + ·) s
def execIsub (f : TOp) (s : State) : Outcome State Fault Refusal := alu2 (.isub f) f (· - ·) s
def execImul (f : TOp) (s : State) : Outcome State Fault Refusal := alu2 (.imul f) f (· * ·) s
def execImulh (f : TOp) (s : State) : Outcome State Fault Refusal :=
  alu2 (.imulh f) f (fun a b => mulHigh a.toInt b.toInt) s
def execImulhu (f : TOp) (s : State) : Outcome State Fault Refusal :=
  alu2 (.imulhu f) f (fun a b => mulHigh a.toNat b.toNat) s
def execImad (f : TOp) (s : State) : Outcome State Fault Refusal := alu3 (.imad f) f (fun a b d => a * b + d) s
def execIdiv (f : TOp) (s : State) : Outcome State Fault Refusal := alu2 (.idiv f) f sdiv32 s
def execIdivu (f : TOp) (s : State) : Outcome State Fault Refusal := alu2 (.idivu f) f udiv32 s
def execIrem (f : TOp) (s : State) : Outcome State Fault Refusal := alu2 (.irem f) f srem32 s
def execIremu (f : TOp) (s : State) : Outcome State Fault Refusal := alu2 (.iremu f) f urem32 s
def execImin (f : TOp) (s : State) : Outcome State Fault Refusal := alu2 (.imin f) f smin32 s
def execImax (f : TOp) (s : State) : Outcome State Fault Refusal := alu2 (.imax f) f smax32 s
def execUmin (f : TOp) (s : State) : Outcome State Fault Refusal := alu2 (.umin f) f umin32 s
def execUmax (f : TOp) (s : State) : Outcome State Fault Refusal := alu2 (.umax f) f umax32 s
def execAnd (f : TOp) (s : State) : Outcome State Fault Refusal := alu2 (.and f) f (· &&& ·) s
def execOr (f : TOp) (s : State) : Outcome State Fault Refusal := alu2 (.or f) f (· ||| ·) s
def execXor (f : TOp) (s : State) : Outcome State Fault Refusal := alu2 (.xor f) f (· ^^^ ·) s
def execAndn (f : TOp) (s : State) : Outcome State Fault Refusal := alu2 (.andn f) f (fun a b => a &&& ~~~b) s
def execShl (f : TOp) (s : State) : Outcome State Fault Refusal := alu2 (.shl f) f (fun a b => shl32 a b.toNat) s
def execShru (f : TOp) (s : State) : Outcome State Fault Refusal := alu2 (.shru f) f (fun a b => shru32 a b.toNat) s
def execShrs (f : TOp) (s : State) : Outcome State Fault Refusal := alu2 (.shrs f) f (fun a b => shrs32 a b.toNat) s
def execBfx (f : TOp) (s : State) : Outcome State Fault Refusal := alu2 (.bfx f) f bfx32 s
def execBfi (f : TOp) (s : State) : Outcome State Fault Refusal := alu3 (.bfi f) f bfi32 s

/-- SEL: a where p0 is 1, b otherwise (R378). -/
def execSel (f : TOp) (s : State) : Outcome State Fault Refusal :=
  perThread (.sel f) (fun w ln th =>
    th.put32 f.d f.w (if th.rp 0 then src32 w ln th f.a else src32 w ln th f.b)) s

def execIaddi (f : IOp) (s : State) : Outcome State Fault Refusal :=
  aluImm (.iaddi f) f (fun a n => a + n.signExtend 32) s
def execAndi (f : IOp) (s : State) : Outcome State Fault Refusal := aluImm (.andi f) f (fun a n => a &&& n.setWidth 32) s
def execOri (f : IOp) (s : State) : Outcome State Fault Refusal := aluImm (.ori f) f (fun a n => a ||| n.setWidth 32) s
def execXori (f : IOp) (s : State) : Outcome State Fault Refusal := aluImm (.xori f) f (fun a n => a ^^^ n.setWidth 32) s
def execShli (f : IOp) (s : State) : Outcome State Fault Refusal := aluImm (.shli f) f (fun a n => shl32 a n.toNat) s
def execShrui (f : IOp) (s : State) : Outcome State Fault Refusal := aluImm (.shrui f) f (fun a n => shru32 a n.toNat) s
def execShrsi (f : IOp) (s : State) : Outcome State Fault Refusal := aluImm (.shrsi f) f (fun a n => shrs32 a n.toNat) s

def execBcnt (f : IFnOp BcntFn) (s : State) : Outcome State Fault Refusal :=
  perThread (.bcnt f) (fun w ln th => th.put32 f.d f.w (bcnt32 f.fn (src32 w ln th f.a))) s

/-- FSGN: a bit operation without flags (R348). -/
def execFsgn (f : IFnOp FsgnFn) (s : State) : Outcome State Fault Refusal :=
  perThread (.fsgn f) (fun w ln th =>
    let a := src32 w ln th f.a
    th.put32 f.d f.w (match f.fn with
      | .neg => a ^^^ 0x80000000
      | .abs => a &&& 0x7FFFFFFF
      | .nabs => a ||| 0x80000000)) s

/-! ### Immediates and moves (R365, R366) -/

def execMovi (f : LOp) (s : State) : Outcome State Fault Refusal :=
  perThread (.movi f) (fun _ _ th => th.put32 f.d false (f.imm.signExtend 32)) s

/-- MOVHI keeps the low half of d, which reads as 0 where d is vz (R366). -/
def execMovhi (f : LOp) (s : State) : Outcome State Fault Refusal :=
  perThread (.movhi f) (fun w ln th =>
    th.put32 f.d false ((f.imm.setWidth 32 <<< 16) ||| (src32 w ln th f.d &&& 0xFFFF))) s

def execMov (f : MovOp) (s : State) : Outcome State Fault Refusal :=
  perThread (.mov f) (fun w ln th => th.put32 f.d f.w (src32 w ln th f.a)) s

/-- RNG (R375): the key is the s-register pair 2 × key. -/
def execRng (f : RngOp) (s : State) : Outcome State Fault Refusal :=
  perThread (.rng f) (fun w ln th =>
    th.put32 f.d f.w (rngHash (src32 w ln th f.a) (w.rs (2 * f.key)) (w.rs (2 * f.key + 1)))) s

/-! ### Address registers (R308–R310, R312): no latch but for AGET -/

def execAadd (f : AaddOp) (s : State) : Outcome State Fault Refusal :=
  perThread (.aadd f) (fun w ln th => th.setA f.d (addrAdd (th.ra f.a) (src32 w ln th f.b).toInt)) s

def execAaddi (f : AaddiOp) (s : State) : Outcome State Fault Refusal :=
  perThread (.aaddi f) (fun _ _ th => th.setA f.d (addrAdd (th.ra f.a) f.imm.toInt)) s

/-- APUT: one part of an address register (R312). -/
def aput (a : Addr) (part : APart) (x : Word) : Addr :=
  match part with
  | .lo => BitVec.ofNat 72 (a.toNat / 2 ^ 32 * 2 ^ 32 + x.toNat)
  | .mid => BitVec.ofNat 72 (a.toNat / 2 ^ 64 * 2 ^ 64 + x.toNat * 2 ^ 32 + a.toNat % 2 ^ 32)
  | .hi => BitVec.ofNat 72 (x.toNat % 256 * 2 ^ 64 + a.toNat % 2 ^ 64)

/-- AGET: one part of an address register (R310). -/
def aget (a : Addr) (part : APart) : Word :=
  match part with
  | .lo => BitVec.ofNat 32 a.toNat
  | .mid => BitVec.ofNat 32 (a.toNat / 2 ^ 32)
  | .hi => BitVec.ofNat 32 (a.toNat / 2 ^ 64 % 256)

def execAput (f : AputOp) (s : State) : Outcome State Fault Refusal :=
  perThread (.aput f) (fun w ln th => th.setA f.d (aput (th.ra f.d) f.part (src32 w ln th f.a))) s

def execAget (f : AgetOp) (s : State) : Outcome State Fault Refusal :=
  perThread (.aget f) (fun _ _ th => th.put32 f.d f.w (aget (th.ra f.a) f.part)) s

/-! ### Predicates (R337, R351, R379) -/

def execIcmp (f : CmpOp ICond) (s : State) : Outcome State Fault Refusal :=
  setPred (.icmp f) f.p (fun w ln th => (icmp32 f.c (src32 w ln th f.a) (src32 w ln th f.b), 0)) s

def execIcmpi (f : CmpIOp) (s : State) : Outcome State Fault Refusal :=
  setPred (.icmpi f) f.p (fun w ln th => (icmp32 f.c (src32 w ln th f.a) (f.imm.signExtend 32), 0)) s

def execFcmp (f : CmpOp FCond) (s : State) : Outcome State Fault Refusal :=
  setPred (.fcmp f) f.p (fun w ln th => Fmt.f32.cmp f.c (src w ln th 32 f.a) (src w ln th 32 f.b)) s

def execDcmp (f : CmpOp FCond) (s : State) : Outcome State Fault Refusal :=
  setPred (.dcmp f) f.p (fun w ln th => Fmt.f64.cmp f.c (src w ln th 64 f.a) (src w ln th 64 f.b)) s

def execSetp (f : SetpOp) (s : State) : Outcome State Fault Refusal :=
  setPred (.setp f) f.d (fun _ _ th =>
    let x := th.rp f.x
    let y := th.rp f.y
    (match f.fn with
      | .and => x && y
      | .or => x || y
      | .xor => x != y
      | .andn => x && !y
      | .not => !x
      | .one => true
      | .zero => false, 0)) s

/-! ### Floating point (R90–R94, R313, R336, R345) -/

def execFadd (f : TOp) (s : State) : Outcome State Fault Refusal := fpu3 (.fadd f) f (fun a b _ => Fmt.f32.add a b) s
def execFsub (f : TOp) (s : State) : Outcome State Fault Refusal := fpu3 (.fsub f) f (fun a b _ => Fmt.f32.sub a b) s
def execFmul (f : TOp) (s : State) : Outcome State Fault Refusal := fpu3 (.fmul f) f (fun a b _ => Fmt.f32.mul a b) s
def execFma (f : TOp) (s : State) : Outcome State Fault Refusal := fpu3 (.fma f) f Fmt.f32.fma s
def execFmin (f : TOp) (s : State) : Outcome State Fault Refusal :=
  fpu3 (.fmin f) f (fun a b _ => Fmt.f32.minmax false a b) s
def execFmax (f : TOp) (s : State) : Outcome State Fault Refusal :=
  fpu3 (.fmax f) f (fun a b _ => Fmt.f32.minmax true a b) s
def execDadd (f : TOp) (s : State) : Outcome State Fault Refusal := dpu3 (.dadd f) f (fun a b _ => Fmt.f64.add a b) s
def execDsub (f : TOp) (s : State) : Outcome State Fault Refusal := dpu3 (.dsub f) f (fun a b _ => Fmt.f64.sub a b) s
def execDmul (f : TOp) (s : State) : Outcome State Fault Refusal := dpu3 (.dmul f) f (fun a b _ => Fmt.f64.mul a b) s
def execDfma (f : TOp) (s : State) : Outcome State Fault Refusal := dpu3 (.dfma f) f Fmt.f64.fma s
def execDmin (f : TOp) (s : State) : Outcome State Fault Refusal :=
  dpu3 (.dmin f) f (fun a b _ => Fmt.f64.minmax false a b) s
def execDmax (f : TOp) (s : State) : Outcome State Fault Refusal :=
  dpu3 (.dmax f) f (fun a b _ => Fmt.f64.minmax true a b) s
def execBadd2 (f : TOp) (s : State) : Outcome State Fault Refusal :=
  fpu3 (.badd2 f) f (packed fun a b _ => Fmt.bf16.add a b) s
def execBmul2 (f : TOp) (s : State) : Outcome State Fault Refusal :=
  fpu3 (.bmul2 f) f (packed fun a b _ => Fmt.bf16.mul a b) s
def execBfma2 (f : TOp) (s : State) : Outcome State Fault Refusal := fpu3 (.bfma2 f) f (packed Fmt.bf16.fma) s

/-! ### Special functions (R110–R112, R331, R338–R340, R342, R371, R382) -/

def execRsqa (f : SfuOp) (s : State) : Outcome State Fault Refusal := sfu32 (.rsqa f) f rsqa s
def execRcpa (f : SfuOp) (s : State) : Outcome State Fault Refusal := sfu32 (.rcpa f) f rcpa s
def execEx2a (f : SfuOp) (s : State) : Outcome State Fault Refusal := sfu32 (.ex2a f) f ex2a s
def execLg2a (f : SfuOp) (s : State) : Outcome State Fault Refusal := sfu32 (.lg2a f) f lg2a s
def execSina (f : SfuOp) (s : State) : Outcome State Fault Refusal := sfu32 (.sina f) f sina s
def execCosa (f : SfuOp) (s : State) : Outcome State Fault Refusal := sfu32 (.cosa f) f cosa s
def execTanha (f : SfuOp) (s : State) : Outcome State Fault Refusal := sfu32 (.tanha f) f tanha s
def execFsqrt (f : SfuOp) (s : State) : Outcome State Fault Refusal := sfu32 (.fsqrt f) f Fmt.f32.sqrt s
def execFex2 (f : SfuOp) (s : State) : Outcome State Fault Refusal := sfu32 (.fex2 f) f fex2 s
def execFlg2 (f : SfuOp) (s : State) : Outcome State Fault Refusal := sfu32 (.flg2 f) f flg2 s
def execDsqrt (f : SfuOp) (s : State) : Outcome State Fault Refusal := sfu64 (.dsqrt f) f Fmt.f64.sqrt s
def execDrsq (f : SfuOp) (s : State) : Outcome State Fault Refusal := sfu64 (.drsq f) f Fmt.f64.rsqrt s

def execFdiv (f : DivOp) (s : State) : Outcome State Fault Refusal :=
  perThread (.fdiv f) (fun w ln th => th.putF32 f.d false (Fmt.f32.div (src w ln th 32 f.a) (th.rv f.b).toNat)) s

def execDdiv (f : DivOp) (s : State) : Outcome State Fault Refusal :=
  perThread (.ddiv f) (fun w ln th => th.putF64 f.d false (Fmt.f64.div (src w ln th 64 f.a) (th.rvs f.b 2))) s

def execFrnd (f : RndOp) (s : State) : Outcome State Fault Refusal :=
  perThread (.frnd f) (fun w ln th => th.putF32 f.d false (Fmt.f32.rint (rndInt f.mode) (src w ln th 32 f.a))) s

def execDrnd (f : RndOp) (s : State) : Outcome State Fault Refusal :=
  perThread (.drnd f) (fun w ln th => th.putF64 f.d false (Fmt.f64.rint (rndInt f.mode) (src w ln th 64 f.a))) s

/-! ### Compact forms (R31) -/

def execMovCompact (f : COp) (s : State) : Outcome State Fault Refusal := compact2 (.movCompact f) f (fun _ b => b) s
def execIaddCompact (f : COp) (s : State) : Outcome State Fault Refusal := compact2 (.iaddCompact f) f (· + ·) s
def execIsubCompact (f : COp) (s : State) : Outcome State Fault Refusal := compact2 (.isubCompact f) f (· - ·) s
def execImulCompact (f : COp) (s : State) : Outcome State Fault Refusal := compact2 (.imulCompact f) f (· * ·) s
def execAndCompact (f : COp) (s : State) : Outcome State Fault Refusal := compact2 (.andCompact f) f (· &&& ·) s
def execOrCompact (f : COp) (s : State) : Outcome State Fault Refusal := compact2 (.orCompact f) f (· ||| ·) s
def execXorCompact (f : COp) (s : State) : Outcome State Fault Refusal := compact2 (.xorCompact f) f (· ^^^ ·) s
def execShlCompact (f : COp) (s : State) : Outcome State Fault Refusal :=
  compact2 (.shlCompact f) f (fun a b => shl32 a b.toNat) s
def execShruCompact (f : COp) (s : State) : Outcome State Fault Refusal :=
  compact2 (.shruCompact f) f (fun a b => shru32 a b.toNat) s
def execShrsCompact (f : COp) (s : State) : Outcome State Fault Refusal :=
  compact2 (.shrsCompact f) f (fun a b => shrs32 a b.toNat) s
def execFaddCompact (f : COp) (s : State) : Outcome State Fault Refusal := compactF (.faddCompact f) f Fmt.f32.add s
def execFsubCompact (f : COp) (s : State) : Outcome State Fault Refusal := compactF (.fsubCompact f) f Fmt.f32.sub s
def execFmulCompact (f : COp) (s : State) : Outcome State Fault Refusal := compactF (.fmulCompact f) f Fmt.f32.mul s
def execFminCompact (f : COp) (s : State) : Outcome State Fault Refusal :=
  compactF (.fminCompact f) f (Fmt.f32.minmax false) s
def execFmaxCompact (f : COp) (s : State) : Outcome State Fault Refusal :=
  compactF (.fmaxCompact f) f (Fmt.f32.minmax true) s

/-- d := p0 ? d : b (R378). -/
def execSelCompact (f : COp) (s : State) : Outcome State Fault Refusal :=
  perThread (.selCompact f) (fun w ln th =>
    th.put32 (.v ⟨f.d, by omega⟩) false (if th.rp 0 then th.rv f.d else src32 w ln th f.b)) s

end Sys2Proof.Machine
end

