-- ==== Sys2Proof/Machine/Cipher.lean ====
section
/-! DEFINITION. The fixed functions that the spec names: AES-256 and XTS over one 64-byte line (R297), and SHAKE256
(R50, R298, R299). Their standards give them; the spec gives the tweak, the line and the lengths. -/

namespace Sys2Proof.Machine

/-! ### AES-256 -/

/-- Twice an element of the field of AES. -/
def fieldDouble (b : Byte) : Byte := (b <<< 1) ^^^ (if b.getLsbD 7 then 0x1B else 0)

/-- The product of two elements: n bits of the second, lowest first. -/
def fieldMul (a b : Byte) : Nat → Byte
  | 0 => 0
  | n + 1 => (if b.getLsbD 0 then a else 0) ^^^ fieldMul (fieldDouble a) (b >>> 1) n

/-- a^(2^n - 2): with n = 8 the inverse, and 0 for 0. -/
def fieldInv (a : Byte) : Nat → Byte
  | 0 => 1
  | 1 => 1
  | n + 2 => let r := fieldMul (fieldInv a (n + 1)) a 8; fieldMul r r 8

def aesSbox (a : Byte) : Byte :=
  let i := fieldInv a 8
  i ^^^ i.rotateLeft 1 ^^^ i.rotateLeft 2 ^^^ i.rotateLeft 3 ^^^ i.rotateLeft 4 ^^^ 0x63

def xorBytes (a b : List Byte) : List Byte := List.zipWith (· ^^^ ·) a b

/-- n more words of the key schedule after the words given, newest first; i is the number of the next word. -/
def aesSchedule (ws : List (List Byte)) (i : Nat) (rcon : Byte) : Nat → List (List Byte)
  | 0 => ws
  | n + 1 =>
    let last := ws.headD []
    let t := if i % 8 = 0 then xorBytes ((last.drop 1 ++ last.take 1).map aesSbox) [rcon, 0, 0, 0]
      else if i % 8 = 4 then last.map aesSbox else last
    aesSchedule (xorBytes (ws.getD 7 []) t :: ws) (i + 1) (if i % 8 = 0 then fieldDouble rcon else rcon) n

/-- Pieces of n bytes. -/
def pieceList (n : Nat) (l : List Byte) : Nat → List (List Byte)
  | 0 => []
  | k + 1 => l.take n :: pieceList n (l.drop n) k

/-- The fifteen round keys of a 32-byte key. -/
def aesKeys (key : List Byte) : List (List Byte) :=
  pieceList 16 (aesSchedule (pieceList 4 key 8).reverse 8 1 52).reverse.flatten 15

def aesShift (b : List Byte) : List Byte := (List.range 16).map fun i => b.getD ((i / 4 + i % 4) % 4 * 4 + i % 4) 0

def aesMix (b : List Byte) : List Byte := (List.range 16).map fun i =>
  let at' := fun (k : Nat) => b.getD (i / 4 * 4 + (i + k) % 4) 0
  fieldMul (at' 0) 2 8 ^^^ fieldMul (at' 1) 3 8 ^^^ at' 2 ^^^ at' 3

/-- The rounds after the first key. -/
def aesRounds : List (List Byte) → List Byte → List Byte
  | [], b => b
  | [k], b => xorBytes (aesShift (b.map aesSbox)) k
  | k :: ks, b => aesRounds ks (xorBytes (aesMix (aesShift (b.map aesSbox))) k)

/-- AES-256 of one block. -/
def aesBlock (key b : List Byte) : List Byte :=
  let ks := aesKeys key
  aesRounds (ks.drop 1) (xorBytes b (ks.headD []))

/-! ### XTS (R297) -/

/-- The tweak of the next block of a line. -/
def nextTweak (t : List Byte) : List Byte :=
  let x := num t * 2
  bytes 16 (if x < 2 ^ 128 then x else (x - 2 ^ 128) ^^^ 0x87)

/-- XTS-AES-256 of n blocks. -/
def xtsBlocks (key : List Byte) : Nat → List Byte → List Byte → List Byte
  | 0, _, _ => []
  | n + 1, t, b => xorBytes (aesBlock key (xorBytes (b.take 16) t)) t ++ xtsBlocks key n (nextTweak t) (b.drop 16)

/-- The ciphertext of a line under key material and a version: the tweak has PA[51:6] in bits [45:0] and the version in
bits [77:46]. PRESUMED (log 108): the first half of the material encrypts the data, the second the tweak, as the standard
of XTS has it. -/
def cipherLine (material version line : Nat) (plain : List Byte) : List Byte :=
  let k := bytes 64 material
  let tweak := bytes 16 (line % 2 ^ 46 + version % 2 ^ 32 * 2 ^ 46)
  xtsBlocks (k.take 32) 4 (aesBlock (k.drop 32) tweak) plain

/-! ### SHAKE256 -/

/-- The rotation of each lane x + 5 y of the state. -/
def keccakRot : List Nat :=
  [0, 1, 62, 28, 27, 36, 44, 6, 55, 20, 3, 10, 43, 25, 39, 41, 45, 15, 21, 8, 18, 2, 61, 56, 14]

def keccakRound (rc : DWord) (a : List DWord) : List DWord :=
  let c := (List.range 5).map fun x => (List.range 5).foldl (fun v y => v ^^^ a.getD (x + 5 * y) 0) 0
  let d := (List.range 5).map fun x => c.getD ((x + 4) % 5) 0 ^^^ (c.getD ((x + 1) % 5) 0).rotateLeft 1
  let e := (List.range 25).map fun i => (a.getD i 0 ^^^ d.getD (i % 5) 0).rotateLeft (keccakRot.getD i 0)
  -- lane (x, y) of b is lane (x + 3 y, x) of e
  let b := (List.range 25).map fun i => let x := i % 5; let y := i / 5; e.getD ((x + 3 * y) % 5 + 5 * x) 0
  (List.range 25).map fun i =>
    let at' := fun (k : Nat) => b.getD (i / 5 * 5 + (i + k) % 5) 0
    let v := at' 0 ^^^ (~~~(at' 1) &&& at' 2)
    if i = 0 then v ^^^ rc else v

def keccakRc : List DWord :=
  [0x0000000000000001, 0x0000000000008082, 0x800000000000808A, 0x8000000080008000, 0x000000000000808B,
   0x0000000080000001, 0x8000000080008081, 0x8000000000008009, 0x000000000000008A, 0x0000000000000088,
   0x0000000080008009, 0x000000008000000A] ++
  [0x000000008000808B, 0x800000000000008B, 0x8000000000008089, 0x8000000000008003, 0x8000000000008002,
   0x8000000000000080, 0x000000000000800A, 0x800000008000000A, 0x8000000080008081, 0x8000000000008080,
   0x0000000080000001, 0x8000000080008008]

def keccak (a : List DWord) : List DWord := keccakRc.foldl (fun a rc => keccakRound rc a) a

def keccakBytes (a : List DWord) : List Byte := (a.map fun w => bytes 8 w.toNat).flatten

/-- Absorbs n blocks of 136 bytes. -/
def absorb (a : List DWord) (l : List Byte) : Nat → List DWord
  | 0 => a
  | n + 1 =>
    let block := (pieceList 8 (l.take 136 ++ List.replicate 64 0) 25).map fun b => BitVec.ofNat 64 (num b)
    absorb (keccak (List.zipWith (· ^^^ ·) a block)) (l.drop 136) n

/-- Squeezes n blocks of 136 bytes. -/
def squeeze (a : List DWord) : Nat → List Byte
  | 0 => []
  | n + 1 => (keccakBytes a).take 136 ++ squeeze (keccak a) n

/-- n bytes of SHAKE256. -/
def shake256 (n : Nat) (l : List Byte) : List Byte :=
  let blocks := l.length / 136 + 1
  let fill := 136 * blocks - l.length
  let padded := if fill = 1 then l ++ [0x9F] else l ++ [0x1F] ++ List.replicate (fill - 2) 0 ++ [0x80]
  (squeeze (absorb (List.replicate 25 0) padded blocks) ((n + 135) / 136)).take n

end Sys2Proof.Machine
end

