-- ==== Sys2Proof/Machine/Translate.lean ====
section
/-! DEFINITION. Translation: the page table (R200–R204), leased entries (R205–R209), permissions and confirming walks
(R212), page faults and their service (R216–R220, R302, R303), and the rows about walks, leases and beacons. -/

namespace Sys2Proof.Machine

open Host

/-- Bits [lo + n − 1 : lo] of a number. -/
def bitsAt (x lo n : Nat) : Nat := x / 2 ^ lo % 2 ^ n

/-! ### HBM requests (R293) -/

/-- dv_missed counts a request that completed late, after its deadline (R293). -/
def State.addMissed (s : State) (late : Bool) (r : Nat) : State :=
  let old := ((s.dev.missed.find? (·.1 == r)).map (·.2)).getD 0
  let new := if old = 0xFFFFFFFF then old else old + 1
  { s with dev := { s.dev with missed := if late then (r, new) :: s.dev.missed.filter (·.1 != r) else s.dev.missed } }

/-- The deadline of a request of a service class that is issued now (R293). -/
def State.deadline (s : State) (cls : Nat) : Nat := s.drone + s.dev.hbmdl.toNat / 2 ^ (16 * cls) % 65536

/-- A request of a class completes now that was issued at an unknown time since t: whether after its deadline is open only
where its budget can have run out (R293). -/
def State.hbmLate (s : State) (cls r t : Nat) : Bool :=
  t + s.dev.hbmdl.toNat / 2 ^ (16 * cls) % 65536 < s.drone && Config.freeBool s.free (2 ^ 60 + r)

/-- A request of a class and of requester r, issued at an unknown time since t, completes. -/
def State.hbmRequest (s : State) (cls r t : Nat) : State := s.addMissed (s.hbmLate cls r t) r

/-- n such requests, each for a line of its own: any number of them is late. -/
def State.hbmRequests (s : State) (cls r t n : Nat) : State :=
  let old := ((s.dev.missed.find? (·.1 == r)).map (·.2)).getD 0
  let late := if t + s.dev.hbmdl.toNat / 2 ^ (16 * cls) % 65536 < s.drone then Config.freePick s.free (2 ^ 60 + r) % (n + 1) else 0
  let new := BitVec.ofNat 32 (min (old.toNat + late) 0xFFFFFFFF)
  { s with dev := { s.dev with missed := if late = 0 then s.dev.missed else (r, new) :: s.dev.missed.filter (·.1 != r) } }

/-! ### Entries (R201–R204) -/

/-- A read of the line at a device PA fails: it is on its slice's bad-line list, or what it holds cannot be corrected and a
read finds that again (R277, R296). -/
def State.badLine (s : State) (pa : Nat) : Bool :=
  s.dev.bad.any (fun b => b.2.2 / 64 == pa / 64) || s.dev.broken.contains (pa / 64)

def State.badIn (s : State) (pa n : Nat) : Bool :=
  let within := fun (line : Nat) => pa / 64 ≤ line && line ≤ (pa + n - 1) / 64
  s.dev.bad.any (fun b => within (b.2.2 / 64)) || s.dev.broken.any within

/-- The 16-byte entry at a device PA. -/
def State.pteAt (s : State) (pa : Nat) : Nat := num (s.mem.read pa 16)

def State.peerOk (s : State) (id : Nat) : Bool := s.dev.peers.any fun p => p.1 == id && p.2.getLsbD 0

/-- A valid non-leaf or ASID-table entry that R204 calls malformed. -/
def badNode (e : Nat) : Bool :=
  bitsAt e 1 1 != 0 || bitsAt e 2 14 != 0 || bitsAt e 20 4 != 0 || bitsAt e 60 68 != 0 ||
    Config.deviceBytes ≤ bitsAt e 24 36 * 65536

/-- A valid leaf entry that R204 calls malformed. -/
def State.badLeaf (s : State) (e : Nat) : Bool :=
  let target := bitsAt e 5 2
  let peer := bitsAt e 7 6
  let cell := bitsAt e 13 1
  let marks := bitsAt e 13 3
  bitsAt e 1 1 != 1 || bitsAt e 20 4 != 0 || bitsAt e 60 4 != 0 || bitsAt e 80 16 != 0 || target == 3 ||
    (peer != 0 && target != 2) || (target == 2 && !s.peerOk peer) || (marks != 0 && target != 0) ||
    (cell == 1 && marks != 1) || (target == 0 && Config.deviceBytes ≤ bitsAt e 24 36 * 65536)

def leafPa (e : Nat) : Nat := bitsAt e 24 36 * 65536
def leaseOf (e : Nat) : Nat := bitsAt e 16 4

/-- lease(L) in ns (R205); code 0 is never cached. -/
def leaseNs (l : Nat) : Nat := if l = 0 then 0 else 256 * 2 ^ (l - 1)

def attrOf (e : Nat) : Attr :=
  { r := e.testBit 2, w := e.testBit 3, x := e.testBit 4, target := BitVec.ofNat 2 (bitsAt e 5 2),
    peer := BitVec.ofNat 6 (bitsAt e 7 6), cell := e.testBit 13, mod := e.testBit 14, ordw := e.testBit 15,
    buf := BitVec.ofNat 16 (bitsAt e 64 16) }

/-! ### Walks -/

inductive WalkRes where
  | leaf (pte : Nat)
  | hole (level : Nat)
  | bad
  | dataerr
deriving DecidableEq, Repr

/-- A non-leaf entry that a walk read: level, VA bits above it, next node, lease code. -/
abbrev Fill := Nat × Nat × Nat × Nat

/-- The VA bits that name an entry of level k. -/
def vaIndex (k va : Nat) : Nat := if 5 ≤ k then 0 else va / 2 ^ (16 + 12 * k)

/-- The walk from the node of level k down to the leaf. -/
def State.walkDown (s : State) (va : Nat) : Nat → Nat → List Fill → WalkRes × List Fill
  | 0, node, fills =>
    let at' := node + 16 * (va / 2 ^ 16 % 4096)
    if s.badLine at' then (.dataerr, fills)
    else
      let e := s.pteAt at'
      if e % 2 = 0 then (.hole 0, fills) else if s.badLeaf e then (.bad, []) else (.leaf e, fills)
  | k + 1, node, fills =>
    let at' := node + 16 * (va / 2 ^ (16 + 12 * (k + 1)) % 4096)
    if s.badLine at' then (.dataerr, fills)
    else
      let e := s.pteAt at'
      if e % 2 = 0 then (.hole (k + 1), fills) else if badNode e then (.bad, [])
      else s.walkDown va k (leafPa e) ((k + 1, vaIndex (k + 1) va, leafPa e, leaseOf e) :: fills)

/-- The walk from the ASID table (R200). -/
def State.walkFull (s : State) (asid : BitVec 12) (va : Nat) : WalkRes × List Fill :=
  let at' := s.dev.asbase + 16 * asid.toNat
  if s.badLine at' then (.dataerr, [])
  else
    let e := s.pteAt at'
    if e % 2 = 0 then (.hole 5, []) else if badNode e then (.bad, [])
    else s.walkDown va 4 (leafPa e) [(5, 0, leafPa e, leaseOf e)]

/-- The live walk-cache entry of a die for the deepest level. -/
def State.walkHit (s : State) (die : Nat) (asid : BitVec 12) (va : Nat) : Option WalkEntry :=
  [1, 2, 3, 4, 5].findSome? fun k => s.walkCache.find? fun e =>
    e.die == die && e.asid == asid && e.level == k && e.index == vaIndex k va &&
      s.droneAt (.walkCache die) < e.expiry

/-- A walk of a walker, with its die's walk cache where the agent has one (R209). -/
def State.walk (s : State) (die : Option Nat) (asid : BitVec 12) (va : Nat) : WalkRes × List Fill :=
  match die.bind fun d => s.walkHit d asid va with
  | some e => s.walkDown va (e.level - 1) e.next []
  | none => s.walkFull asid va

/-- Drops an element of a list that a condition picks, where there are n or more; which is not specified (R209). -/
def dropOver {α : Type} (n pick : Nat) (p : α → Bool) (l : List α) : List α :=
  let mine := (l.zipIdx.filter fun q => p q.1).map (·.2)
  if mine.length < n then l else l.eraseIdx (nth mine (pick % mine.length) 0)

/-- Non-leaf entries enter the walk cache of 2 MiB (R206, R209, R213). -/
def State.fillWalk (s : State) (die : Option Nat) (asid : BitVec 12) (fills : List Fill) : State :=
  match die with
  | none => s
  | some d =>
    if s.isSkewed (.walkCache d) then s
    else
      let now := s.droneAt (.walkCache d)
      fills.foldl (fun s f =>
        if f.2.2.2 = 0 then s
        else
          let rest := s.walkCache.filter fun e => !(e.die == d && e.asid == asid && e.level == f.1 && e.index == f.2.1)
          { s with walkCache :=
            { die := d, asid, level := f.1, index := f.2.1, next := f.2.2.1, expiry := now + leaseNs f.2.2.2 } ::
              dropOver Config.walkCacheEntries (Config.freePick s.free f.1) (fun e => e.die == d) rest }) s

/-! ### Cached leaves (R206, R208) -/

/-- The live entry of an agent for a page. -/
def State.tlbHit (s : State) (ag : Agent) (asid : BitVec 12) (va : Nat) : Option TlbEntry :=
  s.tlb.find? fun e => e.ag == ag && e.asid == asid && e.group == va / 2 ^ 20 &&
    e.mask.getLsbD (va / 2 ^ 16 % 16) && s.droneAt ag < e.expiry

/-- A page leaves an agent's entries. -/
def State.dropPage (s : State) (ag : Agent) (asid : BitVec 12) (va : Nat) : State :=
  { s with tlb := (s.tlb.map fun e =>
      if e.ag == ag && e.asid == asid && e.group == va / 2 ^ 20 then
        { e with mask := e.mask &&& ~~~(BitVec.ofNat 16 (2 ^ (va / 2 ^ 16 % 16))) } else e).filter fun e => e.mask != 0 }

/-- Before a new page, a lease with less than 4,000 ns left is renewed by a fresh walk (R214). -/
def State.renew (s : State) (ag : Agent) (asid : BitVec 12) (va : Nat) : State :=
  match s.tlbHit ag asid va with
  | some e => if e.expiry < s.droneAt ag + 4000 then s.dropPage ag asid va else s
  | none => s

/-- How many entries an agent holds; none where no size is given (R8, R11, R209, R215). -/
def Agent.entries : Agent → Option Nat
  | .l1 _ _ => some Config.l1Tlb
  | .l2 _ => some Config.l2Tlb
  | .extents _ _ _ => some Config.extentEntries
  | .walkCache _ => none
  | .copyEngine _ _ => none
  | .sluice => none
  | .headworks => none
  | .walker _ _ => none
  | .slice _ _ => none

/-- A leaf joins this entry of its group under R208. -/
def State.joinsAt (s : State) (ag : Agent) (asid : BitVec 12) (va pte : Nat) (e : TlbEntry) : Bool :=
  e.ag == ag && e.asid == asid && e.group == va / 2 ^ 20 &&
    e.base == (leafPa pte : Int) - ((va / 2 ^ 16 % 16 : Nat) : Int) * 65536 && e.attr == attrOf pte && s.droneAt ag < e.expiry

/-- A leaf enters an agent's entries in the place of what it held of the page: it joins the entry of its group where R208
lets it, or takes one of its own, for which a full agent loses another. With lease code 0 nothing is kept (R205). -/
def State.installLeaf (s : State) (ag : Agent) (asid : BitVec 12) (va pte : Nat) : State :=
  let s := s.dropPage ag asid va
  if leaseOf pte = 0 || s.isSkewed ag then s
  else
    let i : Nat := va / 2 ^ 16 % 16
    let base : Int := (leafPa pte : Int) - (i : Int) * 65536
    let now := s.droneAt ag
    let until_ := now + leaseNs (leaseOf pte)
    let bit : BitVec 16 := BitVec.ofNat 16 (2 ^ i)
    match s.tlb.find? (s.joinsAt ag asid va pte) with
    | some e =>
      let tlb := upd (fun x => x == e) (fun x => { x with mask := x.mask ||| bit, expiry := min x.expiry until_ }) s.tlb
      { s with tlb }
    | none =>
      let rest := match Agent.entries ag with
        | some n => dropOver n (Config.freePick s.free 0) (fun e => e.ag == ag) s.tlb
        | none => s.tlb
      { s with tlb := { ag, asid, group := va / 2 ^ 20, base, mask := bit, attr := attrOf pte, expiry := until_ } :: rest }

/-! ### Translating an access (R209, R212) -/

inductive Trans where
  | ok (attr : Attr) (pa : Nat)
  | parks (level : Nat)
  | unmapped
  | perm
  | dataerr
deriving DecidableEq, Repr

/-- Who looks up, in order, and whose walk cache is used. -/
structure Viewer where
  agents : List Agent
  die : Option Nat
deriving DecidableEq, Repr

def laneViewer (tid x y : Nat) : Viewer := { agents := [.extents tid x y, .l1 x y, .l2 (dieOf x y)], die := some (dieOf x y) }
def copyViewer (x y : Nat) : Viewer := { agents := [.copyEngine x y], die := some (dieOf x y) }
def headViewer : Viewer := { agents := [.headworks], die := some 0 }
def sluiceViewer : Viewer := { agents := [.sluice], die := some 0 }

def Agent.isExtents : Agent → Bool
  | .extents _ _ _ => true
  | .l1 _ _ => false
  | .l2 _ => false
  | .walkCache _ => false
  | .copyEngine _ _ => false
  | .sluice => false
  | .headworks => false
  | .walker _ _ => false
  | .slice _ _ => false

/-- The agents that a viewer looks up for a page: its extent table alone where that holds an entry of the page, be it
expired, for then the access waits for the Sluice's new walk (R215); else the others in their order (R209). -/
def State.lookups (s : State) (v : Viewer) (asid : BitVec 12) (va : Nat) : List Agent :=
  let ext := v.agents.filter Agent.isExtents
  let holds := ext.filter fun ag => s.tlb.any fun e => e.ag == ag && e.asid == asid && e.group == va / 2 ^ 20 &&
    e.mask.getLsbD (va / 2 ^ 16 % 16)
  if holds.isEmpty then v.agents.filter fun ag => !Agent.isExtents ag else holds

/-- What an access's entry grants. -/
def grant (need : Attr → Bool) (va pte : Nat) : Trans :=
  if need (attrOf pte) then .ok (attrOf pte) (leafPa pte + va % 65536) else .perm

/-- A walk's requests are those of its die's walkers (R293). -/
def State.walkRequest (s : State) (die : Option Nat) : State := s.hbmRequest 0 (770 + die.getD 0) 0

/-- The confirming walk: every level is read, no cache is used (R212). -/
def State.confirm (s : State) (ags : List Agent) (asid : BitVec 12) (va : Nat) (need : Attr → Bool) : Trans × State :=
  match (s.walkFull asid va).1 with
  | .leaf e => (grant need va e, if need (attrOf e) then ags.foldl (fun s ag => s.installLeaf ag asid va e) s else s)
  | .hole k => (.parks k, s)
  | .bad => (.unmapped, s)
  | .dataerr => (.dataerr, s)

/-- Translates one access: the first hit, else a walk; a permission that is missing is confirmed. -/
def State.translate (s : State) (v : Viewer) (asid : BitVec 12) (va : Nat) (need : Attr → Bool) : Trans × State :=
  let ags := s.lookups v asid va
  match ags.findSome? fun ag => (s.tlbHit ag asid va).map fun e => (ag, e) with
  | some (ag, e) =>
    if need e.attr then (.ok e.attr ((e.base + (va / 2 ^ 16 % 16 : Nat) * 65536).toNat + va % 65536), s)
    else (s.walkRequest v.die).confirm [ag] asid va need
  | none =>
    let w := s.walk v.die asid va
    let s1 := (s.walkRequest v.die).fillWalk v.die asid w.2
    match w.1 with
    | .leaf e =>
      if need (attrOf e) then
        (grant need va e, ags.foldl (fun s ag => s.installLeaf ag asid va e) s1)
      else s1.confirm ags asid va need
    | .hole k => (.parks k, s1)
    | .bad => (.unmapped, s)
    | .dataerr => (.dataerr, s1)

/-! ### Page faults (R216, R217, R219) -/

/-- A fault id that no outstanding fault has (R219). DESIGN CHOICE (log 106): the lowest. -/
def State.freeFid (s : State) : Nat :=
  (((List.range (s.faults.length + 1)).map (· + 1)).find? fun n => !s.faults.any fun f => f.fid == n).getD 0

/-- The outstanding fault on a page, or a new one. -/
def State.pageFault (s : State) (asid : BitVec 12) (va level access xy : Nat) : Nat × State :=
  match s.faults.find? fun f => !f.failed && f.asid == asid && f.page == va / 65536 with
  | some f => (f.fid, s)
  | none =>
    let n := s.freeFid
    (n, { s with faults := s.faults ++ [
      { fid := n, asid, page := va / 65536, level, access, va := BitVec.ofNat 72 va, refault := false, xy,
        time := s.drone, hostMode := s.dev.split.getLsbD 0 }] })

/-- A lane parks on a fault, without a fatal record (R216). -/
def State.parkOn (s : State) (r : WaveRef) (ln fid va acc : Nat) : State :=
  s.modWave r fun w => w.modLane ln fun th => { th with park := .fault fid va acc }

/-! ### Replay (R218, R220) -/

def Task.modThreads (t : Task) (f : Thread → Thread) : Task :=
  { t with shares := t.shares.map fun h => { h with waves := h.waves.map fun w => w.modLanes 0xFFFFFFFF fun _ => f } }

/-- Changes the fault that each engine, packet and record waits at (R217, R220). -/
def State.mapWaits (s : State) (f : Option Nat → Option Nat) : State :=
  { s with
    cores := s.cores.map fun c => { c with copies := c.copies.map fun q => q.map fun k => { k with fault := f k.fault } }
    queues := s.queues.map fun q => { q with
      packet := q.packet.map fun p => { p with fault := f p.fault }
      signals := q.signals.map fun g => { g with fault := f g.fault }
      crWaits := q.crWaits.map fun w => { w with fault := f w.fault } } }

/-- Engines and records that wait at a fault try again. -/
def State.wakeEngines (s : State) (fid : Nat) : State := s.mapWaits fun o => if o == some fid then none else o

/-- An engine, packet or record waits at a fault. -/
def State.waitsAt (s : State) (fid : Nat) : Bool :=
  (s.cores.any fun c => c.copies.any fun q => q.any fun k => k.fault == some fid) ||
    s.queues.any fun q => (match q.packet with | some p => p.fault == some fid | none => false) ||
      (q.signals.any fun g => g.fault == some fid) || q.crWaits.any fun w => w.fault == some fid

/-- Failed faults leave once nothing waits at them any more (R218). -/
def State.dropFailed (s : State) : State :=
  if s.faults.any (·.failed) then { s with faults := s.faults.filter fun f => !f.failed || s.waitsAt f.fid } else s

/-- A halted launch's task stays as the halt has found it until the dump is written (R268). -/
def State.stands (s : State) (t : Task) : Bool := match s.launch? t.lid with
  | some l => l.st != .staged && !s.launchRuns l
  | none => false

/-- The lanes and engines of a fault go on and make their accesses again (R220). -/
def State.resumeFault (s : State) (fid : Nat) : State :=
  let s := { s with tasks := s.tasks.map fun (t : Task) => if s.stands t then t else t.modThreads fun th => match th.park with
    | .fault f _ _ => if f == fid then { th with park := .runs, replays := th.replays + 1 } else th
    | .runs => th
    | .fatal => th }
  { s.wakeEngines fid with faults := s.faults.filter fun f => f.fid != fid }

/-- A retry: a fresh walk; where it finds V = 0 again the fault is raised anew with the refault bit and everything
stays parked. -/
def State.retryFault (s : State) (fid : Nat) : State :=
  match s.faults.find? fun f => f.fid == fid with
  | none => s
  | some f =>
    match (s.walkFull f.asid f.va.toNat).1 with
    | .hole k =>
      let n := s.freeFid
      let again := fun (g : PageFault) =>
        { g with fid := n, level := k, refault := true, time := s.drone, hostMode := s.dev.split.getLsbD 0,
                 queued := false }
      let s := { s with
        faults := upd (fun g => g.fid == fid) again s.faults
        tasks := s.tasks.map fun (t : Task) => t.modThreads fun th => match th.park with
          | .fault g va acc => if g == fid then { th with park := .fault n va acc } else th
          | .runs => th
          | .fatal => th }
      s.mapWaits fun o => if o == some fid then some n else o
    | _ =>
      let s := { s with walkCache := s.walkCache.filter fun e => e.asid != f.asid }
      s.resumeFault fid

/-- The lanes of a wave that wait on a fault. -/
def Wave.waitersOf (w : Wave) (fid : Nat) : List (Nat × Nat × Nat) :=
  w.lanes.zipIdx.filterMap fun p => match p.1 with
    | some th => match th.park with
      | .fault f va acc => if f == fid then some (p.2, va, acc) else none
      | .runs => none
      | .fatal => none
    | none => none

/-- Every wave of the machine. -/
def State.waveRefs (s : State) : List WaveRef :=
  s.tasks.flatMap fun t => t.shares.flatMap fun h => h.waves.map fun w => { tid := t.tid, core := h.c, wix := w.wix }

/-- The fault becomes UNMAPPED in every lane that waits on it (R218). -/
def State.failLanes (s : State) (fid : Nat) : State :=
  let refs := s.waveRefs.filter fun r => match s.task? r.tid with | some t => !s.stands t | none => false
  let s := refs.foldl (fun s r => match s.wave? r with
    | some w => (w.waitersOf fid).foldl (fun s p =>
        (s.raise r p.1 { code := Flt.unmapped, detail := p.2.1, access := p.2.2 })) s
    | none => s) s
  s.tasks.foldl (fun s t => s.settle t.tid) s

/-- Engines that wait at the fault find it failed. -/
def State.failFault (s : State) (fid : Nat) : State :=
  { s with faults := upd (fun g => g.fid == fid) (fun g => { g with failed := true }) s.faults }

/-! ### The fault service (R218, R302, R303) -/

structure Pool where
  n : Nat
  asid : Nat
  bits : Nat
  base : Nat
  len : Nat
  list : Nat
  count : Nat
deriving DecidableEq, Repr

def State.poolAt (s : State) (n : Nat) : Pool :=
  let a := s.dev.poolbase + 64 * n
  { n, asid := num (s.mem.read a 2), bits := num (s.mem.read (a + 2) 3), base := num (s.mem.read (a + 8) 9),
    len := num (s.mem.read (a + 0x18) 8), list := num (s.mem.read (a + 0x20) 8),
    count := num (s.mem.read (a + 0x28) 4) }

/-- The first registered pool that covers a VA. -/
def State.poolOf (s : State) (asid : BitVec 12) (va : Nat) : Option Pool :=
  ((List.range 32).map s.poolAt).find? fun p => p.len != 0 && p.asid % 4096 == asid.toNat && p.base ≤ va &&
    va < p.base + p.len

/-- The tag of a line that firmware has filled with zeros: it reads as zeros under every key and version until it is next
written. DESIGN CHOICE (log 107): R218 names no key for the fill. -/
def zeroTag : Nat × Nat := (0, 1)

/-- A free page of a pool, filled with zeros. -/
def State.takePage (s : State) (n : Nat) : Option (Nat × State) :=
  let p := s.poolAt n
  if p.count = 0 then none
  else
    let pa := num (s.mem.read (p.list + 8 * (p.count - 1)) 8)
    let s := { s with mem := s.mem.write (s.dev.poolbase + 64 * n + 0x28) (bytes 4 (p.count - 1)) }
    let mem := s.mem.filter fun c => !(pa ≤ c.1 && c.1 < pa + 65536)
    let below := s.tags.filter fun t => t.1 < pa / 64
    let above := s.tags.filter fun t => pa / 64 + 1024 ≤ t.1
    let tags := below ++ ((List.range 1024).map fun i => (pa / 64 + i, zeroTag)) ++ above
    let bad := s.dev.bad.filter fun b => !(pa ≤ b.2.2 && b.2.2 < pa + 65536)
    let broken := s.dev.broken.filter fun l => !(pa / 64 ≤ l && l < pa / 64 + 1024)
    some (pa, { s with mem, tags, dev := { s.dev with bad, broken } })

/-- Builds the missing nodes below a level-k entry at a PA and maps the leaf; false where the pool ran out. -/
def State.mapPath (s : State) (p : Pool) (va : Nat) : Nat → Nat → State × Bool
  | 0, at' =>
    match s.takePage p.n with
    | none => (s, false)
    | some (pa, s) =>
      let pte := 3 + (p.bits % 2 ^ 18) * 4 + pa / 65536 * 2 ^ 24
      ({ s with mem := s.mem.write at' (bytes 16 pte) }, true)
  | k + 1, at' =>
    match s.takePage p.n with
    | none => (s, false)
    | some (pa, s) =>
      let lease := bitsAt (p.bits * 4) 16 4
      let s := { s with mem := s.mem.write at' (bytes 16 (1 + lease * 65536 + pa / 65536 * 2 ^ 24)) }
      s.mapPath p va k (pa + 16 * (va / 2 ^ (16 + 12 * k) % 4096))

/-- The PA of the first entry on the path of a VA that has V = 0, with its level, where there is one below level 5. DESIGN
CHOICE (log 136): firmware follows an entry with V = 1 without further checks. -/
def State.holeAt (s : State) (va : Nat) : Nat → Nat → Option (Nat × Nat)
  | 0, node =>
    let at' := node + 16 * (va / 2 ^ 16 % 4096)
    if s.pteAt at' % 2 = 0 then some (0, at') else none
  | k + 1, node =>
    let at' := node + 16 * (va / 2 ^ (16 + 12 * (k + 1)) % 4096)
    let e := s.pteAt at'
    if e % 2 = 0 then some (k + 1, at') else s.holeAt va k (leafPa e)

def hfqSize (d : Dev) : Nat := 4096 * 2 ^ min d.hfqlog 8

/-- The 32 bytes of a queue entry (R219). -/
def PageFault.bytes (f : PageFault) : List Byte :=
  Machine.bytes 4 f.fid ++ Machine.bytes 2 (f.asid.toNat + (if f.refault then 32768 else 0)) ++
    Machine.bytes 1 f.access ++ Machine.bytes 1 f.level ++ Machine.bytes 9 f.va.toNat ++ Machine.bytes 3 0 ++
    Machine.bytes 2 f.xy ++ Machine.bytes 2 0 ++ Machine.bytes 8 f.time

/-- The fault goes to the host fault queue, once there is room (R303). -/
def State.queueFault (s : State) (f : PageFault) : State :=
  let d := s.dev
  let next := (d.hfqhead + 32) % hfqSize d
  if f.queued || next == d.hfqtail then s
  else
    let s := { s with mem := s.mem.write (d.hfqbase + d.hfqhead) f.bytes, dev := { d with hfqhead := next }
                      faults := upd (fun g => g.fid == f.fid) (fun g => { g with queued := true }) s.faults }
    s.event 5

/-! ### The rows -/

/-- A walker of a die that has no walk under way (R8). DESIGN CHOICE (log 139): the lowest one. -/
def State.freeWalker (s : State) (die : Nat) : Option Nat :=
  (List.range Config.walkers).find? fun n => !s.walks.any fun w => Agent.die w.ag == die && w.walker == n

/-- PAGE_WALK (R207): a free walker of the agent's die reads the path to the leaf; a later turn installs the leaf, and the
non-leaf entries in the walk cache, if no more than 2,000 ns have passed on the walker's own clock, and otherwise discards
them and walks again. -/
def execPageWalk (ag : Agent) (asid : BitVec 12) (va : Addr) (s : State) : Outcome State Fault Refusal :=
  let die := Agent.die ag
  let mine := fun (w : Walk) => w.ag == ag && w.asid == asid && w.va == va
  let start := fun (s : State) (n : Nat) =>
    let r := s.walk (some die) asid va.toNat
    match r.1 with
    | .leaf e =>
      let w : Walk :=
        { ag, walker := n, asid, va, pte := BitVec.ofNat 128 e, fills := r.2, readAt := s.droneAt (.walker die n) }
      { s.walkRequest (some die) with walks := s.walks ++ [w] }
    | _ => s.walkRequest (some die)
  match s.walks.find? mine with
  | none => match s.freeWalker die with
    | some n => .next (start s n)
    | none => .next s
  | some w =>
    let s := { s with walks := s.walks.filter fun x => !mine x }
    if s.droneAt (.walker die w.walker) ≤ w.readAt + 2000 then
      .next ((s.fillWalk (some die) asid w.fills).installLeaf ag asid va.toNat w.pte.toNat)
    else .next (start s w.walker)

/-- LEASE_EXPIRY (R206): entry n of the cached translations, if its expiry has come, is invalid. -/
def execLeaseExpiry (n : Nat) (s : State) : Outcome State Fault Refusal :=
  match s.tlb[n]? with
  | some e => .next (if e.expiry ≤ s.droneAt e.ag then { s with tlb := s.tlb.eraseIdx n } else s)
  | none =>
    match s.walkCache[n - s.tlb.length]? with
    | some e => .next (if e.expiry ≤ s.droneAt (.walkCache e.die) then
        { s with walkCache := s.walkCache.eraseIdx (n - s.tlb.length) } else s)
    | none => .next s

/-- CACHE_ENTRY_DROP (R209): an entry leaves before its expiry. -/
def execCacheEntryDrop (n : Nat) (s : State) : Outcome State Fault Refusal :=
  if n < s.tlb.length then .next { s with tlb := s.tlb.eraseIdx n }
  else .next { s with walkCache := s.walkCache.eraseIdx (n - s.tlb.length) }

/-- The deviation of an agent's clock from the beacon, in units of 100 ps. -/
def beyond (d : Int) (ns : Nat) : Bool := decide ((ns * Config.droneTick : Nat) < d.natAbs)

/-- Entries whose expiry has come on their agent's clock leave for good: a clock that steps back revives none (R206). -/
def State.dropExpired (s : State) (clock : Agent) : State :=
  { s with
    tlb := s.tlb.filter fun e => Agent.clock e.ag != clock || s.droneAt clock < e.expiry
    walkCache := s.walkCache.filter fun e => Agent.clock (.walkCache e.die) != clock || s.droneAt clock < e.expiry }

/-- An agent's Drone copy moves to a deviation (R14). -/
def State.setDrift (s : State) (ag : Agent) (d : Int) : State :=
  let k := Agent.clock ag
  let s := s.dropExpired k
  { s with drift := (k, d) :: s.drift.filter fun p => p.1 != k }

/-- DRONE_BEACON (R213, R301): an agent finds its clock at a deviation. Beyond 8 ns it drops every leased entry and
raises SKEW; within 2 ns it caches again, in the host-assisted mode that held when it lost its clock only once SKEW has
been cleared. -/
def execDroneBeacon (ag : Agent) (dev : Int) (s : State) : Outcome State Fault Refusal :=
  let k := Agent.clock ag
  let s := s.setDrift ag dev
  if beyond dev 8 then
    let s := { s with
      tlb := s.tlb.filter fun e => Agent.clock e.ag != k
      walkCache := s.walkCache.filter fun e => Agent.clock (.walkCache e.die) != k
      walks := s.walks.filter fun w => Agent.clock w.ag != k
      skewed := if s.isSkewed k then s.skewed else s.skewed ++ [(k, s.dev.split.getLsbD 7)] }
    .next (s.event 0)
  else if !beyond dev 2 then
    .next { s with skewed := s.skewed.filter fun p => p.1 != k || (p.2 && s.dev.event.getLsbD 0) }
  else .next s

/-- TRANSLATION_FAULT_SERVICE (R218): in hardware mode firmware maps the page from a pool and replays, in
host-assisted mode, with the pool exhausted or with V = 0 in the ASID table the fault goes to the host queue; a VA
in no pool is UNMAPPED. Engines that wait at the fault see UNMAPPED at their next step. -/
def execTranslationFaultService (fid : Nat) (s : State) : Outcome State Fault Refusal :=
  match s.faults.find? fun f => f.fid == fid with
  | none => .next s
  | some f =>
    if f.queued || f.failed then .next s
    else if f.hostMode then .next (s.queueFault f)
    else
      let e := s.pteAt (s.dev.asbase + 16 * f.asid.toNat)
      if e % 2 = 0 then .next (s.queueFault f)
      else
        match s.holeAt f.va.toNat 4 (leafPa e) with
        | none => .next (s.retryFault fid)
        | some (k, at') =>
          match s.poolOf f.asid f.va.toNat with
          | none => .next ((s.failLanes fid).failFault fid)
          | some p =>
            let m := s.mapPath p f.va.toNat k at'
            .next (if m.2 then m.1.retryFault fid else m.1.queueFault f)

end Sys2Proof.Machine
end

