-- ==== Sys2Proof/Machine/Memory.lean ====
section
/-! DEFINITION. What a byte of memory reads as: encryption (R297), a task's view (R140, R141), cells and their settled
values (R159–R172), the settling watermark (R168), and the accesses of the Headworks and the Sluice by VA. -/

namespace Sys2Proof.Machine

open Host

/-! ### Encryption (R297) -/

/-- The key that a slot applies: 0 for plaintext. -/
def State.slotKey (s : State) (slot : Nat) : Nat :=
  if s.dev.keyvalid.getLsbD slot then
    match s.dev.keys.find? (·.1 == slot) with
    | some k => 1 + k.2.1.toNat
    | none => 1
  else 0

def State.part? (s : State) (p : Nat) : Option Part := s.dev.parts.find? fun q => q.p == p && q.valid

def Launch.version (l : Launch) (buf : Half) : Nat :=
  if buf = 0 then 0 else ((l.buffers.find? fun b => b.id == buf.toNat).map fun b => b.version.toNat).getD 0

/-- Key and version for a page of a launch. -/
def State.pageTag (s : State) (l : Launch) (buf : Half) : Nat × Nat :=
  match s.part? l.part with
  | some p => let k := s.slotKey p.key; if k = 0 then (0, 0) else (k, l.version buf)
  | none => (0, 0)

/-- Key and version that a line was written with. -/
def State.tagAt (s : State) (line : Nat) : Nat × Nat := ((s.tags.find? (·.1 == line)).map (·.2)).getD (0, 0)

def State.setTag (s : State) (line : Nat) (tag : Nat × Nat) : State :=
  let rest := s.tags.filter fun t => t.1 != line
  { s with tags := if tag == (0, 0) then rest else insertBy (fun a b => a.1 < b.1) (line, tag) rest }

/-- The 64 bytes of a line as the memory array holds them: encrypted under the line's key and version (R297). -/
def State.rawLine (s : State) (line : Nat) : List Byte :=
  let tag := s.tagAt line
  let plain := s.mem.read (line * 64) 64
  if tag.1 = 0 then plain else cipherLine (tag.1 - 1) tag.2 line plain

/-- A committed byte of device memory as a reader with that key and version sees it: itself under the key and version that
it was written with, the array's byte to a reader without a key, and an unspecified byte under any other (R297). -/
def State.plainByte (s : State) (tag : Nat × Nat) (pa : Nat) : Byte :=
  let own := s.tagAt (pa / 64)
  if own == tag || own == zeroTag then s.mem.get pa
  else if tag.1 = 0 then (s.rawLine (pa / 64)).getD (pa % 64) 0
  else Config.freeByte s.free pa

/-- A line that is written under another key or version becomes as a whole what it reads as under the new one. -/
def State.retag (s : State) (tag : Nat × Nat) (pa : Nat) : State :=
  if s.tagAt (pa / 64) == tag then s
  else
    let base := pa / 64 * 64
    let mem := s.mem.write base ((List.range 64).map fun i => s.plainByte tag (base + i))
    { s with mem }.setTag (pa / 64) tag

/-- Writes committed device bytes under a key and version. -/
def State.plainWrite (s : State) (tag : Nat × Nat) (pa : Nat) : List Byte → State
  | [] => s
  | b :: bs =>
    let s := s.retag tag pa
    { s with mem := s.mem.set pa b }.plainWrite tag (pa + 1) bs

/-- A write of all 64 bytes of a line mends it and takes it off its slice's bad-line list (R277). -/
def State.clearBad (s : State) (pa : Nat) (n : Nat) : State :=
  let whole := fun (line : Nat) => pa ≤ 64 * line && 64 * line + 64 ≤ pa + n
  { s with dev := { s.dev with bad := s.dev.bad.filter fun b => !whole (b.2.2 / 64)
                               broken := s.dev.broken.filter fun l => !whole l } }

/-! ### Interference budgets (R256) -/

/-- How many transfers of n an activity may still make in this period. -/
def State.mayPay (s : State) (i n : Nat) : Nat :=
  let b := nth s.dev.budget i 0xFFFFFFFF
  if b == 0xFFFFFFFF then n
  else min n (b.toNat - (if s.dev.period < s.drone / 8192 then 0 else nth s.dev.used i 0))

/-- One more transfer of an activity may be made now. -/
def State.mayTransfer (s : State) (i : Nat) : Bool := s.mayPay i 1 != 0

def State.transfer (s : State) (i n : Nat) : State :=
  let now := s.drone / 8192
  let used := if s.dev.period < now then List.replicate 15 0 else s.dev.used
  { s with dev := { s.dev with period := max now s.dev.period, used := putAt 0 used i (nth used i 0 + n) } }

/-- n more transfers of an activity that goes on by itself: those that the budget allows are made, the others wait for the
next periods (R256). -/
def State.owe (s : State) (i n : Nat) : State :=
  let all := nth s.dev.due i 0 + n
  let m := s.mayPay i all
  let s := s.transfer i m
  { s with dev := { s.dev with due := putAt 0 s.dev.due i (all - m) } }

/-- An activity's transfers still wait for its budget. -/
def State.owes (s : State) (i : Nat) : Bool := nth s.dev.due i 0 != 0

/-- Work under way makes n more transfers of an activity. -/
def State.ask (s : State) (i n : Nat) : State :=
  { s with dev := { s.dev with asked := putAt 0 s.dev.asked i (nth s.dev.asked i 0 + n) } }

/-- A piece of work is done once the budgets of this period and of earlier ones, in which it has waited, cover every transfer
that it asks for (R256); answers whether it is done. -/
def State.budgeted (s : State) (i : Nat) (work : State → State) : Bool × State :=
  let t := work s
  let n := nth t.dev.asked i 0
  let c := nth s.dev.credit i 0
  let m := s.mayPay i (n - c)
  if n ≤ c + m then
    let u := t.transfer i m
    (true, { u with dev := { u.dev with asked := putAt 0 u.dev.asked i 0, credit := putAt 0 u.dev.credit i (c - n) } })
  else
    let u := s.transfer i m
    (false, { u with dev := { u.dev with credit := putAt 0 u.dev.credit i (c + m) } })

/-- Work that maintains a trace arena if a condition holds, on the trace-maintenance budget (R177, R256). -/
def State.maintains (s : State) (on : Bool) (work : State → State) : Bool × State :=
  if on then s.budgeted 10 work else (true, work s)

/-! ### Cells (R160, R165, R166) -/

def putLow (x w v : Nat) : Nat := x / 2 ^ w * 2 ^ w + v % 2 ^ w

/-- Two-sum of R165 on (sum, error). -/
def twoSum (f : Fmt) (s e v : Nat) : Nat × Nat :=
  let add := fun a b => (f.add a b).1
  let sub := fun a b => (f.sub a b).1
  let t := add s v
  let b := sub t s
  (t, add e (add (sub s (sub t b)) (sub v b)))

/-- One operation on the 128 bits of a cell: major, type code, operand (R165, R319). -/
def cellOp (major ty v x : Nat) : Nat :=
  let lo32 := x % 2 ^ 32
  let lo64 := x % 2 ^ 64
  let v32 := v % 2 ^ 32
  let v64 := v % 2 ^ 64
  let s32 := fun (a : Nat) => (BitVec.ofNat 32 a).toInt
  match major, ty with
  | 0x30, 0 => putLow x 32 (lo32 + v32)
  | 0x30, 1 => putLow x 64 (lo64 + v64)
  | 0x30, 2 => putLow x 32 (Fmt.f32.add lo32 v32).1
  | 0x30, 3 => putLow x 64 (Fmt.f64.add lo64 v64).1
  | 0x31, 2 => let r := twoSum .f32 lo32 (x / 2 ^ 32 % 2 ^ 32) v32; putLow x 64 (r.1 + r.2 * 2 ^ 32)
  | 0x31, 3 => let r := twoSum .f64 lo64 (x / 2 ^ 64 % 2 ^ 64) v64; putLow x 128 (r.1 + r.2 * 2 ^ 64)
  | 0x32, 0 => if s32 v32 < s32 lo32 then putLow x 32 v32 else x
  | 0x32, 4 => putLow x 32 (min lo32 v32)
  | 0x32, 2 => putLow x 32 (Fmt.f32.minmax false lo32 v32).1
  | 0x32, 3 => putLow x 64 (Fmt.f64.minmax false lo64 v64).1
  | 0x33, 0 => if s32 lo32 < s32 v32 then putLow x 32 v32 else x
  | 0x33, 4 => putLow x 32 (max lo32 v32)
  | 0x33, 2 => putLow x 32 (Fmt.f32.minmax true lo32 v32).1
  | 0x33, 3 => putLow x 64 (Fmt.f64.minmax true lo64 v64).1
  | 0x34, 0 => putLow x 32 v32
  | 0x34, 1 => putLow x 64 v64
  | 0x34, 4 => putLow x 128 v
  | 0x35, 2 => putLow x 32 (Fmt.f32.fma v32 lo32 (v / 2 ^ 32 % 2 ^ 32)).1
  | 0x35, 3 => putLow x 64 (Fmt.f64.fma v64 lo64 (v / 2 ^ 64 % 2 ^ 64)).1
  | 0x36, 0 => putLow x 32 (lo32 &&& v32)
  | 0x36, 1 => putLow x 32 (lo32 ||| v32)
  | 0x36, 2 => putLow x 32 (lo32 ^^^ v32)
  | 0x36, 4 => putLow x 64 (lo64 &&& v64)
  | 0x36, 5 => putLow x 64 (lo64 ||| v64)
  | 0x36, 6 => putLow x 64 (lo64 ^^^ v64)
  | _, _ => x

/-- The 96-bit stamp (R162). -/
def CellOp.stamp (o : CellOp) : Nat := (o.key.toNat * 65536 + o.tix % 65536) * 2 ^ 32 + o.cseq.toNat

/-- Applies entries in stamp order. -/
def applyEntries (x : Nat) (es : List CellEntry) : Nat :=
  es.foldl (fun x e => cellOp e.op.major e.op.ty e.op.operand.toNat x) x

/-- The number that names the histories a task of a launch works on: its own, or those of its trace arena (R172). -/
def Launch.scope (l : Launch) : Nat :=
  if l.trace && l.arena != 0 then 2 * (l.asid.toNat + 4096 * l.arena.toNat) + 1 else 2 * l.lid

/-- No task: every key lies below it. -/
def topKey : Nat := 2 ^ 48

/-- The settling watermark of a launch (R168). For a propagation the caller adds the tasks that still have to run. -/
def State.taskMark (s : State) (lid : Nat) : Nat :=
  let tasks := (s.tasks.filter fun t => t.lid == lid && !t.over).map (·.key.toNat)
  let ops := (s.flight ++ s.cores.flatMap (·.retry)).filter fun o => o.lid == lid
  (tasks ++ ops.map (·.key.toNat)).foldl min topKey

/-- Keys of stale records of an arena that has been read into a propagation's list of work (R193). -/
def State.watermark (s : State) (lid : Nat) : Nat :=
  match s.launch? lid with
  | some l =>
    let later := if l.prop.isNone && l.admitted < l.code.nodes.length && l.st != .ended then l.admitted * 2 ^ 32 else topKey
    let again := match l.prop.bind s.prop? with
      | some p => p.toRun.foldl (fun m k => min m k) topKey
      | none => topKey
    min (min later again) (s.taskMark lid)
  | none => topKey

/-- The watermark of the launches that work on a scope. -/
def State.scopeMark (s : State) (scope : Nat) : Nat :=
  (s.launches.filter fun l => l.scope == scope && l.st != .ended && l.st != .staged).foldl (fun m l => min m (s.watermark l.lid)) topKey

/-- The 16 committed bytes of a cell. -/
def State.cellBase (s : State) (tag : Nat × Nat) (pa : Nat) : Nat :=
  num ((List.range 16).map fun i => s.plainByte tag (pa + i))

/-- The settled value of a cell: the base value, and the settled folds of traced histories (R169, R172). -/
def State.settled (s : State) (tag : Nat × Nat) (pa : Nat) : Nat :=
  (s.cells.filter fun h => h.pa == pa && h.traced).foldl (fun x h =>
    applyEntries x (h.entries.filter fun e => e.op.key.toNat < s.scopeMark h.scope)) (s.cellBase tag pa)

/-- The value under a history: what settled before it. -/
def State.under (s : State) (tag : Nat × Nat) (pa scope : Nat) : Nat :=
  ((s.cells.takeWhile fun h => !(h.pa == pa && h.scope == scope)).filter fun h => h.pa == pa && h.traced).foldl
    (fun x h => applyEntries x h.entries) (s.cellBase tag pa)

def State.hist? (s : State) (pa scope : Nat) : Option CellHist := s.cells.find? fun h => h.pa == pa && h.scope == scope

/-- The fold over the entries whose key is below k (R169); topKey: all of them. -/
def State.cellFold (s : State) (tag : Nat × Nat) (pa scope k : Nat) : Nat :=
  match s.hist? pa scope with
  | some h => applyEntries (s.under tag pa scope) (h.entries.filter fun e => e.op.key.toNat < k)
  | none => s.settled tag pa

/-- Some history holds unsettled entries in the line (R159). -/
def State.unsettledLine (s : State) (line : Nat) : Bool :=
  s.cells.any fun h => h.pa / 64 == line && h.entries.any fun e => s.scopeMark h.scope ≤ e.op.key.toNat

/-- Device bytes change on the cell path (3) or the host path (4): a running task that sees them may still see the older
ones (R151). -/
def State.ageTasks (s : State) (path pa : Nat) (olds : List Byte) : State :=
  let own := fun (t : Task) (a : Nat) => path == 4 && ((Shadow.get? t.shadow a).isSome || (Shadow.get? t.inherited a).isSome)
  let new := fun (t : Task) => (olds.zipIdx.filter fun b => !own t (pa + b.2)).map fun b =>
    ({ space := 4, addr := pa + b.2, old := [b.1], path, wave := (0, 0), hidden := [0, 1] } : Older)
  { s with tasks := s.tasks.map fun t => if t.st == .waits || t.over then t else { t with older := new t ++ t.older } }

/-- The settled value of a cell as far as its traced histories have been told to settle. -/
def State.toldCell (s : State) (pa : Nat) : Nat :=
  (s.cells.filter fun h => h.pa == pa && h.traced).foldl (fun x h =>
    applyEntries x (h.entries.filter fun e => e.op.key.toNat < h.mark)) (s.cellBase (s.tagAt (pa / 64)) pa)

/-- Entries of a history that settle now, under a watermark. -/
def CellHist.settles (h : CellHist) (w : Nat) : Bool :=
  h.entries.any fun e => e.op.key.toNat < w && (!h.traced || h.mark ≤ e.op.key.toNat)

/-- When a watermark has risen, entries of untraced cells below it fold into the base value (R168), each under the
line's own key and version, and those of traced cells count as settled. -/
def State.foldCells (s : State) : State :=
  let s := s.cells.foldl (fun s h =>
    let w := s.scopeMark h.scope
    let mine := fun (g : CellHist) => g.pa == h.pa && g.scope == h.scope
    if !h.settles w then s
    else
      let s := s.ageTasks 3 h.pa (bytes 16 (s.toldCell h.pa))
      if h.traced then { s with cells := upd mine (fun g => { g with mark := w }) s.cells }
      else
        let tag := s.tagAt (h.pa / 64)
        let x := applyEntries (s.cellBase tag h.pa) (h.entries.filter fun e => e.op.key.toNat < w)
        let s := s.plainWrite tag h.pa (bytes 16 x)
        let keep := fun (g : CellHist) => { g with entries := g.entries.filter fun e => w ≤ e.op.key.toNat }
        { s with cells := upd mine keep s.cells }) s
  { s with cells := s.cells.filter fun h => !h.entries.isEmpty }

/-! ### A task's view (R140, R144) -/

/-- The task whose extents an access of a task is judged by (R144): the one it descends from, which in a round of reruns
holds the extents of its graph task. -/
def State.rootOf (s : State) (t : Task) : Task :=
  if t.parent.isNone then t
  else (s.tasks.find? fun u => u.lid == t.lid && u.parent.isNone && u.key.toNat / 2 ^ 32 == t.key.toNat / 2 ^ 32).getD t

/-- A graph task, of which alone extents make exclusive ranges (R144). -/
def Task.isGraph (t : Task) : Bool := t.parent.isNone && t.key.toNat % 2 ^ 32 == 0

def inExtent (e : Nat × Nat × Bool) (va n : Nat) : Bool := e.1 ≤ va && va + n ≤ e.1 + e.2.1

/-- Bytes that no extent covers make an access of a checked launch raise RANGE (R144). -/
def covered (es : List (Nat × Nat × Bool)) (va n : Nat) : Bool :=
  (List.range n).all fun i => es.any fun e => inExtent e (va + i) 1

/-- The bytes lie in an exclusive range of the task (R144): a write extent of a graph task. -/
def Task.exclusive (t : Task) (va : Nat) : Bool := t.isGraph && t.extents.any fun e => e.2.2 && inExtent e va 1

/-- A byte in another task's exclusive range of the round: the access is undeclared and its value unspecified (R144). -/
def State.foreign (s : State) (t : Task) (va : Nat) : Bool :=
  let root := s.rootOf t
  s.tasks.any fun u => u.lid == t.lid && u.round == t.round && u.tid != root.tid && u.exclusive va

/-- A device byte as a task sees it. -/
def State.viewByte (s : State) (t : Task) (tag : Nat × Nat) (cell : Bool) (pa va : Nat) : Byte :=
  if cell then
    let c := pa / 32 * 32
    if pa % 32 < 16 then BitVec.ofNat 8 (s.settled tag c / 2 ^ (8 * (pa % 32))) else s.plainByte tag pa
  else
    match Shadow.get? t.shadow pa with
    | some b => b
    | none =>
      match Shadow.get? t.inherited pa with
      | some b => b
      | none => if s.foreign t va then Config.freeByte s.free pa else s.plainByte tag pa

def State.view (s : State) (t : Task) (tag : Nat × Nat) (cell : Bool) (pa va n : Nat) : List Byte :=
  (List.range n).map fun i => s.viewByte t tag cell (pa + i) (va + i)

/-! ### Access paths (R151, R152): 0 lanes, 1 copy, 2 matrix, 3 cell, 4 host -/

def otherPaths (p : Nat) : List Nat := (List.range 5).filter (· != p)

/-- What a reader on path q may still see at an address besides its newest byte: older bytes, down to the newest write that
q sees for certain. -/
def oldBytes (q space a : Nat) : List Older → List Byte
  | [] => []
  | e :: r =>
    if e.space == space && e.addr ≤ a && a < e.addr + e.old.length then
      if e.hidden.contains q then nth e.old (a - e.addr) 0 :: oldBytes q space a r else []
    else oldBytes q space a r

/-- A byte as a reader on path q sees it: the newest one, or an older one as the K3 chooses (R151). -/
def State.seenByte (s : State) (es : List Older) (q space a : Nat) (new : Byte) : Byte :=
  match oldBytes q space a es with
  | [] => new
  | olds => nth (new :: olds) (Config.freePick s.free (2 ^ 64 * (space + 1) + a) % (olds.length + 1)) new

/-- What a task sees of device bytes on a path: the newest, or older ones (R151). Older ones of the cell and the host path
are known under the key and version of their line. -/
def State.seenView (s : State) (t : Task) (q : Nat) (tag : Nat × Nat) (cell : Bool) (pa va n : Nat) : List Byte :=
  let es := t.older.filter fun e => if e.path < 3 then !cell else s.tagAt (pa / 64) == tag
  (s.view t tag cell pa va n).zipIdx.map fun b => s.seenByte es q 4 (pa + b.2) b.1

/-- A wave has observed the writes that a condition picks complete (R152). -/
def seeOlder (p : Older → Bool) (wave : Nat × Nat) (es : List Older) : List Older :=
  es.map fun e => if p e && !e.seenBy.contains wave then { e with seenBy := wave :: e.seenBy } else e

def State.observes (s : State) (r : WaveRef) (p : Older → Bool) : State :=
  s.modTask r.tid fun t => { t with older := seeOlder p (r.core, r.wix) t.older }.modShare r.core fun h =>
    { h with older := seeOlder p (r.core, r.wix) h.older }

/-- A FENCEX of a wave makes the writes on the from-class paths that it has observed complete visible to the to-class paths
(R152). -/
def showOlder (frm into : Nat) (wave : Nat × Nat) (es : List Older) : List Older :=
  let shown := es.map fun e =>
    if frm.testBit e.path && e.seenBy.contains wave then { e with hidden := e.hidden.filter fun q => !into.testBit q } else e
  (shown.reverse.dropWhile (·.hidden.isEmpty)).reverse

/-! ### Host and peer memory (R123, R148, R288, R290) -/

/-- Piece i of a 16-byte load that has not returned may be read anew where bytes of it have just changed (R123). -/
def State.readAgain (s : State) (pa n i : Nat) (d : Load) : Load :=
  match d.host with
  | some a =>
    if a + 8 * i < pa + n && pa < a + 8 * i + 8 && Config.freeBool s.free (2 ^ 61 + 2 * d.id + i) then
      { d with words := d.words.take (2 * i) ++ words 2 (num (s.hostMem.read (a + 8 * i) 8)) ++ d.words.drop (2 * i + 2) }
    else d
  | none => d

/-- Bytes of host memory change; who: the wave that writes them. -/
def State.putHost (s : State) (who : Option WaveRef) (pa : Nat) (bs : List Byte) : State :=
  let s := { s with hostMem := s.hostMem.write pa bs }
  let again := fun (d : Load) => s.readAgain pa bs.length 1 (s.readAgain pa bs.length 0 d)
  let wave := fun (r : WaveRef) (w : Wave) => if who = some r then w else { w with loads := w.loads.map again }
  let share := fun (t : Task) (h : Share) => { h with waves := h.waves.map fun w => wave ⟨t.tid, h.c, w.wix⟩ w }
  { s with tasks := s.tasks.map fun t => { t with shares := t.shares.map (share t) } }

/-- The pieces of stores to host memory that a condition picks land. -/
def State.landWhere (s : State) (p : HostHalf → Bool) : State :=
  (s.halves.filter p).foldl (fun s h => s.putHost (some h.r) h.pa h.bs) { s with halves := s.halves.filter fun h => !p h }

/-- A wave's access to n bytes of host memory comes after what it has accessed there before: its pieces there land, and its
16-byte loads of them have read. -/
def State.hostOrder (s : State) (r : WaveRef) (pa n : Nat) : State :=
  (s.landWhere fun h => h.r == r && h.pa < pa + n && pa < h.pa + h.bs.length).modWave r fun w => { w with
    loads := w.loads.map fun d => if d.host.any fun a => a < pa + n && pa < a + 16 then { d with host := none } else d }

/-- A wave's store to host memory: one of 16 bytes splits into two pieces, of which one lands later (R123, R148). -/
def State.hostWrite (s : State) (r : WaveRef) (pa : Nat) (bs : List Byte) : State :=
  let s := s.hostOrder r pa bs.length
  if bs.length ≤ 8 then s.putHost (some r) pa bs
  else
    let i := if Config.freeBool s.free (2 ^ 61 + 2 * s.fresh) then 8 else 0
    let late : HostHalf := { r, id := s.fresh, pa := pa + 8 - i, bs := (bs.drop (8 - i)).take 8 }
    { s.putHost (some r) (pa + i) ((bs.drop i).take 8) with halves := s.halves ++ [late] }

/-- Bytes of the pieces of a copy engine's transfer at a target (R122, R123). -/
def granule (a : Attr) : Nat := if a.target = 1 then 8 else 32

/-- The byte's address in State.peerMem. -/
def peerAddr (peer : BitVec 6) (pa : Nat) : Nat := peer.toNat * 2 ^ 52 + pa

/-- The access goes over a port without link training: for certain where no trained port of the peer is left, and as
the K3 chooses where some are left. -/
def State.peerDown (s : State) (peer : BitVec 6) (pa : Nat) : Bool :=
  let mask := ((s.dev.peers.find? fun p => p.1 == peer.toNat).map fun p => p.2.toNat / 2 ^ 16 % 2 ^ 16).getD 0
  let ports := (List.range 16).filter fun n => mask.testBit n
  let lost := ports.filter fun n => s.dev.lostPorts.contains n
  if lost.isEmpty then false else if lost.length = ports.length then true else Config.freeBool s.free pa

/-- The host answers an access to 8 bytes of its memory with an error (R288). -/
def State.hostFails (s : State) (pa : Nat) : Bool := s.host.errors.contains (pa / 8)

/-- Whether reading n bytes at a target meets DATAERR (R277, R288, R290). -/
def State.dataErr (s : State) (a : Attr) (pa n : Nat) : Bool :=
  match a.target.toNat with
  | 0 => s.badIn pa n
  | 1 => s.hostFails pa || s.hostFails (pa + n - 1)
  | 2 => s.peerDown a.peer pa
  | _ => false

/-- The piece of a lane access that DATAERR names: offset and bytes (R259). -/
def State.failedPiece (s : State) (a : Attr) (pa n : Nat) : Nat × Nat :=
  if a.target = 1 ∧ 8 < n then (if s.hostFails pa then 0 else 8, 8) else (0, n)

/-- The stack of a PA (R292). -/
def stackOf (pa : Nat) : Nat := pa / 256 % 12

/-- The number s of a PA's slice in dv_badline(s, e): 16 slices a stack. -/
def sliceNo (pa : Nat) : Nat := stackOf pa * 16 + pa / 256 / 12 % 16

/-- A line fails uncorrectably: it enters its slice's list, or BADFULL is raised (R277). -/
def State.lineFails (s : State) (pa : Nat) : State :=
  let sl := sliceNo pa
  let line := pa / 64 * 64
  let s := if s.dev.broken.contains (pa / 64) then s else { s with dev := { s.dev with broken := s.dev.broken ++ [pa / 64] } }
  if s.dev.bad.any fun b => b.2.2 == line then s
  else match (List.range Config.badLines).find? fun e => !s.dev.bad.any fun b => b.1 == sl && b.2.1 == e with
    | some e => { s with dev := { s.dev with bad := s.dev.bad ++ [(sl, e, line)] } }
    | none => s.event 2

/-- A read of device bytes has failed: the lines that cannot be corrected enter their lists again (R277, R296). -/
def State.found (s : State) (a : Attr) (pa n : Nat) : State :=
  if a.target ≠ 0 then s
  else ((List.range ((pa % 64 + n + 63) / 64)).filter fun i => s.dev.broken.contains (pa / 64 + i)).foldl
    (fun s i => s.lineFails (64 * (pa / 64 + i))) s

/-! ### Accesses by VA outside any task -/

inductive VaErr where
  | parks (level va : Nat)
  | unmapped (va : Nat)
  | perm (va : Nat)
  | dataerr (va : Nat)
deriving DecidableEq, Repr

/-- The pages that a range touches: (VA, bytes) pieces. -/
def pieces (va n : Nat) : List (Nat × Nat) :=
  if n = 0 then [] else
    (List.range ((va % 65536 + n + 65535) / 65536)).map fun i =>
      let lo := if i = 0 then va else (va / 65536 + i) * 65536
      let hi := min (va + n) ((va / 65536 + i + 1) * 65536)
      (lo % 2 ^ 72, hi - lo)

/-- A byte of a CELL page: the settled value in a cell's bytes 0 to 15. -/
def State.settledByte (s : State) (pa : Nat) : Byte :=
  if pa % 32 < 16 then BitVec.ofNat 8 (s.settled (s.tagAt (pa / 64)) (pa / 32 * 32) / 2 ^ (8 * (pa % 32))) else s.mem.get pa

def readRaw (s : State) (a : Attr) (pa n : Nat) : List Byte :=
  match a.target.toNat with
  | 0 => if a.cell then (List.range n).map fun i => s.settledByte (pa + i) else s.mem.read pa n
  | 1 => s.hostMem.read pa n
  | _ => s.peerMem.read (peerAddr a.peer pa) n

def writeRaw (s : State) (a : Attr) (pa : Nat) (bs : List Byte) : State :=
  match a.target.toNat with
  | 0 => { s with mem := s.mem.write pa bs }.clearBad pa bs.length
  | 1 => s.putHost none pa bs
  | _ => { s with peerMem := s.peerMem.write (peerAddr a.peer pa) bs }

/-- Reads n bytes at a VA; the agents keep what they translate. -/
def State.vaRead (s : State) (v : Viewer) (asid : BitVec 12) (va n : Nat) : Except VaErr (List Byte) × State :=
  (pieces va n).foldl (fun r p => match r.1 with
    | .error e => (.error e, r.2)
    | .ok bs =>
      let t := r.2.translate v asid p.1 (·.r)
      match t.1 with
      | .ok a pa => if t.2.dataErr a pa p.2 then (.error (.dataerr p.1), t.2.found a pa p.2) else (.ok (bs ++ readRaw t.2 a pa p.2), t.2)
      | .parks k => (.error (.parks k p.1), t.2)
      | .unmapped => (.error (.unmapped p.1), t.2)
      | .perm => (.error (.perm p.1), t.2)
      | .dataerr => (.error (.dataerr p.1), t.2)) (.ok [], s)

/-- Writes bytes at a VA; nothing is written where any piece does not translate, its peer has no trained port (R290) or the
host answers with an error. -/
def State.vaWrite (s : State) (v : Viewer) (asid : BitVec 12) (va : Nat) (bs : List Byte) : Except VaErr Unit × State :=
  let plan := (pieces va bs.length).foldl (fun (r : Except VaErr (List (Attr × Nat × Nat)) × State) p => match r.1 with
    | .error e => (.error e, r.2)
    | .ok l =>
      let t := r.2.translate v asid p.1 (·.w)
      match t.1 with
      | .ok a pa =>
        if a.target ≠ 0 ∧ t.2.dataErr a pa p.2 = true then (.error (.dataerr p.1), t.2) else (.ok (l ++ [(a, pa, p.2)]), t.2)
      | .parks k => (.error (.parks k p.1), t.2)
      | .unmapped => (.error (.unmapped p.1), t.2)
      | .perm => (.error (.perm p.1), t.2)
      | .dataerr => (.error (.dataerr p.1), t.2)) (.ok [], s)
  match plan.1 with
  | .error e => (.error e, plan.2)
  | .ok l =>
    let r := l.foldl (fun (r : State × List Byte) p => (writeRaw r.1 p.1 p.2.1 (r.2.take p.2.2), r.2.drop p.2.2)) (plan.2, bs)
    (.ok (), r.1)

/-- The bytes at a VA, or none. -/
def State.vaBytes (s : State) (asid : BitVec 12) (va n : Nat) : Option (List Byte) :=
  match (s.vaRead headViewer asid va n).1 with
  | .ok bs => some bs
  | .error _ => none

/-- Writes what translates; used for structures that were checked before. -/
def State.vaPut (s : State) (asid : BitVec 12) (va : Nat) (bs : List Byte) : State :=
  (s.vaWrite headViewer asid va bs).2

/-- Writes into a trace arena; the lines are transfers of trace maintenance (R177, R256). -/
def State.arenaPut (s : State) (asid : BitVec 12) (va : Nat) (bs : List Byte) : State :=
  (s.vaPut asid va bs).ask 10 ((va % 64 + bs.length + 63) / 64)

def State.vaNum (s : State) (asid : BitVec 12) (va n : Nat) : Nat := num ((s.vaBytes asid va n).getD [])

end Sys2Proof.Machine
end

