-- ==== Sys2Proof/Machine/Race.lean ====
section
/-! DEFINITION. The race checker (R136–R138), the L1 (R400) and what a traced launch records at an access
(R178, R185). -/

namespace Sys2Proof.Machine

open Host

/-! ### Order (R136) -/

def Access.ctx (a : Access) : Nat × Nat := (a.core, a.wix)

/-- Whether an earlier access is ordered before a later one (R136). -/
def Access.before (b a : Access) : Bool := b.ctx == a.ctx || b.epoch ≤ a.prior.get b.ctx

def Access.overlaps (a b : Access) : Bool :=
  a.space == b.space && (a.space == 4 || a.core == b.core) && a.addr < b.addr + b.len && b.addr < a.addr + a.len

/-- A conflicting pair of different threads, one of them writing (R136, R376). -/
def Access.conflicts (a b : Access) : Bool :=
  a.overlaps b && a.tix != b.tix && (a.write || b.write) && !(a.satom && b.satom)

/-- The channel whose region an offset lies in. -/
def Share.chanAt (h : Share) (space off : Nat) : Option (Nat × Chan) :=
  (h.chans.zipIdx.find? fun p => p.1.space == space && p.1.base ≤ off && off < p.1.base + p.1.size).map fun p => (p.2, p.1)

/-- What is ordered before a thread's access besides its wave's earlier ones: what is ordered before those, what the thread
has observed, and in a valid channel's region what the wave has observed of the channel's other side (R132, R136). -/
def Wave.prior (w : Wave) (h : Option Share) (th : Thread) (space off : Nat) : Clock :=
  let k := Clock.join w.clock th.synced
  match (if space = 4 then none else h).bind fun h => h.chanAt space off with
  | some (ch, c) => if c.valid then Clock.join k (((w.chClocks.find? (·.1 == ch)).map (·.2)).getD []) else k
  | none => k

/-- The access of a thread, as the checker keeps it: its epoch is its number among the accesses of the task's run. -/
def State.accessOf (s : State) (t : Task) (r : WaveRef) (w : Wave) (ln : Nat) (th : Thread) (space addr va len : Nat)
    (write satom : Bool) : Access :=
  let code := match s.launch? t.lid with | some l => l.code | none => {}
  let sp := nearestSafe code th.pc
  { space, core := r.core, addr, len, va, write, satom, wix := r.wix, epoch := t.accesses.length + 1,
    lane := ln, tix := th.tix, ordinal := sp.1, offset := sp.2, time := s.drone
    prior := w.prior (s.share? r.tid r.core) th space addr }

/-- A wave's clock with its own accesses so far: what an arrival gives to its phase and a CHPUB or CHADV to its channel
(R132, R136). The wave's own clock does not take it: it is ordered before others only through what it gives. -/
def Wave.given (w : Wave) (t : Task) (core : Nat) : Clock := w.clock.put (core, w.wix) t.accesses.length

/-- What a filed thread gives to the context that its bin drains into: its own accesses, and with the last of each context
all of that context's earlier ones and what is ordered before them (R136). -/
def Task.filed (t : Task) (tix : Nat) : Clock :=
  ((t.accesses.filter (·.tix == tix)).map fun a => Clock.join a.prior [(a.ctx, a.epoch)]).foldl Clock.join []

/-- Races of a new access with those kept: the one to report at once, and those found at a slice. -/
def racesOf (t : Task) (a : Access) : Option Access × List Access :=
  let l := t.accesses.filter fun b => a.conflicts b && !b.before a
  let here := fun (b : Access) => a.space == 0 || (b.held && b.core == a.core)
  (l.find? here, l.filter fun b => !here b)

/-- Byte i of a typed-buffer access meets another wave's write of the same interval: a read of it returns an unspecified
value, and after a write it holds one (R118). -/
def typedRace (t : Task) (a : Access) (i : Nat) : Bool :=
  t.accesses.any fun b => a.conflicts b && b.write && !b.before a && b.addr ≤ a.addr + i && a.addr + i < b.addr + b.len

/-- Keeps an access, with the slice races that it makes. -/
def State.noteAccess (s : State) (tid : Nat) (a : Access) (late : List Access) : State :=
  s.modTask tid fun t => { t with accesses := t.accesses ++ [a], races := t.races ++ late.map fun b => (b, a) }

/-! ### The L1 (R138, R149, R400) -/

/-- The core index of a logical core in a task's polder. -/
def State.coreIndex (s : State) (t : Task) (x y : Nat) : Nat := (y - t.y) * (s.kernelOf t).polW + (x - t.x)

/-- Tags leave with their lines. -/
def State.loseTags (s : State) (tid c : Nat) (line : Nat → Bool) : State :=
  s.modTask tid fun t => { t with accesses := t.accesses.map fun a =>
    if a.space == 4 && a.core == c && line (a.addr / 64) then { a with held := false } else a }

/-- FENCE, FENCEX and barrier completions discard a task's clean lines in a core; every line is clean because stores
are written through. -/
def State.discardL1 (s : State) (tid c : Nat) : State :=
  match s.task? tid with
  | some t =>
    let xy := s.coreXY t c
    (s.modCore xy.1 xy.2 fun k => { k with l1 := k.l1.filter (·.tid != tid) }).loseTags tid c fun _ => true
  | none => s

def State.l1Line? (s : State) (t : Task) (c line : Nat) : Option L1Line :=
  let xy := s.coreXY t c
  (s.core xy.1 xy.2).l1.find? fun l => l.tid == t.tid && l.line == line

/-- Lines of 128 KiB. -/
def l1Lines : Nat := 2048

/-- Device bytes as a task's lanes see them where no L1 line has them (R151). -/
def State.laneView (s : State) (t : Task) (tag : Nat × Nat) (cell : Bool) (pa va n : Nat) : List Byte :=
  s.seenView t 0 tag cell pa va n

/-- A line is allocated with the bytes that the task's lanes see; which line a full L1 loses is not specified (R400). -/
def State.l1Fill (s : State) (t : Task) (c : Nat) (tag : Nat × Nat) (cell : Bool) (pa va : Nat) : State :=
  if (s.l1Line? t c (pa / 64)).isSome then s
  else
    let xy := s.coreXY t c
    let bs := s.laneView t tag cell (pa / 64 * 64) (va - pa % 64) 64
    let held := (s.core xy.1 xy.2).l1
    let out := Config.freePick s.free 1 % held.length
    let old := if l1Lines ≤ held.length then held[out]? else none
    let s := s.modCore xy.1 xy.2 fun k =>
      { k with l1 := { tid := t.tid, line := pa / 64, bytes := bs } :: (if old.isSome then k.l1.eraseIdx out else k.l1) }
    match old with
    | some l => match s.task? l.tid with
      | some u => s.loseTags l.tid (s.coreIndex u xy.1 xy.2) (· == l.line)
      | none => s
    | none => s

/-- A lane load reads its line of the L1. -/
def State.l1Read (s : State) (t : Task) (c : Nat) (pa n : Nat) : List Byte :=
  match s.l1Line? t c (pa / 64) with
  | some l => (l.bytes.drop (pa % 64)).take n
  | none => []

/-- A lane store updates its line. -/
def State.l1Write (s : State) (t : Task) (c : Nat) (pa : Nat) (bs : List Byte) : State :=
  let xy := s.coreXY t c
  let put := fun (l : L1Line) => { l with bytes := l.bytes.take (pa % 64) ++ bs ++ l.bytes.drop (pa % 64 + bs.length) }
  s.modCore xy.1 xy.2 fun k => { k with l1 := upd (fun l => l.tid == t.tid && l.line == pa / 64) put k.l1 }

/-- L1_LINE_REPLACEMENT (R400): line n of a core's L1 leaves, and its race tags travel to the slice. -/
def execL1LineReplacement (x y n : Nat) (s : State) : Outcome State Fault Refusal :=
  match (s.core x y).l1[n]? with
  | some l =>
    let s := s.modCore x y fun k => { k with l1 := k.l1.eraseIdx n }
    match s.task? l.tid with
    | some t => .next (s.loseTags l.tid (s.coreIndex t x y) (· == l.line))
    | none => .next s
  | none => .next s

/-! ### Recording (R178, R185) -/

/-- Table i of a trace arena: offset, capacity, used (R179). -/
def State.arenaTable (s : State) (asid : BitVec 12) (arena i : Nat) : Nat × Nat × Nat :=
  (s.vaNum asid (arena + 0x20 + 16 * i) 8, s.vaNum asid (arena + 0x28 + 16 * i) 4, s.vaNum asid (arena + 0x2C + 16 * i) 4)

def State.setUsed (s : State) (asid : BitVec 12) (arena i n : Nat) : State :=
  s.arenaPut asid (arena + 0x2C + 16 * i) (bytes 4 n)

def Launch.records? (l : Launch) : Bool := l.lrec == 1

/-- The arena takes a state. -/
def State.arenaState (s : State) (l : Launch) (n : Nat) : State := s.arenaPut l.asid (l.arena.toNat + 6) (bytes 1 n)

/-- Recording fails: state 3, and nothing more is recorded (R185). -/
def State.traceFails (s : State) (l : Launch) : State :=
  (s.arenaState l 3).modLaunch l.lid fun l => { l with lrec := 2 }

/-- TRACECAP in a thread: a record, a count in k.fault, and the thread goes on (R185, R262). -/
def State.tracecapAt (s : State) (r : WaveRef) (ln : Nat) (l : Launch) : State :=
  match s.task? r.tid, (s.wave? r).bind (·.thread? ln) with
  | some t, some th =>
    let f := s.recordOf t ln th.tix th.pc { code := Flt.tracecap, detail := l.arena.toNat }
    (s.modWave r fun w => w.modLane ln fun th => th.count Flt.tracecap).report t { f with fatal := false }
  | _, _ => s

/-- TRACECAP without a thread. -/
def State.tracecapNoThread (s : State) (t : Task) (l : Launch) : State :=
  (s.traceFails l).reportNoThread t { code := Flt.tracecap, detail := l.arena.toNat } false

/-- Whether one more read record and its bucket fit. -/
def State.readRoom (s : State) (l : Launch) : Bool :=
  let t := s.arenaTable l.asid l.arena.toNat 1
  let x := s.arenaTable l.asid l.arena.toNat 4
  t.2.2 + l.pending.1 + 1 ≤ t.2.1 && 8 * (x.2.2 + l.pending.1 + 1) ≤ 7 * x.2.1

/-- A task reads a sector (VA / 32): recorded once per run. r and ln name the thread that receives TRACECAP. -/
def State.recordRead (s : State) (tid : Nat) (who : Option (WaveRef × Nat)) (sector : Nat) : State :=
  match s.task? tid, s.launchOf? tid with
  | some t, some l =>
    if !l.records? || t.trec.reads.contains sector then s
    else if s.readRoom l then
      (s.modTask tid fun t => { t with trec := { t.trec with reads := t.trec.reads ++ [sector] } }).modLaunch l.lid
        fun l => { l with pending := (l.pending.1 + 1, l.pending.2) }
    else
      match who with
      | some p => (s.traceFails l).tracecapAt p.1 p.2 l
      | none => s.tracecapNoThread t l
  | _, _ => s

/-- Splits a store into 8-byte words: word VA, byte mask, word PA. -/
def wordsOf (va pa n : Nat) : List (Nat × Nat × Nat) :=
  (List.range ((va % 8 + n + 7) / 8)).map fun i =>
    let w := va / 8 * 8 + 8 * i
    let mask := maskOf ((List.range 8).filter fun j => va ≤ w + j && w + j < va + n)
    (w, mask, pa - va % 8 + 8 * i)

/-- A write of bytes of a MOD page's word (VA, byte mask, PA): its pre-write value is kept at the first write, the mask grows
(R182). -/
def State.recordWord (s : State) (tid : Nat) (tag : Nat × Nat) (w : Nat × Nat × Nat) : State :=
  let s := s.modTask tid fun t => if t.prop.isSome then { t with wrote := w.1 :: t.wrote } else t
  match s.task? tid, s.launchOf? tid with
  | some t, some l =>
    if !l.records? then s
    else
      let old := t.trec.writes
      let grow := fun (e : WriteRec) => { e with mask := e.mask ||| w.2.1 }
      let new : WriteRec :=
        { va := w.1, mask := w.2.1, pre := num (s.view t tag false w.2.2 w.1 8), pa := w.2.2,
          direct := (List.range 8).all fun i => t.exclusive (w.1 + i) }
      s.modTask tid fun t => { t with trec := { t.trec with
        writes := if old.any (·.va == w.1) then upd (·.va == w.1) grow old else old ++ [new] } }
  | _, _ => s

/-- A store to a MOD page. -/
def State.recordWrite (s : State) (tid : Nat) (tag : Nat × Nat) (va pa n : Nat) : State :=
  (wordsOf va pa n).foldl (fun s w => s.recordWord tid tag w) s

end Sys2Proof.Machine
end

