-- ==== Sys2Proof/Machine/GlobalMem.lean ====
section
/-! DEFINITION. Loads and stores of the lanes path: LDG, STG, LDGX, STGX, LDS, STS, LDB, STB, LDC, SATOM and
LOAD_RETURN (R355–R357, R376, R387, R388), the checks of shares and channel regions (R121, R131) and memory sampling
(R266, R267). -/

namespace Sys2Proof.Machine

open Host

/-! ### Addresses (R355, R387) -/

/-- areg + off9 × n. -/
def areaM (f : MOp) (th : Thread) : Nat := (addrAdd (th.ra f.ar) (f.off.toInt * f.size.bytes)).toNat

/-- areg + sext(idx) × n. -/
def areaN (f : NOp) (w : Wave) (ln : Nat) (th : Thread) : Nat :=
  (addrAdd (th.ra f.ar) ((src32 w ln th f.idx).toInt * f.size.bytes)).toNat

def offS (f : SOp) (w : Wave) (ln : Nat) (th : Thread) : Nat := (src32 w ln th f.base).toNat + f.off.toNat * f.size.bytes
def offQ (f : QOp) (w : Wave) (ln : Nat) (th : Thread) : Nat := (src32 w ln th f.base).toNat + f.off.toNat * f.size.bytes

def bufNum : BufSpace → Nat
  | .abuf => 1
  | .cbuf => 2
  | .wbuf => 3

def destReg : Opnd → Option Nat
  | .v n => some n.val
  | _ => none

/-! ### Shares and channel regions (R120, R121, R129, R131) -/

def Share.mem (h : Share) (space : Nat) : Mem :=
  match space with
  | 0 => h.scratch
  | 1 => h.abuf
  | 2 => h.cbuf
  | _ => h.wbuf

def Share.setMem (h : Share) (space : Nat) (m : Mem) : Share :=
  match space with
  | 0 => { h with scratch := m }
  | 1 => { h with abuf := m }
  | 2 => { h with cbuf := m }
  | _ => { h with wbuf := m }

/-- A valid channel has bytes of a range, which its waits make visible to every path (R132, R151). -/
def Share.inChannel (h : Share) (space off n : Nat) : Bool :=
  h.chans.any fun c => c.space == space && c.valid && c.base < off + n && off < c.base + c.size

/-- Bytes that are written in a valid channel's region: no reader sees older ones (R132). -/
def Share.noOlder (h : Share) (space off n : Nat) : Share :=
  if h.older.any fun e => e.space == space && e.addr < off + n && off < e.addr + e.old.length then
    { h with older := { space, addr := off, old := List.replicate n 0, path := 0, wave := (0, 0), hidden := [] } :: h.older }
  else h

/-- A write of a wave (core index, k.wix) on an access path into a share, which the wave observes complete; readers on the
other paths may see the older bytes (R151, R152). ch: the channel whose Q tells of it. -/
def Share.put (h : Share) (path : Nat) (wave : Nat × Nat) (space off : Nat) (bs : List Byte) (ch : Option Nat := none) : Share :=
  let e : Older := { space, addr := off, old := (h.mem space).read off bs.length, path, wave, hidden := otherPaths path, ch
                     seenBy := [wave] }
  let g := h.setMem space ((h.mem space).write off bs)
  if h.inChannel space off bs.length then g.noOlder space off bs.length else { g with older := e :: h.older }

/-- A space of a share as a reader on path q sees a range of it (R151). -/
def State.seenMem (s : State) (h : Share) (q space off n : Nat) : Mem :=
  if h.older.any fun e => e.space == space && e.hidden.contains q then
    (List.range n).foldl (fun m i => m.set (off + i) (s.seenByte h.older q space (off + i) (m.get (off + i)))) (h.mem space)
  else h.mem space

/-- A share is its channels (R120). -/
def Share.size (h : Share) (space : Nat) : Nat := ((h.chans.filter (·.space == space)).map (·.size)).sum

/-- A wave's observed pair of a channel (R129). -/
def Wave.seen (w : Wave) (ch : Nat) : Nat × Nat := ((w.obs.find? (·.1 == ch)).map (·.2)).getD (0, 0)

/-- Whether lanes may touch n bytes of a valid channel's region (R131). -/
def chanAllows (c : Chan) (seen : Nat × Nat) (off n : Nat) (write : Bool) : Bool :=
  (List.range n).all fun i =>
    let o := off + i - c.base
    if write then c.prod == .lanes && (o + c.size - c.p % c.size) % c.size < seen.2 + c.size - c.p
    else c.cons == .lanes && (o + c.size - c.q % c.size) % c.size < seen.1 - c.q

/-- The checks of a core-local access: ALIGN, RANGE, then the channel's region (R121, R131). -/
def localFault (h : Share) (w : Wave) (space off n : Nat) (write : Bool) : Option Flt :=
  if off % n ≠ 0 then some { code := Flt.align, detail := off, access := n }
  else if h.size space < off + n ∨ (write ∧ space = 3) then some { code := Flt.range, detail := off, access := n }
  else
    match h.chanAt space off with
    | some (id, c) =>
      if c.valid && !chanAllows c (w.seen id) off n write then
        some { code := Flt.channel, detail := id, access := n } else none
    | none => none

/-! ### The frame of a memory instruction -/

/-- Runs f for one lane of the wave as it now stands. -/
def Iss.inLane (iss : Iss) (f : State → Wave → Nat → Thread → State) (s : State) (ln : Nat) : State :=
  match s.wave? iss.r with
  | some w => match w.thread? ln with
    | some th => f s w ln th
    | none => s
  | none => s

/-- Runs f for each executing lane in ascending k.tix. -/
def Iss.each (iss : Iss) (s : State) (f : State → Wave → Nat → Thread → State) : State :=
  match s.wave? iss.r with
  | some w => (w.byTix iss.take).foldl (iss.inLane f) s
  | none => s

/-- Marks destination registers pending for the executing lanes (R42, R343). -/
def Iss.marks (iss : Iss) (s : State) (o : Opnd) (width : Nat) : State :=
  s.modWave iss.r fun w => { w with pend := w.marked iss.take o width }

def State.marked (s : State) (iss : Iss) (o : Opnd) (width : Nat) : State := iss.marks s o width

/-- The deadline of a compute request that is made now (R293). -/
def State.loadDue (s : State) : Nat := s.deadline 2

/-- The requester number of a core's lanes, cells and matrix path (R293). -/
def coreRequester (xy : Nat × Nat) : Nat := xy.1 + 24 * xy.2

/-- A load of a thread is under way. -/
def State.addLoad (s : State) (r : WaveRef) (th : Thread) (reg : Option Nat) (width v : Nat)
    (region : Option (Nat × Nat × Nat)) (due : Option Nat) (host : Option Nat := none) (cell : Bool := false) : State :=
  let n := s.takeFresh
  n.2.modWave r fun w => { w with loads := w.loads ++
    [{ id := n.1, tix := th.tix, reg, words := words (regSpan width) v, region, due, host, cell }] }

/-! ### Memory sampling (R266, R267) -/

/-- Where an access would go: page and PA, through what the lanes of a core look up. -/
def State.whereIs (s : State) (t : Task) (l : Launch) (c va : Nat) : Option (Attr × Nat) :=
  let xy := s.coreXY t c
  match (s.translate (laneViewer t.tid xy.1 xy.2) l.asid va fun _ => true).1 with
  | .ok a pa => some (a, pa)
  | .parks _ => none
  | .unmapped => none
  | .perm => none
  | .dataerr => none

/-- An access makes a walk: no agent holds its page, or what one holds does not grant it (R209, R212). -/
def State.walks? (s : State) (t : Task) (l : Launch) (c va : Nat) (need : Attr → Bool) : Bool :=
  let xy := s.coreXY t c
  match (s.lookups (laneViewer t.tid xy.1 xy.2) l.asid va).findSome? fun ag => s.tlbHit ag l.asid va with
  | some e => !need e.attr
  | none => true

/-- Counts a memory instruction of the core and begins a sample on every Nth (R266). need: what a global access needs of
its page; waiting: the instruction reads its cells later. -/
def Iss.sampled (iss : Iss) (s0 : State) (addr : Wave → Nat → Thread → Nat) (need : Option (Attr → Bool)) (waiting : Bool)
    (s : State) : State :=
  match s0.task? iss.r.tid, s0.wave? iss.r, s0.launchOf? iss.r.tid with
  | some t, some w, some l =>
    let xy := s0.coreXY t iss.r.core
    let n := (s0.core xy.1 xy.2).memCount + 1
    let s := s.modCore xy.1 xy.2 fun c => { c with memCount := n }
    let ctl := s0.dev.sampctl.toNat
    let k := bitsAt ctl 16 5
    if ctl.testBit 0 && ctl.testBit (8 + l.part) && 4 ≤ k && k ≤ 24 && n % 2 ^ k == 0 then
      let addrs := (w.byTix iss.take).filterMap fun ln => (w.thread? ln).map fun th => addr w ln th
      let sectors := (addrs.map (· / 32)).eraseDups.length
      let walked := match need with
        | some f => addrs.any fun va => s0.walks? t l iss.r.core va f
        | none => false
      let far := need.isSome && addrs.any fun va => match s0.whereIs t l iss.r.core va with
        | some (a, _) => a.target != 0
        | none => false
      let hurt := match s.wave? iss.r with
        | some w => iss.take != w.still iss.take
        | none => true
      let sp := nearestSafe l.code iss.pc
      let replays := ((w.byTix iss.take).filterMap fun ln => (w.thread? ln).map (·.replays)).foldl max 0
      let flags := (if walked then 2 else 0) + (if hurt then 4 else 0) + (if far then 8 else 0)
      let free := (List.range 16).map fun i => Config.freeByte s0.free (0x20 + i)
      let bs := bytes 8 s0.drone ++ bytes 6 t.key.toNat ++ bytes 1 xy.1 ++ bytes 1 xy.2 ++ bytes 4 sp.1 ++ bytes 3 sp.2 ++
        bytes 1 (insWord iss.i / 4 % 128) ++ bytes 4 iss.front ++ bytes 2 sectors ++ bytes 1 (min replays 255) ++
        bytes 1 0 ++ free ++ bytes 4 0 ++ bytes 1 flags ++ bytes 1 iss.r.wix ++ bytes 1 w.stage ++ bytes 9 0
      let ids := match s.wave? iss.r with
        | some w => (w.loads.map (·.id) ++ w.cellsLeft ++ w.stores.map (·.1)).filter fun i => s0.fresh ≤ i
        | none => []
      s.modCore xy.1 xy.2 fun c => { c with samples := c.samples ++
        [{ tid := iss.r.tid, c := iss.r.core, wix := iss.r.wix, time := s0.now, loads := ids, bytes := bs, waiting }] }
    else s
  | _, _, _ => s

/-- The sample that is to be written, and has been dropped because the ring is full. -/
def State.dropSample (s : State) : State :=
  { s with dev := { s.dev with sampdrop := if s.dev.sampdrop = 0xFFFFFFFF then s.dev.sampdrop else s.dev.sampdrop + 1 } }

/-- One sample is written to the ring at its head. -/
def State.putSample (s : State) (p : Sample) (next : Nat) : State :=
  let e := p.ended.getD (s.now, 0)
  let latency := (e.1 - p.time) / Config.coreCycle
  let flags := num ((p.bytes.drop 0x34).take 1) + (if p.missed then 1 else 0)
  let bs := p.bytes.take 0x1F ++ bytes 1 e.2 ++ (p.bytes.drop 0x20).take 16 ++ bytes 4 latency ++
    bytes 1 flags ++ p.bytes.drop 0x35
  let s := { s with mem := s.mem.write (s.dev.sampbase + s.dev.samphead.toNat) bs }
  { s with dev := { s.dev with samphead := BitVec.ofNat 32 next } }.transfer 14 1

/-- Finished samples of a core go to the ring: one that meets a full ring is lost and counted (R266), one whose budget is
used up waits for the next period (R256). last: the lane whose data came last; DESIGN CHOICE (log 140): 0 where none did. -/
def State.flushSamples (s : State) (x y last : Nat) : State :=
  let ready := fun (p : Sample) => p.loads.isEmpty && !p.waiting
  let all := (s.core x y).samples
  let end_ := fun (p : Sample) => { p with ended := some (p.ended.getD (s.now, last)) }
  let r := ((all.filter ready).map end_).foldl (fun (r : State × List Sample) p =>
    let d := r.1.dev
    let next := (d.samphead.toNat + 64) % max d.sampsize.toNat 64
    if d.sampsize = 0 ∨ next = d.samptail.toNat then (r.1.dropSample, r.2)
    else if r.1.mayTransfer 14 then (r.1.putSample p next, r.2)
    else (r.1, r.2 ++ [p])) (s, [])
  if all.isEmpty then s else r.1.modCore x y fun c => { c with samples := r.2 ++ c.samples.filter fun p => !ready p }

/-- What load or cell operation n of a task's core has been waited for has come, to the thread in a lane. -/
def State.sampleBack (s : State) (t : Task) (c n ln : Nat) (late : Bool) : State :=
  let xy := s.coreXY t c
  let got := fun (p : Sample) =>
    if p.loads.contains n then { p with loads := p.loads.filter (· != n), missed := p.missed || late } else p
  (s.modCore xy.1 xy.2 fun k => { k with samples := k.samples.map got }).flushSamples xy.1 xy.2 ln

/-! ### The frame's waits (R145, R256) -/

/-- A read of an early-admitted task waits while an earlier round still holds a shadow of the line (R145). -/
def State.mustWait (s : State) (t : Task) (pa : Nat) : Bool :=
  s.tasks.any fun u => u.lid == t.lid && u.round < t.round && u.shadow.any fun c => c.1 / 64 == pa / 64

/-- Whether a lane's load must wait for an earlier round's merge (R145). -/
def Iss.blockedLoad (iss : Iss) (s : State) (addr : Wave → Nat → Thread → Nat) : Bool :=
  match s.task? iss.r.tid, s.wave? iss.r, s.launchOf? iss.r.tid with
  | some t, some w, some l =>
    l.checked && (s.tasks.any fun u => u.lid == t.lid && u.round < t.round && !u.shadow.isEmpty) &&
    (w.byTix iss.take).any fun ln => match w.thread? ln with
      | some th => match s.whereIs t l iss.r.core (addr w ln th) with
        | some (a, pa) => a.target == 0 && s.mustWait t pa
        | none => false
      | none => false
  | _, _, _ => false

/-- Instructions that read memory (R145). -/
def reads : Instr → Bool
  | .stg _ => false
  | .stgx _ => false
  | .modw _ => false
  | _ => true

/-- 64-byte transfers to HBM and MSC that the lanes of a global access make: lines of device memory, for a load those that
the core's L1 does not hold (R256). -/
def Iss.linesOf (iss : Iss) (s : State) (addr : Wave → Nat → Thread → Nat) : Nat :=
  match s.task? iss.r.tid, s.wave? iss.r, s.launchOf? iss.r.tid with
  | some t, some w, some l =>
    (((w.byTix iss.take).filterMap fun ln => (w.thread? ln).bind fun th =>
      match s.whereIs t l iss.r.core (addr w ln th) with
      | some (a, pa) =>
        if a.target != 0 || (reads iss.i && (s.l1Line? t iss.r.core (pa / 64)).isSome) then none else some (pa / 64)
      | none => none).eraseDups).length
  | _, _, _ => 0

/-- The partition whose budget a wave's accesses use. -/
def Iss.part (iss : Iss) (s : State) : Nat := match s.launchOf? iss.r.tid with | some l => l.part | none => 0

/-- What is left to pay of n transfers after the budget has let the wave make what it may in this period; the instruction
waits for the rest (R256). -/
def Iss.pay (iss : Iss) (s : State) (n : Nat) : Nat × State :=
  let paid := match s.wave? iss.r with | some w => w.paid | none => 0
  let m := s.mayPay (iss.part s) (n - paid)
  let left := n - paid - m
  (left, (s.transfer (iss.part s) m).modWave iss.r fun w => { w with paid := if left = 0 then 0 else paid + m })

/-- A MODW whose launch names a trace arena: it may mark records there (R188). -/
def Iss.marksArena (iss : Iss) (s : State) : Bool := match iss.i with
  | .modw _ => match s.launchOf? iss.r.tid with | some l => l.arena != 0 | none => false
  | _ => false

/-- A memory instruction: the wait of R145, the budget of the partition's traffic for global accesses (R256), the body,
sampling. -/
def memIssue (i : Instr) (global : Bool) (addr : Wave → Nat → Thread → Nat) (body : Iss → State → State) (s : State) :
    Outcome State Fault Refusal :=
  issue i (fun iss s0 =>
    if global && reads i && iss.blockedLoad s0 addr then iss.again s0 12 false
    else
      let paid := if global then iss.pay s0 (iss.linesOf s0 addr) else (0, s0)
      if paid.1 ≠ 0 then iss.again paid.2 0 false
      else
        let need : Option (Attr → Bool) := if global then some (if reads i then (·.r) else (·.w)) else none
        let work := paid.2.maintains (iss.marksArena s0) (body iss)
        if !work.1 then iss.again (work.2.modWave iss.r fun w => { w with paid := iss.linesOf s0 addr }) 0 false
        else
        let s1 := iss.sampled s0 addr need false work.2
        let s1 := match s1.task? iss.r.tid with
          | some t => let xy := s1.coreXY t iss.r.core; s1.flushSamples xy.1 xy.2 0
          | none => s1
        iss.done s1) s

/-- RACE at the second access, with its partner (R138). -/
def State.raiseRace (s : State) (r : WaveRef) (ln : Nat) (t : Task) (a b : Access) : State :=
  let f := raceRec t a b s.drone
  s.raise r ln { code := Flt.race, detail := f.va, access := a.byte, partner := f.partner }

/-! ### Core-local accesses (R121, R137, R355, R388) -/

/-- The bytes that an access to a share reads: in a typed buffer a byte that another wave wrote in the same interval is
unspecified (R118), and one that the matrix path wrote may still be an older one (R151). -/
def State.sharedRead (s : State) (t : Task) (h : Share) (a : Access) : List Byte :=
  (List.range a.len).map fun i =>
    let new := (h.mem a.space).get (a.addr + i)
    if a.space = 0 then new
    else if typedRace t a i then Config.freeByte s.free (a.addr + i)
    else s.seenByte h.older 0 a.space (a.addr + i) new

/-- The bytes that a store to a share leaves: in a typed buffer an unspecified one where another wave's store of the same
interval meets it (R118). -/
def State.sharedStore (s : State) (t : Task) (a : Access) (bs : List Byte) : List Byte :=
  bs.zipIdx.map fun p => if a.space != 0 && typedRace t a p.2 then Config.freeByte s.free (a.addr + p.2) else p.1

/-- One lane's load from a share. -/
def Iss.loadLocal (iss : Iss) (space off n width : Nat) (d : Opnd) (s : State) (w : Wave) (ln : Nat) (th : Thread) : State :=
  match s.task? iss.r.tid, s.share? iss.r.tid iss.r.core with
  | some t, some h =>
    match localFault h w space off n false with
    | some f => s.raise iss.r ln f
    | none =>
      let a := s.accessOf t iss.r w ln th space off off n false false
      match (if space = 0 then (racesOf t a).1 else none) with
      | some b => (s.raiseRace iss.r ln t a b)
      | none =>
        let v := num (s.sharedRead t h a)
        (s.noteAccess iss.r.tid a []).addLoad iss.r th (destReg d) width v (some (space, off, n)) none
  | _, _ => s

/-- One lane's store to a share. -/
def Iss.storeLocal (iss : Iss) (space off n v : Nat) (s : State) (w : Wave) (ln : Nat) (th : Thread) : State :=
  match s.task? iss.r.tid, s.share? iss.r.tid iss.r.core with
  | some t, some h =>
    match localFault h w space off n true with
    | some f => s.raise iss.r ln f
    | none =>
      let a := s.accessOf t iss.r w ln th space off off n true false
      match (if space = 0 then (racesOf t a).1 else none) with
      | some b => s.raiseRace iss.r ln t a b
      | none =>
        let bs := s.sharedStore t a (bytes n v)
        (s.noteAccess iss.r.tid a []).modShare iss.r.tid iss.r.core fun h => h.put 0 (iss.r.core, iss.r.wix) space off bs
  | _, _ => s

def execLds (f : SOp) (s : State) : Outcome State Fault Refusal :=
  memIssue (.lds f) false (offS f) (fun iss s =>
    (iss.each s fun s w ln th => iss.loadLocal 0 (offS f w ln th) f.size.bytes f.size.bits f.data s w ln th).marked
      iss f.data f.size.bits) s

def execSts (f : SOp) (s : State) : Outcome State Fault Refusal :=
  memIssue (.sts f) false (offS f) (fun iss s =>
    iss.each s fun s w ln th =>
      iss.storeLocal 0 (offS f w ln th) f.size.bytes (src w ln th f.size.bits f.data) s w ln th) s

def execLdb (f : QOp) (s : State) : Outcome State Fault Refusal :=
  memIssue (.ldb f) false (offQ f) (fun iss s =>
    (iss.each s fun s w ln th =>
      iss.loadLocal (bufNum f.space) (offQ f w ln th) f.size.bytes f.size.bits f.data s w ln th).marked
      iss f.data f.size.bits) s

def execStb (f : QOp) (s : State) : Outcome State Fault Refusal :=
  memIssue (.stb f) false (offQ f) (fun iss s =>
    iss.each s fun s w ln th =>
      iss.storeLocal (bufNum f.space) (offQ f w ln th) f.size.bytes (src w ln th f.size.bits f.data) s w ln th) s

/-- The eight functions of SATOM (R175). -/
def satomOp (fn : SatomFn) (x v : Word) : Word :=
  match fn with
  | .addS32 => x + v
  | .minS32 => if v.slt x then v else x
  | .maxS32 => if x.slt v then v else x
  | .minZ32 => if v.toNat < x.toNat then v else x
  | .maxZ32 => if x.toNat < v.toNat then v else x
  | .and => x &&& v
  | .or => x ||| v
  | .xor => x ^^^ v

def offSatom (f : SatomOp) (w : Wave) (ln : Nat) (th : Thread) : Nat :=
  ((src32 w ln th f.base).toNat + f.off.toNat * 4) % 2 ^ 32

/-- SATOM (R376): one word of scratch, atomic, checked as a store. -/
def execSatom (f : SatomOp) (s : State) : Outcome State Fault Refusal :=
  memIssue (.satom f) false (offSatom f) (fun iss s =>
    iss.each s fun s w ln th =>
      match s.task? iss.r.tid, s.share? iss.r.tid iss.r.core with
      | some t, some h =>
        let off := offSatom f w ln th
        match localFault h w 0 off 4 true with
        | some x => s.raise iss.r ln x
        | none =>
          let a := s.accessOf t iss.r w ln th 0 off off 4 true true
          match (racesOf t a).1 with
          | some b => s.raiseRace iss.r ln t a b
          | none =>
            let x := BitVec.ofNat 32 (num (h.scratch.read off 4))
            let y := satomOp f.fn x (src32 w ln th f.data)
            (s.noteAccess iss.r.tid a []).modShare iss.r.tid iss.r.core fun h =>
              h.put 0 (iss.r.core, iss.r.wix) 0 off (bytes 4 y.toNat)
      | _, _ => s) s

/-! ### Global accesses (R122, R140, R144, R148, R355–R357, R388) -/

/-- Translates one lane's access: the page, or the lane has parked (R216) or faulted. kind is R219's access code,
acc the access byte of R259. -/
def Iss.reach (iss : Iss) (s : State) (ln va kind acc : Nat) (need : Attr → Bool) : Option (Attr × Nat) × State :=
  match s.task? iss.r.tid, s.launchOf? iss.r.tid with
  | some t, some l =>
    let xy := s.coreXY t iss.r.core
    let x := s.translate (laneViewer t.tid xy.1 xy.2) l.asid va need
    match x.1 with
    | .ok a pa => (some (a, pa), x.2)
    | .parks k =>
      let f := x.2.pageFault l.asid va k kind (xy.2 * 256 + xy.1)
      (none, f.2.parkOn iss.r ln f.1 va acc)
    | .unmapped => (none, x.2.raise iss.r ln { code := Flt.unmapped, detail := va, access := acc })
    | .perm => (none, x.2.raise iss.r ln { code := Flt.perm, detail := va, access := acc })
    | .dataerr => (none, x.2.raise iss.r ln { code := Flt.dataerr, detail := va, access := acc })
  | _, _ => (none, s)

/-- In a checked launch, a global access outside the extents of the graph task (R144). -/
def State.outside (s : State) (t : Task) (va n : Nat) : Bool :=
  match s.launch? t.lid with
  | some l => l.checked && !covered (s.rootOf t).extents va n
  | none => false

/-- One lane's global load. ext: the extents of a checked launch are tested. -/
def Iss.loadGlobal (iss : Iss) (va n width : Nat) (d : Opnd) (ext : Bool) (s : State) (w : Wave) (ln : Nat) (th : Thread) :
    State :=
  if va % n ≠ 0 then s.raise iss.r ln { code := Flt.align, detail := va, access := n }
  else
    let p := iss.reach s ln va 0 n (·.r)
    match p.1, p.2.task? iss.r.tid, p.2.launchOf? iss.r.tid with
    | some (at', pa), some t, some l =>
      let s := p.2
      if ext && s.outside t va n then s.raise iss.r ln { code := Flt.range, detail := va, access := n }
      else if s.dataErr at' pa n then
        let p := s.failedPiece at' pa n
        (s.found at' pa n).raise iss.r ln { code := Flt.dataerr, detail := va + p.1, access := p.2 }
      else if at'.target = 0 then
        let tag := s.pageTag l at'.buf
        let a := s.accessOf t iss.r w ln th 4 pa va n false false
        let race := if at'.cell then (none, []) else racesOf t a
        match race.1 with
        | some b => s.raiseRace iss.r ln t a b
        | none =>
          let hit := (s.l1Line? t iss.r.core (pa / 64)).isSome
          let s := if at'.cell then s else s.noteAccess iss.r.tid a race.2
          let s := s.l1Fill t iss.r.core tag at'.cell pa va
          let v := num (s.l1Read t iss.r.core pa n)
          let due := if hit then none else some s.loadDue
          let s := s.addLoad iss.r th (destReg d) width v none due
          if at'.mod && th.recording then s.recordRead iss.r.tid (some (iss.r, ln)) (va / 32) else s
      else if at'.target = 1 then
        let s := s.hostOrder iss.r pa n
        s.addLoad iss.r th (destReg d) width (num (readRaw s at' pa n)) none none (if n = 16 then some pa else none)
      else s.addLoad iss.r th (destReg d) width (num (readRaw s at' pa n)) none none
    | _, _, _ => p.2

/-- Stores device bytes for a task: those whose VA lies in an exclusive range directly, the others into its shadow lines
(R141, R144). -/
def State.storeDevice (s : State) (tid : Nat) (tag : Nat × Nat) (direct : Nat → Bool) (ordw : Bool) (va pa : Nat)
    (bs : List Byte) : State :=
  if (List.range bs.length).all fun i => direct (va + i) then (s.plainWrite tag pa bs).clearBad pa bs.length
  else
    let held := bs.zipIdx.filter fun b => !direct (va + b.2)
    let s := (bs.zipIdx.filter fun b => direct (va + b.2)).foldl (fun s b => s.plainWrite tag (pa + b.2) [b.1]) s
    s.modTask tid fun t =>
      let ns := (held.map fun b => (pa + b.2) / 64).eraseDups
      let info := fun (n : Nat) => ({ line := n, va := va - pa % 65536 + 64 * n % 65536, tag, ordw } : LineInfo)
      { t with shadow := held.foldl (fun m p => Shadow.set m (pa + p.2) p.1) t.shadow
               lines := ns.map info ++ t.lines.filter fun e => !ns.contains e.line }

/-- Bytes that a parent writes after spawning children that it has not joined, and whether through an ORDW page
(R142, R143). -/
def State.markAfter (s : State) (tid pa n : Nat) (ordw : Bool) : State :=
  let kids := (s.tasks.filter fun u => u.parent == some tid && !u.joined).map (·.tid)
  if kids.isEmpty then s
  else s.modTask tid fun t =>
    let new := kids.flatMap fun k => (List.range n).map fun i => (k, pa + i, ordw)
    { t with after := (t.after.filter fun a => !(kids.contains a.1 && pa ≤ a.2.1 && a.2.1 < pa + n)) ++ new }

/-- A store of the wave on its way to where FENCE waits for it (R149). -/
def State.pushStore (s : State) (r : WaveRef) (k : StoreKind) : State :=
  let n := s.takeFresh
  n.2.modWave r fun w => { w with stores := w.stores ++ [(n.1, k, s.deadline 2)] }

/-- A task's write of n device bytes, of which readers on other paths may see the older ones (R151). -/
def State.noteOlder (s : State) (tid : Nat) (e : Older) (tag : Nat × Nat) (va n : Nat) : State :=
  s.modTask tid fun t => { t with older := { e with old := s.view t tag false e.addr va n } :: t.older }

/-- A wave's write of device bytes on the lanes path: the wave observes it complete at its issue (R152). -/
def State.laneOlder (s : State) (r : WaveRef) (tag : Nat × Nat) (va pa n : Nat) : State :=
  s.noteOlder r.tid { space := 4, addr := pa, old := [], path := 0, wave := (r.core, r.wix), hidden := [1], seenBy := [(r.core, r.wix)] }
    tag va n

/-- A global write once it has translated: shadow, exclusive, host or peer (R388). -/
def State.storeGlobal (s : State) (r : WaveRef) (at' : Attr) (va pa : Nat) (bs : List Byte) : State :=
  match s.task? r.tid, s.launchOf? r.tid with
  | some t, some l =>
    if at'.target = 0 then
      let tag := s.pageTag l at'.buf
      let s := if at'.mod then s.recordWrite r.tid tag va pa bs.length else s
      let s := s.laneOlder r tag va pa bs.length
      let s := s.storeDevice r.tid tag t.exclusive at'.ordw va pa bs
      (s.markAfter r.tid pa bs.length at'.ordw).pushStore r .slice
    else if at'.target = 1 then (s.hostWrite r pa bs).pushStore r .host
    else (writeRaw s at' pa bs).pushStore r .peer
  | _, _ => s

/-- One lane's global store. -/
def Iss.putGlobal (iss : Iss) (va n v : Nat) (s : State) (w : Wave) (ln : Nat) (th : Thread) : State :=
  if va % n ≠ 0 then s.raise iss.r ln { code := Flt.align, detail := va, access := n }
  else
    let p := iss.reach s ln va 1 n (·.w)
    match p.1, p.2.task? iss.r.tid, p.2.launchOf? iss.r.tid with
    | some (at', pa), some t, some l =>
      let s := p.2
      if at'.cell then s.raise iss.r ln { code := Flt.cellst, detail := va, access := n }
      else if s.outside t va n then s.raise iss.r ln { code := Flt.range, detail := va, access := n }
      else if at'.target = 0 then
        let a := s.accessOf t iss.r w ln th 4 pa va n true false
        let race := racesOf t a
        match race.1 with
        | some b => s.raiseRace iss.r ln t a b
        | none =>
          let s := s.noteAccess iss.r.tid a race.2
          let s := s.l1Fill t iss.r.core (s.pageTag l at'.buf) false pa va
          let s := s.storeGlobal iss.r at' va pa (bytes n v)
          s.l1Write t iss.r.core pa (bytes n v)
      else if s.dataErr at' pa n then
        let p := s.failedPiece at' pa n
        s.raise iss.r ln { code := Flt.dataerr, detail := va + p.1, access := p.2 }
      else s.storeGlobal iss.r at' va pa (bytes n v)
    | _, _, _ => p.2

/-- A load instruction that reads global memory. -/
def loadIssue (i : Instr) (d : Opnd) (width : Nat) (addr : Wave → Nat → Thread → Nat)
    (f : Iss → State → Wave → Nat → Thread → State) (s : State) : Outcome State Fault Refusal :=
  memIssue i true addr (fun iss s => (iss.each s (f iss)).marked iss d width) s

def execLdg (f : MOp) (s : State) : Outcome State Fault Refusal :=
  loadIssue (.ldg f) f.data f.size.bits (fun _ _ th => areaM f th) (fun iss s w ln th =>
    iss.loadGlobal (areaM f th) f.size.bytes f.size.bits f.data true s w ln th) s

def execLdgx (f : NOp) (s : State) : Outcome State Fault Refusal :=
  loadIssue (.ldgx f) f.data f.size.bits (areaN f) (fun iss s w ln th =>
    iss.loadGlobal (areaN f w ln th) f.size.bytes f.size.bits f.data true s w ln th) s

def execStg (f : MOp) (s : State) : Outcome State Fault Refusal :=
  memIssue (.stg f) true (fun _ _ th => areaM f th) (fun iss s => iss.each s fun s w ln th =>
    iss.putGlobal (areaM f th) f.size.bytes (src w ln th f.size.bits f.data) s w ln th) s

def execStgx (f : NOp) (s : State) : Outcome State Fault Refusal :=
  memIssue (.stgx f) true (areaN f) (fun iss s => iss.each s fun s w ln th =>
    iss.putGlobal (areaN f w ln th) f.size.bytes (src w ln th f.size.bits f.data) s w ln th) s

/-- The offset of LDC in the argument block (R357). -/
def ldcOff (f : LdcOp) (w : Wave) (ln : Nat) (th : Thread) : Nat := ((src32 w ln th f.a).toNat + f.imm.toNat * 4) % 2 ^ 32

/-- LDC (R357). -/
def execLdc (f : LdcOp) (s : State) : Outcome State Fault Refusal :=
  let block := match s.issuer.bind fun r => s.task? r.tid with | some t => t.block.toNat | none => 0
  let size := match s.issuer.bind fun r => s.task? r.tid with | some t => (s.kernelOf t).argBytes | none => 0
  let va := fun (w : Wave) (ln : Nat) (th : Thread) => (block + ldcOff f w ln th) % 2 ^ 72
  loadIssue (.ldc f) f.d 32 va (fun iss s w ln th =>
    let o := ldcOff f w ln th
    if o % 4 ≠ 0 then s.raise iss.r ln { code := Flt.align, detail := va w ln th, access := 4 }
    else if size < o + 4 then s.raise iss.r ln { code := Flt.range, detail := va w ln th, access := 4 }
    else iss.loadGlobal (va w ln th) 4 32 f.d false s w ln th) s

/-! ### Delivery (R42, R356) -/

/-- The next load of a wave on the lanes path, or on the cell path, to return (R153). -/
def Wave.nextLoad (w : Wave) (d : Load) : Bool := (w.loads.find? fun e => e.cell == d.cell).any (·.id == d.id)

/-- LOAD_RETURN: the data of load n of a wave reaches its thread's registers, in issue order (R153); a late HBM request is
counted (R293). -/
def execLoadReturn (r : WaveRef) (n : Nat) (s : State) : Outcome State Fault Refusal :=
  match s.task? r.tid, s.wave? r with
  | some t, some w =>
    match w.loads.find? (·.id == n) with
    | none => .next s
    | some d =>
      if !w.nextLoad d then .next s
      else
      let late : Bool := match d.due with | some x => decide (x < s.drone) | none => false
      let s := s.modWave r fun w =>
        let w := { w with loads := w.loads.filter (·.id != n) }
        match w.laneOf d.tix, d.reg with
        | some ln, some g => w.modLane ln fun th => th.setVs g d.words
        | _, _ => w
      let s := s.addMissed late (coreRequester (s.coreXY t r.core))
      .next (s.sampleBack t r.core n ((w.laneOf d.tix).getD 0) late)
  | _, _ => .next s

/-- The loads of threads that leave their wave are under way no more. -/
def State.loseLoads (s : State) (r : WaveRef) (tixs : List Nat) : State :=
  match s.task? r.tid, s.wave? r with
  | some t, some w =>
    let lost := (w.loads.filter fun d => tixs.contains d.tix).map (·.id)
    if lost.isEmpty then s
    else
      let xy := s.coreXY t r.core
      let s := s.modWave r fun w => { w with loads := w.loads.filter fun d => !tixs.contains d.tix }
      let out := fun (p : Sample) => { p with loads := p.loads.filter fun n => !lost.contains n }
      s.modCore xy.1 xy.2 fun c => { c with samples := c.samples.map out }
  | _, _ => s

end Sys2Proof.Machine
end

