-- ==== Sys2Proof/Machine/Cell.lean ====
section
/-! DEFINITION. Ordered cells (R159–R174, R319, R320, R358): the operations a wave sends, their arrival at a slice,
withdrawals, and the cell loads LDCT and LDCS. -/

namespace Sys2Proof.Machine

open Host

/-- areg + off9 × 32. -/
def areaE {κ : Type} (f : EOp κ) (th : Thread) : Nat := (addrAdd (th.ra f.ar) (f.off.toInt * 32)).toNat

/-- The access byte of a cell access (R259). -/
def cellAcc (n : Nat) : Nat := n + 96

/-- The slice of a device PA: stack, slice (R292). -/
def sliceOf (pa : Nat) : Nat × Nat := (pa / 256 % 12, pa / 256 / 12 % 16)

/-- HISTORY names a stamp; the partner's key field holds the key given (R260). -/
def historyFlt (key : BitVec 48) (partnerKey : BitVec 48) (ln tix : Nat) (cseq : Word) (acc time : Nat) : Flt :=
  let p : FaultRec := { code := Flt.history + 128, lane := ln, tix, ordinal := cseq.toNat, offset := 0, access := acc,
                        va := 0, key := partnerKey, time }
  { code := Flt.history, access := acc, key := some key, partner := some p.bytes }

/-- The checks of one lane's cell access: its device PA and page, or the lane has parked or faulted (R320, R358). -/
def Iss.cellReach (iss : Iss) (s : State) (ln va n : Nat) (need : Attr → Bool) : Option (Attr × Nat) × State :=
  if va % 32 ≠ 0 then (none, s.raise iss.r ln { code := Flt.align, detail := va, access := cellAcc n })
  else
    let p := iss.reach s ln va 3 (cellAcc n) need
    match p.1, p.2.task? iss.r.tid with
    | some (a, pa), some t =>
      if !a.cell then (none, p.2.raise iss.r ln { code := Flt.cellst, detail := va, access := cellAcc n })
      else if p.2.outside t va n then (none, p.2.raise iss.r ln { code := Flt.range, detail := va, access := cellAcc n })
      else if p.2.badIn pa 32 then (none, (p.2.found a pa 32).raise iss.r ln { code := Flt.dataerr, detail := va, access := cellAcc n })
      else (some (a, pa), p.2)
    | _, _ => (none, p.2)

/-- One lane sends its operation. -/
def Iss.sendCell (iss : Iss) (major ty bits n va : Nat) (o : Opnd) (s : State) (w : Wave) (ln : Nat) (th : Thread) :
    State :=
  let p := iss.cellReach s ln va n (fun a => a.r && a.w)
  match p.1, p.2.task? iss.r.tid, p.2.launchOf? iss.r.tid with
  | some (_, pa), some t, some l =>
    let s := p.2
    if th.cseq = 0xFFFFFFFF then
      s.raise iss.r ln (historyFlt t.key t.key ln th.tix th.cseq (cellAcc n) s.drone)
    else
      let k := s.takeFresh
      let operand := BitVec.ofNat 128 (src w ln th bits o)
      let op : CellOp :=
        { id := k.1, lid := t.lid, scope := l.scope, tid := t.tid, core := iss.r.core, wix := iss.r.wix, lane := ln,
          key := t.key, tix := th.tix, cseq := th.cseq, pa, va, major, ty, operand, due := s.deadline 2 }
      { k.2 with flight := k.2.flight ++ [op] }.modWave iss.r fun w => { w with cellsLeft := w.cellsLeft ++ [k.1] }
  | _, _, _ => p.2

/-- A cell instruction (R320): every executing lane, in ascending lane order, sends one operation; the wave then
holds its slot until the slices have answered. n is the access size in bytes. -/
def cellIssue {κ : Type} (i : Instr) (f : EOp κ) (major ty bits n : Nat) (s : State) : Outcome State Fault Refusal :=
  issue i (fun iss s0 =>
    let paid := iss.pay s0 (lanesOf iss.take).length
    if paid.1 ≠ 0 then iss.again paid.2 0 false
    else
      let s1 := (lanesOf iss.take).foldl (fun s ln =>
        match s.wave? iss.r, (s.wave? iss.r).bind (·.thread? ln) with
        | some w, some th => iss.sendCell major ty bits n (areaE f th) f.val s w ln th
        | _, _ => s) paid.2
      let s1 := iss.sampled s0 (fun _ _ th => areaE f th) (some fun a => a.r && a.w) false s1
      let s1 := match s1.task? iss.r.tid with
        | some t => let xy := s1.coreXY t iss.r.core; s1.flushSamples xy.1 xy.2 0
        | none => s1
      match s1.wave? iss.r with
      | some w =>
        if w.cellsLeft.isEmpty then iss.done s1
        else iss.waits s1 (.cells (w.still iss.take))
      | none => iss.done s1) s

def execCadd (f : EOp CaddTy) (s : State) : Outcome State Fault Refusal :=
  cellIssue (.cadd f) f 0x30 f.ty.code f.ty.bits (f.ty.bits / 8) s
def execCtwo (f : EOp CtwoTy) (s : State) : Outcome State Fault Refusal :=
  cellIssue (.ctwo f) f 0x31 f.ty.code f.ty.bits (f.ty.bits / 8) s
def execCmin (f : EOp CmmTy) (s : State) : Outcome State Fault Refusal :=
  cellIssue (.cmin f) f 0x32 f.ty.code f.ty.bits (f.ty.bits / 8) s
def execCmax (f : EOp CmmTy) (s : State) : Outcome State Fault Refusal :=
  cellIssue (.cmax f) f 0x33 f.ty.code f.ty.bits (f.ty.bits / 8) s
def execCord (f : EOp BitTy) (s : State) : Outcome State Fault Refusal :=
  cellIssue (.cord f) f 0x34 f.ty.code f.ty.bits (f.ty.bits / 8) s
def execCaff (f : EOp CaffTy) (s : State) : Outcome State Fault Refusal :=
  cellIssue (.caff f) f 0x35 f.ty.code f.ty.bits (f.ty.bits / 16) s
def execCbit (f : EOp CbitTy) (s : State) : Outcome State Fault Refusal :=
  cellIssue (.cbit f) f 0x36 f.ty.code f.ty.bits (f.ty.bits / 8) s

/-! ### Arrival (R162, R166, R171, R172) -/

/-- The keys of a task and of its ancestors (R161). -/
def ancestry (k : Nat) : List Nat := [0, 8, 16, 24, 32].map fun i => k / 2 ^ i * 2 ^ i

/-- Entries in the store of the slice that owns a PA. -/
def State.storeUse (s : State) (pa : Nat) : Nat :=
  ((s.cells.filter fun h => sliceOf h.pa == sliceOf pa).map fun h => (h.entries.filter fun e => !e.spilled).length).sum

/-- Spilled entries of a scope, each in one 64-byte slot of the history arena. -/
def State.spilledIn (s : State) (scope : Nat) : Nat :=
  ((s.cells.filter (·.scope == scope)).map fun h => (h.entries.filter (·.spilled)).length).sum

/-- Inserts at the stamp; a held stamp is replaced. -/
def putEntry (es : List CellEntry) (e : CellEntry) : List CellEntry :=
  if es.any fun x => x.op.stamp == e.op.stamp then
    upd (fun x => x.op.stamp == e.op.stamp) (fun x => { e with spilled := x.spilled }) es
  else insertBy (fun a b => a.op.stamp < b.op.stamp) e es

def State.putCell (s : State) (op : CellOp) (traced spilled : Bool) : State :=
  let e : CellEntry := { op, spilled }
  if (s.hist? op.pa op.scope).isSome then
    let put := fun (h : CellHist) => { h with entries := putEntry h.entries e }
    { s with cells := upd (fun h => h.pa == op.pa && h.scope == op.scope) put s.cells }
  else { s with cells := s.cells ++ [{ pa := op.pa, scope := op.scope, traced, entries := [e] }] }

inductive Answer where
  | accepted (spilled : Bool)
  /-- The spill finds no free slot (R172, R185). -/
  | noSlot
  | refused
  | history
deriving DecidableEq, Repr

/-- What the slice answers. -/
def State.answer (s : State) (op : CellOp) : Answer :=
  let traced := op.scope % 2 == 1
  let es := match s.hist? op.pa op.scope with | some h => h.entries | none => []
  if es.any fun e => e.op.stamp == op.stamp then .accepted false
  else if traced then
    if Config.tracedEntries ≤ es.length then .history
    else if (es.filter fun e => !e.spilled).length < Config.cellEntries && s.storeUse op.pa < Config.storeEntries then
      .accepted false
    else
      let room := match s.launch? op.lid with
        | some l => s.vaNum l.asid (l.arena.toNat + 0x80) 8 / 64
        | none => 0
      if s.spilledIn op.scope < room then .accepted true else .noSlot
  else if es.length < Config.cellEntries && s.storeUse op.pa < Config.storeEntries then .accepted false
  else .refused

/-- Takes the operation off the wave's list and its sample; the wave goes on once all are answered. -/
def State.answered (s : State) (op : CellOp) (late : Bool) : State :=
  let r : WaveRef := ⟨op.tid, op.core, op.wix⟩
  let s := s.modWave r fun w => { w with cellsLeft := w.cellsLeft.filter (· != op.id) }
  match s.task? op.tid, s.wave? r with
  | some t, some w =>
    let s := s.sampleBack t op.core op.id op.lane late
    match w.wait with
    | .cells mask =>
      if w.cellsLeft.isEmpty then s.endWait r mask else s
    | _ => s
  | _, _ => s

/-- k.cseq rises in the issuing thread (R162). -/
def State.bumpCseq (s : State) (op : CellOp) : State :=
  s.modWave ⟨op.tid, op.core, op.wix⟩ fun w =>
    if w.cellsLeft.contains op.id then w.modLane op.lane fun th => { th with cseq := th.cseq + 1 } else w

/-- A contribution is recorded at acceptance (R178). -/
def State.recordContrib (s : State) (op : CellOp) : State :=
  let s := s.modTask op.tid fun t => if t.prop.isSome then { t with issued := (op.cseq.toNat, op.tix, op.va) :: t.issued } else t
  match s.task? op.tid, s.launch? op.lid with
  | some t, some l =>
    if !l.records? then s
    else
      let rec_ := (op.cseq.toNat, op.tix, op.major, op.ty, op.va, op.operand.toNat)
      let same := fun (c : Nat × Nat × Nat × Nat × Nat × Nat) => c.1 == op.cseq.toNat && c.2.1 == op.tix
      let put := fun (l : List (Nat × Nat × Nat × Nat × Nat × Nat)) =>
        s.modTask op.tid fun t => { t with trec := { t.trec with contribs := l } }
      if t.trec.contribs.any same then put (upd same (fun _ => rec_) t.trec.contribs)
      else
        let tb := s.arenaTable l.asid l.arena.toNat 3
        if tb.2.2 + l.pending.2.2 + 1 ≤ tb.2.1 then
          (put (t.trec.contribs ++ [rec_])).modLaunch l.lid fun l => { l with pending := (l.pending.1, l.pending.2.1, l.pending.2.2 + 1) }
        else
          let r : WaveRef := ⟨op.tid, op.core, op.wix⟩
          let live := match s.wave? r with | some w => w.cellsLeft.contains op.id | none => false
          if live then (s.traceFails l).tracecapAt r op.lane l else s.tracecapNoThread t l
  | _, _ => s

/-- The bytes of a cell that an operation works on (R160, R165). -/
def CellOp.size (o : CellOp) : Nat :=
  match o.major with
  | 0x34 => if o.ty = 0 then 4 else if o.ty = 1 then 8 else 16
  | 0x36 => if o.ty < 4 then 4 else 8
  | _ => if o.ty = 1 ∨ o.ty = 3 then 8 else 4

/-- CELL_ARRIVAL (R166, R171): operation n, from a wave or from a retry queue, reaches its slice; a queued one only once the
watermark has risen since it was refused; one that spills waits for the budget of spills (R256), one of a task that is over is
not queued (R258). -/
def execCellArrival (n : Nat) (s : State) : Outcome State Fault Refusal :=
  let queued := s.cores.find? fun c => c.retry.any (·.id == n)
  match (s.flight ++ s.cores.flatMap (·.retry)).find? (·.id == n) with
  | none => .next s
  | some op =>
    let r : WaveRef := ⟨op.tid, op.core, op.wix⟩
    let gone := fun (s : State) => { s with
      flight := s.flight.filter (·.id != n)
      cores := s.cores.map fun c => { c with retry := c.retry.filter (·.id != n) } }
    let core := match s.task? op.tid with | some t => coreRequester (s.coreXY t op.core) | none => 0
    let late : Bool := decide (op.due < s.drone) && (queued.isNone || Config.freeBool s.free (2 ^ 60 + core))
    let take := fun (s : State) (spilled : Bool) =>
      let s := (gone s).putCell { op with tried := none } (op.scope % 2 == 1) spilled
      ((((s.recordContrib op).bumpCseq op).answered op late).addMissed late core).foldCells
    let fail := fun (s : State) =>
      let s := (gone s).raise r op.lane (historyFlt op.key op.key op.lane op.tix op.cseq (cellAcc op.size) s.drone)
      ((s.answered op late).addMissed late core).foldCells
    let w := s.watermark op.lid
    let again := fun (o : CellOp) => if o.id == n then { o with tried := some w, due := s.deadline 2 } else o
    if queued.isSome && op.tried.any (w ≤ ·) then .next s
    else match s.answer op with
    | .accepted false => .next (take s false)
    | .accepted true => .next (if s.mayTransfer 11 then take (s.transfer 11 1) true else s)
    | .noSlot =>
      match s.task? op.tid, s.launch? op.lid with
      | some t, some l => .next (take (if l.records? then s.tracecapNoThread t l else s) true)
      | _, _ => .next (take s true)
    | .history => .next (fail s)
    | .refused =>
      if queued.isSome then .next { s with cores := s.cores.map fun c => { c with retry := c.retry.map again } }
      else
        match s.task? op.tid with
        | none => .next (gone s)
        | some t =>
          let xy := s.coreXY t op.core
          let full := Config.retryEntries ≤ (s.core xy.1 xy.2).retry.length
          if t.over then .next (gone s)
          else if full || (ancestry op.key.toNat).contains w then .next (fail s)
          else
            let s := (gone s).modCore xy.1 xy.2 fun c => { c with retry := c.retry ++ [again op] }
            .next ((s.bumpCseq op).answered op false)

/-- CELL_WITHDRAWAL (R167): a withdrawal removes its stamp's entry; the suffix is folded again at the next read. -/
def execCellWithdrawal (n : Nat) (s : State) : Outcome State Fault Refusal :=
  match s.withdrawals.find? (·.1 == n) with
  | none => .next s
  | some (_, scope, pa, key, tix, cseq) =>
    let mine := fun (e : CellEntry) => e.op.key == key && e.op.tix == tix && e.op.cseq == cseq
    let cells := s.cells.map fun h => if h.pa == pa && h.scope == scope then
      { h with entries := h.entries.filter fun e => !mine e } else h
    .next { s with withdrawals := s.withdrawals.filter (·.1 != n), cells := cells.filter fun h => !h.entries.isEmpty }

/-! ### Cell loads (R169, R170, R358) -/

/-- LDCT (R358): the fold of the last entry held, or the base value. -/
def execLdct (f : EOp BitTy) (s : State) : Outcome State Fault Refusal :=
  memIssue (.ldct f) true (fun _ _ th => areaE f th) (fun iss s =>
    (iss.each s fun s _ ln th =>
      let p := iss.cellReach s ln (areaE f th) (f.ty.bits / 8) (·.r)
      match p.1, p.2.launchOf? iss.r.tid with
      | some (a, pa), some l =>
        let x := p.2.cellFold (p.2.pageTag l a.buf) pa l.scope topKey
        p.2.addLoad iss.r th (destReg f.val) f.ty.bits (x % 2 ^ f.ty.bits) none (some p.2.loadDue) none true
      | _, _ => p.2).marked iss f.val f.ty.bits) s

/-- The fold below the task's key reaches the lanes of an LDCS, and the wave has observed the operations that it covers (R152). -/
def State.giveCells (s : State) (r : WaveRef) (reqs : List CellReq) : State :=
  match s.task? r.tid, s.launchOf? r.tid with
  | some t, some l => reqs.foldl (fun s q =>
      let s := s.observes r fun e => e.path == 3 && q.pa ≤ e.addr && e.addr < q.pa + 16
      match (s.wave? r).bind (·.thread? q.ln) with
      | some th => s.addLoad r th q.reg q.width (s.cellFold q.tag q.pa l.scope t.key.toNat % 2 ^ q.width) none (some s.loadDue) none true
      | none => s) s
  | _, _ => s

/-- One lane's LDCS: the request it makes, or the lane has parked or faulted; HISTORY in a child (R170). -/
def Iss.cellReq (iss : Iss) (f : EOp BitTy) (t : Task) (l : Launch) (q : State × List CellReq) (ln : Nat) :
    State × List CellReq :=
  let n := f.ty.bits / 8
  match (q.1.wave? iss.r).bind (·.thread? ln) with
  | some th =>
    let p := iss.cellReach q.1 ln (areaE f th) n (·.r)
    match p.1 with
    | some (a, pa) =>
      if t.key.toNat % 2 ^ 32 ≠ 0 then
        let up := BitVec.ofNat 48 (t.key.toNat / 2 ^ 32 * 2 ^ 32)
        let holder := BitVec.ofNat 48 (if (ancestry t.key.toNat).contains (p.2.watermark t.lid)
          then p.2.watermark t.lid else up.toNat)
        (p.2.raise iss.r ln (historyFlt t.key holder ln th.tix th.cseq (cellAcc n) p.2.drone), q.2)
      else (p.2, q.2 ++ [{ ln, reg := destReg f.val, width := f.ty.bits, pa, tag := p.2.pageTag l a.buf }])
    | none => (p.2, q.2)
  | none => q

/-- LDCS (R358): a wait of R84 until the watermark reaches the task's key. -/
def execLdcs (f : EOp BitTy) (s : State) : Outcome State Fault Refusal :=
  issue (.ldcs f) (fun iss s0 =>
    match s0.task? iss.r.tid, s0.launchOf? iss.r.tid, s0.wave? iss.r with
    | some t, some l, some w0 =>
      let addr := fun (_ : Wave) (_ : Nat) (th : Thread) => areaE f th
      let paid := iss.pay s0 (lanesOf iss.take).length
      if paid.1 ≠ 0 then iss.again paid.2 0 false
      else
        let r := (w0.byTix iss.take).foldl (iss.cellReq f t l) (paid.2, [])
        let s1 := r.1.marked iss f.val f.ty.bits
        let xy := s1.coreXY t iss.r.core
        if r.2.isEmpty then iss.done ((iss.sampled s0 addr (some (·.r)) false s1).flushSamples xy.1 xy.2 0)
        else if t.key.toNat ≤ s1.watermark t.lid then
          iss.done ((iss.sampled s0 addr (some (·.r)) false (s1.giveCells iss.r r.2)).flushSamples xy.1 xy.2 0)
        else
          let s1 := (iss.sampled s0 addr (some (·.r)) true s1).flushSamples xy.1 xy.2 0
          iss.waits s1 (.ldcs (maskOf (r.2.map (·.ln))) r.2)
    | _, _, _ => iss.done s0) s

/-- The sample of a wave's LDCS waits for the loads that it has begun, those from number n on. -/
def State.sampleLoads (s : State) (t : Task) (r : WaveRef) (n : Nat) : State :=
  let ids := match s.wave? r with
    | some w => (w.loads.map (·.id)).filter fun i => n ≤ i
    | none => []
  let xy := s.coreXY t r.core
  let mine := fun (p : Sample) => p.tid == r.tid && p.c == r.core && p.wix == r.wix && p.waiting
  s.modCore xy.1 xy.2 fun c => { c with samples := upd mine (fun p => { p with loads := ids, waiting := false }) c.samples }

/-- LDCS_RETURN (R169, R358). -/
def execLdcsReturn (r : WaveRef) (s : State) : Outcome State Fault Refusal :=
  match s.task? r.tid, s.wave? r with
  | some t, some w =>
    match w.wait with
    | .ldcs mask reqs =>
      if s.taskRuns t && t.key.toNat ≤ s.watermark t.lid then
        .next (((s.giveCells r reqs).sampleLoads t r s.fresh).endWait r mask)
      else .next s
    | _ => .next s
  | _, _ => .next s

end Sys2Proof.Machine
end

