-- ==== Sys2Proof/Machine/Barrier.lean ====
section
/-! DEFINITION. Barriers (R78–R83, R150, R314, R399), FENCE and FENCEX (R149, R152, R346), and the races that a closing
barrier reports (R138). -/

namespace Sys2Proof.Machine

open Host

/-! ### Groups and members (R64, R65, R67, R78) -/

/-- Width and height of a sub-polder shape; 0 is the whole polder (R65). -/
def shapeDims (k : Kernel) (shape : Nat) : Nat × Nat :=
  if shape = 0 then (k.polW, k.polH) else (2 ^ (shape % 8 - 1), 2 ^ (shape / 8 % 8 - 1))

/-- The core indices of the sub-polder of a shape that contains core c. -/
def subCores (k : Kernel) (shape c : Nat) : List Nat :=
  let d := shapeDims k shape
  let x := c % k.polW
  let y := c / k.polW
  let x0 := x - x % d.1
  let y0 := y - y % d.2
  (List.range d.2).flatMap fun j => (List.range d.1).map fun i => (y0 + j) * k.polW + x0 + i

/-- The contexts of a core: stage numbers by k.wix (R67). -/
def stageMap (stages : List StageRec) : List Nat :=
  (stages.zipIdx.map fun p => List.replicate p.1.waves p.2).flatten

def State.stagesOf (s : State) (t : Task) : List StageRec :=
  match s.launch? t.lid with | some l => l.stages t.kernel | none => []

/-- Wave contexts per core. -/
def State.wavesOf (s : State) (t : Task) : Nat := ((s.stagesOf t).map (·.waves)).sum

/-- Thread indices of the contexts of a core that a condition picks. -/
def tixOf (w c : Nat) (pick : Nat → Bool) : List Nat :=
  ((List.range w).filter pick).flatMap fun wix => (List.range 32).map fun l => (c * w + wix) * 32 + l

/-- A barrier as an instruction names it: level, id, shape, and its key on the core. -/
structure BarName where
  lvl : Level
  n : Nat
  shape : Nat
  key : Nat
deriving DecidableEq, Repr

def barKey (lvl : Level) (w : Wave) : Nat :=
  match lvl with
  | .wave => w.wix
  | .stage => w.stage
  | .core => 0
  | .polder => 0
  | .launch => 0

def Share.bar (h : Share) (b : BarName) : Bar :=
  (h.bars.find? fun x => x.lvl == b.lvl && x.n == b.n && x.key == b.key).getD { lvl := b.lvl, n := b.n, key := b.key }

def Share.modBar (h : Share) (b : BarName) (f : Bar → Bar) : Share :=
  let mine := fun (x : Bar) => x.lvl == b.lvl && x.n == b.n && x.key == b.key
  if h.bars.any mine then { h with bars := upd mine f h.bars } else { h with bars := h.bars ++ [f (h.bar b)] }

/-- The cores whose state of a barrier completes together: task, core index. -/
def State.group (s : State) (t : Task) (c : Nat) (b : BarName) : List (Nat × Nat) :=
  match b.lvl with
  | .polder => (subCores (s.kernelOf t) b.shape c).map fun i => (t.tid, i)
  | .launch => (s.tasks.filter fun u => u.lid == t.lid && u.parent.isNone).flatMap fun u =>
      (List.range ((s.kernelOf u).polW * (s.kernelOf u).polH)).map fun i => (u.tid, i)
  | .wave => [(t.tid, c)]
  | .stage => [(t.tid, c)]
  | .core => [(t.tid, c)]

/-- The members on one core of the group, by k.tix. -/
def State.membersOn (s : State) (tid c : Nat) (b : BarName) : List Nat :=
  match s.task? tid with
  | none => []
  | some t =>
    let w := s.wavesOf t
    let st := stageMap (s.stagesOf t)
    match b.lvl with
    | .wave => match s.share? tid c with | some h => (h.bar b).members | none => []
    | .stage => tixOf w c fun i => nth st i 0 == b.key
    | .core => tixOf w c fun _ => true
    | .polder => tixOf w c fun _ => true
    | .launch => tixOf w c fun _ => true

/-- Members that have not arrived. -/
def State.missing (s : State) (p : Nat × Nat) (b : BarName) : List Nat :=
  let who := match s.share? p.1 p.2 with | some h => (h.bar b).who | none => []
  (s.membersOn p.1 p.2 b).filter fun n => !who.contains n

/-- A thread stands in a bin of a task. -/
def Bin.holds (b : Bin) (tid tix : Nat) : Bool := b.tid == tid && b.entries.any fun e => e.th.tix == tix

/-- A thread of a task is live: in a context or in a bin, be it that of a save area (R70, R72, R254). -/
def State.liveTix (s : State) (tid tix : Nat) : Bool :=
  (match s.task? tid with
  | some t => t.shares.any fun h => h.waves.any fun w => (w.laneOf tix).isSome
  | none => false) || (s.cores.any fun c => c.bins.any fun b => b.holds tid tix) ||
    s.saved.any fun v => v.bins.any fun b => b.holds tid tix

/-! ### Races at the closing barrier (R138) -/

/-- Where a thread stands. -/
def State.findTix (s : State) (tid tix : Nat) : Option (WaveRef × Nat) :=
  (s.task? tid).bind fun t => t.shares.findSome? fun h => h.waves.findSome? fun w =>
    (w.laneOf tix).map fun ln => (⟨tid, h.c, w.wix⟩, ln)

/-- A thread that REFORM has filed parks in its bin. -/
def Bin.park (b : Bin) (tid tix : Nat) : Bin :=
  if b.tid == tid then { b with entries := upd (fun e => e.th.tix == tix) (fun e => { e with th := e.th.park! }) b.entries }
  else b

/-- A thread parks for good, wherever it stands: in a context, in a bin, or in a bin of a save area. -/
def State.parkTix (s : State) (tid tix : Nat) : State :=
  match s.findTix tid tix with
  | some p => s.modWave p.1 fun w => w.modLane p.2 Thread.park!
  | none => { s with cores := s.cores.map fun c => { c with bins := c.bins.map fun b => b.park tid tix }
                     saved := s.saved.map fun v => { v with bins := v.bins.map fun b => b.park tid tix } }

/-- RACE in the thread that made access x: it parks with the record; an exited thread only has the record. -/
def State.raceAt (s : State) (tid : Nat) (x y : Access) : State :=
  match s.task? tid with
  | none => s
  | some t => (s.parkTix tid x.tix).report t (raceRec t x y s.drone)

/-- Pairs whose accesses both precede a completion with this clock are reported. -/
def State.closeRaces (s : State) (tid : Nat) (k : Clock) : State :=
  match s.task? tid with
  | none => s
  | some t =>
    let hit := fun (p : Access × Access) => p.1.epoch ≤ k.get p.1.ctx && p.2.epoch ≤ k.get p.2.ctx
    let s := s.modTask tid fun t => { t with races := t.races.filter fun p => !hit p }
    (t.races.filter hit).foldl (fun s p => (s.raceAt tid p.1 p.2).raceAt tid p.2 p.1) s

/-! ### Completion (R79, R150) -/

/-- A waiting wave is released: the flags reach sK, its waiting threads go on, latches are invalid. -/
def State.release (s : State) (r : WaveRef) (bw : BarWait) (last : BitVec 5) (k : Clock) : State :=
  let code := match s.launchOf? r.tid with | some l => l.code | none => {}
  let s := s.modWave r fun w =>
    let w := match bw.dest with | some n => w.setS n (last.setWidth 32) | none => w
    let w := w.modLanes (w.still bw.mask) fun _ th => 
        code.enterRegion { th with atBar := false, pc := bw.pc + 4, replays := 0, synced := Clock.join th.synced k }
    let w := w.modLanes 0xFFFFFFFF fun _ th => { th with latch := [] }
    { w with barWaits := w.barWaits.filter (· != bw), clock := Clock.join w.clock k, since := s.free, pass := false }
  s.discardL1 r.tid r.core

/-- Completes a phase on one core of the group. -/
def State.completeOn (s : State) (p : Nat × Nat) (b : BarName) (last : BitVec 5) (k : Clock) : State :=
  match s.share? p.1 p.2 with
  | none => s
  | some h =>
    let bar := h.bar b
    let named := fun (r : ArrRec) => r.lvl == b.lvl && r.n == b.n && r.phase == bar.phase && r.done.isNone
    let inKey := fun (w : Wave) => barKey b.lvl w == b.key
    let tell := fun (w : Wave) =>
      if inKey w then { w with recs := upd named (fun r => { r with done := some last, clock := k }) w.recs } else w
    let s := s.modShare p.1 p.2 fun h => { h with waves := h.waves.map tell }
    let s := s.modShare p.1 p.2 fun h => h.modBar b fun x =>
      { x with phase := (x.phase + 1) % 2 ^ 32, arrived := [], who := [], members := [], flags := 0, shape := none, clock := [] }
    h.waves.foldl (fun s w =>
      if inKey w then (w.barWaits.filter fun bw => bw.lvl == b.lvl && bw.n == b.n && bw.phase == bar.phase).foldl
        (fun s bw => s.release ⟨p.1, p.2, w.wix⟩ bw last k) s
      else s) s

/-- What a completion orders within one task: the clocks of its arrivals (R136). -/
def State.groupClock (s : State) (g : List (Nat × Nat)) (tid : Nat) (b : BarName) : Clock :=
  ((g.filter fun p => p.1 == tid).filterMap fun p => (s.share? p.1 p.2).map fun h => (h.bar b).clock).foldl Clock.join []

/-- Every graph node of the launch has its task, as a phase at launch level needs: its members are the threads of them all
(R78). -/
def State.allAdmitted (s : State) (lid : Nat) : Bool :=
  match s.launch? lid with
  | some l => l.code.nodes.length ≤ l.admitted
  | none => true

/-- Completes the phase once every member has arrived. -/
def State.tryComplete (s : State) (tid c : Nat) (b : BarName) : State :=
  match s.task? tid with
  | none => s
  | some t =>
    let g := s.group t c b
    if (b.lvl != .launch || s.allAdmitted t.lid) && g.all (fun p => (s.missing p b).isEmpty && ((s.share? p.1 p.2).isSome)) then
      let bars := g.filterMap fun p => (s.share? p.1 p.2).map fun h => h.bar b
      let last := bars.foldl (fun f x => f ||| x.flags) 0
      let k := fun (n : Nat) => s.groupClock g n b
      let s := ((g.map (·.1)).eraseDups).foldl (fun s n => s.closeRaces n (k n)) s
      g.foldl (fun s p => s.completeOn p b last (k p.1)) s
    else s

/-- The detail of a barrier fault (R260). -/
def barDetail (b : BarName) : Nat := b.lvl.code + b.n * 16 + b.shape * 256

/-- BAREXIT in every wave that waits in a phase that a member has left without arriving (R83). -/
def State.barExits (s : State) (lid : Nat) : State :=
  (s.tasks.filter fun t => t.lid == lid && t.st == .resident).foldl (fun s t =>
    t.shares.foldl (fun s h => h.waves.foldl (fun s w => w.barWaits.foldl (fun s bw =>
      let b : BarName := ⟨bw.lvl, bw.n, bw.shape, barKey bw.lvl w⟩
      let dead := (s.group t h.c b).any fun p =>
        let out := match s.task? p.1 with | some u => u.st != .waits | none => false
        out && (s.missing p b).any fun n => !s.liveTix p.1 n
      if dead then
        let r : WaveRef := ⟨t.tid, h.c, w.wix⟩
        let s := s.raiseAll r (w.still bw.mask) { code := Flt.barexit, detail := barDetail b }
        (s.modWave r fun w => { w with barWaits := w.barWaits.filter (· != bw) }).settle t.tid
      else s) s) s) s) s

/-! ### Arrival (R79, R81, R150) -/

/-- Stores that a fence of a scope waits for (R149). -/
def fenceHeld (scope : Scope) (k : StoreKind) : Bool :=
  match scope with
  | .wave => false
  | .core => k == .core
  | .task => k == .core || k == .slice
  | .dev => k == .core || k == .slice || k == .peer
  | .sys => true

def Wave.fenced (w : Wave) (scope : Scope) : Bool := !w.stores.any fun p => fenceHeld scope p.2.1

/-- The fence that an arrival acts as (R150). -/
def arriveScope : Level → Scope
  | .wave => .wave
  | .stage => .core
  | .core => .core
  | .polder => .task
  | .launch => .dev

/-- What a completed FENCE does besides ordering. -/
def State.fenceDone (s : State) (r : WaveRef) (scope : Scope) : State :=
  match scope with
  | .wave => s
  | .core => s
  | .task => s.discardL1 r.tid r.core
  | .dev => s.discardL1 r.tid r.core
  | .sys => s.discardL1 r.tid r.core

/-- The faults of a barrier instruction: MEMBER (R65, R78, R399), BARDIV (R78, R81). Code 0 and the code of the whole
polder's own width and height name one shape (R65). -/
def State.barFault (s : State) (t : Task) (h : Share) (w : Wave) (pc : Nat) (b : BarName) (arrives : Bool) : Option Nat :=
  let k := s.kernelOf t
  let d := shapeDims k b.shape
  if (b.lvl == .polder && (k.polW < d.1 || k.polH < d.2)) || (b.lvl == .launch && (t.parent.isSome || !k.launchBar)) then
    some Flt.member
  else if b.lvl == .wave && w.maskWhere (fun th => th.park == .runs && th.pc != pc) != 0 then some Flt.bardiv
  else if b.lvl != .wave && w.maskWhere (fun th => th.park != .runs || th.pc != pc) != 0 then some Flt.bardiv
  else if arrives && b.lvl == .polder && (subCores k b.shape h.c).any (fun c => match s.share? t.tid c with
      | some g => match (g.bar b).shape with
        | some x => shapeDims k x != d
        | none => false
      | none => false) then some Flt.bardiv
  else none

/-- Records an arrival of the lanes of a mask, after what the fence of R150 does. -/
def State.arrive (s : State) (r : WaveRef) (mask : Nat) (b : BarName) : State :=
  let s := s.fenceDone r (arriveScope b.lvl)
  match s.task? r.tid, s.wave? r, s.share? r.tid r.core with
  | some t, some w, some h =>
    let ths := (lanesOf mask).filterMap w.thread?
    let bar := h.bar b
    let fresh := ths.filter fun th => !bar.who.contains th.tix
    let s := s.modShare r.tid r.core fun h => h.modBar b fun x =>
      let first := x.who.isEmpty
      { x with who := x.who ++ fresh.map (·.tix)
               members := if b.lvl == .wave && first then w.lanes.filterMap (fun o => o.map (·.tix)) else x.members
               arrived := (if x.arrived.any (·.1 == r.wix) then upd (·.1 == r.wix) (fun p => (p.1, p.2 ||| mask)) x.arrived
                 else x.arrived ++ [(r.wix, mask)])
               flags := fresh.foldl (fun f th => f ||| th.flags) x.flags
               shape := if b.lvl == .polder then some b.shape else none
               clock := Clock.join x.clock (w.given t r.core) }
    s.modWave r fun w => { w with
      recs := { lvl := b.lvl, n := b.n, shape := b.shape, phase := bar.phase, done := none, clock := [] } ::
        w.recs.filter fun x => !(x.lvl == b.lvl && x.n == b.n) }
  | _, _, _ => s

/-- The lanes of a mask wait for a phase. -/
def State.barWait (s : State) (r : WaveRef) (mask pc phase : Nat) (b : BarName) (dest : Option (Fin 16)) : State :=
  s.modWave r fun w =>
    let w := w.modLanes mask fun _ th => { th with atBar := true }
    { w with barWaits := w.barWaits ++ [{ lvl := b.lvl, n := b.n, shape := b.shape, phase, dest, mask, pc }] }

/-- The frame of a barrier instruction. DESIGN CHOICE (log 109): an arrival whose fence is not yet met holds the slot and
tries again; the slot switches away once the arrival has been recorded and the wait for the phase begins. -/
def barIssue (i : Instr) (lvl : Level) (n : Fin 16) (shape : BitVec 8) (arrives : Bool)
    (body : Iss → State → Task → Wave → BarName → Done) (s : State) : Outcome State Fault Refusal :=
  issue i (fun iss s =>
    match s.task? iss.r.tid, s.share? iss.r.tid iss.r.core, s.wave? iss.r with
    | some t, some h, some w =>
      let b : BarName := ⟨lvl, n, shape.toNat, barKey lvl w⟩
      if iss.take = 0 then iss.done s
      else
        match s.barFault t h w iss.pc b arrives with
        | some code => iss.done (s.raiseAll iss.r iss.take { code, detail := barDetail b })
        | none =>
          if arrives && !w.fenced (arriveScope lvl) then iss.again s 0 false
          else body iss s t w b
    | _, _, _ => iss.done s) s

/-- BAR (R79, R314). -/
def execBar (f : BarOp) (s : State) : Outcome State Fault Refusal :=
  barIssue (.bar f) f.lvl f.n f.shape true (fun iss s _ _ b =>
    let phase := match s.share? iss.r.tid iss.r.core with | some h => (h.bar b).phase | none => 0
    let s := (s.arrive iss.r iss.take b).barWait iss.r iss.take iss.pc phase b f.k
    let s := s.tryComplete iss.r.tid iss.r.core b
    let lid := match s.task? iss.r.tid with | some t => t.lid | none => 0
    { s := s.barExits lid, adv := 0, complete := true }) s

/-- BARA (R79, R314). -/
def execBara (f : BaraOp) (s : State) : Outcome State Fault Refusal :=
  barIssue (.bara f) f.lvl f.n f.shape true (fun iss s _ _ b =>
    let lid := match s.task? iss.r.tid with | some t => t.lid | none => 0
    iss.done (((s.arrive iss.r iss.take b).tryComplete iss.r.tid iss.r.core b).barExits lid)) s

/-- BARW (R79, R314): the phase in which this wave last arrived. DESIGN CHOICE (log 127): where that phase has completed
already, the clean lines are dropped as when a completion releases a waiting wave (R150). -/
def execBarw (f : BarOp) (s : State) : Outcome State Fault Refusal :=
  barIssue (.barw f) f.lvl f.n f.shape false (fun iss s t w b =>
    match w.recs.find? fun x => x.lvl == b.lvl && x.n == b.n with
    | none => iss.done (s.raiseAll iss.r iss.take { code := Flt.bardiv, detail := barDetail b })
    | some rec_ =>
      if shapeDims (s.kernelOf t) rec_.shape ≠ shapeDims (s.kernelOf t) b.shape then iss.done (s.raiseAll iss.r iss.take { code := Flt.bardiv, detail := barDetail b })
      else
        match rec_.done with
        | some last =>
          let s := s.modWave iss.r fun w =>
            let w := match f.k with | some n => w.setS n (last.setWidth 32) | none => w
            { w with clock := Clock.join w.clock rec_.clock }
          let s := iss.map s fun _ _ th => { th with synced := Clock.join th.synced rec_.clock }
          iss.done (s.discardL1 iss.r.tid iss.r.core)
        | none =>
          let s := s.barWait iss.r iss.take iss.pc rec_.phase b f.k
          let lid := match s.task? iss.r.tid with | some t => t.lid | none => 0
          { s := s.barExits lid, adv := 0, complete := true }) s

/-! ### Fences (R149, R152) -/

def execFence (f : FenceOp) (s : State) : Outcome State Fault Refusal :=
  issue (.fence f) (fun iss s =>
    match s.wave? iss.r with
    | none => iss.done s
    | some w =>
      if iss.take = 0 then iss.done s
      else if w.fenced f.scope then iss.done (s.fenceDone iss.r f.scope)
      else iss.waits s (.fence iss.take f.scope f.s)) s

/-- Ends a hold: with S = 0 the latches stay valid. -/
def State.endHold (s : State) (r : WaveRef) (mask : Nat) (stop : Bool) : State := s.goesOn r mask stop

/-- FENCE_COMPLETION (R149). -/
def execFenceCompletion (r : WaveRef) (s : State) : Outcome State Fault Refusal :=
  match s.wave? r with
  | some w =>
    match w.wait with
    | .fence mask scope stop => if w.fenced scope then .next ((s.fenceDone r scope).endHold r mask stop) else .next s
    | _ => .next s
  | none => .next s

/-- The wave's own lane stores are visible to the to-class paths other than lanes: nothing else that a FENCEX covers is under
way (R152, R347). -/
def Wave.fencexReady (w : Wave) (frm into : Nat) : Bool := !frm.testBit 0 || into == 1 || w.stores.isEmpty

/-- What a completed FENCEX does: the wave's covered writes become visible, and lanes in the to-mask discards the task's clean
L1 lines (R152). -/
def State.fencexDone (s : State) (r : WaveRef) (frm into : Nat) : State :=
  let show_ := showOlder frm into (r.core, r.wix)
  let s := s.modTask r.tid fun t => { t with older := show_ t.older }
  let s := s.modShare r.tid r.core fun h => { h with older := show_ h.older }
  if into.testBit 0 then s.discardL1 r.tid r.core else s

def execFencex (f : FencexOp) (s : State) : Outcome State Fault Refusal :=
  issue (.fencex f) (fun iss s =>
    match s.wave? iss.r with
    | none => iss.done s
    | some w =>
      if w.fencexReady f.frm.toNat f.into.toNat then iss.done (s.fencexDone iss.r f.frm.toNat f.into.toNat)
      else iss.waits s (.fencex iss.take f.frm.toNat f.into.toNat f.s)) s

/-- FENCEX_COMPLETION (R152). -/
def execFencexCompletion (r : WaveRef) (s : State) : Outcome State Fault Refusal :=
  match s.wave? r with
  | some w =>
    match w.wait with
    | .fencex mask frm into stop => if w.fencexReady frm into then .next ((s.fencexDone r frm into).endHold r mask stop) else .next s
    | _ => .next s
  | none => .next s

end Sys2Proof.Machine
end

