-- ==== Sys2Proof/Machine/Wave.lean ====
section
/-! DEFINITION. Cross-lane instructions (R114–R117, R265, R372, R380, R392–R395) and the system registers
(R163, R262, R385, R386). -/

namespace Sys2Proof.Machine

open Host

/-! ### Members (R265) -/

def Wave.live (w : Wave) : Nat := w.maskWhere fun _ => true

def Wave.members (w : Wave) : Mask → Nat
  | .all => w.live
  | .sreg n => (w.rs n).toNat

/-- The executing threads that raise LATCH where every one of them reads the operand of all lanes of a mask (R40, R257). -/
def Wave.unreadAll (w : Wave) (take mem width : Nat) (o : Opnd) : Nat :=
  if w.unread mem width o = 0 then 0 else take

/-- SHFL: the lane that a lane reads, and the executing threads that raise LATCH: each reads one lane's operand (R40, R380). -/
def Wave.source (w : Wave) (f : WOp (BitVec 4)) (ln : Nat) (th : Thread) : Nat :=
  let j := if f.fn = 0 then (src32 w ln th f.d).toNat % 32 else (ln ^^^ f.fn.toNat) % 32
  if (w.members f.m).testBit j then j else ln

def Wave.unreadEach (w : Wave) (take : Nat) (f : WOp (BitVec 4)) : Nat :=
  maskOf ((lanesOf take).filter fun ln => match w.thread? ln with
    | some th => w.unread (2 ^ w.source f ln th) 32 f.a != 0
    | none => false)

/-- A format W instruction: LATCH in the executing threads that read a latch with no value (log 121); MEMBER in every other
one where the mask is wrong (R265), else the body with the member lanes. -/
def waveIssue (i : Instr) (m : Mask) (bad : Wave → Nat → Nat) (body : Iss → State → Wave → Nat → State) (s : State) :
    Outcome State Fault Refusal :=
  issue i (fun iss s =>
    match s.wave? iss.r with
    | none => iss.done s
    | some w =>
      let mem := w.members m
      let p := iss.badLatch s (bad w iss.take)
      let iss := p.1
      let s := p.2
      if iss.take = 0 then iss.done s
      else if without mem w.live ≠ 0 ∨ without iss.take mem ≠ 0 then
        iss.done (s.raiseAll iss.r iss.take { code := Flt.member, detail := m.code })
      else iss.done (body iss s w mem)) s

/-- A member's operand as it stands. -/
def memberVal (w : Wave) (width ln : Nat) (o : Opnd) : Nat :=
  match w.thread? ln with
  | some th => src w ln th width o
  | none => 0

/-- SHFL (R380): func4 0 is .idx, N is .xor.N. -/
def execShfl (f : WOp (BitVec 4)) (s : State) : Outcome State Fault Refusal :=
  waveIssue (.shfl f) f.m (fun w take => w.unreadEach take f) (fun iss s w _ =>
    iss.map s fun _ ln th => th.put32 f.d false (BitVec.ofNat 32 (memberVal w 32 (w.source f ln th) f.a))) s

/-- Writes a result of WRED or VOTE: once to the wave for an s-register, else in every executing thread; it enters
their latches. -/
def Iss.putWave (iss : Iss) (s : State) (d : Opnd) (width x : Nat) (fl : Flags) : State :=
  let s := match d with
    | .s n => s.modWave iss.r fun w => w.setSs n (words (regSpan width) x)
    | _ => s
  iss.map s fun _ _ th =>
    (if width = 64 then th.put64 d false (BitVec.ofNat 64 x) else th.put32 d false (BitVec.ofNat 32 x)).flag fl

/-- VOTE (R392). -/
def execVote (f : VoteOp) (s : State) : Outcome State Fault Refusal :=
  waveIssue (.vote f) f.m (fun _ _ => 0) (fun iss s w mem =>
    let yes := w.maskWhere (fun th => th.rp f.p) &&& mem
    let x := match f.fn with
      | .ballot => yes
      | .any => if yes = 0 then 0 else 1
      | .all => if yes = mem then 1 else 0
    iss.putWave s f.d 32 x 0) s

/-- The identity of a reduction (R114). -/
def WredFn.identity : WredFn → Nat
  | .addS32 => 0
  | .addF32 => 0x80000000
  | .addF64 => 0x8000000000000000
  | .minS32 => 0x7FFFFFFF
  | .maxS32 => 0x80000000
  | .minF32 => 0x7F800000
  | .maxF32 => 0xFF800000
  | .and => 0xFFFFFFFF
  | .or => 0
  | .xor => 0

/-- One step of a reduction. -/
def WredFn.step (fn : WredFn) (a b : Nat) : Nat × Flags :=
  let x := BitVec.ofNat 32 a
  let y := BitVec.ofNat 32 b
  match fn with
  | .addS32 => ((a + b) % 2 ^ 32, 0)
  | .addF32 => Fmt.f32.add a b
  | .addF64 => Fmt.f64.add a b
  | .minS32 => ((if y.slt x then b else a), 0)
  | .maxS32 => ((if x.slt y then b else a), 0)
  | .minF32 => Fmt.f32.minmax false a b
  | .maxF32 => Fmt.f32.minmax true a b
  | .and => (a &&& b, 0)
  | .or => (a ||| b, 0)
  | .xor => (a ^^^ b, 0)

/-- One level of the tree: neighbours combine, the lower lane on the left (R115). -/
def treeLevel (f : Nat → Nat → Nat × Flags) : List Nat → List Nat × Flags
  | a :: b :: r =>
    let x := f a b
    let y := treeLevel f r
    (x.1 :: y.1, x.2 ||| y.2)
  | l => (l, 0)

def treeReduce (f : Nat → Nat → Nat × Flags) : Nat → List Nat → Nat × Flags
  | 0, l => (l.headD 0, 0)
  | n + 1, l =>
    let x := treeLevel f l
    let y := treeReduce f n x.1
    (y.1, x.2 ||| y.2)

/-- WRED (R115, R393). -/
def execWred (f : WOp WredFn) (s : State) : Outcome State Fault Refusal :=
  waveIssue (.wred f) f.m (fun w take => w.unreadAll take (w.members f.m) f.fn.bits f.a) (fun iss s w mem =>
    let terms := (List.range 32).map fun ln => if mem.testBit ln then memberVal w f.fn.bits ln f.a else WredFn.identity f.fn
    let r := treeReduce (WredFn.step f.fn) 5 terms
    iss.putWave s f.d f.fn.bits r.1 r.2) s

/-- Combination, whether exclusive. -/
def WscanFn.how : WscanFn → WredFn × Bool
  | .inclAddS32 => (.addS32, false)
  | .inclAddF32 => (.addF32, false)
  | .exclAddS32 => (.addS32, true)
  | .exclAddF32 => (.addF32, true)
  | .inclMaxF32 => (.maxF32, false)
  | .inclMaxS32 => (.maxS32, false)

/-- Inclusive prefixes from lane 0 upward, with the flags of every step (R116). -/
def scanFrom (f : Nat → Nat → Nat × Flags) (acc : Nat) : List Nat → List Nat × Flags
  | [] => ([], 0)
  | x :: r =>
    let y := f acc x
    let z := scanFrom f y.1 r
    (y.1 :: z.1, y.2 ||| z.2)

/-- All prefixes. DESIGN CHOICE (log 110): lane 0's result is x0 as it stands, with no flag, also where it is a NaN, of which
R116 gives x0 and R91 asks for the canonical one. -/
def prefixes (f : Nat → Nat → Nat × Flags) : List Nat → List Nat × Flags
  | [] => ([], 0)
  | x :: r => let z := scanFrom f x r; (x :: z.1, z.2)

/-- WSCAN (R116, R394). DESIGN CHOICE (log 129): in the exclusive form the step that adds the last lane's term gives flags
though no lane receives its result. -/
def execWscan (f : WOp WscanFn) (s : State) : Outcome State Fault Refusal :=
  waveIssue (.wscan f) f.m (fun w take => w.unreadAll take (w.members f.m) 32 f.a) (fun iss s w mem =>
    let how := WscanFn.how f.fn
    let id := WredFn.identity how.1
    let terms := (List.range 32).map fun ln => if mem.testBit ln then memberVal w 32 ln f.a else id
    let r := prefixes (WredFn.step how.1) terms
    let out := if how.2 then id :: r.1 else r.1
    iss.map s fun _ ln th => (th.put32 f.d false (BitVec.ofNat 32 (nth out ln 0))).flag r.2) s

/-- A number that orders keys as WSORT does; NaN keys come last (R395). -/
def sortKey (fn : WsortFn) (key : Nat) : Int :=
  let f := fun (up : Bool) =>
    let mag : Int := ((key % 2 ^ 31 : Nat) : Int)
    let v : Int := if key < 2 ^ 31 then mag else -mag - 1
    if 0x7F800000 < key % 2 ^ 31 then (2 ^ 33 : Int) else if up then v else -v
  match fn with
  | .ascF32 => f true
  | .descF32 => f false
  | .ascS32 => (BitVec.ofNat 32 key).toInt
  | .descS32 => -(BitVec.ofNat 32 key).toInt

/-- WSORT (R395): a stable sort of the members' (key, payload) pairs. -/
def execWsort (f : WOp WsortFn) (s : State) : Outcome State Fault Refusal :=
  waveIssue (.wsort f) f.m (fun _ _ => 0) (fun iss s w mem =>
    if without mem iss.take ≠ 0 then s.raiseAll iss.r iss.take { code := Flt.member, detail := f.m.code }
    else
      let lanes := lanesOf mem
      let pairs := lanes.map fun ln => memberVal w 64 ln f.a
      let sorted := sortBy (fun a b => sortKey f.fn (a % 2 ^ 32) < sortKey f.fn (b % 2 ^ 32)) pairs
      let out := lanes.zip sorted
      iss.map s fun _ ln th => match out.find? (·.1 == ln) with
        | some p => th.put64 f.d false (BitVec.ofNat 64 p.2)
        | none => th) s

/-- RDLANE (R372). -/
def execRdlane (f : RdlaneOp) (s : State) : Outcome State Fault Refusal :=
  issue (.rdlane f) (fun iss s =>
    match s.wave? iss.r with
    | none => iss.done s
    | some w =>
      if iss.take = 0 then iss.done s
      else if (w.thread? f.ln).isNone then
        iss.done (s.raiseAll iss.r iss.take { code := Flt.member, detail := f.ln.val })
      else
        let p := iss.badLatch s (w.unreadAll iss.take (2 ^ f.ln.val) 32 f.a)
        let iss := p.1
        let s := p.2
        let x := BitVec.ofNat 32 (memberVal w 32 f.ln f.a)
        let s := if f.w ∨ iss.take = 0 then s else s.modWave iss.r fun w => w.setS f.d x
        iss.done (iss.map s fun _ _ th => th.enter false (x.setWidth 64))) s

/-! ### System registers (R134, R163, R262, R385) -/

/-- k.ch n: the valid bit and the fill (R134). -/
def Share.chStatus (h : Share) (n : Nat) : Word :=
  match h.chans[n]? with
  | some c => if c.valid then BitVec.ofNat 32 (2 ^ 31 + (c.p - c.q)) else 0
  | none => 0

/-- A wave observes a pair of a channel (R129). -/
def Wave.observe (w : Wave) (ch p q : Nat) : Wave := { w with obs := (ch, p, q) :: w.obs.filter (·.1 != ch) }

/-- A wave observes a channel as it stands, and with its pointers what lanes of other waves have given away (R129, R132). -/
def Wave.sees (w : Wave) (ch : Nat) (c : Chan) : Wave :=
  { w.observe ch c.p c.q with chClocks := (ch, c.clock) :: w.chClocks.filter (·.1 != ch) }

/-- k.feat0 (R56). -/
def State.feat0 (s : State) : Word := if s.dev.peers.any (·.2.getLsbD 0) then 0xFF else 0x7F

/-- The value that SREAD returns. -/
def State.sysReg (s : State) (t : Task) (h : Share) (w : Wave) (ln : Nat) (th : Thread) (n : Nat) : Word :=
  let xy := s.coreXY t h.c
  let k := s.kernelOf t
  if 0x10 ≤ n ∧ n < 0x18 then w.rfmt (n - 0x10)
  else if 0x18 ≤ n ∧ n < 0x20 then w.rmc (n - 0x18)
  else if 0x30 ≤ n ∧ n < 0x40 then h.chStatus (n - 0x30)
  else match n with
    | 0x00 => BitVec.ofNat 32 ln
    | 0x01 => BitVec.ofNat 32 th.tix
    | 0x02 => BitVec.ofNat 32 w.wix
    | 0x03 => BitVec.ofNat 32 t.key.toNat
    | 0x04 => BitVec.ofNat 32 (t.key.toNat / 2 ^ 32)
    | 0x05 => th.cseq
    | 0x06 => BitVec.ofNat 32 (s.droneAt (.l1 xy.1 xy.2))
    | 0x07 => th.droneh
    | 0x08 => BitVec.ofNat 32 (h.c % k.polW)
    | 0x09 => BitVec.ofNat 32 (h.c / k.polW)
    | 0x0A => BitVec.ofNat 32 k.polW
    | 0x0B => BitVec.ofNat 32 k.polH
    | 0x0C => th.flags.setWidth 32
    | 0x0D => th.rmode.setWidth 32
    | 0x0E => h.rbfull
    | 0x20 => s.feat0
    | 0x24 => 0x03050506
    | 0x25 => BitVec.ofNat 32 (s.watermark t.lid)
    | 0x26 => BitVec.ofNat 32 (th.faults.toNat * 256 + th.lastFault.toNat)
    | _ => 0

/-- SREAD (R385): reading k.drone samples k.droneh; reading a channel status sets the observed pair. -/
def execSread (f : SreadOp) (s : State) : Outcome State Fault Refusal :=
  issue (.sread f) (fun iss s =>
    match s.task? iss.r.tid, s.share? iss.r.tid iss.r.core with
    | some t, some h =>
      let n := f.reg.toNat
      let xy := s.coreXY t iss.r.core
      let hi := BitVec.ofNat 32 (s.droneAt (.l1 xy.1 xy.2) / 2 ^ 32)
      let s1 := iss.map s fun w ln th =>
        let x := s.sysReg t h w ln th n
        let th := if n = 0x06 then { th with droneh := hi } else th
        th.put32 f.d f.w x
      let s1 := if 0x30 ≤ n ∧ iss.take ≠ 0 then
        match h.chans[n - 0x30]? with
        | some c => if c.valid then s1.modWave iss.r fun w => w.sees (n - 0x30) c else s1
        | none => s1
        else s1
      iss.done s1
    | _, _ => iss.done s) s

/-- SWRITE to a register of the thread (R95, R262, R385). -/
def Thread.sysWrite (th : Thread) (n : Nat) (x : Word) : Thread :=
  match n with
  | 0x0C => { th with flags := x.setWidth 5 }
  | 0x0D => { th with rmode := if 5 ≤ x.toNat % 8 then 0 else x.setWidth 3 }
  | 0x26 => { th with faults := BitVec.ofNat 8 (x.toNat / 256), lastFault := x.setWidth 7 }
  | _ => th

/-- SWRITE (R385): a register of the wave or of the task's core takes the lowest-k.tix thread's value. -/
def execSwrite (f : SwriteOp) (s : State) : Outcome State Fault Refusal :=
  issue (.swrite f) (fun iss s =>
    let n := f.reg.toNat
    match iss.lead s, s.wave? iss.r with
    | some (ln, th), some w =>
      let x := src32 w ln th f.a
      if n = 0x0E then iss.done (s.modShare iss.r.tid iss.r.core fun h => { h with rbfull := x })
      else if 0x10 ≤ n ∧ n < 0x18 then iss.done (s.modWave iss.r fun w => { w with fmt := putAt 0 w.fmt (n - 0x10) x })
      else if 0x18 ≤ n ∧ n < 0x20 then iss.done (s.modWave iss.r fun w => { w with mc := putAt 0 w.mc (n - 0x18) x })
      else iss.done (iss.map s fun w ln th => th.sysWrite n (src32 w ln th f.a))
    | _, _ => iss.done s) s

end Sys2Proof.Machine
end

