-- ==== Sys2Proof/Machine/Channel.lean ====
section
/-! DEFINITION. Channels (R126–R134, R322–R327): CHINIT, CHWAIT, CHADV, CHPUB, CHQRY, CHFREE and the ends of their
waits, with the frame of the commands that act once per wave (R225, R226). -/

namespace Sys2Proof.Machine

open Host

/-! ### Commands that act once per wave -/

/-- R225: what a stage's role may issue. -/
def roleAllows (role : Nat) (i : Instr) : Bool :=
  let chan := match i with
    | .chinit _ | .chwait _ | .chadv _ | .chpub _ | .chqry _ | .chfree _ | .copyw _ | .cpstat _ => true
    | _ => false
  let eng := chan || match i with
    | .copy _ | .copyt _ | .copym _ | .copyo _ | .copyx _ | .pref _ | .drop _ | .tdesc _ => true
    | _ => false
  match role with
  | 0 => eng
  | 1 => chan || match i with
    | .mres _ | .mrel _ | .mloadb _ | .mmul _ => true
    | _ => false
  | 2 => chan || match i with
    | .sca _ | .copyo _ => true
    | _ => false
  | _ => true

/-- A command (R226): nothing where no thread takes part; bad is the fault of a role that does not allow it. The body
receives the task, its share and wave, and the lowest-k.tix lane with its thread. -/
def cmdIssue (i : Instr) (bad : Flt) (body : Iss → State → Task → Share → Wave → Nat → Thread → Done) (s : State) :
    Outcome State Fault Refusal :=
  issue i (fun iss s =>
    match s.task? iss.r.tid, s.share? iss.r.tid iss.r.core, s.wave? iss.r, iss.lead s with
    | some t, some h, some w, some (ln, th) =>
      if !roleAllows (s.stageOf t w.stage).role i then iss.leadFault s bad
      else body iss s t h w ln th
    | _, _, _, _ => iss.done s) s

def Share.modChan (h : Share) (ch : Nat) (f : Chan → Chan) : Share := { h with chans := h.chans.modify ch f }

def State.modChan (s : State) (r : WaveRef) (ch : Nat) (f : Chan → Chan) : State :=
  s.modShare r.tid r.core fun h => h.modChan ch f

def chanFlt (ch : Nat) : Flt := { code := Flt.channel, detail := ch }

/-- The declared channel that a channel instruction names; CHANNEL below the kernel's count (R322). -/
def chIssue (i : Instr) (ch : Nat) (body : Iss → State → Task → Share → Wave → Nat → Thread → Chan → Done) (s : State) :
    Outcome State Fault Refusal :=
  cmdIssue i (chanFlt ch) (fun iss s t h w ln th =>
    match h.chans[ch]? with
    | some c => body iss s t h w ln th c
    | none => iss.leadFault s (chanFlt ch)) s

/-! ### CHINIT (R127, R323) -/

def mayProduce (p : ChPath) (space : Nat) : Bool :=
  match p with
  | .lanes => space ≤ 2
  | .copy => space != 2
  | .matrix => space == 2

def mayConsume (p : ChPath) (space : Nat) : Bool :=
  match p with
  | .lanes => true
  | .copy => space == 0 || space == 2
  | .matrix => space == 1 || space == 3

def Share.unobserve (h : Share) (ch : Nat) : Share :=
  { h with waves := h.waves.map fun w =>
      { w with obs := w.obs.filter (·.1 != ch), chClocks := w.chClocks.filter (·.1 != ch) } }

def execChinit (f : ChinitOp) (s : State) : Outcome State Fault Refusal :=
  chIssue (.chinit f) f.ch (fun iss s _ _ _ _ _ c =>
    if c.valid || !mayProduce f.prod c.space || !mayConsume f.cons c.space then iss.leadFault s (chanFlt f.ch)
    else
      iss.done (s.modShare iss.r.tid iss.r.core fun h => (h.modChan f.ch fun c =>
        { c with valid := true, prod := f.prod, cons := f.cons, p := 0, q := 0, part := 0, lastTag := 0, lastBytes := 0,
                 cancelled := false, clock := [] }).unobserve f.ch)) s

/-! ### CHWAIT (R236, R324) -/

/-- Raises a fault that a copy has left for the wave, in a lane; the copy's tag stands in the partner record. -/
def State.raiseHeld (s : State) (r : WaveRef) (ln : Nat) (f : HeldFault) : State :=
  match s.task? r.tid, (s.wave? r).bind (·.thread? ln) with
  | some t, some th =>
    let p : FaultRec := { code := f.code + 128, lane := ln, tix := th.tix, ordinal := f.tag, offset := 0, access := 32,
                          va := f.va, key := t.key, time := s.drone }
    let s := s.modWave r fun w => { w with held := w.held.filter (· != f) }
    s.raise r ln { code := f.code, detail := f.va, access := 32, partner := some p.bytes }
  | _, _ => s

/-- Raises the held faults that a condition picks in one lane, that of the lowest-k.tix thread that takes part (R236): the one
with the lowest tag is recorded, as one thread's instruction records one fault (R278). -/
def State.raiseHelds (s : State) (r : WaveRef) (ln : Nat) (p : HeldFault → Bool) : State :=
  match (s.wave? r).bind fun w => (sortBy (fun (a b : HeldFault) => a.tag < b.tag) (w.held.filter p)).head? with
  | some f => (s.raiseHeld r ln f).modWave r fun w => { w with held := w.held.filter fun h => !p h }
  | none => s

/-- The held faults that an instruction covers are raised in its lead thread; the other threads go on with it (R258). -/
def Iss.afterHeld (iss : Iss) (s : State) (w : Wave) (ln : Nat) (p : HeldFault → Bool) : Iss × State :=
  if w.held.any p then ({ iss with take := without iss.take (1 <<< ln) }, s.raiseHelds iss.r ln p) else (iss, s)

/-- While a wave waits with the lanes of a mask, covered faults that have come to be held are raised in the lowest-k.tix
lane that still runs; what is left of the mask, and the wait that it goes on with. -/
def State.heldInWait (s : State) (r : WaveRef) (mask : Nat) (p : HeldFault → Bool) (wait : Nat → Wait) : Nat × State :=
  match s.wave? r with
  | some w =>
    match w.held.any p, (w.byTix (w.still mask)).head? with
    | true, some ln =>
      let left := without mask (1 <<< ln)
      (left, (s.raiseHelds r ln p).modWave r fun w => { w with wait := wait left })
    | _, _ => (mask, s)
  | none => (mask, s)

/-- No thread of a mask still runs. -/
def State.noneStill (s : State) (r : WaveRef) (mask : Nat) : Bool :=
  match s.wave? r with | some w => w.still mask == 0 | none => true

/-- Whether a channel holds the published or free bytes that are waited for. -/
def Chan.holds (c : Chan) (bytes : Nat) (free : Bool) : Bool :=
  if free then bytes + c.p ≤ c.q + c.size else c.q + bytes ≤ c.p

/-- Engine work that has raised a channel's Q on the wave's core: the wave's CHWAIT on the channel observes it complete
(R152). -/
def State.chanSeen (s : State) (r : WaveRef) (ch : Nat) (e : Older) : Bool :=
  let flies := s.cores.any fun c => c.copies.any fun q => q.any fun k =>
    k.tid == r.tid && (k.core, k.wix) == e.wave && k.tag == e.tag
  e.ch == some ch && e.wave.1 == r.core && (e.path != 1 || !flies)

def execChwait (f : ChwaitOp) (s : State) : Outcome State Fault Refusal :=
  chIssue (.chwait f) f.ch (fun iss s _ _ w ln th c =>
    let n := src w ln th 32 f.n * c.elem
    if !c.valid || c.size < n then iss.leadFault s (chanFlt f.ch)
    else
      let q := iss.afterHeld s w ln (·.ch == f.ch.val)
      if q.1.take = 0 then q.1.done q.2
      else if c.holds n f.free then q.1.done ((q.2.observes iss.r (q.2.chanSeen iss.r f.ch)).modWave iss.r fun w => w.sees f.ch c)
      else q.1.waits q.2 (.chwait q.1.take f.ch n f.free)) s

/-- CHWAIT_RETURN (R324): the condition holds, or a copy into the channel has faulted (R236). -/
def execChwaitReturn (r : WaveRef) (s : State) : Outcome State Fault Refusal :=
  match s.task? r.tid, s.share? r.tid r.core, s.wave? r with
  | some t, some h, some w =>
    match w.wait with
    | .chwait mask ch n free =>
      if !s.taskRuns t then .next s
      else
        let q := s.heldInWait r mask (·.ch == ch) fun m => .chwait m ch n free
        match h.chans[ch]? with
        | some c =>
          if q.2.noneStill r q.1 then .next (q.2.endWait r q.1)
          else if c.valid && c.holds n free then .next (((q.2.observes r (q.2.chanSeen r ch)).modWave r fun w => w.sees ch c).endWait r q.1)
          else .next (q.2.settle r.tid)
        | none => .next s
    | _ => .next s
  | _, _, _ => .next s

/-! ### CHADV, CHPUB, CHQRY, CHFREE (R130, R133, R325–R327) -/

/-- Loads of the wave from a channel's region are under way. -/
def Wave.loadsFrom (w : Wave) (c : Chan) : Bool :=
  w.loads.any fun d => match d.region with
    | some (space, off, n) => space == c.space && off < c.base + c.size && c.base < off + n
    | none => false

/-- The matrix engine keeps nothing more of rows whose records the consumer has passed (R223). -/
def State.passRows (s : State) (t : Task) (c ch q : Nat) : State :=
  let xy := s.coreXY t c
  s.modCore xy.1 xy.2 fun k =>
    if k.matrix.holder == some t.tid then
      { k with matrix := { k.matrix with metas := k.matrix.metas.filter fun m => !(m.ch == ch && m.pos + 8192 ≤ q) } }
    else k

/-- What a channel has to give once a wave has moved a pointer of it: what it gave before, what the wave has seen of it, and
the wave's accesses so far (R132, R325). -/
def Wave.gives (w : Wave) (t : Task) (core ch : Nat) (c : Chan) : Clock :=
  Clock.join (Clock.join c.clock (((w.chClocks.find? (·.1 == ch)).map (·.2)).getD [])) (w.given t core)

/-- CHADV: the consumer pointer, bound by P′, after the wave's own loads from the region. -/
def execChadv (f : ChnOp) (s : State) : Outcome State Fault Refusal :=
  chIssue (.chadv f) f.ch (fun iss s t _ w ln th c =>
    let n := src w ln th 32 f.n * c.elem
    let seen := w.seen f.ch
    if !c.valid || c.cons != .lanes || seen.1 < c.q + n then iss.leadFault s (chanFlt f.ch)
    else if n ≠ 0 && w.loadsFrom c then iss.again s 0 false
    else if n = 0 then iss.done s
    else
      let given := w.gives t iss.r.core f.ch c
      let s := s.modChan iss.r f.ch fun c => { c with q := c.q + n, clock := given }
      let s := s.passRows t iss.r.core f.ch (c.q + n)
      iss.done (s.modWave iss.r fun w => w.observe f.ch seen.1 (c.q + n))) s

/-- A wave with a greater k.wix has published to the channel in this cycle: the CHPUBs of one cycle are applied in ascending
k.wix, so another one comes in a later cycle (R335). -/
def Chan.pubLater (c : Chan) (now wix : Nat) : Bool := c.pub.any fun p => p.1 == now / Config.coreCycle && wix < p.2

/-- CHPUB: the producer pointer, bound by Q′; the wave's stores are performed in the core when they issue. -/
def execChpub (f : ChnOp) (s : State) : Outcome State Fault Refusal :=
  chIssue (.chpub f) f.ch (fun iss s t _ w ln th c =>
    let n := src w ln th 32 f.n * c.elem
    let seen := w.seen f.ch
    if c.pubLater s.now iss.r.wix then iss.again s 0 false
    else if !c.valid || c.prod != .lanes || seen.2 + c.size < c.p + n then iss.leadFault s (chanFlt f.ch)
    else if n = 0 then iss.done s
    else
      let given := w.gives t iss.r.core f.ch c
      let s := s.modChan iss.r f.ch fun c => { c with p := c.p + n, clock := given, pub := some (s.now / Config.coreCycle, iss.r.wix) }
      iss.done (s.modWave iss.r fun w => w.observe f.ch (c.p + n) seen.2)) s

/-- Gives every executing lane the same loaded word. -/
def Iss.loadAll (iss : Iss) (s : State) (d : Opnd) (x : Word) : State :=
  (iss.each s fun s _ _ th => s.addLoad iss.r th (destReg d) 32 x.toNat none none).marked iss d 32

def execChqry (f : ChqryOp) (s : State) : Outcome State Fault Refusal :=
  chIssue (.chqry f) f.ch (fun iss s _ h _ _ _ c =>
    let s := if c.valid then s.modWave iss.r fun w => w.sees f.ch c else s
    iss.done (iss.loadAll s f.d (h.chStatus f.ch))) s

/-- An engine command that names a channel of a task's core is in flight (R133). -/
def State.engineNames (s : State) (t : Task) (c ch : Nat) : Bool :=
  let copies := s.cores.any fun k => k.copies.any fun q => q.any fun m =>
    m.tid == t.tid && m.ch == ch && m.dests.any (·.1 == c)
  let xy := s.coreXY t c
  let m := (s.core xy.1 xy.2).matrix
  copies || (m.holder == some t.tid && m.queue.any fun q => match q with
    | .load _ a b _ _ _ _ => a == ch || b == ch
    | .mul _ a b d _ _ _ _ _ _ => a == ch || b == ch || d == ch)

/-- The channel becomes plain space; records of the matrix engine in it are gone. -/
def State.freeChan (s : State) (r : WaveRef) (ch : Nat) : State :=
  match s.task? r.tid with
  | some t =>
    let xy := s.coreXY t r.core
    let s := s.modShare r.tid r.core fun h => (h.modChan ch fun c => { c with valid := false, p := 0, q := 0, part := 0, clock := [] }).unobserve ch
    s.modCore xy.1 xy.2 fun k =>
      if k.matrix.holder == some r.tid then { k with matrix := { k.matrix with metas := k.matrix.metas.filter (·.ch != ch) } }
      else k
  | none => s

def execChfree (f : ChOp) (s : State) : Outcome State Fault Refusal :=
  chIssue (.chfree f) f.ch (fun iss s t _ _ _ _ c =>
    if !c.valid then iss.leadFault s (chanFlt f.ch)
    else if s.engineNames t iss.r.core f.ch then iss.waits s (.chfree iss.take f.ch)
    else iss.done (s.freeChan iss.r f.ch)) s

/-- CHFREE_RETURN (R133). -/
def execChfreeReturn (r : WaveRef) (s : State) : Outcome State Fault Refusal :=
  match s.task? r.tid, s.wave? r with
  | some t, some w =>
    match w.wait with
    | .chfree mask ch => if !s.taskRuns t || s.engineNames t r.core ch then .next s else .next ((s.freeChan r ch).endWait r mask)
    | _ => .next s
  | _, _ => .next s

end Sys2Proof.Machine
end

