-- ==== Sys2Proof/Machine/Control.lean ====
section
/-! DEFINITION. Control transfers (R28, R318, R321, R352, R353, R374), YIELD, EXIT, TRAP and BKPT (R263, R264, R317,
R343, R397), REFORM with its bins (R72, R73, R373), the watchdog (R85) and stage shares (R76). -/

namespace Sys2Proof.Machine

open Host

/-! ### Transfers -/

/-- The checks of R28 on a target. -/
def badTarget (size : Nat) (t : Int) : Bool := t < 0 || t % 2 != 0 || (size : Int) ≤ t

def State.codeSize (s : State) (tid : Nat) : Nat := match s.launchOf? tid with | some l => l.code.size | none => 0

/-- Each executing thread goes to its target, if it has one, or takes FETCH and stays; f also changes the thread. -/
def transfer (i : Instr) (target : Iss → Thread → Option Int) (f : Iss → Thread → Thread) (s : State) :
    Outcome State Fault Refusal :=
  issue i (fun iss s =>
    let size := s.codeSize iss.r.tid
    let bad := iss.faults s fun _ _ th => match target iss th with
      | some t => if badTarget size t then some { code := Flt.fetch, detail := (BitVec.ofInt 32 t).toNat } else none
      | none => none
    let s := iss.raiseList s bad
    let go := without iss.take (maskOf (bad.map Prod.fst))
    let iss2 : Iss := { iss with take := go }
    let s := iss2.map s fun _ _ th => match target iss th with
      | some t => { f iss th with pc := t.toNat, replays := 0 }
      | none => { th with pc := iss.pc + 4, replays := 0 }
    { s, adv := without iss.front iss.take, complete := true }) s

/-- BR (R318). -/
def execBr (f : BrOp) (s : State) : Outcome State Fault Refusal :=
  transfer (.br f) (fun iss th => if th.rp f.p != f.neg then some ((iss.pc : Int) + 2 * f.off.toInt) else none)
    (fun _ th => th) s

/-- JMP (R352). -/
def execJmp (f : JOp) (s : State) : Outcome State Fault Refusal :=
  transfer (.jmp f) (fun iss _ => some ((iss.pc : Int) + 2 * f.off.toInt)) (fun _ th => th) s

/-- CALL (R321): a7 takes the return offset. -/
def execCall (f : JOp) (s : State) : Outcome State Fault Refusal :=
  transfer (.call f) (fun iss _ => some ((iss.pc : Int) + 2 * f.off.toInt))
    (fun iss th => th.setA 7 (BitVec.ofNat 72 (iss.pc + 4))) s

/-- RET (R374). A nonzero bit above 31 makes the target fail. -/
def execRet (f : GOp) (s : State) : Outcome State Fault Refusal :=
  transfer (.ret f) (fun _ th => some ((th.ra 7).toNat : Int)) (fun _ th => th) s

/-- JMPI (R353). -/
def execJmpi (f : ArOp) (s : State) : Outcome State Fault Refusal :=
  transfer (.jmpi f) (fun _ th => some ((th.ra f.ar).toNat : Int)) (fun _ th => th) s

/-! ### YIELD, EXIT, TRAP, BKPT -/

/-- YIELD (R397): the slot switches; every thread at the frontier goes on. -/
def execYield (f : GOp) (s : State) : Outcome State Fault Refusal := issue (.yield f) (fun iss s => iss.done s) s

/-- EXIT (R343): the executing threads end, with their loads and pending marks; BAREXIT follows where their barriers can
no longer complete (R83). -/
def execExit (f : GOp) (s : State) : Outcome State Fault Refusal :=
  issue (.exit f) (fun iss s =>
    match s.task? iss.r.tid, s.wave? iss.r with
    | some t, some w =>
      let ths := (lanesOf iss.take).filterMap w.thread?
      let s := s.modLaunch t.lid fun l => { l with flags := ths.foldl (fun fl th => fl ||| th.flags) l.flags }
      let s := (s.loseLoads iss.r (ths.map (·.tix))).modWave iss.r fun w => { w.dropMarks iss.take with
        lanes := w.lanes.zipIdx.map fun p => if iss.take.testBit p.2 then none else p.1 }
      { s := s.barExits t.lid, adv := without iss.front iss.take, complete := true }
    | _, _ => iss.done s) s

/-- TRAP (R263). -/
def execTrap (f : TrapOp) (s : State) : Outcome State Fault Refusal :=
  issue (.trap f) (fun iss s => iss.done (s.raiseAll iss.r iss.take { code := Flt.trap, detail := f.n.toNat })) s

def State.debug (s : State) (p : Nat) : Debug := ((s.dev.debug).find? (·.p == p)).getD { p }

def State.modDebug (s : State) (p : Nat) (f : Debug → Debug) : State :=
  let d := s.dev.debug
  { s with dev := { s.dev with debug := if d.any (·.p == p) then upd (·.p == p) f d else d ++ [f { p }] } }

/-- Every wave of a launch that waits stops in its wait; the others stop at their next safe point (R264). -/
def State.stopLaunch (s : State) (lid : Nat) : State :=
  let s := s.modLaunch lid fun l => { l with stopReq := true }
  let stop := fun (w : Wave) => if !w.stopped && (w.wait.switched || w.blocked) then { w with stopped := true, atSafe := false, pass := false } else w
  { s with tasks := s.tasks.map fun t => if t.lid == lid then
      { t with shares := t.shares.map fun h => { h with waves := h.waves.map stop } } else t }

/-- The launches that run in a partition, reruns among them. -/
def State.launchesIn (s : State) (p : Nat) : List Launch := s.launches.filter fun l => l.part == p && l.st == .running

/-- A stop request acts on all that runs in a partition (R264). -/
def State.stopIn (s : State) (p : Nat) : State := (s.launchesIn p).foldl (fun s l => s.stopLaunch l.lid) s

/-- BKPT (R263, R264): a debug stop where debugging is enabled, S = 1 and the PC is a safe point; a wave that has
stopped at it executes it as a no-op and counts it; otherwise the fatal fault. -/
def execBkpt (f : GOp) (s : State) : Outcome State Fault Refusal :=
  issue (.bkpt f) (fun iss s =>
    match s.launchOf? iss.r.tid, s.wave? iss.r with
    | some l, some w =>
      if (s.debug l.part).enable && f.s && (safeAt l.code iss.pc).isSome then
        if w.pass then iss.done (iss.map s fun _ _ th => th.count Flt.bkpt)
        else
          let s := (s.modWave iss.r fun w => { w with stopped := true, atSafe := true }).stopIn l.part
          { s, adv := 0, complete := false }
      else iss.done (s.raiseAll iss.r iss.take { code := Flt.bkpt })
    | _, _ => iss.done s) s

/-! ### REFORM (R72, R73, R373) -/

/-- Files one thread; none where every bin is taken. -/
def fileBin (bins : List Bin) (tid c stage pc now : Nat) (e : BinEntry) : Option (List Bin) :=
  let mine := fun (b : Bin) => b.tid == tid && b.c == c && b.stage == stage && b.pc == pc && b.entries.length < Config.binEntries
  match bins.findIdx? mine with
  | some i => some (bins.modify i fun b => { b with entries := b.entries ++ [e] })
  | none =>
    if bins.length < Config.bins then some (bins ++ [{ tid, c, stage, pc, filed := now, entries := [e] }]) else none

/-- Files the thread of a lane at the instruction behind the REFORM, with no pending mark (R373), or counts it in k.rbfull
and lets it go on. -/
def State.fileThread (s : State) (t : Task) (r : WaveRef) (stage pc : Nat) (ln : Nat) : State :=
  match s.wave? r, (s.wave? r).bind (·.thread? ln) with
  | some w, some th =>
    let xy := s.coreXY t r.core
    let next := (s.codeOf t.tid).enterRegion { th with pc := pc + 4, latch := [], replays := 0 }
    let e : BinEntry := { th := next, clock := t.filed th.tix }
    match fileBin (s.core xy.1 xy.2).bins t.tid r.core stage (pc + 4) s.now e with
    | some bins =>
      (s.modCore xy.1 xy.2 fun c => { c with bins }).modWave r fun w =>
        { w.dropMarks (1 <<< ln) with lanes := w.lanes.zipIdx.map fun p => if p.2 == ln then none else p.1 }
    | none =>
      (s.modShare r.tid r.core fun h => { h with rbfull := if h.rbfull = 0xFFFFFFFF then h.rbfull else h.rbfull + 1 }).modWave
        r fun w => w.modLane ln fun th => { th with pc := pc + 4, replays := 0 }
  | _, _ => s

/-- The lowest k.tix of a wave's live threads. -/
def Wave.lowTix (w : Wave) : Nat := (w.lanes.filterMap fun l => l.map (·.tix)).foldl min 65536

/-- A wave that cannot reach a REFORM of its own: no thread of it runs or waits for a page (R70). -/
def Wave.filesNone (w : Wave) : Bool := w.frontier.isNone && w.maskWhere (fun th => th.park != .runs && th.park != .fatal) == 0

/-- In cooperative mode the grouping depends on the program alone (R74, R77): the waves of a stage on a core file in ascending
lowest k.tix. DESIGN CHOICE (log 122): a REFORM waits for the waves of its stage with lower indices, those at a barrier
included while another wave of the task can still release them. -/
def State.mayFile (s : State) (t : Task) (h : Share) (w : Wave) : Bool :=
  let det := match s.launchOf? t.tid with | some l => l.det | none => false
  let lower := h.waves.filter fun v => v.stage == w.stage && v.live != 0 && v.lowTix < w.lowTix
  let stuck := t.shares.all fun g => g.waves.all fun v => (g.c == h.c && v.wix == w.wix) || v.filesNone || v.wait == .retry 11 true
  !det || lower.all fun v => v.filesNone && (v.barWaits.isEmpty || stuck)

/-- REFORM waits for the wave's loads, then files the executing threads in ascending k.tix. -/
def execReform (f : GOp) (s : State) : Outcome State Fault Refusal :=
  issue (.reform f) (fun iss s =>
    match s.task? iss.r.tid, s.wave? iss.r, s.share? iss.r.tid iss.r.core with
    | some t, some w, some h =>
      if !w.loads.isEmpty then iss.again s 8 true
      else if iss.take != 0 && !s.mayFile t h w then iss.again s 11 true
      else
        let s := (w.byTix iss.take).foldl (fun s ln => s.fileThread t iss.r w.stage iss.pc ln) s
        { s, adv := without iss.front iss.take, complete := true }
    | _, _, _ => iss.done s) s

/-- A wave that blocks a bin's drain no longer: blocked or free, and at no wait but a barrier (R73). -/
def Wave.binIdle (w : Wave) : Bool := w.blocked && w.wait == .none

def State.binEligible (s : State) (b : Bin) : Bool :=
  let det := match s.launchOf? b.tid with | some l => l.det | none => false
  Config.binEntries ≤ b.entries.length || (!det && b.filed + 256 * Config.coreCycle ≤ s.now) ||
    (match s.share? b.tid b.c with
    | some h => h.waves.all fun w => w.stage != b.stage || w.binIdle
    | none => false)

def Bin.lowTix (b : Bin) : Nat := (b.entries.map (·.th.tix)).foldl min 65536

/-- A wave's copies are in flight: its context stays held when its last thread has left (R359). -/
def State.copiesFly (s : State) (t : Task) (c wix : Nat) : Bool :=
  (s.cores? t c).copies.any fun q => q.any fun k => k.tid == t.tid && k.core == c && k.wix == wix

/-- Free lanes that a bin's threads take: a free context whole, else the free lanes of all contexts (R73). -/
def Share.freeLanes (h : Share) (stage : Nat) (held : Nat → Bool) : List (Nat × Nat) :=
  let ws := sortBy (fun (a b : Wave) => a.wix < b.wix) (h.waves.filter (·.stage == stage))
  let all := fun (w : Wave) => (List.range 32).filterMap fun ln =>
    if (w.thread? ln).isNone then some (w.wix, ln) else none
  match ws.find? fun w => w.live == 0 && !held w.wix with
  | some w => all w
  | none => ws.flatMap all

/-- Bins that drain in one cycle do so in ascending PC, then in ascending lowest k.tix (R73). -/
def Bin.before (a b : Bin) : Bool := a.pc < b.pc || (a.pc == b.pc && a.lowTix < b.lowTix)

/-- A bin's threads take their lanes, in ascending k.tix. -/
def State.drainBin (s : State) (x y : Nat) (b : Bin) : State :=
  match s.task? b.tid, s.share? b.tid b.c with
  | some t, some h =>
    let es := sortBy (fun (p q : BinEntry) => p.th.tix < q.th.tix) b.entries
    let s := s.modCore x y fun c => { c with bins := c.bins.filter (· != b) }
    (es.zip (h.freeLanes b.stage (s.copiesFly t b.c))).foldl (fun s p =>
      s.modWave ⟨b.tid, b.c, p.2.1⟩ fun w =>
        { w.joinMarks p.2.2 with clock := Clock.join w.clock p.1.clock, since := s.free
                                 lanes := w.lanes.zipIdx.map fun q => if q.2 == p.2.2 then some p.1.th else q.1 }) s
  | _, _ => s

/-- The bins of a core that drain now, in their order. -/
def State.dueBins (s : State) (x y : Nat) : List Bin :=
  let runs := fun (b : Bin) => match s.task? b.tid with | some t => s.taskRuns t | none => false
  sortBy Bin.before ((s.core x y).bins.filter fun b => runs b && s.binEligible b)

/-- BIN_DRAIN (R73): the bins of a core that are eligible in this cycle drain, in their order, where bin n is one of them. -/
def execBinDrain (x y n : Nat) (s : State) : Outcome State Fault Refusal :=
  match (s.core x y).bins[n]? with
  | none => .next s
  | some b =>
    if (s.dueBins x y).contains b then .next ((s.dueBins x y).foldl (fun s b => s.drainBin x y b) s) else .next s

/-! ### The watchdog and stage shares (R76, R85) -/

/-- WATCHDOG in the wave that a slot runs, where the slot's count has reached its limit; the wave leaves the slot, and its
task may stop (R85). -/
def State.bark (s : State) (x y slot : Nat) : State :=
  match (s.core x y).slots[slot]? with
  | none => s
  | some sl =>
    match sl.running with
    | none => s
    | some r =>
      match (s.wave? r).bind (·.frontier), s.task? r.tid with
      | none, _ => s
      | _, none => s
      | some (_, front), some t =>
        if sl.limit = 0 ∨ sl.count < sl.limit ∨ s.taskRuns t = false then s
        else ((s.raiseAll r front { code := Flt.watchdog }).leaveSlot r false).settle r.tid

/-- WATCHDOG (R85). -/
def execWatchdog (x y slot : Nat) (s : State) : Outcome State Fault Refusal := .next (s.bark x y slot)

/-- Whether a stage's input channel is empty or its output channel full; a role's channels are those of its path. -/
def starved (h : Share) (role : Nat) : Bool :=
  let path : ChPath := match role with
    | 0 => .copy
    | 1 => .matrix
    | _ => .lanes
  h.chans.any fun c => c.valid && ((c.cons == path && c.p == c.q) || (c.prod == path && c.p == c.q + c.size))

/-- SHARE_REASSIGN (R76). -/
def execShareReassign (x y : Nat) (s : State) : Outcome State Fault Refusal :=
  let smallest := s.tasks.flatMap fun t => t.shares.flatMap fun h =>
    if t.st == .resident && s.coreXY t h.c == (x, y) then
      ((s.stagesOf t).zipIdx.filter fun p => starved h p.1.role).map fun p => (t.tid, p.2)
    else []
  .next (s.modCore x y fun c => { c with smallest })

end Sys2Proof.Machine
end

