-- ==== Sys2Proof/Machine/Convert.lean ====
section
/-! DEFINITION. The meanings of the CVT group (R95–R98, R101–R103, R333, R334). -/

namespace Sys2Proof.Machine

open Host

/-- A conversion of one 32-bit source into a 32-bit result. -/
def cvt32 (i : Instr) (f : CvtOp) (op : Round → Nat → Nat × Flags) (s : State) : Outcome State Fault Refusal :=
  perThread i (fun w ln th => th.putF32 f.d false (op (cvtRound w th f.r 0) (src w ln th 32 f.a))) s

/-- Two binary32 values of a pair into a packed register; element j draws with counter k.tix + 0x10000 × j. -/
def cvtPair (i : Instr) (f : CvtOp) (dst : Fmt) (s : State) : Outcome State Fault Refusal :=
  perThread i (fun w ln th =>
    let a := src w ln th 64 f.a
    let lo := cvtNarrow .f32 dst (cvtRound w th f.r 0) (a % 2 ^ 32)
    let hi := cvtNarrow .f32 dst (cvtRound w th f.r 1) (a / 2 ^ 32)
    th.putF32 f.d false (lo.1 + 65536 * hi.1, lo.2 ||| hi.2)) s

/-- One packed element to binary32. -/
def cvtElem (i : Instr) (f : CvtSelOp Bool) (fmt : Fmt) (s : State) : Outcome State Fault Refusal :=
  perThread i (fun w ln th =>
    let a := src w ln th 32 f.a
    th.putF32 f.d false (cvtWiden fmt .f32 (if f.sel then a / 65536 else a % 65536))) s

def execCvtF32D (f : CvtOp) (s : State) : Outcome State Fault Refusal :=
  perThread (.cvtF32D f) (fun w ln th =>
    th.putF32 f.d false (cvtNarrow .f64 .f32 (cvtRound w th f.r 0) (src w ln th 64 f.a))) s

def execCvtDF32 (f : CvtOp) (s : State) : Outcome State Fault Refusal :=
  perThread (.cvtDF32 f) (fun w ln th => th.putF64 f.d false (cvtWiden .f32 .f64 (src w ln th 32 f.a))) s

def execCvtB16F32 (f : CvtOp) (s : State) : Outcome State Fault Refusal := cvtPair (.cvtB16F32 f) f .bf16 s
def execCvtH16F32 (f : CvtOp) (s : State) : Outcome State Fault Refusal := cvtPair (.cvtH16F32 f) f .f16 s
def execCvtF32B16 (f : CvtSelOp Bool) (s : State) : Outcome State Fault Refusal := cvtElem (.cvtF32B16 f) f .bf16 s
def execCvtF32H16 (f : CvtSelOp Bool) (s : State) : Outcome State Fault Refusal := cvtElem (.cvtF32H16 f) f .f16 s

def execCvtS32F32 (f : CvtOp) (s : State) : Outcome State Fault Refusal :=
  cvt32 (.cvtS32F32 f) f (fun md x => Fmt.f32.toInt md true 32 x) s
def execCvtZ32F32 (f : CvtOp) (s : State) : Outcome State Fault Refusal :=
  cvt32 (.cvtZ32F32 f) f (fun md x => Fmt.f32.toInt md false 32 x) s
def execCvtF32S32 (f : CvtOp) (s : State) : Outcome State Fault Refusal :=
  cvt32 (.cvtF32S32 f) f (fun md x => Fmt.f32.ofInt md (sext 32 x)) s
def execCvtF32Z32 (f : CvtOp) (s : State) : Outcome State Fault Refusal :=
  cvt32 (.cvtF32Z32 f) f (fun md x => Fmt.f32.ofInt md x) s

def execCvtS64D (f : CvtOp) (s : State) : Outcome State Fault Refusal :=
  perThread (.cvtS64D f) (fun w ln th =>
    th.putF64 f.d false (Fmt.f64.toInt (cvtRound w th f.r 0) true 64 (src w ln th 64 f.a))) s

def execCvtDS64 (f : CvtOp) (s : State) : Outcome State Fault Refusal :=
  perThread (.cvtDS64 f) (fun w ln th =>
    th.putF64 f.d false (Fmt.f64.ofInt (cvtRound w th f.r 0) (sext 64 (src w ln th 64 f.a)))) s

/-- FORMAT in each thread that takes part where k.fmt n is not a usable n8 format (R101, R260). -/
def fmtFault (w : Wave) (n : Nat) : Option Flt :=
  if nfmtOk 2 (w.rfmt n) then none else some { code := Flt.format, detail := n }

/-- Four elements of a quad into the bytes of one register, flags ORed. -/
def fourBytes (op : Nat → Nat → Nat × Flags) (a : Nat) : Nat × Flags :=
  (List.range 4).foldl (fun acc j =>
    let r := op j (a / 2 ^ (32 * j) % 2 ^ 32)
    (acc.1 + r.1 * 2 ^ (8 * j), acc.2 ||| r.2)) (0, 0)

def execCvtN8F32 (f : CvtSelOp (Fin 4)) (s : State) : Outcome State Fault Refusal :=
  issue (.cvtN8F32 f) (fun iss s => iss.done (iss.checkedMap s (fun w _ _ => fmtFault w f.sel) fun w ln th =>
    let nf := NFmt.of (w.rfmt f.sel)
    th.putF32 f.d false (fourBytes (fun j x => nf.conv (cvtRound w th f.r j) (Fmt.f32.unpack x))
      (src w ln th 128 f.a)))) s

def execCvtF32N8 (f : CvtSelOp (Fin 4)) (s : State) : Outcome State Fault Refusal :=
  issue (.cvtF32N8 f) (fun iss s => iss.done (iss.checkedMap s (fun w _ _ => fmtFault w f.sel) fun w ln th =>
    th.putF32 f.d false ((NFmt.of (w.rfmt f.sel)).toF32 (src w ln th 32 f.a % 256)))) s

/-- R98: anything in s12 [31:16] raises FORMAT. -/
def q8Fault (w : Wave) : Option Flt := if (w.rs 12).toNat / 65536 = 0 then none else some { code := Flt.format }

def q8Scale (w : Wave) : Nat := (w.rs 12).toNat % 256
def q8Zero (w : Wave) : Int := sext 8 ((w.rs 12).toNat / 256)

def execCvtQ8F32 (f : CvtOp) (s : State) : Outcome State Fault Refusal :=
  issue (.cvtQ8F32 f) (fun iss s => iss.done (iss.checkedMap s (fun w _ _ => q8Fault w) fun w ln th =>
    th.putF32 f.d false (fourBytes (fun j x => quantise (cvtRound w th f.r j) (q8Scale w) (q8Zero w) x)
      (src w ln th 128 f.a)))) s

/-- The 128-bit result enters no latch (R333). -/
def execCvtF32Q8 (f : CvtOp) (s : State) : Outcome State Fault Refusal :=
  issue (.cvtF32Q8 f) (fun iss s => iss.done (iss.checkedMap s (fun w _ _ => q8Fault w) fun w ln th =>
    let a := src w ln th 32 f.a
    let ws := (List.range 4).map fun j => BitVec.ofNat 32 (dequantise (q8Scale w) (q8Zero w) (a / 2 ^ (8 * j) % 256))
    match f.d with
    | .v n => th.setVs n ws
    | _ => th)) s

end Sys2Proof.Machine
end

