-- ==== Sys2Proof/Machine/CopyEngine.lean ====
section
/-! DEFINITION. The copy engine (R214, R232–R237, R328–R330, R332, R341, R369, R389): COPY, COPYT, COPYM, COPYO, COPYW,
COPYX, PREF, DROP, TDESC, CPSTAT and the engine's own steps. -/

namespace Sys2Proof.Machine

open Host

/-! ### Descriptors (R234) -/

structure Dim where
  extent : Nat
  stride : Int
  box : Nat
deriving DecidableEq, Repr

def dimsOf (d : List Byte) (r : Nat) : List Dim :=
  (List.range r).map fun i =>
    let p := d.drop (0x20 + 14 * i)
    ⟨num (p.take 4), sext 64 (num ((p.drop 4).take 8)), num ((p.drop 12).take 2)⟩

def descLog (d : List Byte) : Nat := num ((d.drop 9).take 1)
def descRank (d : List Byte) : Nat := num ((d.drop 10).take 1)
def descBox (d : List Byte) : Nat := num ((d.drop 12).take 4)

/-- The 256 bytes keep the rules of R234. -/
def descOk (d : List Byte) : Bool :=
  let r := descRank d
  let dims := dimsOf d r
  descLog d ≤ 4 && 1 ≤ r && r ≤ 16 && num ((d.drop 11).take 1) == 0 && num ((d.drop 16).take 16) == 0 &&
    descBox d != 0 && descBox d % 64 == 0 && dims.all (fun m => 1 ≤ m.extent && 1 ≤ m.box) &&
    dims.foldl (fun n m => n * m.box) (2 ^ descLog d) == descBox d && (d.drop (0x20 + 14 * r)).all (· == 0)

/-- Position of element n of the box: its distance from the base, none outside the tensor. -/
def boxPos : List Dim → Nat → Option Int
  | [], _ => some 0
  | m :: r, n =>
    let i := n % m.box
    match boxPos r (n / m.box) with
    | some d => if m.extent ≤ i then none else some (d + (i : Int) * m.stride)
    | none => none

/-! ### Issue (R328, R329) -/

/-- The incomplete copies of a wave, in order. -/
def State.copiesOf (s : State) (r : WaveRef) : List CopyCmd :=
  match s.task? r.tid with
  | some t => ((s.cores? t r.core).copies.flatten).filter fun k => k.tid == r.tid && k.core == r.core && k.wix == r.wix
  | none => []

/-- Takes the next tag and queues a command on context k.wix mod 8. -/
def Iss.queueCopy (iss : Iss) (s : State) (t : Task) (w : Wave) (cmd : CopyCmd) : Done :=
  if w.lastTag = 0xFFFFFFFF then iss.leadFault s (chanFlt cmd.ch)
  else
    let xy := s.coreXY t iss.r.core
    let rec_ := (w.byTix iss.take).any fun ln => match w.thread? ln with | some th => th.recording | none => false
    let cmd := { cmd with tag := w.lastTag + 1, recorded := rec_, since := s.drone }
    let s := s.modWave iss.r fun w => { w with lastTag := w.lastTag + 1 }
    iss.done (s.modCore xy.1 xy.2 fun c => { c with copies := c.copies.modify (iss.r.wix % 8) fun q => q ++ [cmd] })

def Iss.cmd (iss : Iss) (kind : CopyKind) (ch : Nat) (va : Addr) (cnt : Nat) (dests : List Nat) : CopyCmd :=
  { tid := iss.r.tid, core := iss.r.core, wix := iss.r.wix, tag := 0, kind, ch, va, cnt, dests := dests.map fun c => (c, 0) }

def Chan.fedByCopy (c : Chan) : Bool := c.valid && c.prod == .copy

def execCopy (f : CopyOp) (s : State) : Outcome State Fault Refusal :=
  chIssue (.copy f) f.ch (fun iss s t _ w ln th c =>
    let cnt := src w ln th 32 f.cnt
    if !c.fedByCopy || cnt = 0 || cnt % 64 != 0 then iss.leadFault s (chanFlt f.ch)
    else iss.queueCopy s t w (iss.cmd .lin f.ch (th.ra f.ar) cnt [iss.r.core])) s

/-- COPYT and COPYM capture the descriptor at issue (R389). -/
def Iss.boxCmd (iss : Iss) (w : Wave) (slot : Bool) (ch : Nat) (off : Word) (kind : CopyKind) (dests : List Nat) :
    Option CopyCmd :=
  match nth w.tdesc (if slot then 1 else 0) none with
  | some d =>
    let k := iss.cmd kind ch (BitVec.ofNat 72 (num (d.take 9))) (descBox d) dests
    some { k with desc := d, off }
  | none => none

def execCopyt (f : CopytOp) (s : State) : Outcome State Fault Refusal :=
  chIssue (.copyt f) f.ch (fun iss s t _ w ln th c =>
    match iss.boxCmd w f.slot f.ch (src32 w ln th f.off) .box [iss.r.core] with
    | some cmd => if !c.fedByCopy then iss.leadFault s (chanFlt f.ch) else iss.queueCopy s t w cmd
    | none => iss.leadFault s (chanFlt f.ch)) s

/-- COPYM: every core of the sub-polder; a shape larger than the polder raises MEMBER (R235). -/
def execCopym (f : CopymOp) (s : State) : Outcome State Fault Refusal :=
  chIssue (.copym f) f.ch (fun iss s t _ w ln th _ =>
    let k := s.kernelOf t
    let d := shapeDims k f.shape.toNat
    if k.polW < d.1 || k.polH < d.2 then
      iss.leadFault s { code := Flt.member, detail := f.shape.toNat * 256 }
    else
      let cs := subCores k f.shape.toNat iss.r.core
      let ok := cs.all fun c => match (s.share? t.tid c).bind fun h => h.chans[f.ch.val]? with
        | some c => c.fedByCopy
        | none => false
      match iss.boxCmd w f.slot f.ch (src32 w ln th f.off) .mcast cs with
      | some cmd => if !ok then iss.leadFault s (chanFlt f.ch) else iss.queueCopy s t w cmd
      | none => iss.leadFault s (chanFlt f.ch)) s

def execCopyo (f : CopyoOp) (s : State) : Outcome State Fault Refusal :=
  chIssue (.copyo f) f.ch (fun iss s t _ w ln th c =>
    let cnt := src w ln th 32 f.cnt
    let ok := if f.plain then !c.valid && (c.space == 0 || c.space == 2) else c.valid && c.cons == .copy
    if !ok || cnt = 0 || cnt % 64 != 0 || c.size < cnt then iss.leadFault s (chanFlt f.ch)
    else iss.queueCopy s t w (iss.cmd (if f.plain then .plain else .out) f.ch (th.ra f.ar) cnt [iss.r.core])) s

/-! ### The engine's steps (R214, R235, R236) -/

/-- Takes the head command of a context away. -/
def State.dropHead (s : State) (x y ctx : Nat) : State :=
  s.modCore x y fun c => { c with copies := c.copies.modify ctx List.tail }

def State.setHead (s : State) (x y ctx : Nat) (k : CopyCmd) : State :=
  s.modCore x y fun c => { c with copies := c.copies.modify ctx fun q => k :: q.tail }

/-- A fault stops the copy; it is held for its wave (R236). -/
def State.failCopy (s : State) (x y ctx : Nat) (k : CopyCmd) (code va : Nat) : State :=
  (s.dropHead x y ctx).modWave ⟨k.tid, k.core, k.wix⟩ fun w =>
    { w with held := w.held ++ [{ tag := k.tag, code, va, ch := if k.kind == .out || k.kind == .plain then 16 else k.ch }] }

/-- A translated piece, a fault code, a page fault, or the wait for an earlier round's merge (R145). -/
inductive Got (α : Type) where
  | ok (a : α)
  | flt (code va : Nat)
  | parks (level va : Nat)
  | waits

/-- Translates an access of a copy engine, as a load or a store. -/
def State.copyTrans (s : State) (x y : Nat) (asid : BitVec 12) (va : Nat) (need : Attr → Bool) : Got (Attr × Nat) × State :=
  let t := s.translate (copyViewer x y) asid va need
  match t.1 with
  | .ok a pa => (.ok (a, pa), t.2)
  | .parks k => (.parks k va, t.2)
  | .unmapped => (.flt Flt.unmapped va, t.2)
  | .perm => (.flt Flt.perm va, t.2)
  | .dataerr => (.flt Flt.dataerr va, t.2)

/-- Device bytes as a task's copies see them (R151). -/
def State.copyView (s : State) (t : Task) (tag : Nat × Nat) (cell : Bool) (pa va n : Nat) : List Byte :=
  s.seenView t 1 tag cell pa va n

/-- n bytes that a copy reads for a task, or those of them in the first granule where cut says so (R123): its view, the
settled values of a CELL page, or host or peer data. who: the thread that receives TRACECAP, where an instruction reads. -/
def State.copyRead (s : State) (x y : Nat) (t : Task) (l : Launch) (rec_ cut : Bool) (who : Option (WaveRef × Nat)) (va n : Nat) :
    Got (List Byte) × State :=
  match s.copyTrans x y l.asid va (·.r) with
  | (.ok (a, pa), s) =>
    let n := if cut then min n (granule a - pa % granule a) else n
    if s.outside t va n then (.flt Flt.range va, s)
    else if s.dataErr a pa n then (.flt Flt.dataerr va, s.found a pa n)
    else if a.target = 0 then
      if l.checked && (List.range n).any fun i => s.mustWait t (pa + i) then (.waits, s)
      else
        let bs := s.copyView t (s.pageTag l a.buf) a.cell pa va n
        let secs := ((List.range n).map fun i => (va + i) / 32).eraseDups
        (.ok bs, if a.mod && rec_ then secs.foldl (fun s sec => s.recordRead t.tid who sec) s else s)
    else (.ok (readRaw s a pa n), s)
  | (.flt c v, s) => (.flt c v, s)
  | (.parks k v, s) => (.parks k v, s)
  | (.waits, s) => (.waits, s)

/-- The nearest position inside the tensor before element n of a box. -/
def lastPos (dims : List Dim) : Nat → Option Int
  | 0 => none
  | n + 1 => match boxPos dims n with
    | some d => some d
    | none => lastPos dims n

/-- The VA of a position of a box. -/
def CopyCmd.boxVa (k : CopyCmd) (d : Int) : Nat := (addrAdd k.va (d + k.off.toInt)).toNat

/-- Element n of a box lies in another page than the one read before it (R214). -/
def CopyCmd.newPage (k : CopyCmd) (dims : List Dim) (n va : Nat) : Bool :=
  match lastPos dims n with
  | some d => k.boxVa d / 65536 != va / 65536
  | none => true

/-- The next piece of unit u of a copy into a channel, of which the bytes before have are read: up to the granule's end, of
a box within one element (R123, R214, R234). -/
def State.unitPiece (s : State) (x y : Nat) (t : Task) (l : Launch) (k : CopyCmd) (u have_ : Nat) : Got (List Byte) × State :=
  if k.kind == .lin then
    let va := (k.va.toNat + 64 * u + have_) % 2 ^ 72
    if k.va.toNat % 64 ≠ 0 then (.flt Flt.align va, s)
    else
      let s := if (u = 0 ∧ have_ = 0) ∨ va % 65536 = 0 then s.renew (.copyEngine x y) l.asid va else s
      s.copyRead x y t l k.recorded true none va (64 - have_)
  else
    let e := 2 ^ descLog k.desc
    let dims := dimsOf k.desc (descRank k.desc)
    let i := u * (64 / e) + have_ / e
    match boxPos dims i with
    | none => (.ok (List.replicate e 0), s)
    | some d =>
      let va := k.boxVa d
      let s := if have_ % e = 0 ∧ k.newPage dims i va = true then s.renew (.copyEngine x y) l.asid va else s
      if va % e ≠ 0 then (.flt Flt.align va, s)
      else s.copyRead x y t l k.recorded true none (va + have_ % e) (e - have_ % e)

/-- Bytes of the unit under way at a destination. -/
def CopyCmd.held (k : CopyCmd) (d : Nat) : List Byte := ((k.got.find? (·.1 == d)).map (·.2)).getD []

def CopyCmd.hold (k : CopyCmd) (d : Nat) (bs : List Byte) : CopyCmd :=
  let rest := k.got.filter (·.1 != d)
  { k with got := if bs.isEmpty then rest else (d, bs) :: rest }

def CopyCmd.complete (k : CopyCmd) : Bool := k.dests.all fun d => k.cnt ≤ 64 * d.2

/-- The command after one more unit at destination d; it leaves the context once complete. -/
def State.unitDone (s : State) (x y ctx : Nat) (k : CopyCmd) (d : Nat) : State :=
  let k := { k.hold d [] with dests := upd (·.1 == d) (fun p => (p.1, p.2 + 1)) k.dests }
  if k.complete then s.dropHead x y ctx else s.setHead x y ctx k

/-- The copy waits at a page fault. -/
def State.parkCopy (s : State) (x y ctx : Nat) (k : CopyCmd) (asid : BitVec 12) (va level kind : Nat) : State :=
  let f := s.pageFault asid va level kind (y * 256 + x)
  f.2.setHead x y ctx { k with fault := some f.1, faultVa := va }

/-- A unit counts as a transfer and as a request of its core's copy engine, issued since the copy was (R256, R293). -/
def State.unitMoved (s : State) (x y t : Nat) : State := (s.transfer 8 1).hbmRequest 2 (384 + coreRequester (x, y)) t

/-- Reads the next piece of the unit under way of a copy into a channel for one destination that has room for it; with its last
piece the unit is delivered. DESIGN CHOICE (log 137): each destination of a COPYM reads the unit anew. -/
def State.deliverIn (s : State) (x y ctx : Nat) (k : CopyCmd) (t : Task) (l : Launch) (d done : Nat) : State :=
  match (s.share? k.tid d).bind fun h => (h.chans[k.ch]?) with
  | none => s
  | some c =>
    if !c.valid || c.q + c.size < c.p + 64 then s
    else
      match s.unitPiece x y t l k done (k.held d).length with
      | (.flt code va, s) => s.failCopy x y ctx k code va
      | (.parks level va, s) => s.parkCopy x y ctx k l.asid va level 4
      | (.waits, s) => s
      | (.ok b, s) =>
        let bs := k.held d ++ b
        if bs.length < 64 then s.setHead x y ctx (k.hold d bs)
        else
          let s := s.modShare k.tid d fun h =>
            let h := h.setMem c.space ((h.mem c.space).write (c.base + c.p % c.size) bs)
            (h.noOlder c.space (c.base + c.p % c.size) 64).modChan k.ch fun c => { c with p := c.p + 64, lastTag := k.tag, lastBytes := 64 * (done + 1) }
          (s.unitMoved x y k.since).unitDone x y ctx k d

/-- The bytes of the unit that a COPYO writes next: a plain source may hold stores that the copy path does not see yet (R151). -/
def State.outBytes (s : State) (h : Share) (c : Chan) (k : CopyCmd) (done : Nat) : List Byte :=
  if k.kind == .plain then
    let a := c.base + 64 * done
    ((h.mem c.space).read a 64).zipIdx.map fun b => s.seenByte h.older 1 c.space (a + b.2) b.1
  else (h.mem c.space).read (c.base + (c.q + 64 * done) % c.size) 64

/-- What readers on the lanes path may still see where a copy writes device bytes: no wave has observed it complete yet. -/
def State.copyOlder (s : State) (k : CopyCmd) (tag : Nat × Nat) (va pa n : Nat) : State :=
  s.noteOlder k.tid { space := 4, addr := pa, old := [], path := 1, wave := (k.core, k.wix), hidden := [0], tag := k.tag
                      ch := if k.kind == .out then some k.ch else none } tag va n

/-- Writes the next piece of a COPYO, as its target's granule cuts it (R123); the last one of a unit ends the unit. -/
def State.deliverOut (s : State) (x y ctx : Nat) (k : CopyCmd) (t : Task) (l : Launch) (d done : Nat) : State :=
  match (s.share? k.tid d), ((s.share? k.tid d).bind fun h => (h.chans[k.ch]?)) with
  | some h, some c =>
    let left := if (k.held d).isEmpty then s.outBytes h c k done else k.held d
    let va := (k.va.toNat + 64 * done + (64 - left.length)) % 2 ^ 72
    if k.va.toNat % 64 ≠ 0 then s.failCopy x y ctx k Flt.align va
    else
      let s := if (done = 0 ∧ left.length = 64) ∨ va % 65536 = 0 then s.renew (.copyEngine x y) l.asid va else s
      match s.copyTrans x y l.asid va (·.w) with
      | (.flt code va, s) => s.failCopy x y ctx k code va
      | (.parks level va, s) => s.parkCopy x y ctx k l.asid va level 5
      | (.waits, s) => s
      | (.ok (a, pa), s) =>
        let n := granule a
        let bs := left.take n
        if a.cell then s.failCopy x y ctx k Flt.cellst va
        else if s.outside t va n then s.failCopy x y ctx k Flt.range va
        else if a.target ≠ 0 ∧ s.dataErr a pa n = true then s.failCopy x y ctx k Flt.dataerr va
        else
          let s := if a.target = 0 then
              let tag := s.pageTag l a.buf
              let s := if a.mod then s.recordWrite k.tid tag va pa n else s
              let s := s.copyOlder k tag va pa n
              (s.storeDevice k.tid tag t.exclusive a.ordw va pa bs).markAfter k.tid pa n a.ordw
            else writeRaw s a pa bs
          if n < left.length then s.setHead x y ctx (k.hold d (left.drop n))
          else
            let last := k.cnt ≤ 64 * (done + 1)
            let s := s.modShare k.tid d fun h => h.modChan k.ch fun c =>
              { c with q := if last && k.kind == .out then c.q + k.cnt else c.q, lastTag := k.tag, lastBytes := 64 * (done + 1) }
            let s := if last && k.kind == .out then s.passRows t d k.ch (c.q + k.cnt) else s
            (s.unitMoved x y k.since).unitDone x y ctx k d
  | _, _ => s

/-- COPY_UNIT_DELIVERY (R123, R214, R235): the head command of a context moves the next piece of its unit for destination
dest; the last piece moves the unit. -/
def execCopyUnitDelivery (x y ctx dest : Nat) (s : State) : Outcome State Fault Refusal :=
  match (nth (s.core x y).copies ctx []).head? with
  | none => .next s
  | some k =>
    match s.task? k.tid, s.launchOf? k.tid, k.dests[dest]? with
    | some t, some l, some (d, done) =>
      match k.fault.bind fun fid => s.faults.find? fun (f : PageFault) => f.fid == fid with
      | some f => .next (if f.failed then s.failCopy x y ctx k Flt.unmapped k.faultVa else s)
      | none =>
        if k.cnt ≤ 64 * done || !s.mayTransfer 8 || t.st != .resident then .next s
        else if k.kind == .out || k.kind == .plain then
          if k.kind == .out && !k.fired then .next s else .next (s.deliverOut x y ctx k t l d done)
        else .next (s.deliverIn x y ctx k t l d done)
    | _, _, _ => .next s

/-- A COPYO that has fired still consumes from a channel of a task's core: its Q has not risen. -/
def State.consuming (s : State) (x y tid c ch : Nat) : Bool :=
  (s.core x y).copies.any fun q => q.any fun k => k.tid == tid && k.core == c && k.kind == .out && k.fired && k.ch == ch

/-- COPYO_FIRE (R130, R329): a COPYO fires once its count is published. DEDUCED (log 111): not while another COPYO of the
channel has fired, since Q would then pass P (R126). -/
def execCopyoFire (x y ctx : Nat) (s : State) : Outcome State Fault Refusal :=
  match (nth (s.core x y).copies ctx []).head? with
  | none => .next s
  | some k =>
    match (s.share? k.tid k.core).bind fun h => (h.chans[k.ch]?) with
    | some c =>
      if k.kind == .out && c.valid && c.q + k.cnt ≤ c.p && !s.consuming x y k.tid k.core k.ch then
        .next (s.setHead x y ctx { k with fired := true })
      else .next s
    | none => .next s

/-! ### COPYW, COPYX, CPSTAT (R236, R330, R332) -/

/-- Every copy of a wave with a tag up to t is complete. -/
def State.copiesDone (s : State) (r : WaveRef) (t : Nat) : Bool := (s.copiesOf r).all fun k => t < k.tag

/-- Writes of a wave's own copies with a tag up to t. -/
def ownCopies (r : WaveRef) (t : Nat) (e : Older) : Bool := e.path == 1 && e.wave == (r.core, r.wix) && e.tag ≤ t

def execCopyw (f : TagOp) (s : State) : Outcome State Fault Refusal :=
  cmdIssue (.copyw f) { code := Flt.channel } (fun iss s _ _ w ln th =>
    let tag := src w ln th 32 f.tag
    if w.lastTag < tag then iss.leadFault s { code := Flt.channel }
    else
      let q := iss.afterHeld s w ln (·.tag ≤ tag)
      if q.1.take = 0 then q.1.done q.2
      else if s.copiesDone iss.r tag then q.1.done (q.2.observes iss.r (ownCopies iss.r tag))
      else q.1.waits q.2 (.copyw q.1.take tag)) s

/-- COPYW_RETURN (R330): the wave observes the copies complete (R152). -/
def execCopywReturn (r : WaveRef) (s : State) : Outcome State Fault Refusal :=
  match s.task? r.tid, s.wave? r with
  | some t, some w =>
    match w.wait with
    | .copyw mask tag =>
      if !s.taskRuns t then .next s
      else
        let q := s.heldInWait r mask (·.tag ≤ tag) fun m => .copyw m tag
        if q.2.noneStill r q.1 then .next (q.2.endWait r q.1)
        else if s.copiesDone r tag then .next ((q.2.observes r (ownCopies r tag)).endWait r q.1)
        else .next (q.2.settle r.tid)
    | _ => .next s
  | _, _ => .next s

/-- Cancels the copies of a wave that a condition picks, each at a unit boundary (R237). -/
def State.cancelCopies (s : State) (r : WaveRef) (p : CopyCmd → Bool) : State :=
  match s.task? r.tid with
  | some t =>
    let xy := s.coreXY t r.core
    s.modCore xy.1 xy.2 fun c => { c with copies := c.copies.map fun q => q.filter fun k =>
      !(k.tid == r.tid && k.core == r.core && k.wix == r.wix && p k) }
  | none => s

/-- A unit of a COPYO whose writing has begun is written to its end, within n pieces. -/
def State.endUnit (s : State) (x y ctx : Nat) (p : CopyCmd → Bool) : Nat → State
  | 0 => s
  | n + 1 =>
    match (nth (s.core x y).copies ctx []).head? with
    | some k =>
      match s.task? k.tid, s.launchOf? k.tid, k.got.head?, k.dests.head? with
      | some t, some l, some _, some d =>
        if (k.kind == .out || k.kind == .plain) && p k && k.fault.isNone then (s.deliverOut x y ctx k t l d.1 d.2).endUnit x y ctx p n else s
      | _, _, _, _ => s
    | none => s

/-- Bytes that a copy has delivered to each of its destinations. -/
def CopyCmd.delivered (k : CopyCmd) : Nat := 64 * (k.dests.map (·.2)).foldl min (k.cnt / 64)

/-- The copy with the lowest tag of a list. -/
def oldestCopy (ks : List CopyCmd) : Option CopyCmd := (sortBy (fun (a b : CopyCmd) => a.tag < b.tag) ks).head?

def execCopyx (f : TagOp) (s : State) : Outcome State Fault Refusal :=
  cmdIssue (.copyx f) { code := Flt.channel } (fun iss s t _ w ln th =>
    let tag := src w ln th 32 f.tag
    if w.lastTag < tag then iss.leadFault s { code := Flt.channel }
    else
      let xy := s.coreXY t iss.r.core
      let s := s.endUnit xy.1 xy.2 (iss.r.wix % 8) (fun k => k.tid == iss.r.tid && k.core == iss.r.core && k.wix == iss.r.wix && tag ≤ k.tag) 8
      iss.done (s.cancelCopies iss.r fun k => tag ≤ k.tag)) s

/-- What CPSTAT delivers (R332): a copy that COPYX has stopped counts as complete (R330). -/
def State.copyStat (s : State) (r : WaveRef) (w : Wave) (sel : Nat) : Nat :=
  let oldest := oldestCopy (s.copiesOf r)
  match sel with
  | 0 => match oldest with | some k => k.tag - 1 | none => w.lastTag
  | 1 => w.lastTag
  | _ => match oldest with | some k => k.delivered | none => 0

def execCpstat (f : CpstatOp) (s : State) : Outcome State Fault Refusal :=
  cmdIssue (.cpstat f) { code := Flt.channel } (fun iss s _ _ w ln _ =>
    let q := iss.afterHeld s w ln fun _ => true
    let x := s.copyStat iss.r w f.sel.val
    let seen := if f.sel.val = 0 then q.2.observes iss.r (ownCopies iss.r x) else q.2
    q.1.done (q.1.loadAll seen f.d (BitVec.ofNat 32 x))) s

/-! ### PREF, DROP, TDESC (R237, R341, R369, R389) -/

/-- PREF's lines: each page of the range, widened to whole lines and cut at the end of the address space, is translated
for reading; the device lines of those that it may read count as transfers of activity 8 and as requests of class 3 of a
requester. DESIGN CHOICE (log 50): those that will be late are counted at once. -/
def State.prefetch (s : State) (v : Viewer) (asid : BitVec 12) (va cnt req : Nat) : State :=
  let lo := va / 64 * 64
  let n := (va % 64 + cnt + 63) / 64 * 64
  (pieces lo (min n (2 ^ 72 - lo))).foldl (fun s p =>
    match s.translate v asid p.1 (·.r) with
    | (.ok a _, s) => if a.target = 0 then (s.owe 8 (p.2 / 64)).hbmRequests 3 req 0 (p.2 / 64) else s
    | (_, s) => s) s

/-- PREF: no value changes, and no fault of a page is raised. -/
def execPref (f : RangeOp) (s : State) : Outcome State Fault Refusal :=
  cmdIssue (.pref f) { code := Flt.channel } (fun iss s t _ w ln th =>
    let cnt := src w ln th 32 f.cnt
    if cnt = 0 || cnt % 64 != 0 then iss.leadFault s { code := Flt.channel }
    else
      match s.launchOf? t.tid with
      | some l =>
        let xy := s.coreXY t iss.r.core
        iss.done (s.prefetch (copyViewer xy.1 xy.2) l.asid (th.ra f.ar).toNat cnt (384 + coreRequester xy))
      | none => iss.done s) s

/-- The device pieces of a DROP's range, each with its page and PA; a page that does not translate is skipped. -/
def State.dropPlan (s : State) (t : Task) (l : Launch) (c va cnt : Nat) : List (Attr × Nat × Nat × Nat) × State :=
  let xy := s.coreXY t c
  (pieces va cnt).foldl (fun r p =>
    match r.2.translate (laneViewer t.tid xy.1 xy.2) l.asid p.1 (·.w) with
    | (.ok a pa, s) => (if a.target = 0 then r.1 ++ [(a, pa, p.1, p.2)] else r.1, s)
    | (_, s) => (r.1, s)) ([], s)

/-- Discards one piece: a write of each of its bytes by the wave, which leaves unspecified bytes. -/
def State.dropPiece (s : State) (iss : Iss) (w : Wave) (ln : Nat) (th : Thread) (l : Launch) (p : Attr × Nat × Nat × Nat) :
    State :=
  match s.task? iss.r.tid with
  | none => s
  | some t =>
    let xy := s.coreXY t iss.r.core
    let pa := p.2.1
    let n := p.2.2.2
    let acc := s.accessOf t iss.r w ln th 4 pa p.2.2.1 n true false
    let s := s.noteAccess t.tid acc (racesOf t acc).2
    let gone := fun (line : Nat) => pa / 64 ≤ line && line < (pa + n) / 64
    let s := (s.modCore xy.1 xy.2 fun c => { c with l1 := c.l1.filter fun x => !(x.tid == t.tid && gone x.line) }).loseTags
      t.tid iss.r.core gone
    s.plainWrite (s.pageTag l p.1.buf) pa ((List.range n).map fun i => Config.freeByte s.free (pa + i))

/-- DROP (R341): the bytes of an exclusive range become unspecified; a race with a tag in this core's L1 raises RACE, and
nothing is dropped (R138). -/
def execDrop (f : RangeOp) (s : State) : Outcome State Fault Refusal :=
  cmdIssue (.drop f) { code := Flt.channel } (fun iss s t _ w ln th =>
    let cnt := src w ln th 32 f.cnt
    let va := (th.ra f.ar).toNat
    if cnt = 0 || cnt % 64 != 0 then iss.leadFault s { code := Flt.channel }
    else if va % 64 ≠ 0 then iss.leadFault s { code := Flt.align, detail := va }
    else if !t.isGraph || !covered (t.extents.filter (·.2.2)) va cnt then
      iss.leadFault s { code := Flt.range, detail := va }
    else if !w.fenced .task then iss.again s 0 false
    else
      match s.launchOf? t.tid with
      | none => iss.done s
      | some l =>
        let plan := s.dropPlan t l iss.r.core va cnt
        let races := plan.1.filterMap fun p =>
          let a := plan.2.accessOf t iss.r w ln th 4 p.2.1 p.2.2.1 p.2.2.2 true false
          (racesOf t a).1.map fun b => (a, b)
        match races.head? with
        | some x => iss.done (plan.2.raiseRace iss.r ln t x.1 x.2)
        | none => iss.done (plan.1.foldl (fun s p => s.dropPiece iss w ln th l p) plan.2)) s

/-- TDESC: reads and checks a descriptor. -/
def execTdesc (f : TdescOp) (s : State) : Outcome State Fault Refusal :=
  cmdIssue (.tdesc f) { code := Flt.channel } (fun iss s t _ w ln th =>
    let va := (th.ra f.ar).toNat
    if va % 64 ≠ 0 then iss.leadFault s { code := Flt.align, detail := va }
    else
      match s.launchOf? t.tid with
      | none => iss.done s
      | some l =>
        let xy := s.coreXY t iss.r.core
        let rec_ := (w.byTix iss.take).any fun ln => match w.thread? ln with | some th => th.recording | none => false
        let r := (pieces va 256).foldl (fun (r : Got (List Byte) × State) p => match r with
          | (.ok bs, s) => match s.copyRead xy.1 xy.2 t l rec_ false (some (iss.r, ln)) p.1 p.2 with
            | (.ok b, s) => (.ok (bs ++ b), s)
            | e => e
          | e => e) (.ok [], s)
        match r with
        | (.parks k a, s) =>
          let q := s.pageFault l.asid a k 4 (xy.2 * 256 + xy.1)
          iss.done (q.2.parkOn iss.r ln q.1 a 32)
        | (.flt code a, s) => iss.done (s.raise iss.r ln { code, detail := a, access := 32 })
        | (.waits, s) => iss.again s 12 false
        | (.ok d, s) =>
          if !descOk d then iss.done (s.raise iss.r ln { code := Flt.channel })
          else iss.done (s.modWave iss.r fun w => { w with tdesc := w.tdesc.set (if f.slot then 1 else 0) (some d) })) s

end Sys2Proof.Machine
end

