-- ==== Sys2Proof/Machine/Matrix.lean ====
section
/-! DEFINITION. The matrix engine (R222–R231, R360–R363, R367, R377): MRES, MREL, MLOADB, MMUL, SCA and the engine's own
steps. -/

namespace Sys2Proof.Machine

open Host

/-! ### Configuration (R227) -/

def mcField (w : Wave) (n lo len : Nat) : Nat := bitsAt (w.rmc n).toNat lo len

/-- The reserved fields of k.mc0 to k.mc4. -/
def mcClean (w : Wave) (n : Nat) : Bool :=
  match n with
  | 0 => mcField w 0 8 4 == 0 && mcField w 0 20 12 == 0
  | 1 => mcField w 1 12 2 == 0 && mcField w 1 28 4 == 0
  | 2 => mcField w 2 8 24 == 0
  | 3 => mcField w 3 18 14 == 0
  | 4 => mcField w 4 1 31 == 0
  | _ => true

def classOf (n : Nat) : MClass :=
  match n with
  | 0 => .i4
  | 1 => .i8
  | 2 => .n4
  | _ => .n8

/-- The class code of a format register (R100). -/
def fmtClass : MClass → Nat
  | .i4 => 0
  | .i8 => 0
  | .n4 => 1
  | .n8 => 2

/-- A valid channel of a space with the given roles. -/
def Share.engineChan (h : Share) (ch space : Nat) (prod cons : Option ChPath) : Option Chan :=
  (h.chans[ch]?).bind fun c =>
    if c.valid && c.space == space && (prod.all (· == c.prod)) && (cons.all (· == c.cons)) then some c else none

/-- MATRIX over a channel that the command names, or over none (R260). -/
def matFlt (ch : Nat := 0) : Flt := { code := Flt.matrix, detail := ch }

/-! ### Banks and the queue (R223, R361) -/

/-- What a bank will hold: class and arrangement. -/
structure Plan where
  front : Bool
  bank0 : Option (MClass × Nat)
  bank1 : Option (MClass × Nat)
deriving DecidableEq, Repr

def Plan.bank (p : Plan) (b : Bool) : Option (MClass × Nat) := if b then p.bank1 else p.bank0

def Plan.step (p : Plan) : MCmd → Plan
  | .load _ _ _ arr front cls _ =>
    let b := if front then p.front else !p.front
    if b then { p with bank1 := some (cls, arr) } else { p with bank0 := some (cls, arr) }
  | .mul _ _ _ _ _ _ swap _ _ _ => if swap then { p with front := !p.front } else p

/-- The planned state: the banks as they are, then the queued commands. An MMUL that has fired has exchanged. -/
def Matrix.plan (m : Matrix) : Plan :=
  let p : Plan := { front := m.front, bank0 := m.bank0.map fun t => (t.cls, t.arr), bank1 := m.bank1.map fun t => (t.cls, t.arr) }
  let q := if m.row.isSome then m.queue.drop 1 else m.queue
  q.foldl Plan.step p

def Matrix.bank (m : Matrix) (b : Bool) : Option Tile := if b then m.bank1 else m.bank0

def queueLimit : Nat := 4

def State.matrixOf (s : State) (t : Task) (c : Nat) : Matrix := let xy := s.coreXY t c; (s.core xy.1 xy.2).matrix

def State.modMatrix (s : State) (t : Task) (c : Nat) (f : Matrix → Matrix) : State :=
  let xy := s.coreXY t c
  s.modCore xy.1 xy.2 fun k => { k with matrix := f k.matrix }

/-! ### MRES and MREL (R224, R367) -/

/-- An MRES of this core cycle whose wave has not moved on since, as a wave issues once a cycle. -/
def State.fresh? (s : State) (g : Grant) : Bool :=
  g.time / Config.coreCycle == s.now / Config.coreCycle && match s.wave? g.r with
    | some w => (lanesOf g.take).all fun ln => match w.thread? ln with
      | some th => th.pc == g.pc + 4
      | none => false
    | none => false

/-- The task with the lower order key gets an engine that another task's MRES took in the same core cycle, where nothing has
been queued (R224). -/
def State.contends (s : State) (t : Task) (m : Matrix) : Bool :=
  match m.holder.bind s.task? with
  | some u => t.key < u.key && m.queue.isEmpty && !m.grants.isEmpty && m.grants.all s.fresh?
  | none => false

/-- An MRES that has lost the engine in its own cycle has p := 0. -/
def State.loseGrant (s : State) (g : Grant) : State := s.modWave g.r fun w => w.modLanes g.take fun _ th => th.setP g.p.val false

/-- The engine is free for a task: in the cycle of an MREL only for the task of that (R367). -/
def State.engineFree (s : State) (t : Task) (m : Matrix) : Bool :=
  m.holder.isNone && !m.freed.any fun f => f.1 == s.now / Config.coreCycle && f.2 != t.tid

/-- An engine that a task's MREL frees. -/
def State.freedBy (s : State) (tid : Nat) : Matrix := { freed := some (s.now / Config.coreCycle, tid) }

def execMres (f : MresOp) (s : State) : Outcome State Fault Refusal :=
  cmdIssue (.mres f) (matFlt) (fun iss s t _ _ _ _ =>
    let m := s.matrixOf t iss.r.core
    let wins := s.contends t m
    let mine := m.holder == some t.tid
    let takes := s.engineFree t m || wins
    let s := if wins then m.grants.foldl State.loseGrant s else s
    let grant : Grant := { time := s.now, r := iss.r, take := iss.take, p := f.p, pc := iss.pc }
    let s := s.modMatrix t iss.r.core fun m =>
      if takes then { holder := some t.tid, core := iss.r.core, grants := [grant] }
      else if mine && !m.grants.isEmpty then { m with grants := m.grants ++ [grant] } else m
    let got := takes || mine
    iss.done (iss.map s fun _ _ th => th.setP f.p got)) s

/-- MREL: MATRIX while records are or will be unconsumed; then the wait for the queue. -/
def execMrel (f : SOnly) (s : State) : Outcome State Fault Refusal :=
  cmdIssue (.mrel f) (matFlt) (fun iss s t _ _ _ _ =>
    let m := s.matrixOf t iss.r.core
    let mulCh := m.queue.findSome? fun q => match q with
      | .mul _ ch _ _ _ _ _ _ _ _ => some ch
      | .load _ _ _ _ _ _ _ => none
    if m.holder != some t.tid then iss.leadFault s matFlt
    else match (m.metas.head?).map (·.ch), mulCh with
      | some ch, _ => iss.leadFault s (matFlt ch)
      | none, some ch => iss.leadFault s (matFlt ch)
      | none, none =>
        if m.queue.isEmpty then iss.done (s.modMatrix t iss.r.core fun _ => s.freedBy t.tid) else iss.waits s (.mrel iss.take)) s

/-- MREL_RETURN (R367). -/
def execMrelReturn (r : WaveRef) (s : State) : Outcome State Fault Refusal :=
  match s.task? r.tid, s.wave? r with
  | some t, some w =>
    match w.wait with
    | .mrel mask =>
      if s.taskRuns t && (s.matrixOf t r.core).queue.isEmpty then
        .next ((s.modMatrix t r.core fun m => if m.holder == some t.tid then s.freedBy t.tid else m).endWait r mask)
      else .next s
    | _ => .next s
  | _, _ => .next s

/-! ### MLOADB (R228, R360) -/

/-- Bytes of a B tile of 131,072 elements. -/
def tileBytes (cls : MClass) : Nat := 131072 * cls.bits / 8

def Iss.queueMatrix (iss : Iss) (s : State) (t : Task) (c : MCmd) : Done :=
  if queueLimit ≤ (s.matrixOf t iss.r.core).queue.length then iss.again s 10 true
  else iss.done (s.modMatrix t iss.r.core fun m => { m with queue := m.queue ++ [c] })

def execMloadb (f : MloadbOp) (s : State) : Outcome State Fault Refusal :=
  cmdIssue (.mloadb f) (matFlt) (fun iss s t h w _ _ =>
    let bs := mcField w 0 12 4
    let cls := classOf (mcField w 2 6 2)
    let fmt := w.rfmt (mcField w 2 3 3)
    if (s.matrixOf t iss.r.core).holder != some t.tid || !mcClean w 0 || !mcClean w 2 then iss.leadFault s matFlt
    else
      match h.engineChan f.ch 3 none (some .matrix), h.engineChan bs 3 none (some .matrix) with
      | none, _ => iss.leadFault s (chanFlt f.ch)
      | _, none => iss.leadFault s (chanFlt bs)
      | some c, some b =>
        if !cls.isInt && !nfmtOk (fmtClass cls) fmt then
          iss.leadFault s { code := Flt.format, detail := mcField w 2 3 3 }
        else if c.size < tileBytes cls then iss.leadFault s (matFlt f.ch)
        else if b.size < 1024 then iss.leadFault s (matFlt bs)
        else iss.queueMatrix s t (.load iss.r.wix f.ch bs f.arr.toNat f.front cls fmt)) s

/-- Elements of a class in bytes; two to a byte for 4-bit classes, the lower index in the low bits. -/
def elements (cls : MClass) (bs : List Byte) : List Nat :=
  if cls.bits = 8 then bs.map (·.toNat) else bs.flatMap fun b => [b.toNat % 16, b.toNat / 16]

/-- n bytes of a channel's stream from position pos. -/
def Share.stream (h : Share) (c : Chan) (pos n : Nat) : List Byte :=
  (List.range n).map fun i => (h.mem c.space).get (c.base + (pos + i) % c.size)

def halfWords (bs : List Byte) : List Half := (chunks 2 bs.length bs).map fun p => BitVec.ofNat 16 (num p)

/-- The windows of a run of elements. -/
def windows (cls : MClass) (f : NFmt) (xs : List Nat) : List (List Int × List (Int × Bool) × Int) :=
  (chunks 256 xs.length xs).map (convWindow cls f)

/-- Converts a B tile: per column its windows with q, block exponents, SB and scale entry (R104, R105, R223). -/
def convTile (cls : MClass) (arr : Nat) (f : NFmt) (data scales : List Byte) : Tile :=
  let k := 256 * 2 ^ arr
  let cols := chunks k (elements cls data).length (elements cls data)
  let sc := chunks (2 ^ arr) cols.length (halfWords scales)
  { cls, arr, cols := (cols.zip sc).map fun p =>
      ((windows cls f p.1).zip p.2).map fun q => (q.1.1, q.1.2.1, q.1.2.2, q.2) }

/-- A bank is in use while records made from it wait for SCA (R223). -/
def Matrix.inUse (m : Matrix) (b : Bool) : Bool := m.metas.any fun r => r.bank == b && r.sca

/-- The task and share that hold a core's engine. -/
def State.engineShare (s : State) (x y : Nat) : Option (Task × Share) :=
  (s.core x y).matrix.holder.bind fun tid => (s.task? tid).bind fun t =>
    (t.share? (s.coreIndex t x y)).map fun h => (t, h)

/-- MLOADB_FIRE (R228): the head command fires once its bank is not in use and its channels hold the tile. DESIGN CHOICE
(log 111): where one channel holds both, the scales follow the tile. -/
def execMloadbFire (x y : Nat) (s : State) : Outcome State Fault Refusal :=
  let m := (s.core x y).matrix
  match m.queue.head?, s.engineShare x y with
  | some (.load _ ch bs arr front cls fmt), some (t, h) =>
    let bank := if front then m.front else !m.front
    match h.chans[ch]?, h.chans[bs]? with
    | some c, some b =>
      let at' := if ch = bs then b.q + tileBytes cls else b.q
      if m.loading.isSome || m.inUse bank || t.st != .resident || !c.valid || !b.valid || c.p < c.q + tileBytes cls ||
          b.p < at' + 1024 then .next s
      else
        let tile := convTile cls arr (NFmt.of fmt) (h.stream c c.q (tileBytes cls)) (h.stream b at' 1024)
        .next (s.modMatrix t h.c fun m =>
          let m := { m with loading := some (bank, tile, s.now + 1024 * Config.coreCycle) }
          if bank then { m with bank1 := none } else { m with bank0 := none })
    | _, _ => .next s
  | _, _ => .next s

/-- MLOADB_COMPLETION (R228): 1,024 cycles after it fired, the bank is loaded and what it has consumed is free. -/
def execMloadbCompletion (x y : Nat) (s : State) : Outcome State Fault Refusal :=
  let m := (s.core x y).matrix
  match m.loading, m.queue.head?, s.engineShare x y with
  | some (bank, tile, due), some (.load _ ch bs _ _ cls _), some (t, h) =>
    if s.now < due || t.st != .resident then .next s
    else
      let s := s.modShare t.tid h.c fun h =>
        (h.modChan ch fun c => { c with q := c.q + tileBytes cls }).modChan bs fun b => { b with q := b.q + 1024 }
      .next (s.modMatrix t h.c fun m =>
        let m := { m with loading := none, queue := m.queue.tail }
        if bank then { m with bank1 := some tile } else { m with bank0 := some tile })
  | _, _, _ => .next s

/-! ### MMUL (R229, R362, R363) -/

def rowBytes (cls : MClass) (arr : Nat) : Nat := 256 * 2 ^ arr * cls.bits / 8

def execMmul (f : MmulOp) (s : State) : Outcome State Fault Refusal :=
  cmdIssue (.mmul f) (matFlt) (fun iss s t h w _ _ =>
    let m := s.matrixOf t iss.r.core
    let rows := mcField w 1 0 12
    let arr := mcField w 1 14 2
    let ach := mcField w 0 0 4
    let asch := mcField w 0 4 4
    let fmt := w.rfmt (mcField w 2 0 3)
    if m.holder != some t.tid || !mcClean w 0 || !mcClean w 1 || !mcClean w 2 || rows = 0 then iss.leadFault s matFlt
    else
      match h.engineChan f.ch 2 (some .matrix) none, h.engineChan ach 1 none (some .matrix),
          h.engineChan asch 1 none (some .matrix) with
      | none, _, _ => iss.leadFault s (chanFlt f.ch)
      | _, none, _ => iss.leadFault s (chanFlt ach)
      | _, _, none => iss.leadFault s (chanFlt asch)
      | some p, some a, some b =>
        let plan := m.plan
        let bank := if f.swap then !plan.front else plan.front
        if !f.ca.isInt && !nfmtOk (fmtClass f.ca) fmt then
          iss.leadFault s { code := Flt.format, detail := mcField w 2 0 3 }
        else if plan.bank bank != some (f.cb, arr) then iss.leadFault s matFlt
        else if p.size < 8192 then iss.leadFault s (matFlt f.ch)
        else if a.size < rows * rowBytes f.ca arr then iss.leadFault s (matFlt ach)
        else if b.size < rows * 2 * 2 ^ arr then iss.leadFault s (matFlt asch)
        else iss.queueMatrix s t (.mul iss.r.wix f.ch ach asch rows arr f.swap f.ca f.cb fmt)) s

/-- The 512 records of one A row against a tile, by column then window (R106, R107, R229). -/
def rowRecords (ca : MClass) (tile : Tile) (a : List (List Int × List (Int × Bool) × Int)) : List Byte :=
  (tile.cols.map fun col => ((a.zip col).map fun p =>
    let r := combine ca tile.cls (p.1.1, p.1.2.1) (p.2.1, p.2.2.1)
    recordBytes r.1 r.2.1 p.1.2.2 r.2.2).flatten).flatten

/-- Bytes of a row that one turn writes: some of its whole elements, or all where an element is wider (R130). -/
def rowChunk (elem left pick : Nat) : Nat :=
  if elem = 0 ∨ left < elem then left else elem * (1 + pick % (left / elem))

/-- A channel after the matrix engine has written n more bytes: P rises by each element that is complete (R130). -/
def Chan.wrote (c : Chan) (n : Nat) : Chan :=
  let whole := if c.elem = 0 then c.part + n else (c.part + n) / c.elem * c.elem
  { c with p := c.p + whole, part := c.part + n - whole }

/-- The next records of the row that an MMUL is writing; the last of the command's rows consumes the A rows and their
scales. -/
def State.writeRow (s : State) (t : Task) (h : Share) (p : Chan) (ch ach asch : Nat) (aBytes sBytes r rows : Nat)
    (recs : List Byte) : State :=
  let n := rowChunk p.elem recs.length (Config.freePick s.free 3)
  let rest := recs.drop n
  let last := rest.isEmpty && r + 1 = rows
  let s := s.modShare t.tid h.c fun h =>
    let mem := ((recs.take n).zipIdx).foldl (fun mm q => Mem.set mm (p.base + (p.p + p.part + q.2) % p.size) q.1) (h.mem p.space)
    let h := ((((List.range n).foldl (fun (h : Share) i => h.noOlder p.space (p.base + (p.p + p.part + i) % p.size) 1) h)).setMem
      p.space mem).modChan ch fun c => c.wrote n
    if last then (h.modChan ach fun c => { c with q := c.q + aBytes }).modChan asch fun c => { c with q := c.q + sBytes } else h
  s.modMatrix t h.c fun m => { m with
    out := rest
    row := if last then none else if rest.isEmpty then some (r + 1) else some r
    queue := if last then m.queue.tail else m.queue }

/-- MMUL_ROW (R229): the head command fires, which exchanges the banks where it swaps; then each turn writes records of the
next row, which begins once there is room for all of them. Where one channel holds the A rows and their scales, the scales
follow (log 111). -/
def execMmulRow (x y : Nat) (s : State) : Outcome State Fault Refusal :=
  let m := (s.core x y).matrix
  match m.queue.head?, s.engineShare x y with
  | some (.mul _ ch ach asch rows arr swap ca cb fmt), some (t, h) =>
    match h.chans[ch]?, h.chans[ach]?, h.chans[asch]? with
    | some p, some a, some b =>
      let aBytes := rows * rowBytes ca arr
      let sBytes := rows * 2 * 2 ^ arr
      let sAt := if ach = asch then b.q + aBytes else b.q
      if t.st != .resident then .next s
      else match m.row with
      | none =>
        let back := m.bank (!m.front)
        if (swap && (back.isNone || m.loading.isSome)) || !a.valid || !b.valid || !p.valid || a.p < a.q + aBytes ||
            b.p < sAt + sBytes then .next s
        else .next (s.modMatrix t h.c fun m => { m with row := some 0, front := if swap then !m.front else m.front })
      | some r =>
        if !m.out.isEmpty then .next (s.writeRow t h p ch ach asch aBytes sBytes r rows m.out)
        else
          match m.bank m.front with
          | none => .next s
          | some tile =>
            if p.q + p.size < p.p + p.part + 8192 then .next s
            else
              let xs := elements ca (h.stream a (a.q + r * rowBytes ca arr) (rowBytes ca arr))
              let recs := rowRecords ca tile (windows ca (NFmt.of fmt) xs)
              let aScale := halfWords (h.stream b (sAt + r * 2 * 2 ^ arr) (2 * 2 ^ arr))
              let scales : List (List (Half × Int)) := tile.cols.map fun col => col.map fun w => (w.2.2.2, w.2.2.1)
              let meta_ : RowMeta := { ch, pos := p.p + p.part, ca, cb, arr, aScale, bank := m.front, bScale := scales, sca := p.cons == .lanes }
              let s := s.modMatrix t h.c fun m => { m with metas := m.metas ++ [meta_] }
              .next (s.writeRow t h p ch ach asch aBytes sBytes r rows recs)
    | _, _, _ => .next s
  | _, _ => .next s

/-! ### SCA (R109, R230, R377) -/

/-- The row from which the record at a byte of the stream comes. -/
def Matrix.rowAt (m : Matrix) (ch pos : Nat) : Option RowMeta :=
  m.metas.find? fun x => x.ch == ch && x.pos ≤ pos && pos < x.pos + 8192

/-- Record j of a call: it goes to the accumulator of its place in the call, with the scales of the row, the window and the
bank that it comes from. DESIGN CHOICE (log 126): so too where the call does not begin at a row. -/
def Share.scaRecord (h : Share) (c : Chan) (m : Matrix) (ch arr base : Nat) (init intPair : Bool) (r : Mem × Flags) (j : Nat) :
    Mem × Flags :=
  let pos := c.q + 16 * j
  match m.rowAt ch pos with
  | none => r
  | some x =>
    let k := (pos - x.pos) / 16
    let win := k % 2 ^ arr
    let b := nth (nth x.bScale (k / 2 ^ arr) []) win (0, 0)
    let a := base + 4 * (j / 2 ^ arr)
    let y := accumulate intPair (nth x.aScale win 0) b.1 b.2 (h.stream c pos 16) (if init && win == 0 then 0 else num (r.1.read a 4))
    (r.1.write a (bytes 4 y.1), r.2 ||| y.2)

def execSca (f : ScaOp) (s : State) : Outcome State Fault Refusal :=
  cmdIssue (.sca f) (matFlt) (fun iss s t h w _ _ =>
    let srows := mcField w 1 16 12
    let arr := mcField w 1 14 2
    let base := mcField w 3 0 18
    let init := mcField w 4 0 1 == 1
    let pch := mcField w 0 16 4
    let cols := 512 / 2 ^ arr
    if !mcClean w 0 || !mcClean w 1 || !mcClean w 3 || !mcClean w 4 || srows = 0 || base % 4 != 0 then iss.leadFault s matFlt
    else
      match h.engineChan pch 2 (some .matrix) (some .lanes) with
      | none => iss.leadFault s (chanFlt pch)
      | some c =>
        let n := 16 * 512 * srows
        let m := s.matrixOf t iss.r.core
        let records := 512 * srows
        let made := fun (j : Nat) => (m.rowAt pch (c.q + 16 * j)).any fun x => x.ca == f.ca && x.cb == f.cb && x.arr == arr
        let size := h.size 2
        let span := 4 * srows * cols
        let hit := h.chans.any fun d => d.space == 2 && d.valid && d.base < base + span && base < d.base + d.size
        if (w.seen pch).1 < c.q + n then iss.leadFault s (chanFlt pch)
        else if !(List.range records).all made then iss.leadFault s (matFlt pch)
        else if size < base + span then
          iss.leadFault s { code := Flt.range, detail := max base (size / 4 * 4), access := 4 + 64 }
        else if hit then iss.leadFault s (chanFlt pch)
        else
          let intPair := f.ca.isInt && f.cb.isInt
          let done := (List.range records).foldl (h.scaRecord c m pch arr base init intPair) (s.seenMem h 2 2 base span, (0 : Flags))
          let s := s.modShare iss.r.tid iss.r.core fun h =>
            (h.put 2 (iss.r.core, iss.r.wix) 2 base (done.1.read base span) (some pch)).modChan pch fun c => { c with q := c.q + n }
          let s := s.modMatrix t iss.r.core fun m =>
            { m with metas := m.metas.filter fun x => !(x.ch == pch && x.pos + 8192 ≤ c.q + n) }
          let s := s.modWave iss.r fun w => w.observe pch (w.seen pch).1 (c.q + n)
          iss.done (iss.map s fun _ _ th => { th with flags := th.flags ||| done.2 })) s

end Sys2Proof.Machine
end

