-- ==== Sys2Proof/Machine/DumpFormat.lean ====
section
/-! DEFINITION. The dump buffer (R269–R276, R281, R284–R286): the blocks of its five sections, the layout, and the dump
engine's writes with what a fault leaves behind. -/

namespace Sys2Proof.Machine

open Host

def roundUp64 (n : Nat) : Nat := (n + 63) / 64 * 64

/-- Bytes filled with zeros to a multiple of 64. -/
def pad64 (bs : List Byte) : List Byte := bs ++ List.replicate (roundUp64 bs.length - bs.length) 0

/-! ### Blocks (R271–R273) -/

/-- The tasks that a dump shows with their cores: resident ones, by key, then logical (y, x) (R270). -/
def State.dumpShares (s : State) (lid : Nat) : List (Task × Share × Nat × Nat) :=
  let ts := sortBy (fun (a b : Task) => a.key < b.key) (s.tasks.filter fun t => t.lid == lid && t.st == .resident)
  ts.flatMap fun t =>
    let hs := t.shares.map fun h => let xy := s.coreXY t h.c; (t, h, xy.1, xy.2)
    sortBy (fun (a b : Task × Share × Nat × Nat) => a.2.2.2 < b.2.2.2 || (a.2.2.2 == b.2.2.2 && a.2.2.1 < b.2.2.1)) hs

def threadBlock (budget : Nat) (o : Option Thread) : List Byte :=
  match o with
  | none => bytes 4 0xFFFFFFFF ++ List.replicate (140 + 4 * budget) 0
  | some th =>
    let preds := maskOf ((List.range 8).filter fun n => th.rp n)
    bytes 4 th.pc ++ bytes 2 th.tix ++ bytes 1 th.flags.toNat ++ bytes 1 preds ++ bytes 4 th.cseq.toNat ++
      bytes 1 th.rmode.toNat ++ bytes 1 (if th.recording then 1 else 0) ++ bytes 2 0 ++
      ((List.range 8).flatMap fun n => bytes 9 (th.ra n).toNat ++ bytes 7 0) ++
      (List.range budget).flatMap fun n => bytes 4 (th.rv n).toNat

/-- One wave's registers (R271). -/
def registerBlock (t : Task) (x y budget : Nat) (w : Wave) : List Byte :=
  let live := w.maskWhere fun _ => true
  let parked := w.maskWhere fun th => th.park != .runs
  let fatal := w.maskWhere fun th => th.park == .fatal
  bytes 6 t.key.toNat ++ bytes 1 x ++ bytes 1 y ++ bytes 1 w.stage ++ bytes 1 w.wix ++ bytes 1 budget ++
    bytes 1 w.waitKind ++ bytes 4 (128 + 32 * (144 + 4 * budget)) ++ bytes 4 live ++ bytes 4 parked ++ bytes 4 fatal ++
    bytes 4 0 ++ ((List.range 16).flatMap fun n => bytes 4 (w.rs n).toNat) ++
    ((List.range 8).flatMap fun n => bytes 4 (w.rfmt n).toNat) ++
    (List.range 32).flatMap fun ln => threadBlock budget (w.thread? ln)

/-- A task's scratch share on a core. -/
def scratchBlock (t : Task) (h : Share) (x y : Nat) : List Byte :=
  let n := h.size 0
  pad64 (bytes 6 t.key.toNat ++ bytes 1 x ++ bytes 1 y ++ bytes 4 n ++ bytes 4 0 ++ h.scratch.read 0 n)

def Level.byte (l : Level) : Nat := l.code

/-- A barrier with a nonzero phase or mask (R272). -/
def barrierBlock (t : Task) (x y waves : Nat) (b : Bar) : List Byte :=
  let owner := match b.lvl with
    | .stage => b.key
    | .wave => b.key
    | .core => 0xFF
    | .polder => 0xFF
    | .launch => 0xFF
  bytes 6 t.key.toNat ++ bytes 1 x ++ bytes 1 y ++ bytes 1 b.lvl.code ++ bytes 1 b.n ++ bytes 1 owner ++
    bytes 1 b.flags.toNat ++ bytes 4 b.phase ++
    (List.range waves).flatMap fun i => bytes 4 (((b.arrived.find? (·.1 == i)).map (·.2)).getD 0)

def Bar.shown (b : Bar) : Bool := b.phase != 0 || b.arrived.any fun p => p.2 != 0

/-- The launch's phase of a launch-level barrier: that of every core that has had a part in it (R78, R272). -/
def State.launchPhase (s : State) (lid n : Nat) : Nat :=
  let bars := (s.tasks.filter (·.lid == lid)).flatMap fun t => t.shares.flatMap (·.bars)
  ((bars.filter fun b => b.lvl == .launch && b.n == n).map (·.phase)).foldl max 0

/-- The barriers that a core of a task shows, by level, then id, then stage or context: its own, and at launch level those
whose phase is the launch's (R272). -/
def State.shownBars (s : State) (t : Task) (h : Share) : List Bar :=
  let whole := (List.range 16).map fun n => { h.bar ⟨.launch, n, 0, 0⟩ with phase := s.launchPhase t.lid n }
  sortBy (fun (a b : Bar) => a.lvl.code < b.lvl.code || (a.lvl.code == b.lvl.code && (a.n < b.n ||
    (a.n == b.n && a.key < b.key)))) ((h.bars.filter (·.lvl != .launch) ++ whole).filter Bar.shown)

def pathCode : ChPath → Nat
  | .lanes => 0
  | .copy => 1
  | .matrix => 2

/-- A valid channel (R273). -/
def channelBlock (t : Task) (x y id : Nat) (c : Chan) : List Byte :=
  bytes 6 t.key.toNat ++ bytes 1 x ++ bytes 1 y ++ bytes 1 id ++ bytes 1 c.space ++ bytes 1 c.size.log2 ++
    bytes 1 (pathCode c.prod + 16 * pathCode c.cons) ++ bytes 4 c.elem ++ bytes 8 c.p ++ bytes 8 c.q ++
    bytes 4 c.lastTag ++ bytes 4 c.lastBytes ++ bytes 1 (if c.cancelled then 1 else 0) ++ bytes 7 0

/-- The kept records with their partners (R260, R261). -/
def Launch.recordBytes (l : Launch) : List Byte :=
  l.records.flatMap fun r => r.bytes ++ (r.partner.getD [])

/-! ### Sections and layout (R269, R270, R274, R281) -/

/-- The sections that have a block, in order: kind and bytes. Reason 3 has section 5 only. -/
def State.dumpSections (s : State) (l : Launch) (reason : Nat) : List (Nat × List Byte) :=
  let hs := s.dumpShares l.lid
  let regs := hs.flatMap fun q =>
    (sortBy (fun (a b : Wave) => a.wix < b.wix) q.2.1.waves).flatMap fun w =>
      registerBlock q.1 q.2.2.1 q.2.2.2 (s.stageOf q.1 w.stage).budget w
  let scratch := hs.flatMap fun q => scratchBlock q.1 q.2.1 q.2.2.1 q.2.2.2
  let bars := hs.flatMap fun q => (s.shownBars q.1 q.2.1).flatMap fun b =>
    barrierBlock q.1 q.2.2.1 q.2.2.2 (s.wavesOf q.1) b
  let chans := hs.flatMap fun q => (q.2.1.chans.zipIdx.filter fun p => p.1.valid).flatMap fun p =>
    channelBlock q.1 q.2.2.1 q.2.2.2 p.2 p.1
  let all := if reason = 3 then [(5, l.recordBytes)]
    else [(1, regs), (2, scratch), (3, bars), (4, chans), (5, l.recordBytes)]
  all.filter fun p => !p.2.isEmpty

/-- One section of the plan: kind, offset, bytes, bytes written. -/
structure DumpSec where
  kind : Nat
  off : Nat
  body : List Byte
  written : Nat := 0
deriving DecidableEq, Repr

/-- Offsets from 0x100, each section a multiple of 64. -/
def layOut : Nat → List (Nat × List Byte) → List DumpSec
  | _, [] => []
  | off, p :: r => { kind := p.1, off, body := p.2 } :: layOut (off + roundUp64 p.2.length) r

/-- What the header tells besides its sections. -/
structure DumpHead where
  reason : Nat
  flags : Nat := 0
  key : Nat
  time : Nat
  size : Nat := 0
  nested : List Byte := []
deriving DecidableEq, Repr

/-- The 256 bytes of the header (R269). -/
def DumpHead.bytes (d : DumpHead) (secs : List DumpSec) : List Byte :=
  let entry := fun (q : DumpSec) => Machine.bytes 1 q.kind ++ Machine.bytes 3 0 ++ Machine.bytes 4 q.off ++
    Machine.bytes 4 q.body.length ++ Machine.bytes 4 q.written
  let table := secs.flatMap entry
  [0x4B, 0x44, 0x4D, 0x50] ++ Machine.bytes 2 1 ++ Machine.bytes 1 d.reason ++ Machine.bytes 1 d.flags ++
    Machine.bytes 8 d.key ++ Machine.bytes 8 d.time ++ Machine.bytes 8 d.size ++
    (d.nested ++ List.replicate (32 - d.nested.length) 0) ++
    (table ++ List.replicate (128 - table.length) 0) ++ List.replicate 64 0

/-! ### The dump engine (R274–R276) -/

/-- Writes n units of 64 bytes in address order; answers the bytes written and the address that failed. -/
def State.dumpUnits (s : State) (asid : BitVec 12) (va : Nat) : Nat → List Byte → State × Nat × Option Nat
  | 0, _ => (s, 0, none)
  | n + 1, bs =>
    match s.vaWrite headViewer asid va (bs.take 64) with
    | (.ok _, s) =>
      let r := s.dumpUnits asid (va + 64) n (bs.drop 64)
      (r.1, r.2.1 + 64, r.2.2)
    | (.error _, s) => (s, 0, some va)

/-- Writes sections that fit, in order, until a unit fails: the sections with what was written, whether one did not
fit, the index and address of a failure. -/
def State.dumpBody (s : State) (asid : BitVec 12) (va size : Nat) :
    Nat → List DumpSec → State × List DumpSec × Bool × Option (Nat × Nat)
  | _, [] => (s, [], false, none)
  | i, q :: r =>
    let body := pad64 q.body
    if size < q.off + body.length then
      let rest := s.dumpBody asid va size (i + 1) r
      (rest.1, q :: rest.2.1, true, rest.2.2.2)
    else
      let w := s.dumpUnits asid (va + q.off) (body.length / 64) body
      let q := { q with written := min w.2.1 q.body.length }
      match w.2.2 with
      | some at' => (w.1, q :: r, false, some (i, at'))
      | none =>
        let rest := w.1.dumpBody asid va size (i + 1) r
        (rest.1, q :: rest.2.1, rest.2.2.1, rest.2.2.2)

/-- The nested record (R276, R285). -/
def nestedRecord (idx va key time : Nat) : List Byte :=
  { code := Flt.nested, lane := 0xFF, tix := 0xFFFF, ordinal := idx, offset := 0, access := 32, va,
    key := BitVec.ofNat 48 key, time : FaultRec }.bytes

/-- The dump of a launch: header, sections, header again. Nothing is written at VA 0 or into a buffer that has no room
for the header. DESIGN CHOICE (log 113): with no fatal record the nested record's key is 0. -/
def State.writeDump (s : State) (l : Launch) (reason time va size : Nat) : State :=
  if va = 0 ∨ size < 256 then s
  else
    let secs := layOut 0x100 (s.dumpSections l reason)
    let firstKey := (((l.records.filter (·.fatal)).head?).map (·.key.toNat)).getD 0
    let key := if reason = 2 ∨ reason = 4 then 0
      else if reason = 3 then ((l.records.head?).map (·.key.toNat)).getD 0 else firstKey
    let lostFlag := if l.lost then 4 else 0
    let head : DumpHead := { reason, key, time }
    let h := s.dumpUnits l.asid va 4 (head.bytes secs)
    match h.2.2 with
    | some at' =>
      let bad : DumpHead := { head with
        flags := 3 + lostFlag, size := at' - va, nested := nestedRecord 0xFFFFFFFF at' firstKey s.drone }
      (h.1.dumpUnits l.asid va 4 (bad.bytes secs)).1
    | none =>
      let b := h.1.dumpBody l.asid va size 0 secs
      let last := (b.2.1.filter fun q => q.written != 0).foldl (fun n q => max n (q.off + roundUp64 q.written)) 0x100
      let done : DumpHead := match b.2.2.2 with
        | some (i, at') => { head with
            flags := 3 + lostFlag, size := at' - va, nested := nestedRecord i at' firstKey s.drone }
        | none => { head with flags := (if b.2.2.1 then 1 else 0) + lostFlag, size := last }
      (b.1.dumpUnits l.asid va 4 (done.bytes b.2.1)).1

end Sys2Proof.Machine
end

