-- ==== Sys2Proof/Machine/Complete.lean ====
section
/-! DEFINITION. How a launch ends (R249, R261, R268): its completion record, the fault-log dump, the version of a fully
rewritten buffer, the state of its trace arena, and what is discarded with it. -/

namespace Sys2Proof.Machine

open Host

/-- A queue enters error; dv_qctl's interrupt reports it as event QERR (R243, R244, R305). -/
def State.queueError (s : State) (q : Nat) (fail : BitVec 8) (va : Nat) : State :=
  let irq := (s.queueD q).irq
  let s := s.modQueue q fun k => { k with state := 3, fail, faultVa := BitVec.ofNat 72 va, packet := none }
  if irq then s.event 4 else s

/-- The 64 bytes of a completion record (R249). -/
def Launch.crBytes (l : Launch) (status error now : Nat) : List Byte :=
  let first := match l.records.head? with | some r => r.bytes | none => List.replicate 32 0
  bytes 4 status ++ bytes 2 error ++ bytes 1 l.flags.toNat ++ bytes 1 0 ++ bytes 4 l.faultCount ++ bytes 4 l.merged ++
    bytes 8 now ++ bytes 8 0 ++ first

/-! ### The writes of the Headworks on behalf of launches (R153, R249, R402) -/

def OutKind.order : OutKind → Nat
  | .admitted => 0
  | .version => 1
  | .final => 2

/-- One queue's writes in the order of their launches, new versions before the final status. -/
def OutWrite.before (a b : OutWrite) : Bool := a.n < b.n || (a.n == b.n && a.kind.order < b.kind.order)

/-- A write of a queue may be made: a final status once the queue's earlier launches and signals have completed and the
versions that its launch raises stand (R153, R249). A part of a gang that has not been committed is not issued yet. -/
def State.mayWrite (s : State) (k : Queue) (w : OutWrite) : Bool :=
  w.kind != .final ||
    (!(s.launches.any fun l => l.queue == k.q && l.prop.isNone && l.st != .staged && l.lid < w.n) &&
      !(k.crWaits.any fun o => o.kind != .admitted && o.before w) && !k.signals.any fun g => g.n < w.n)

/-- A write leaves its queue's list. -/
def State.dropWrite (s : State) (q : Nat) (w : OutWrite) : State :=
  s.modQueue q fun k => { k with crWaits := k.crWaits.filter (· != w) }

/-- Makes a write: it is done, it waits at a page fault, or a fatal answer loses it and sets the queue to error (R402). -/
def State.makeWrite (s : State) (q : Nat) (w : OutWrite) : State :=
  match s.vaWrite headViewer w.asid w.va.toNat w.data with
  | (.ok _, s) => s.dropWrite q w
  | (.error (.parks level at'), s) =>
    let f := s.pageFault w.asid at' level 1 0xFFFF
    f.2.modQueue q fun k => { k with crWaits := upd (· == w) (fun w => { w with fault := some f.1, faultVa := at' }) k.crWaits }
  | (.error (.unmapped at'), s) => (s.dropWrite q w).queueError q 0 at'
  | (.error (.perm at'), s) => (s.dropWrite q w).queueError q 0 at'
  | (.error (.dataerr at'), s) => (s.dropWrite q w).queueError q 0 at'

/-- A write that still waits is made where its turn has come and no fault holds it; one whose fault was answered as fatal
is lost. -/
def State.retryRecord (s : State) (q : Nat) (w : OutWrite) : State :=
  if !(s.queueD q).crWaits.contains w || !s.mayWrite (s.queueD q) w then s
  else
    match w.fault.bind fun fid => s.faults.find? fun (f : PageFault) => f.fid == fid with
    | some f => if f.failed then (s.dropWrite q w).queueError q 0 w.faultVa else s
    | none => s.makeWrite q w

/-- All waiting writes of a queue, in their order. -/
def State.retryRecords (s : State) (q : Nat) : State :=
  (sortBy OutWrite.before (s.queueD q).crWaits).foldl (fun s w => s.retryRecord q w) s

/-- A write joins its queue's list; a final status takes the place of a status 0 that still waits. -/
def State.addWrite (s : State) (q : Nat) (w : OutWrite) : State :=
  s.modQueue q fun k => { k with crWaits :=
    (k.crWaits.filter fun o => !(w.kind == .final && o.kind == .admitted && o.n == w.n)) ++ [w] }

/-- The version of each fully rewritten buffer rises in the launch's table (R249, R297). -/
def State.raiseVersions (s : State) (l : Launch) : State :=
  (l.buffers.zipIdx).foldl (fun s p =>
    if p.1.rewritten then
      s.addWrite l.queue { n := l.lid, kind := .version, va := addrAdd l.bufTable (32 * p.2 + 4 : Nat), asid := l.asid
                           data := bytes 4 (p.1.version + 1).toNat }
    else s) s

/-- A propagation ends with a launch: where it runs, what it runs is discarded and its arena is unusable (R194). -/
def State.dropProp (s : State) (p : Propag) : State :=
  let s := if p.st = 1 then s.arenaPut p.asid (p.arena.toNat + 6) (bytes 1 3) else s
  let s := s.tasks.foldl (fun s t => if t.lid == p.runAs && !t.over then s.stopTask t.tid else s) s
  { s with
    tasks := s.tasks.filter (·.lid != p.runAs)
    launches := s.launches.filter (·.lid != p.runAs)
    props := s.props.filter (·.pid != p.pid) }

/-- Propagations that a launch issued. -/
def State.dropProps (s : State) (lid : Nat) : State :=
  (s.props.filter fun p => p.lid == some lid).foldl (fun s p => s.dropProp p) s

/-- A launch that a halt ends (R268). -/
def LaunchSt.halts : LaunchSt → Bool
  | .halting _ _ _ _ => true
  | .halted _ => true
  | .staged => false
  | .running => false
  | .ended => false

/-- THE END OF A LAUNCH: what still runs is discarded; with status 1 or 2 the arena is complete and versions rise; a launch
that did not halt and kept a record leaves a fault log (R261); then the completion record; then the launch is gone. -/
def State.endLaunch (s : State) (lid status error : Nat) : State :=
  match s.launch? lid with
  | none => s
  | some l =>
    let done := status = 1 ∨ status = 2
    let s := s.dropProps lid
    let s := s.tasks.foldl (fun s t => if t.lid == lid && !t.over then s.stopTask t.tid else s) s
    let l := (s.launch? lid).getD l
    let s := if done ∧ l.lrec = 1 then s.arenaState l 2 else s
    let s := if l.records.isEmpty || l.st.halts then s else s.writeDump l 3 s.drone l.dumpVa.toNat l.dumpSize
    let s := if done then s.raiseVersions l else s
    let s := s.addWrite l.queue
      { n := lid, kind := .final, va := l.cr, asid := l.asid, data := l.crBytes status error s.drone }
    let gone := fun (s : State) => { s with
      tasks := s.tasks.filter (·.lid != lid)
      launches := s.launches.filter (·.lid != lid)
      flight := s.flight.filter (·.lid != lid) }
    ((gone s).foldCells).retryRecords l.queue

end Sys2Proof.Machine
end

