-- ==== Sys2Proof/Machine/Arena.lean ====
section
/-! DEFINITION. The trace arena (R179–R184): its records as bytes, the reader index, marking readers stale (R187), and
writing a task's buffered records as contiguous runs (R183, R185). -/

namespace Sys2Proof.Machine

open Host

/-- An arena: address space and VA. -/
structure ArenaAt where
  asid : BitVec 12
  va : Nat
deriving DecidableEq, Repr

def Launch.arenaAt (l : Launch) : ArenaAt := ⟨l.asid, l.arena.toNat⟩
def Propag.arenaAt (p : Propag) : ArenaAt := ⟨p.asid, p.arena.toNat⟩

def State.arNum (s : State) (a : ArenaAt) (off n : Nat) : Nat := s.vaNum a.asid (a.va + off) n
def State.arPut (s : State) (a : ArenaAt) (off n x : Nat) : State := s.arenaPut a.asid (a.va + off) (bytes n x)

def State.arState (s : State) (a : ArenaAt) : Nat := s.arNum a 6 1
def State.arGeneration (s : State) (a : ArenaAt) : Nat := s.arNum a 8 4 % 2 ^ 29
def State.arStale (s : State) (a : ArenaAt) : Nat := s.arNum a 0xAC 4
/-- Offset, capacity, used count of table i: tasks, reads, writes, contributions, reader index (R179). -/
def State.arTable (s : State) (a : ArenaAt) (i : Nat) : Nat × Nat × Nat := s.arenaTable a.asid a.va i

/-- No record. -/
def noRecord : Nat := 0xFFFFFFFF

/-! ### Task records (R180) -/

structure TaskRec where
  key : Nat
  /-- 0 live, 1 stale, 2 spliced, 3 discarded. -/
  st : Nat := 0
  slot : Nat
  parent : Nat
  site : Nat
  entry : Nat
  kids : Nat := 0
  reads : Nat × Nat := (0, 0)
  writes : Nat × Nat := (0, 0)
  contribs : Nat × Nat := (0, 0)
  first : Nat := noRecord
  next : Nat := noRecord
  block : Nat
deriving DecidableEq, Repr

def TaskRec.bytes (r : TaskRec) : List Byte :=
  let run := fun (p : Nat × Nat) => Machine.bytes 4 p.1 ++ Machine.bytes 4 p.2
  Machine.bytes 6 r.key ++ Machine.bytes 1 r.st ++ Machine.bytes 1 r.slot ++ Machine.bytes 4 r.parent ++
    Machine.bytes 4 r.site ++ Machine.bytes 2 r.entry ++ Machine.bytes 1 r.kids ++ Machine.bytes 1 0 ++
    run r.reads ++ run r.writes ++ run r.contribs ++ Machine.bytes 4 r.first ++ Machine.bytes 4 r.next ++
    Machine.bytes 9 r.block ++ Machine.bytes 3 0

def TaskRec.ofBytes (bs : List Byte) : TaskRec :=
  let f := fun (o n : Nat) => num ((bs.drop o).take n)
  { key := f 0 6, st := f 6 1, slot := f 7 1, parent := f 8 4, site := f 12 4, entry := f 16 2, kids := f 18 1,
    reads := (f 0x14 4, f 0x18 4), writes := (f 0x1C 4, f 0x20 4), contribs := (f 0x24 4, f 0x28 4),
    first := f 0x2C 4, next := f 0x30 4, block := f 0x34 9 }

def State.taskRec (s : State) (a : ArenaAt) (i : Nat) : TaskRec :=
  TaskRec.ofBytes ((s.vaBytes a.asid (a.va + (s.arTable a 0).1 + 64 * i) 64).getD [])

def State.putTaskRec (s : State) (a : ArenaAt) (i : Nat) (r : TaskRec) : State :=
  s.arenaPut a.asid (a.va + (s.arTable a 0).1 + 64 * i) r.bytes

def State.modTaskRec (s : State) (a : ArenaAt) (i : Nat) (f : TaskRec → TaskRec) : State :=
  (s.ask 10 1).putTaskRec a i (f (s.taskRec a i))

/-- Every task record. -/
def State.taskRecs (s : State) (a : ArenaAt) : List (Nat × TaskRec) :=
  (List.range (s.arTable a 0).2.2).map fun i => (i, s.taskRec a i)

/-- The children of a record, in ascending slot; fuel bounds the chain. -/
def State.kidsFrom (s : State) (a : ArenaAt) : Nat → Nat → List Nat
  | 0, _ => []
  | n + 1, i => if i = noRecord then [] else i :: s.kidsFrom a n (s.taskRec a i).next

def State.kidsOf (s : State) (a : ArenaAt) (i : Nat) : List Nat := s.kidsFrom a 255 (s.taskRec a i).first

/-- Chains children to their parent in the given order. -/
def State.chain (s : State) (a : ArenaAt) : List Nat → State
  | [] => s
  | [i] => s.modTaskRec a i fun r => { r with next := noRecord }
  | i :: j :: r => (s.modTaskRec a i fun r => { r with next := j }).chain a (j :: r)

/-- Adds a child record to its parent's chain. -/
def State.addKid (s : State) (a : ArenaAt) (parent kid : Nat) : State :=
  let kids := insertBy (fun i j => (s.taskRec a i).slot < (s.taskRec a j).slot) kid (s.kidsOf a parent)
  (s.chain a kids).modTaskRec a parent fun r => { r with first := kids.headD noRecord, kids := kids.length }

/-- The records above a record, itself excluded. -/
def State.above (s : State) (a : ArenaAt) : Nat → Nat → List Nat
  | 0, _ => []
  | n + 1, i =>
    let p := (s.taskRec a i).parent
    if p = noRecord then [] else p :: s.above a n p

/-- A record and everything below it. -/
def State.subtree (s : State) (a : ArenaAt) : Nat → Nat → List Nat
  | 0, i => [i]
  | n + 1, i => i :: (s.kidsOf a i).flatMap fun j => s.subtree a n j

/-! ### Read records and the reader index (R181, R184) -/

/-- Sector, version and index of a read record or bucket. -/
structure ReadRec where
  sector : Nat
  version : Nat
  ix : Nat
deriving DecidableEq, Repr

def ReadRec.num (r : ReadRec) : Nat := r.sector * 2 ^ 61 + r.version * 2 ^ 32 + r.ix
def ReadRec.ofNum (x : Nat) : ReadRec := ⟨x / 2 ^ 61, x / 2 ^ 32 % 2 ^ 29, x % 2 ^ 32⟩

def State.readRec (s : State) (a : ArenaAt) (i : Nat) : ReadRec := ReadRec.ofNum (s.arNum a ((s.arTable a 1).1 + 16 * i) 16)
def State.bucket (s : State) (a : ArenaAt) (i : Nat) : ReadRec := ReadRec.ofNum (s.arNum a ((s.arTable a 4).1 + 16 * i) 16)

/-- The home bucket of a sector (R184). -/
def homeBucket (nb sector : Nat) : Nat :=
  (rngHash (BitVec.ofNat 32 sector) (BitVec.ofNat 32 (sector / 2 ^ 32)) (BitVec.ofNat 32 (sector / 2 ^ 64 % 8))).toNat % nb

/-- The first empty bucket at or after one. -/
def State.emptyBucket (s : State) (a : ArenaAt) (nb : Nat) : Nat → Nat → Nat
  | 0, i => i
  | n + 1, i => if (s.bucket a i).ix = noRecord then i else s.emptyBucket a nb n ((i + 1) % nb)

/-- The read records that the buckets of a sector name, from its home bucket to the first empty one. -/
def State.bucketsOf (s : State) (a : ArenaAt) (nb sector : Nat) : Nat → Nat → List Nat
  | 0, _ => []
  | n + 1, i =>
    let b := s.bucket a i
    if b.ix = noRecord then []
    else
      let rest := s.bucketsOf a nb sector n ((i + 1) % nb)
      if b.sector = sector then b.ix :: rest else rest

/-- A read record is in the current run of a task that is not discarded (R183). -/
def State.liveRead (s : State) (a : ArenaAt) (ix : Nat) : Option Nat :=
  let t := (s.readRec a ix).ix
  let r := s.taskRec a t
  if r.st ≠ 3 ∧ r.reads.1 ≤ ix ∧ ix < r.reads.1 + r.reads.2 then some t else none

def State.addBucket (s : State) (a : ArenaAt) (r : ReadRec) : State :=
  let nb := (s.arTable a 4).2.1
  let home := homeBucket nb r.sector
  let i := s.emptyBucket a nb nb home
  let s := s.ask 10 ((nb + i - home) % max nb 1 / 4 + 1)
  let s := s.arenaPut a.asid (a.va + (s.arTable a 4).1 + 16 * i) (bytes 16 r.num)
  s.setUsed a.asid a.va 4 ((s.arTable a 4).2.2 + 1)

/-! ### Stale records (R187, R190, R193) -/

/-- Records that a propagation still has to run: stale, beyond the last, with no stale record above (R190). -/
def State.toRun (s : State) (a : ArenaAt) (last : Option (BitVec 48)) : List (Nat × TaskRec) :=
  (s.taskRecs a).filter fun p =>
    p.2.st == 1 && (match last with | some k => k.toNat < p.2.key | none => true) &&
      !(s.above a 5 p.1).any fun j => (s.taskRec a j).st == 1

/-- What propagations on the arena still have to run, for the watermark (R193). -/
def State.refreshProps (s : State) (a : ArenaAt) : State :=
  { s with props := s.props.map fun p =>
      if p.arenaAt == a && p.st == 1 then { p with toRun := (s.toRun a p.last).map (·.2.key) } else p }

/-- Marks a record stale, once. -/
def State.markRec (s : State) (a : ArenaAt) (writer : Option Nat) (i : Nat) : State :=
  let r := s.taskRec a i
  let after : Bool := match writer with | none => true | some k => decide (k < r.key)
  if (r.st == 0 || r.st == 2) && after then
    (s.putTaskRec a i { r with st := 1 }).arPut a 0xAC 4 (s.arStale a + 1)
  else s

/-- R187 for one sector; writer is none for MODW and MODWRITE. Reads that a running task has made and whose records
are not yet in the table count as in the index. -/
def State.markSector (s : State) (a : ArenaAt) (sector : Nat) (writer : Option Nat) : State :=
  let nb := (s.arTable a 4).2.1
  let found := s.bucketsOf a nb sector nb (homeBucket nb sector)
  let kept := found.filterMap fun ix => s.liveRead a ix
  let s := s.ask 10 (1 + 2 * found.length)
  let fresh := s.tasks.filterMap fun t => match s.launch? t.lid, t.record with
    | some l, some i => if l.arenaAt == a && l.records? && t.trec.reads.contains sector then some i else none
    | _, _ => none
  ((kept ++ fresh).eraseDups.foldl (fun s i => s.markRec a writer i) s).refreshProps a

/-- The sectors in which two byte strings at a VA differ. -/
def changedSectors (va : Nat) (old new : List Byte) : List Nat :=
  (((old.zip new).zipIdx.filter fun p => p.1.1 != p.1.2).map fun p => (va + p.2) / 32).eraseDups

/-! ### Write and contribution records (R182) -/

structure WordRec where
  va : Nat
  mask : Nat
  task : Nat
  pre : Nat
  post : Nat
deriving DecidableEq, Repr

def WordRec.bytes (w : WordRec) : List Byte :=
  Machine.bytes 8 (w.va / 256) ++ Machine.bytes 1 (w.va / 8 % 32) ++ Machine.bytes 1 w.mask ++ Machine.bytes 2 0 ++
    Machine.bytes 4 w.task ++ Machine.bytes 8 w.pre ++ Machine.bytes 8 w.post

def State.wordRec (s : State) (a : ArenaAt) (i : Nat) : WordRec :=
  let bs := (s.vaBytes a.asid (a.va + (s.arTable a 2).1 + 32 * i) 32).getD []
  let f := fun (o n : Nat) => num ((bs.drop o).take n)
  { va := f 0 8 * 256 + f 8 1 % 32 * 8, mask := f 9 1, task := f 12 4, pre := f 16 8, post := f 24 8 }

structure ContribRec where
  cseq : Nat
  tix : Nat
  major : Nat
  ty : Nat
  va : Nat
  operand : Nat
deriving DecidableEq, Repr

def ContribRec.bytes (c : ContribRec) : List Byte :=
  Machine.bytes 4 c.cseq ++ Machine.bytes 2 c.tix ++ Machine.bytes 1 c.major ++
    Machine.bytes 1 (c.ty + 8 * (c.va / 32 % 8)) ++ Machine.bytes 8 (c.va / 256) ++ Machine.bytes 16 c.operand

def State.contribRec (s : State) (a : ArenaAt) (i : Nat) : ContribRec :=
  let bs := (s.vaBytes a.asid (a.va + (s.arTable a 3).1 + 32 * i) 32).getD []
  let f := fun (o n : Nat) => num ((bs.drop o).take n)
  { cseq := f 0 4, tix := f 4 2, major := f 6 1, ty := f 7 1 % 8, va := f 8 8 * 256 + f 7 1 / 8 % 8 * 32, operand := f 16 16 }

/-! ### Writing a task's runs (R183, R185) -/

/-- Appends equal-sized records to table i and answers where they begin. -/
def State.appendRecs (s : State) (a : ArenaAt) (i size : Nat) (recs : List (List Byte)) : Nat × State :=
  let t := s.arTable a i
  let s := s.ask 10 1
  let s := (recs.zipIdx).foldl (fun s p => s.arenaPut a.asid (a.va + t.1 + size * (t.2.2 + p.2)) p.1) s
  (t.2.2, s.setUsed a.asid a.va i (t.2.2 + recs.length))

/-- The launch holds places in the tables that this task has now used or given up. -/
def State.release? (s : State) (l : Launch) (reads contribs : Nat) : State :=
  s.modLaunch l.lid fun l => { l with pending := (l.pending.1 - reads, l.pending.2.1, l.pending.2.2 - contribs) }

/-- A run of records: an empty one begins nowhere (R198). -/
def runOf (first count : Nat) : Nat × Nat := if count = 0 then (0, 0) else (first, count)

/-- A task's read and contribution records, whose places were found at the accesses. -/
def State.flushReads (s : State) (t : Task) (l : Launch) (i : Nat) : State :=
  let a := l.arenaAt
  let gen := s.arGeneration a
  let rs := t.trec.reads.map fun sec => (⟨sec, gen, i⟩ : ReadRec)
  let r := s.appendRecs a 1 16 (rs.map fun q => bytes 16 q.num)
  let s := (rs.zipIdx).foldl (fun s p => s.addBucket a { p.1 with ix := r.1 + p.2 }) r.2
  let cs := t.trec.contribs.map fun c =>
    ({ cseq := c.1, tix := c.2.1, major := c.2.2.1, ty := c.2.2.2.1, va := c.2.2.2.2.1, operand := c.2.2.2.2.2 } : ContribRec)
  let c := s.appendRecs a 3 32 (cs.map ContribRec.bytes)
  let s := c.2.modTaskRec a i fun q => { q with reads := runOf r.1 rs.length, contribs := runOf c.1 cs.length }
  s.release? l rs.length cs.length

/-- A task's write records, each with its post-write value; TRACECAP without a thread where they do not fit. -/
def State.flushWrites (s : State) (t : Task) (l : Launch) (i : Nat) : State :=
  let a := l.arenaAt
  let ws := t.trec.writes.filterMap fun w => w.post.map fun post =>
    ({ va := w.va, mask := w.mask, task := i, pre := w.pre, post } : WordRec)
  let tb := s.arTable a 2
  if tb.2.1 < tb.2.2 + ws.length then s.tracecapNoThread t l
  else
    let r := s.appendRecs a 2 32 (ws.map WordRec.bytes)
    r.2.modTaskRec a i fun q => { q with writes := runOf r.1 ws.length }

/-- A task's records reach the arena, once. -/
def State.flushTask (s : State) (tid : Nat) : State :=
  match s.task? tid, s.launchOf? tid with
  | some t, some l =>
    match t.record with
    | none => s
    | some i =>
      if !l.records? || t.flushed then s
      else
        let s := (s.flushReads t l i).flushWrites t l i
        (s.modTask tid fun t => { t with trec := {}, flushed := true }).refreshProps l.arenaAt
  | _, _ => s

end Sys2Proof.Machine
end

