-- ==== Sys2Proof/Machine/Rerun.lean ====
section
/-! DEFINITION. What a re-executed task does to its arena (R190–R192): its start, the marks and the match at a SPAWN,
and at its retirement the discards, reversions and withdrawals. -/

namespace Sys2Proof.Machine

open Host

/-- The propagation on an arena that is running. -/
def State.propOn (s : State) (a : ArenaAt) : Option Propag := s.props.find? fun p => p.arenaAt == a && p.st == 1

def Propag.oldOf (p : Propag) (i : Nat) : List Nat := ((p.old.find? (·.1 == i)).map (·.2)).getD []

def Propag.setOld (p : Propag) (i : Nat) (l : List Nat) : Propag := { p with old := (i, l) :: p.old.filter (·.1 != i) }

/-- The run that a record's task begins again: its counters, its old children and old runs, and an empty record. -/
def State.startRerun (s : State) (pid i : Nat) : State :=
  match s.prop? pid with
  | none => s
  | some p =>
    let a := p.arenaAt
    let r := s.taskRec a i
    let kids := s.kidsOf a i
    let s := s.ask 10 (1 + kids.length)
    let s := if r.st = 1 then s.arPut a 0xAC 4 (s.arStale a - 1) else s
    let s := s.putTaskRec a i { r with st := 0, kids := 0, first := noRecord, reads := (0, 0) }
    (s.modProp pid fun p => { p.setOld i kids with
      re := p.re + 1
      oldRuns := (i, r.writes, r.contribs) :: p.oldRuns.filter (·.1 != i) }).refreshProps a

/-- The old write records of a record's task. -/
def State.oldWords (s : State) (p : Propag) (i : Nat) : List WordRec :=
  match p.oldRuns.find? (·.1 == i) with
  | some (_, w, _) => (List.range w.2).map fun k => s.wordRec p.arenaAt (w.1 + k)
  | none => []

def State.oldContribs (s : State) (p : Propag) (i : Nat) : List ContribRec :=
  match p.oldRuns.find? (·.1 == i) with
  | some (_, _, c) => (List.range c.2).map fun k => s.contribRec p.arenaAt (c.1 + k)
  | none => []

/-- The device page that a VA reaches, by a walk. -/
def State.devicePa (s : State) (asid : BitVec 12) (va : Nat) : Option (Attr × Nat) :=
  match (s.walkFull asid va).1 with
  | .leaf e => some (attrOf e, leafPa e + va % 65536)
  | .hole _ => none
  | .bad => none
  | .dataerr => none

/-- Bytes written at a VA on the trace-maintenance path, under whatever key the line has; readers of changed sectors
are marked with the writer's key. -/
def State.putMarked (s : State) (a : ArenaAt) (writer : Option Nat) (va : Nat) (bs : List Byte) : State :=
  match s.devicePa a.asid va with
  | none => s
  | some (_, pa) =>
    let old := (List.range bs.length).map fun i => s.plainByte (s.tagAt ((pa + i) / 64)) (pa + i)
    let s := ((bs.zipIdx).foldl (fun s p => s.plainWrite (s.tagAt ((pa + p.2) / 64)) (pa + p.2) [p.1]) s).ask 10 1
    (changedSectors va old bs).foldl (fun s sec => s.markSector a sec writer) s

/-- The bytes of a word that a mask picks. -/
def maskBytes (mask x : Nat) : List (Nat × Byte) :=
  ((List.range 8).filter fun i => mask.testBit i).map fun i => (i, BitVec.ofNat 8 (x / 2 ^ (8 * i)))

/-- At a SPAWN, each sector whose bytes the task has changed in this run against its old write records (R190). -/
def State.spawnMarks (s : State) (p : Propag) (t : Task) (i : Nat) : State :=
  let olds := s.oldWords p i
  let changed := t.trec.writes.filterMap fun w =>
    let o := olds.find? (·.va == w.va)
    let diff := (List.range 8).any fun k =>
      w.mask.testBit k && (
        let here := if w.direct then s.mem.get (w.pa + k) else (Shadow.get? t.shadow (w.pa + k)).getD (s.mem.get (w.pa + k))
        let ref := match o with
          | some r => if r.mask.testBit k then BitVec.ofNat 8 (r.post / 2 ^ (8 * k)) else
              (if w.direct then BitVec.ofNat 8 (w.pre / 2 ^ (8 * k)) else s.mem.get (w.pa + k))
          | none => if w.direct then BitVec.ofNat 8 (w.pre / 2 ^ (8 * k)) else s.mem.get (w.pa + k)
        here != ref)
    if diff then some (w.va / 32) else none
  changed.eraseDups.foldl (fun s sec => s.markSector p.arenaAt sec (some t.key.toNat)) s

inductive Matched where
  | fresh
  | splice (i : Nat)
  | rerun (i : Nat)
deriving DecidableEq, Repr

/-- What a SPAWN of a re-executed task finds among its old children (R190). -/
def State.matchKid (s : State) (p : Propag) (parent slot entry block : Nat) : Matched :=
  let a := p.arenaAt
  let same := fun (i : Nat) => let r := s.taskRec a i; r.slot == slot && r.entry == entry && r.block == block
  match (p.oldOf parent).find? same with
  | none => .fresh
  | some i => if (s.taskRec a i).st = 1 then .rerun i else .splice i

/-- A matched child leaves the old list and stands under its parent again; a spliced one is counted. -/
def State.takeKid (s : State) (p : Propag) (parent i : Nat) (splice : Bool) : State :=
  let a := p.arenaAt
  let s := (s.addKid a parent i).modProp p.pid fun q => q.setOld parent ((q.oldOf parent).filter (· != i))
  if splice then (s.modTaskRec a i fun r => { r with st := 2 }).modProp p.pid fun q => { q with sp := q.sp + 1 } else s

/-! ### At retirement (R167, R190, R191) -/

/-- A live or spliced task outside a set, with a greater key, has a write record for a word. -/
def State.keptBy (s : State) (a : ArenaAt) (inside : List Nat) (key va : Nat) : Bool :=
  (s.taskRecs a).any fun q =>
    !inside.contains q.1 && (q.2.st == 0 || q.2.st == 2) && key < q.2.key &&
      (List.range q.2.writes.2).any fun k => (s.wordRec a (q.2.writes.1 + k)).va == va

/-- A word reverts: the bytes of a mask take their pre-write value (R191). DESIGN CHOICE (log 132): the mask unites those of
the subtree's records for the word, and its other bytes stay. -/
def State.revertWord (s : State) (a : ArenaAt) (inside : List Nat) (key va mask pre : Nat) : State :=
  if s.keptBy a inside key va then s
  else (maskBytes mask pre).foldl (fun s b => s.putMarked a (some key) (va + b.1) [b.2]) s

/-- Withdrawals set out for contributions of a task key (R167). -/
def State.withdraw (s : State) (a : ArenaAt) (key : Nat) (cs : List ContribRec) : State :=
  let scope := 2 * (a.asid.toNat + 4096 * a.va) + 1
  cs.foldl (fun s c => match s.devicePa a.asid c.va with
    | some (_, pa) =>
      let n := s.takeFresh
      { n.2 with withdrawals := n.2.withdrawals ++
          [(n.1, scope, pa, BitVec.ofNat 48 key, c.tix, BitVec.ofNat 32 c.cseq)] }
    | none => s) s

/-- The words of a subtree with the value of the lowest-keyed record: VA, key, mask, pre-write value. -/
def subtreeWords (l : List (Nat × List WordRec)) : List (Nat × Nat × Nat × Nat) :=
  l.foldl (fun acc q => q.2.foldl (fun acc w =>
    if acc.any (·.1 == w.va) then upd (·.1 == w.va) (fun e => (e.1, e.2.1, e.2.2.1 ||| w.mask, e.2.2.2)) acc
    else acc ++ [(w.va, q.1, w.mask, w.pre)]) acc) []

/-- R191: a record and every descendant is discarded. -/
def State.discardRec (s : State) (a : ArenaAt) (i : Nat) : State :=
  let ids := s.subtree a 4 i
  let recs := sortBy (fun (x y : Nat × TaskRec) => x.2.key < y.2.key) (ids.map fun j => (j, s.taskRec a j))
  let words := subtreeWords (recs.map fun q => (q.2.key, (List.range q.2.writes.2).map fun k => s.wordRec a (q.2.writes.1 + k)))
  let s := recs.foldl (fun s q =>
    let s := s.ask 10 ((q.2.writes.2 + q.2.contribs.2 + 1) / 2)
    let s := if q.2.st = 1 then s.arPut a 0xAC 4 (s.arStale a - 1) else s
    let s := s.modTaskRec a q.1 fun r => { r with st := 3 }
    s.withdraw a q.2.key ((List.range q.2.contribs.2).map fun k => s.contribRec a (q.2.contribs.1 + k))) s
  words.foldl (fun s w => s.revertWord a ids w.2.1 w.1 w.2.2.1 w.2.2.2) s

/-- A re-executed task retires: unmatched old children are discarded, words that this run did not write revert,
contributions that it did not issue again are withdrawn. DEDUCED (log 125): one whose stamp it issued on another cell is
withdrawn at the old cell, so that cells stand as after a fresh run (R193). -/
def State.finishRerun (s : State) (t : Task) : State :=
  match t.prop.bind s.prop?, t.record with
  | some p, some i =>
    let a := p.arenaAt
    let words := s.oldWords p i
    let contribs := s.oldContribs p i
    let s := s.ask 10 ((words.length + contribs.length + 1) / 2)
    let left := sortBy (fun x y => (s.taskRec a x).slot < (s.taskRec a y).slot) (p.oldOf i)
    let s := left.foldl (fun s c => (s.discardRec a c).modProp p.pid fun q => { q with di := q.di + 1 }) s
    let gone := words.filter fun w => !t.wrote.contains w.va
    let s := gone.foldl (fun s w => s.revertWord a [i] t.key.toNat w.va w.mask w.pre) s
    let lost := contribs.filter fun c => !t.issued.contains (c.cseq, c.tix, c.va)
    (s.withdraw a t.key.toNat lost).modProp p.pid fun q =>
      { q with old := q.old.filter (·.1 != i), oldRuns := q.oldRuns.filter (·.1 != i) }
  | _, _ => s

end Sys2Proof.Machine
end

