-- ==== Sys2Proof/Machine/HostMem.lean ====
section
/-! DEFINITION. Host access to device memory (R146, R147, R159, R277, R288, R289): what a store does, the host log of a
launch, and the slots of a shadow arena (R141). -/

namespace Sys2Proof.Machine

open Host

/-! ### Slots of a shadow arena (R141, R146) -/

/-- The lines of a launch's host log. DESIGN CHOICE (log 130): several stores to one line take one slot. -/
def Launch.logLines (l : Launch) : List Nat := (l.hostLog.map fun e => e.1 / 64).eraseDups

/-- Slots in use: spilled lines of the launch's tasks and of reruns that spill to its arena, and its host log. -/
def State.slotsUsed (s : State) (l : Launch) : Nat :=
  let lids := l.lid :: (s.props.filter fun p => p.lid == some l.lid).map (·.runAs)
  ((s.tasks.filter fun t => lids.contains t.lid).map fun t => t.spilled.length).sum + l.logLines.length

/-- The launch whose arena takes a task's spills. -/
def State.spillHost (s : State) (l : Launch) : Launch :=
  match (l.prop.bind s.prop?).bind (·.lid) with
  | some lid => (s.launch? lid).getD l
  | none => l

/-! ### Host stores and loads -/

/-- The launch that declares a PA; the one admitted first where several do. -/
def State.declares (s : State) (pa : Nat) : Option Launch :=
  s.launches.find? fun l => l.prop.isNone && l.st != .staged && l.hostSet.contains (pa / 65536)

/-- The key that a host request names. -/
def State.hostTag (s : State) (key : Nat) (ver : BitVec 32) : Nat × Nat :=
  let k := s.slotKey key
  if k = 0 then (0, 0) else (k, ver.toNat)

def State.reply (s : State) (stream code : Nat) (data : List Byte) : State :=
  { s with host := { s.host with replies := s.host.replies ++ [(stream, code, data)] } }

/-- The masked bytes of a 64-byte unit. -/
def maskedBytes (pa : Nat) (mask : BitVec 64) (data : BitVec 512) : List (Nat × Byte) :=
  ((List.range 64).filter fun i => mask.getLsbD i).map fun i => (pa + i, BitVec.ofNat 8 (data.toNat / 2 ^ (8 * i)))

/-- A byte of a host store reaches the MSC; running tasks may still see the older one (R151). -/
def State.hostByte (s : State) (tag : Nat × Nat) (pa : Nat) (b : Byte) : State :=
  (s.ageTasks 4 pa [s.settledByte pa]).plainWrite tag pa [b]

/-- The data of a host store reaches the MSC. -/
def State.hostPut (s : State) (tag : Nat × Nat) (pa : Nat) (mask : BitVec 64) (data : BitVec 512) : State :=
  let s := (maskedBytes pa mask data).foldl (fun s b => s.hostByte tag b.1 b.2) s
  if mask = BitVec.allOnes 64 then s.clearBad pa 64 else s

/-- A delayed store of a stream, behind which its later requests wait (R153, R288). -/
def State.streamWaits (s : State) (stream : Nat) : Bool := s.host.delayed.any (·.1 == stream)

/-- One host store of a 64-byte unit: it waits behind a delayed one of its stream and while the log occupies a quarter of
its arena; else it is refused, logged or written at once. DESIGN CHOICE (log 114): with spilled lines in every other slot a
log entry is taken all the same; R141's SHADOWCAP follows at the next spill. -/
def State.hostStore (s : State) (stream pa key : Nat) (ver : BitVec 32) (mask : BitVec 64) (data : BitVec 512) : State :=
  let pa := pa / 64 * 64
  let wait : State := { s with host := { s.host with delayed := s.host.delayed ++ [(stream, pa, key, ver, mask, data)] } }
  if s.streamWaits stream then wait
  else if Config.deviceBytes ≤ pa then s.reply stream 3 []
  else if s.unsettledLine (pa / 64) then s.reply stream 2 []
  else
    let tag := s.hostTag key ver
    match s.declares pa with
    | none => (s.hostPut tag pa mask data).reply stream 0 []
    | some l =>
      if l.logLines.length < l.shadowSlots / 4 then
        let new := (maskedBytes pa mask data).map fun b => (b.1, tag, b.2)
        (s.modLaunch l.lid fun l => { l with hostLog := l.hostLog ++ new }).reply stream 0 []
      else wait

/-- A host load of a 64-byte unit: the committed state as the request's key and version decrypt it. -/
def State.hostLoad (s : State) (stream pa key : Nat) (ver : BitVec 32) : State :=
  let pa := pa / 64 * 64
  if Config.deviceBytes ≤ pa then s.reply stream 3 []
  else if s.badLine pa then (s.lineFails pa).reply stream 1 []
  else
    let tag := s.hostTag key ver
    s.reply stream 0 ((List.range 64).map fun i => s.plainByte tag (pa + i))

/-- Host stores that waited for room in a log try again, in order. -/
def State.retryHost (s : State) : State :=
  s.host.delayed.foldl (fun s d => s.hostStore d.1 d.2.1 d.2.2.1 d.2.2.2.1 d.2.2.2.2.1 d.2.2.2.2.2)
    { s with host := { s.host with delayed := [] } }

/-- The lines of which a host log holds every byte: the stores that it applies write them whole. -/
def fullLines (log : List (Nat × (Nat × Nat) × Byte)) : List Nat :=
  ((log.map fun e => e.1 / 64).eraseDups).filter fun n => (List.range 64).all fun i => log.any fun e => e.1 == 64 * n + i

/-- The host log of a launch is applied at its boundary, in the order of arrival, a line written whole leaves its bad-line
list (R277), and the delayed stores go on (R142, R146). -/
def State.applyHostLog (s : State) (lid : Nat) : State :=
  match s.launch? lid with
  | none => s
  | some l =>
    let s := l.hostLog.foldl (fun s e => s.hostByte e.2.1 e.1 e.2.2) s
    let s := (fullLines l.hostLog).foldl (fun s n => s.clearBad (64 * n) 64) s
    (s.modLaunch lid fun l => { l with hostLog := [] }).retryHost

/-- A launch ends at a boundary or by a halt: its host log reaches memory first. -/
def State.closeLaunch (s : State) (lid status error : Nat) : State :=
  ((s.applyHostLog lid).endLaunch lid status error).retryHost

end Sys2Proof.Machine
end

