-- ==== Sys2Proof/Machine/Task.lean ====
section
/-! DEFINITION. Tasks and the Sluice (R58–R68, R120, R139–R145, R161, R168, R215, R251, R283, R344, R354, R383, R384):
admission, placement and dispatch, SPAWN and JOIN, retirement, and the merge of shadow lines. -/

namespace Sys2Proof.Machine

open Host

/-! ### Room on a core (R66, R68) -/

/-- Shares that stand on a logical core, with their tasks. -/
def State.sharesAt (s : State) (x y : Nat) : List (Task × Share) :=
  (s.tasks.filter (·.st == .resident)).flatMap fun t =>
    (t.shares.filter fun h => s.coreXY t h.c == (x, y)).map fun h => (t, h)

/-- The slot that takes the next context: fewest bound waves, lowest number. -/
def leastSlot (counts : List Nat) : Nat :=
  (List.range Config.slots).foldl (fun b i => if nth counts i 0 < nth counts b 0 then i else b) 0

/-- Binds n contexts in ascending k.wix; the slots they take and the counts after. -/
def bindSlots : Nat → List Nat → List Nat × List Nat
  | 0, counts => ([], counts)
  | n + 1, counts =>
    let i := leastSlot counts
    let r := bindSlots n (putAt 0 counts i (nth counts i 0 + 1))
    (i :: r.1, r.2)

def State.slotCounts (s : State) (x y : Nat) : List Nat :=
  (List.range Config.slots).map fun i =>
    (((s.sharesAt x y).flatMap fun p => p.2.waves).filter fun w => w.slot == i).length

/-- Register bytes of a kernel's stages on one core (R52). -/
def regBytesOf (stages : List StageRec) : Nat := (stages.map fun g => g.waves * g.budget * 128).sum

def spaceCap (space : Nat) : Nat :=
  match space with
  | 0 => Config.scratchBytes
  | 1 => Config.abufBytes
  | 2 => Config.cbufBytes
  | _ => Config.wbufBytes

def Launch.chanRecs (l : Launch) (k : Kernel) : List ChanRec := (l.code.chans.drop k.chan0).take k.nchans

def chanBytes (cs : List ChanRec) (space : Nat) : Nat := ((cs.filter (·.space == space)).map fun c => 2 ^ c.log).sum

/-- One core has room for a task of a kernel. -/
def State.coreRoom (s : State) (l : Launch) (kernel x y : Nat) : Bool :=
  let k := l.kernel kernel
  let stages := l.stages kernel
  let here := s.sharesAt x y
  let waves := (stages.map (·.waves)).sum
  let used := here.map fun p => p.2.waves.length
  let regs := here.map fun p => regBytesOf (s.stagesOf p.1)
  let cs := l.chanRecs k
  here.length < Config.tasksPerCore && used.sum + waves ≤ Config.wavesPerCore &&
    (bindSlots waves (s.slotCounts x y)).2.all (· ≤ Config.wavesPerSlot) &&
    regs.sum + regBytesOf stages ≤ Config.regBytes &&
    (List.range 4).all fun sp => (here.map fun p => p.2.size sp).sum + chanBytes cs sp ≤ spaceCap sp

/-- The cores of a partition that PREEMPT has left it. -/
def Part.has (p : Part) (x y : Nat) : Bool :=
  p.x0 ≤ x && x < p.x0 + p.w && p.y0 ≤ y && y < p.y0 + p.h &&
    match p.cores with | some l => l.contains (x, y) | none => true

/-- An aligned position inside the partition (R64). -/
def Part.aligned (p : Part) (k : Kernel) (x y : Nat) : Bool :=
  x % k.polW == 0 && y % k.polH == 0 && p.x0 ≤ x && x + k.polW ≤ p.x0 + p.w && p.y0 ≤ y && y + k.polH ≤ p.y0 + p.h

def polderCores (k : Kernel) (x y : Nat) : List (Nat × Nat) :=
  (List.range (k.polW * k.polH)).map fun c => (x + c % k.polW, y + c / k.polW)

/-- A task of a kernel may be placed at (x, y). -/
def State.fits (s : State) (l : Launch) (kernel x y : Nat) : Bool :=
  match s.part? l.part with
  | some p =>
    let k := l.kernel kernel
    p.aligned k x y && (polderCores k x y).all fun q => p.has q.1 q.2 && s.coreRoom l kernel q.1 q.2
  | none => false

/-! ### Contexts and shares at dispatch (R67, R68, R120, R283) -/

/-- Channels with their bases: descending size, ties in ascending id (R120). -/
def layChannels (cs : List ChanRec) : List Chan :=
  let ids := cs.zipIdx
  ids.map fun p =>
    let before := ids.filter fun q => q.1.space == p.1.space && (p.1.log < q.1.log || (p.1.log == q.1.log && q.2 < p.2))
    { space := p.1.space, base := (before.map fun q => 2 ^ q.1.log).sum, size := 2 ^ p.1.log, elem := p.1.elem }

def newThread (tix pc : Nat) : Thread := { tix, pc }

/-- A wave context at dispatch; start gives each thread. -/
def newWave (w c wix stage slot now : Nat) (start : Nat → Thread) : Wave :=
  { wix, stage, slot, since := now, lanes := (List.range 32).map fun l => some (start ((c * w + wix) * 32 + l)) }

/-- The share of a task on core index c, its contexts bound beside those that the core has. -/
def State.newShare (s : State) (l : Launch) (t : Task) (x y c : Nat) (start : Nat → Nat → Thread) : Share :=
  let k := l.kernel t.kernel
  let stages := l.stages t.kernel
  let map_ := stageMap stages
  let xy := (x + c % k.polW, y + c / k.polW)
  let slots := (bindSlots map_.length (s.slotCounts xy.1 xy.2)).1
  { c, chans := layChannels (l.chanRecs k)
    waves := (map_.zipIdx).map fun p => newWave map_.length c p.2 p.1 (nth slots p.2 0) s.free (start p.1) }

/-- A power-gated core is woken, which takes 2 µs (R62). -/
def Core.wake (c : Core) (now : Nat) : Core :=
  if c.gated then { c with gated := false, awake := now + 2000 * Config.droneTick } else c

/-- The planner power-gates the cores of a partition that stand empty (R62). -/
def State.gateIdle (s : State) (p : Part) : State :=
  ((List.range p.h).flatMap fun j => (List.range p.w).map fun i => (p.x0 + i, p.y0 + j)).foldl (fun s q =>
    if (s.sharesAt q.1 q.2).isEmpty then s.modCore q.1 q.2 fun c => { c with gated := true } else s) s

/-- The same for the partition of a launch. -/
def State.gateUnused (s : State) (l : Launch) : State := match s.part? l.part with | some p => s.gateIdle p | none => s

/-- Places a task: its shares, its cores awake. -/
def State.place (s : State) (l : Launch) (t : Task) (x y : Nat) (start : Nat → Nat → Thread) : State :=
  let k := l.kernel t.kernel
  let shares := (List.range (k.polW * k.polH)).map fun c => s.newShare l t x y c start
  let s := (polderCores k x y).foldl (fun s q => s.modCore q.1 q.2 fun c => c.wake s.now) s
  s.modTask t.tid fun t => { t with st := .resident, x, y, shares }

/-! ### Admission (R139, R144, R168, R251) -/

def State.liveTasks (s : State) : Nat := (s.tasks.filter fun t => !t.over).length

/-- Extents that a node declares (R144); reruns take those given for their arena. -/
def State.extentsOf (s : State) (key : Addr) (node : Nat) : List (Nat × Nat × Bool) :=
  ((s.host.extents.filter fun e => e.1 == key && e.2.1 == node).map fun e => (e.2.2.1, e.2.2.2.1, e.2.2.2.2)).take 32

/-- Admits graph tasks in ascending key while enough entries stay free; after a fatal fault no later round is
admitted. Fuel: the nodes. -/
def State.admitNodes (s : State) (lid : Nat) : Nat → State
  | 0 => s
  | n + 1 =>
    match s.launch? lid with
    | none => s
    | some l =>
      let i := l.admitted
      match l.code.nodes[i]? with
      | none => s
      | some kernel =>
        if l.st != .running || Config.taskEntries ≤ s.liveTasks + Config.taskReserve ||
            (l.fatal && l.round < nth l.rounds i 0) then s
        else
          let f := s.takeFresh
          let t : Task :=
            { tid := f.1, lid, key := BitVec.ofNat 48 (i * 2 ^ 32), kernel, round := nth l.rounds i 0,
              block := addrAdd l.argBase (i * l.argStride : Nat), extents := s.extentsOf l.cr i,
              record := if l.lrec = 1 then some i else none }
          let s := { f.2 with tasks := f.2.tasks ++ [t] }
          (s.modLaunch lid fun l => { l with admitted := i + 1 }).admitNodes lid n

def extOverlap (a b : Nat × Nat × Bool) : Bool := a.1 < b.1 + b.2.1 && b.1 < a.1 + a.2.1

/-- Some write extent of the round overlaps another task's extent (R144). -/
def State.badExtents (s : State) (l : Launch) (round : Nat) : Bool :=
  let nodes := (List.range l.code.nodes.length).filter fun i => nth l.rounds i 0 == round
  nodes.any fun i => nodes.any fun j => i != j &&
    (s.extentsOf l.cr i).any fun a => a.2.2 && (s.extentsOf l.cr j).any fun b => extOverlap a b

/-- Early admission (R145): no conflict with an unfinished task of an earlier round. -/
def State.early (s : State) (l : Launch) (t : Task) : Bool :=
  l.checked && (List.range l.code.nodes.length).all fun i =>
    t.round ≤ nth l.rounds i 0 ||
    (match s.tasks.find? fun u => u.lid == l.lid && u.parent.isNone && u.key.toNat == i * 2 ^ 32 with
      | some u => u.over
      | none => decide (i < l.admitted)) ||
    (s.extentsOf l.cr i).all fun e => t.extents.all fun d => !(extOverlap d e && (e.2.2 || d.2.2))

/-- The pages of an extent. -/
def extentPages (e : Nat × Nat × Bool) : List Nat := (pieces e.1 e.2.1).map (·.1)

/-- R215: the Sluice walks a task's extents into its share of the extent table of each core of its polder. -/
def State.walkExtents (s : State) (l : Launch) (t : Task) (x y : Nat) : State :=
  let enter := fun (va e : Nat) (s : State) (q : Nat × Nat) =>
    let ag : Agent := .extents t.tid q.1 q.2
    let room := (s.tlb.filter fun e => e.ag == ag).length < Config.extentEntries
    if room || s.tlb.any (s.joinsAt ag l.asid va e) then s.installLeaf ag l.asid va e else s
  (t.extents.flatMap extentPages).foldl (fun s va =>
    let w := s.walk sluiceViewer.die l.asid va
    let s := s.fillWalk sluiceViewer.die l.asid w.2
    match w.1 with
    | .leaf e => (polderCores (l.kernel t.kernel) x y).foldl (enter va e) s
    | .hole _ => s
    | .bad => s
    | .dataerr => s) s

/-! ### Restoring an evicted task (R88, R253, R254) -/

/-- A thread of a task that was discarded inside an idempotent region starts again at the region's entry. -/
def Thread.restart (th : Thread) : Thread :=
  let e := th.entry.getD (th.pc, th.cseq, th.flags)
  { tix := th.tix, pc := e.1, cseq := e.2.1, flags := e.2.2, entry := some e
    park := if th.park == .fatal then .fatal else .runs }

/-- Puts threads that stood in bins back into free lanes of their stage. -/
def Share.seat (h : Share) (stage : Nat) (ths : List Thread) : Share :=
  let free := (h.waves.filter (·.stage == stage)).flatMap fun w => (List.range 32).filterMap fun ln =>
    if (w.thread? ln).isNone then some (w.wix, ln) else none
  (ths.zip free).foldl (fun h p => h.modWave p.2.1 fun w =>
    { w with lanes := w.lanes.zipIdx.map fun q => if q.2 == p.2.2 then some p.1 else q.1 }) h

/-- The share of a discarded task on its new core: contexts as at dispatch, the same threads at their region entries,
the launch's barrier masks (R78, R88). -/
def Share.restarted (fresh old : Share) (bins : List Bin) : Share :=
  let wave := fun (w : Wave) => match old.wave? w.wix with
    | some o => { w with lanes := o.lanes.map fun l => l.map Thread.restart, stores := o.stores }
    | none => w
  let h : Share := { fresh with waves := fresh.waves.map wave, bars := (old.bars.filter (·.lvl == .launch)).map fun b => { b with clock := [] } }
  (bins.filter (·.c == old.c)).foldl (fun h b => h.seat b.stage (b.entries.map fun e => e.th.restart)) h

/-- The share of a saved task on its new core: as it was, its contexts bound anew. -/
def Share.rebound (fresh old : Share) (now : Nat) : Share :=
  let wave := fun (w : Wave) => match fresh.wave? w.wix with
    | some f => { w with slot := f.slot, since := now }
    | none => w
  { old with waves := old.waves.map wave }

/-- The queued cell operations that a save area keeps go to the cores of the new polder, which send them again (R171). -/
def State.restoreRetry (s : State) (t : Task) (v : Saved) : State :=
  v.retry.foldl (fun s o =>
    let xy := s.coreXY t o.core
    s.modCore xy.1 xy.2 fun c => { c with retry := c.retry ++ [{ o with tried := none }] }) s

/-- What else a save area keeps of the cores. -/
def State.restoreCores (s : State) (t : Task) (v : Saved) : State :=
  let xy := fun (c : Nat) => s.coreXY t c
  let s := v.matrix.foldl (fun s m => s.modCore (xy m.1).1 (xy m.1).2 fun c => { c with matrix := m.2 }) s
  v.bins.foldl (fun s b => s.modCore (xy b.c).1 (xy b.c).2 fun c => { c with bins := c.bins ++ [{ b with filed := s.now }] }) s

/-- The new cores have room for what the save area keeps. -/
def State.saveFits (s : State) (k : Kernel) (x y : Nat) (v : Saved) : Bool :=
  (List.range (k.polW * k.polH)).all fun c =>
    let o := s.core (x + c % k.polW) (y + c / k.polW)
    (o.matrix.holder.isNone || !v.matrix.any fun m => m.1 == c) &&
      o.bins.length + (v.bins.filter fun b => b.c == c).length ≤ Config.bins &&
      o.retry.length + (v.retry.filter fun r => r.core == c).length ≤ Config.retryEntries

/-- An evicted task is placed anew: discarded ones restart, saved ones go on where they stopped. -/
def State.restore (s : State) (l : Launch) (t : Task) (v : Saved) (restart : Bool) (x y : Nat) : State :=
  let s := s.place l t x y fun _ tix => newThread tix 0
  let now := s.free
  let s := s.modTask t.tid fun n => { n with
    leaving := false
    accesses := if restart then [] else n.accesses
    shares := n.shares.map fun (h : Share) => match t.share? h.c with
      | some o => if restart then h.restarted o v.bins else h.rebound o now
      | none => h }
  let s := { s with saved := s.saved.filter (·.tid != t.tid) }
  match s.task? t.tid with
  | some t => let s := s.restoreRetry t v; if restart then s else s.restoreCores t v
  | none => s

/-- TASK_DISPATCH of an evicted task whose partition has grown again (R253). -/
def State.dispatchAgain (s : State) (l : Launch) (t : Task) (restart : Bool) (x y : Nat) : State :=
  match s.saved.find? fun v => v.tid == t.tid && v.back with
  | some v =>
    if s.launchRuns l && !l.stopReq && s.fits l t.kernel x y && s.saveFits (l.kernel t.kernel) x y v then
      ((s.walkExtents l t x y).restore l t v restart x y).settle t.tid
    else s
  | none => s

/-- TASK_DISPATCH (R66, R144, R145, R215, R251, R384): a task that waits is placed at a position that the planner
chooses; while its launch stops for a debugger, none is (R264). -/
def execTaskDispatch (tid x y : Nat) (s : State) : Outcome State Fault Refusal :=
  match s.task? tid, s.launchOf? tid with
  | some t, some l =>
    let root := t.parent.isNone && l.prop.isNone
    let due := !root || t.round == l.round || (!l.fatal && s.early l t)
    let again := match t.st with | .evicted restart => some restart | _ => none
    if again.isSome then .next (s.dispatchAgain l t (again.getD false) x y)
    else if t.st != .waits || !s.launchRuns l || l.stopReq || !due then .next s
    else
      let first := !(s.tasks.any fun u => u.lid == l.lid && u.round == t.round && u.st != .waits)
      if root && first && s.badExtents l t.round then .next (s.closeLaunch l.lid 3 5)
      else if !s.fits l t.kernel x y then .next s
      else
        let s := s.walkExtents l t x y
        .next (s.place l t x y fun stage tix =>
          l.code.enterRegion (newThread tix (nth (l.stages t.kernel) stage ⟨0, 3, 96, 1⟩).entry))
  | _, _ => .next s

/-! ### SPAWN (R161, R194, R383, R384) -/

/-- The child's key: the slot in the highest zero slot byte; none at depth 4. -/
def childKey (key slot : Nat) : Option Nat :=
  ([24, 16, 8, 0].find? fun i => key / 2 ^ i % 256 == 0).map fun i => key + slot * 2 ^ i

/-- What a task sees in its own and inherited shadow bytes (R140). DESIGN CHOICE (log 131): a child of it inherits both. -/
def Task.viewShadow (t : Task) : Mem := t.shadow.foldl (fun m p => Shadow.set m p.1 p.2) t.inherited

/-- Places a child's record in the arena, or reports TRACECAP in the spawning thread (R178, R185). -/
def State.spawnRecord (s : State) (r : WaveRef) (ln : Nat) (l : Launch) (t : Task) (rec_ : TaskRec) : Option Nat × State :=
  match t.record with
  | none => (none, s)
  | some p =>
    let a := l.arenaAt
    let tb := s.arTable a 0
    if tb.2.1 ≤ tb.2.2 then (none, (s.traceFails l).tracecapAt r ln l)
    else
      let s := s.appendRecs a 0 64 [{ rec_ with parent := p }.bytes]
      (some s.1, s.2.addKid a p s.1)

/-- Creates the child of one thread. -/
def State.makeChild (s : State) (r : WaveRef) (l : Launch) (t : Task) (kernel slot key site : Nat) (block : Addr)
    (record : Option Nat) : State :=
  let f := s.takeFresh
  let child : Task :=
    { tid := f.1, lid := l.lid, key := BitVec.ofNat 48 key, kernel, parent := some t.tid, spawner := some (r.core, r.wix),
      slot, round := t.round, block, inherited := t.viewShadow, record, prop := t.prop, site }
  { f.2 with tasks := f.2.tasks ++ [child] }

/-- One thread's SPAWN. -/
def Iss.spawnOne (iss : Iss) (f : SpawnOp) (s : State) (_ : Wave) (ln : Nat) (th : Thread) : State :=
  match s.task? iss.r.tid, s.launchOf? iss.r.tid with
  | some t, some l =>
    let slot := f.slot.toNat
    let bad := fun (code : Nat) => s.raise iss.r ln { code, detail := slot }
    let k := l.kernel f.kern
    let big := match s.part? l.part with | some p => p.w < k.polW || p.h < k.polH | none => true
    match childKey t.key.toNat slot with
    | none => bad Flt.spawn
    | some key =>
      if l.code.kernels.length ≤ f.kern.val then bad Flt.spawn
      else if t.slots.contains slot then bad Flt.spawn
      else if (th.ra f.ar).toNat % 4 ≠ 0 then s.raise iss.r ln { code := Flt.align, detail := (th.ra f.ar).toNat }
      else if big then bad Flt.spawn
      else if Config.taskEntries ≤ s.liveTasks then bad Flt.spawn
      else
        let s := s.modTask t.tid fun t => { t with slots := t.slots ++ [slot] }
        let block := th.ra f.ar
        let site := (nearestSafe l.code th.pc).1
        let rec_ : TaskRec := { key, slot, parent := 0, site, entry := f.kern, block := block.toNat }
        match t.prop.bind s.prop?, t.record with
        | some p, some i =>
          let s := s.spawnMarks p t i
          match s.matchKid p i slot f.kern block.toNat with
          | .splice j => s.takeKid p i j true
          | .rerun j => ((s.takeKid p i j false).startRerun p.pid j).makeChild iss.r l t f.kern slot key site block (some j)
          | .fresh =>
            let q := if l.records? then s.spawnRecord iss.r ln l t rec_ else (none, s)
            q.2.makeChild iss.r l t f.kern slot key site block q.1
        | _, _ =>
          let q := if l.records? then s.spawnRecord iss.r ln l t rec_ else (none, s)
          q.2.makeChild iss.r l t f.kern slot key site block q.1
  | _, _ => s

/-- SPAWN (R383): waits for the wave's earlier stores at task scope, then each executing thread in ascending k.tix. -/
def execSpawn (f : SpawnOp) (s : State) : Outcome State Fault Refusal :=
  issue (.spawn f) (fun iss s =>
    match s.wave? iss.r with
    | none => iss.done s
    | some w =>
      let traced := match s.task? iss.r.tid with | some t => t.record.isSome | none => false
      if iss.take ≠ 0 && !w.fenced .task then iss.again s 0 false
      else
        let q := s.maintains traced fun s => iss.each s (iss.spawnOne f)
        if q.1 then iss.done q.2 else iss.again q.2 0 false) s

/-! ### Merging (R142, R143) -/

def Task.lineInfo? (t : Task) (line : Nat) : Option LineInfo := t.lines.find? (·.line == line)

def Task.ordered (t : Task) (pa : Nat) : Bool := match t.lineInfo? (pa / 64) with | some i => i.ordw | none => false

/-- The lowest PA that both wrote and that is a conflict: not one that both wrote through an ORDW page. -/
def clash (a b : Task) : Option Nat :=
  (a.shadow.find? fun p => (Shadow.get? b.shadow p.1).isSome && !(a.ordered p.1 && b.ordered p.1)).map (·.1)

/-- The record of MERGE in a task: the byte, and the lower key in its partner (R260). -/
def mergeRecord (t : Task) (low : BitVec 48) (pa time : Nat) : FaultRec :=
  let p : FaultRec := { code := Flt.merge + 128, lane := 0xFF, tix := 0xFFFF, ordinal := 0xFFFFFFFF, offset := 0,
                        access := 0, va := pa, key := low, time }
  { code := Flt.merge, lane := 0xFF, tix := 0xFFFF, ordinal := 0xFFFFFFFF, offset := 0, access := 0, va := pa,
    key := t.key, time, partner := some p.bytes }

/-- Every conflicting pair of a list in ascending key: higher task, lower key, byte. -/
def clashes : List Task → List (Task × BitVec 48 × Nat)
  | [] => []
  | a :: r => (r.filterMap fun b => (clash a b).map fun pa => (b, a.key, pa)) ++ clashes r

/-- Bytes of a shadow as runs within lines: PA and bytes. -/
def shadowRuns : Mem → List (Nat × List Byte)
  | [] => []
  | (a, b) :: r =>
    match shadowRuns r with
    | [] => [(a, [b])]
    | (a2, bs) :: rs => if a + 1 = a2 ∧ a2 % 64 ≠ 0 then (a, b :: bs) :: rs else (a, [b]) :: (a2, bs) :: rs

/-- The value that each word of a task's records has now; posts that already stand stay. -/
def State.setPosts (s : State) (tid : Nat) (direct : Bool) (value : WriteRec → Nat) : State :=
  s.modTask tid fun t => { t with trec := { t.trec with
    writes := t.trec.writes.map fun w => if w.direct == direct && w.post.isNone then { w with post := some (value w) } else w } }

/-- A committed word under the key and version of its line. -/
def State.wordAt (s : State) (pa : Nat) : Nat := num ((List.range 8).map fun i => s.plainByte (s.tagAt ((pa + i) / 64)) (pa + i))

/-- A word that a task's merge leaves changed: what the merge changes in it, and what the task's direct stores have changed
since its first write. -/
def Task.changes (t : Task) (w : WriteRec) (before now : Nat) : Bool :=
  before != now || (List.range 8).any fun i => w.mask.testBit i && t.exclusive (w.va + i) &&
    w.pre / 2 ^ (8 * i) % 256 != now / 2 ^ (8 * i) % 256

/-- Applies a task's shadow to committed memory; a line that it writes whole stays on its bad-line list (R277). In a
propagation the readers of changed words become stale (R187). -/
def State.applyShadow (s : State) (t : Task) : State :=
  let old := s
  let s := (shadowRuns t.shadow).foldl (fun s r =>
    let tag := match t.lineInfo? (r.1 / 64) with | some i => i.tag | none => s.tagAt (r.1 / 64)
    s.plainWrite tag r.1 r.2) s
  let now := s
  let s := s.setPosts t.tid false fun w => now.wordAt w.pa
  let s := s.modTask t.tid fun t => { t with shadow := [], lines := [], spilled := [] }
  match t.prop.bind s.prop? with
  | some p =>
    let changed := (t.trec.writes.filter fun w => t.changes w (old.wordAt w.pa) (now.wordAt w.pa)).map fun w => w.va / 32
    changed.eraseDups.foldl (fun s sec => s.markSector p.arenaAt sec (some t.key.toNat)) s
  | none => s

/-- THE MERGE OF A ROUND's tasks, given in ascending key (R142): MERGE to the higher task of each pair, then the
shadows of the others in order. -/
def State.mergeTasks (s : State) (ts : List Task) : State :=
  let cs := clashes ts
  let s := cs.foldl (fun s c => s.report c.1 (mergeRecord c.1 c.2.1 c.2.2 s.drone)) s
  let lost := cs.map fun c => c.1.tid
  ts.foldl (fun s t => if lost.contains t.tid then s.modTask t.tid fun t => { t with merged := true, shadow := [], spilled := [] }
    else match s.task? t.tid with
      | some t => s.applyShadow t
      | none => s) s

/-! ### JOIN (R61, R143, R354) -/

/-- The lowest byte that a child wrote and its parent wrote after the SPAWN. -/
def clashAfter (parent kid : Task) : Option Nat :=
  let hit := fun (pa : Nat) (a : Nat × Nat × Bool) => a.1 == kid.tid && a.2.1 == pa && !(a.2.2 && kid.ordered pa)
  (kid.shadow.find? fun p => parent.after.any (hit p.1)).map (·.1)

/-- The key and version of a child's line. -/
def State.kidTag (s : State) (kid : Task) (pa : Nat) : Nat × Nat :=
  match kid.lineInfo? (pa / 64) with | some i => i.tag | none => s.tagAt (pa / 64)

/-- Gives a child's bytes to its parent: directly in an exclusive range, else into the parent's shadow. They count as the
parent's writes from now on, in its records too (R143, R178). -/
def State.giveParent (s : State) (ptid : Nat) (kid : Task) : State :=
  let s := kid.trec.writes.foldl (fun s w => s.recordWord ptid (s.kidTag kid w.pa) (w.va, w.mask, w.pa)) s
  let s := s.modTask ptid fun p => { p with wrote := kid.wrote ++ p.wrote }
  (shadowRuns kid.shadow).foldl (fun s r =>
    let info := kid.lineInfo? (r.1 / 64)
    let va := match info with | some i => i.va + r.1 % 64 | none => 0
    match s.task? ptid with
    | some p =>
      let s := s.storeDevice ptid (s.kidTag kid r.1) (fun v => info.isSome && p.exclusive v) (kid.ordered r.1) va r.1 r.2
      s.markAfter ptid r.1 r.2.length (kid.ordered r.1)
    | none => s) s

/-- The merge counts as a write by the joining wave (R136, R138, R354). -/
def State.joinAccess (s : State) (r : WaveRef) (mask : Nat) (kid : Task) : State :=
  (shadowRuns kid.shadow).foldl (fun s run =>
    match s.task? r.tid, s.wave? r with
    | some t, some w =>
      match ((w.byTix mask).head?).bind fun ln => (w.thread? ln).map fun th => (ln, th) with
      | some (ln, th) =>
        let va := match kid.lineInfo? (run.1 / 64) with | some i => i.va + run.1 % 64 | none => 0
        let a := { s.accessOf t r w ln th 4 run.1 va run.2.length true false with held := false }
        let race := racesOf t a
        let late := race.2 ++ (match race.1 with | some b => [b] | none => [])
        let s := s.noteAccess t.tid a late
        let xy := s.coreXY t r.core
        (s.modCore xy.1 xy.2 fun c => { c with l1 := c.l1.filter fun x => !(x.tid == t.tid && x.line == run.1 / 64) }).loseTags
          t.tid r.core (· == run.1 / 64)
      | none => s
    | _, _ => s) s

/-- Merges children, in ascending slot, into their parent's view; who is the joining wave with its lanes, none at
retirement. -/
def State.mergeKids (s : State) (ptid : Nat) (who : Option (WaveRef × Nat)) (kids : List Task) : State :=
  match s.task? ptid with
  | none => s
  | some p =>
    let kids := sortBy (fun (a b : Task) => a.slot < b.slot) kids
    let withParent := kids.filterMap fun k => (clashAfter p k).map fun pa => (k, p.key, pa)
    let cs := withParent ++ clashes kids
    let s := cs.foldl (fun s c => s.report c.1 (mergeRecord c.1 c.2.1 c.2.2 s.drone)) s
    let lost := cs.map fun c => c.1.tid
    let s := kids.foldl (fun s k => s.modTask k.tid fun k => { k with joined := true, merged := lost.contains k.tid }) s
    kids.foldl (fun s k =>
      if lost.contains k.tid then (s.modTask k.tid fun k => { k with shadow := [], spilled := [] }).flushTask k.tid
      else
        let s := match who with | some q => s.joinAccess q.1 q.2 k | none => s
        let s := s.giveParent ptid k
        let view := fun (w : WriteRec) => match s.task? ptid with
          | some p => num (s.view p (s.tagAt (w.pa / 64)) false w.pa w.va 8)
          | none => w.pre
        ((s.setPosts k.tid false view).modTask k.tid fun k => { k with shadow := [], lines := [], spilled := [] }).flushTask
          k.tid) s

/-- Children that a wave has spawned and not joined. -/
def State.kidsOfWave (s : State) (r : WaveRef) : List Task :=
  s.tasks.filter fun t => t.parent == some r.tid && !t.joined && t.spawner == some (r.core, r.wix)

/-- JOIN (R354). -/
def execJoin (f : GOp) (s : State) : Outcome State Fault Refusal :=
  issue (.join f) (fun iss s =>
    if iss.take = 0 then iss.done s
    else
      let kids := s.kidsOfWave iss.r
      if kids.all Task.over then
        let q := s.maintains (kids.any (·.record.isSome)) fun s => s.mergeKids iss.r.tid (some (iss.r, iss.take)) kids
        if q.1 then iss.done q.2 else iss.again q.2 0 false
      else iss.waits s (.join iss.take)) s

/-- JOIN_MERGE (R143, R354): the children of a waiting JOIN have retired or stopped. -/
def execJoinMerge (r : WaveRef) (s : State) : Outcome State Fault Refusal :=
  match s.task? r.tid, s.wave? r with
  | some t, some w =>
    match w.wait with
    | .join mask =>
      let kids := s.kidsOfWave r
      if s.taskRuns t && kids.all Task.over then
        .next (s.maintains (kids.any (·.record.isSome)) fun s => (s.mergeKids r.tid (some (r, mask)) kids).endWait r mask).2
      else .next s
    | _ => .next s
  | _, _ => .next s

/-! ### Retirement (R61, R138, R168, R344) -/

/-- A task's engine commands that have not completed. -/
def State.engineBusy (s : State) (t : Task) : Bool :=
  (s.cores.any fun c => c.copies.any fun q => q.any fun k => k.tid == t.tid) ||
    s.cores.any fun c => c.matrix.holder == some t.tid && (!c.matrix.queue.isEmpty || c.matrix.loading.isSome)

/-- R344's conditions. -/
def State.canRetire (s : State) (t : Task) : Bool :=
  t.st == .resident && (t.shares.all fun h => h.waves.all fun w => w.live == 0) &&
    !(s.cores.any fun c => c.bins.any fun b => b.tid == t.tid) && !s.engineBusy t &&
    !(s.cores.any fun c => c.retry.any fun o => o.tid == t.tid) && !(s.flight.any fun o => o.tid == t.tid) &&
    (s.tasks.filter fun u => u.parent == some t.tid && !u.joined).all Task.over

/-- The record of a copy fault that no thread is left to receive; the copy's tag stands in the partner record (R260, R344). -/
def State.lateCopyFault (s : State) (t : Task) (f : HeldFault) : State :=
  let p : FaultRec := { code := f.code + 128, lane := 0xFF, tix := 0xFFFF, ordinal := f.tag, offset := 0, access := 32,
                        va := f.va, key := t.key, time := s.drone }
  s.reportNoThread t { code := f.code, detail := f.va, access := 32, partner := some p.bytes } true

/-- TASK_RETIRE (R61, R138, R344); a traced task waits for the trace-maintenance budget (R256). -/
def execTaskRetire (tid : Nat) (s : State) : Outcome State Fault Refusal :=
  match s.task? tid, s.launchOf? tid with
  | some t, some l =>
    if !s.canRetire t || !s.taskRuns t then .next s
    else .next (s.maintains t.record.isSome fun s =>
      let kids := s.tasks.filter fun u => u.parent == some tid && !u.joined
      let s := s.mergeKids tid none kids
      let races := match s.task? tid with | some t => t.races | none => []
      let held := t.shares.flatMap fun h => h.waves.flatMap (·.held)
      let s := held.foldl (fun s f => s.lateCopyFault t f) s
      if !races.isEmpty then ((s.stopTask tid).gateUnused l).foldCells
      else
        let now := s
        let s := s.setPosts tid true fun w => now.wordAt w.pa
        let s := match s.task? tid with | some t => (s.finishRerun t).freeCores t | none => s
        let s := s.modTask tid fun t => { t with st := .retired, shares := t.shares.map Share.left, accesses := [] }
        (s.gateUnused l).foldCells).2
  | _, _ => .next s

/-! ### Spills (R141) -/

/-- A propagation's reruns can go on no longer: its round is discarded (R194, R370). -/
def State.failProp (s : State) (pid : Nat) : State :=
  match s.prop? pid with
  | none => s
  | some p =>
    let s := s.tasks.foldl (fun s t => if t.lid == p.runAs && !t.over then s.stopTask t.tid else s) s
    let clear := fun (t : Task) => if t.lid == p.runAs then { t with shadow := [], spilled := [] } else t
    let s := { s with tasks := s.tasks.map clear }
    s.modProp pid fun p => { p with failed := true }

/-- A shadow line of a task spills: it takes a slot of the arena, or SHADOWCAP ends the launch (R141); among reruns the
propagation ends (R370). -/
def State.spillLine (s : State) (tid line : Nat) : State :=
  match s.task? tid, s.launchOf? tid with
  | some t, some l =>
    if t.spilled.contains line || !(t.shadow.any fun p => p.1 / 64 == line) then s
    else
      let h := s.spillHost l
      if s.slotsUsed h < h.shadowSlots then s.modTask tid fun t => { t with spilled := t.spilled ++ [line] }
      else match l.prop with
        | some pid => s.failProp pid
        | none => s.closeLaunch l.lid 3 6
  | _, _ => s

end Sys2Proof.Machine
end

