-- ==== Sys2Proof/Machine/CodeObject.lean ====
section
/-! DEFINITION. The code object (R50–R55, R57, R67, R399): what the Headworks reads and checks, and the rounds of the
task graph (R139). -/

namespace Sys2Proof.Machine

open Host

/-- One entry of the section table: offset, size, count, reserved word. -/
structure Sec where
  off : Nat
  size : Nat
  count : Nat
  res : Nat
deriving DecidableEq, Repr

def fieldAt (bs : List Byte) (o n : Nat) : Nat := num ((bs.drop o).take n)

def secAt (hdr : List Byte) (i : Nat) : Sec :=
  ⟨fieldAt hdr (0x40 + 16 * i) 4, fieldAt hdr (0x44 + 16 * i) 4, fieldAt hdr (0x48 + 16 * i) 4, fieldAt hdr (0x4C + 16 * i) 4⟩

def Sec.absent (q : Sec) : Bool := q.off == 0 && q.size == 0 && q.count == 0 && q.res == 0

/-- Record size of each section; 0 where it is no table (R51). -/
def recordSize (i : Nat) : Nat := nth [0, 16, 16, 8, 24, 16, 8, 8, 0, 0, 0, 0] i 0

/-- R50, R51: the header and its section table. -/
def headerOk (hdr : List Byte) : Bool :=
  let file := fieldAt hdr 12 4
  let secs := (List.range 12).map fun i => (i, secAt hdr i)
  fieldAt hdr 0 4 == 0x334F434B && fieldAt hdr 4 2 == 3 && fieldAt hdr 6 2 == 0 && fieldAt hdr 8 4 == 256 &&
    fieldAt hdr 0x30 16 == 0 && (secs.all fun p =>
      p.2.absent || (p.1 != 11 && p.2.res == 0 && p.2.off % 16 == 0 && p.2.off + p.2.size ≤ file &&
        (if recordSize p.1 = 0 then p.2.count == 0 else p.2.size == p.2.count * recordSize p.1))) &&
    ([0, 1, 2, 6].all fun i => !(secAt hdr i).absent) && (secAt hdr 0).size % 2 == 0 &&
    1 ≤ (secAt hdr 1).count && (secAt hdr 1).count ≤ 65535 && 1 ≤ (secAt hdr 6).count && (secAt hdr 6).count ≤ 65535

/-- The records of a table as byte strings. -/
def recordsOf (size : Nat) : Nat → List Byte → List (List Byte)
  | 0, _ => []
  | n + 1, bs => bs.take size :: recordsOf size n (bs.drop size)

def parseKernel (b : List Byte) : Kernel :=
  let p := fieldAt b 3 1
  { stage0 := fieldAt b 0 2, nstages := fieldAt b 2 1, logW := p % 16, logH := p / 16, argBytes := fieldAt b 4 2,
    chan0 := fieldAt b 6 2, nchans := fieldAt b 8 1, launchBar := fieldAt b 9 1 % 2 == 1 }

def parseStage (b : List Byte) : StageRec :=
  { entry := fieldAt b 0 4, role := fieldAt b 4 1, budget := fieldAt b 5 1, waves := fieldAt b 6 1 }

def parseChan (b : List Byte) : ChanRec := { space := fieldAt b 0 1, log := fieldAt b 1 1, elem := fieldAt b 4 4 }

def kernelRawOk (b : List Byte) : Bool := fieldAt b 9 1 ≤ 1 && fieldAt b 10 6 == 0
def stageRawOk (b : List Byte) : Bool := fieldAt b 7 9 == 0
def chanRawOk (b : List Byte) : Bool := fieldAt b 2 2 == 0 && fieldAt b 8 8 == 0
def safeRawOk (b : List Byte) : Bool := fieldAt b 4 4 == 0
def nodeRawOk (b : List Byte) : Bool := fieldAt b 2 6 == 0

def stageOk (size : Nat) (g : StageRec) : Bool :=
  g.entry % 2 == 0 && g.entry < size && g.role ≤ 3 && [16, 24, 32, 48, 64, 96].contains g.budget && 1 ≤ g.waves && g.waves ≤ 48

def chanOk (c : ChanRec) : Bool := c.space ≤ 3 && 8 ≤ c.log && c.log ≤ 18 && c.elem != 0 && 2 ^ c.log % c.elem == 0

/-- R52 and R67 for one kernel. -/
def kernelOk (stages : List StageRec) (nchans : Nat) (k : Kernel) : Bool :=
  let own := (stages.drop k.stage0).take k.nstages
  let w := (own.map (·.waves)).sum
  1 ≤ k.nstages && k.nstages ≤ 4 && k.stage0 + k.nstages ≤ stages.length && k.logW ≤ 4 && k.logH ≤ 4 &&
    k.argBytes % 4 == 0 && k.argBytes ≤ 1024 && k.nchans ≤ 16 && (k.nchans == 0 || k.chan0 + k.nchans ≤ nchans) && w ≤ 48 &&
    regBytesOf own ≤ Config.regBytes && k.polW * k.polH * w * 32 ≤ 65536

/-- Sorted, apart, inside the code segment (R53). -/
def regionsOk (size : Nat) : Nat → List (Nat × Nat) → Bool
  | _, [] => true
  | lo, p :: r => lo ≤ p.1 && p.1 < p.2 && p.2 ≤ size && regionsOk size p.2 r

def ascending : List Nat → Bool
  | a :: b :: r => a < b && ascending (b :: r)
  | _ => true

def nodup : List (Nat × Nat) → Bool
  | [] => true
  | a :: r => !r.contains a && nodup r

/-- The checks of R54 on the tables. DESIGN CHOICE (log 115): a node whose kernel index is not below the kernel count fails
them too, though R53 and R54 name no such limit. -/
def Code.ok (c : Code) : Bool :=
  c.stages.all (stageOk c.size) && c.chans.all chanOk && c.kernels.all (kernelOk c.stages c.chans.length) &&
    regionsOk c.size 0 c.regions && ascending (c.safes.map (·.1)) && c.nodes.all (· < c.kernels.length) &&
    c.edges.all (fun e => e.1 < e.2 && e.2 < c.nodes.length) && nodup c.edges

/-- Reads the bytes of a section. -/
def State.section? (s : State) (asid : BitVec 12) (va : Nat) (q : Sec) : Except VaErr (List Byte) × State :=
  s.vaRead headViewer asid ((va + q.off) % 2 ^ 72) q.size

/-- Reads sections 1 to 7 in order. -/
def State.sections (s : State) (asid : BitVec 12) (va : Nat) : List Sec → Except VaErr (List (List Byte)) × State
  | [] => (.ok [], s)
  | q :: r =>
    match s.section? asid va q with
    | (.error e, s) => (.error e, s)
    | (.ok b, s) =>
      match s.sections asid va r with
      | (.error e, s) => (.error e, s)
      | (.ok l, s) => (.ok (b :: l), s)

/-- The code object from the header and the seven tables; none where R54 fails. -/
def buildCode (va : Nat) (hdr : List Byte) (tabs : List (List Byte)) : Option Code :=
  let tab := fun (i : Nat) => recordsOf (recordSize i) (secAt hdr i).count (nth tabs (i - 1) [])
  let raw := (tab 1).all kernelRawOk && (tab 2).all stageRawOk && (tab 4).all safeRawOk && (tab 5).all chanRawOk &&
    (tab 6).all nodeRawOk
  let c : Code :=
    { va := BitVec.ofNat 72 va, text := BitVec.ofNat 72 (va + (secAt hdr 0).off), size := (secAt hdr 0).size
      features := BitVec.ofNat 128 (fieldAt hdr 0x10 16), graph := (hdr.drop 0x20).take 16
      kernels := (tab 1).map parseKernel, stages := (tab 2).map parseStage
      regions := (tab 3).map fun b => (fieldAt b 0 4, fieldAt b 4 4)
      safes := (tab 4).map fun b => (fieldAt b 0 4, BitVec.ofNat 128 (fieldAt b 8 16))
      chans := (tab 5).map parseChan, nodes := (tab 6).map fun b => fieldAt b 0 2
      edges := (tab 7).map fun b => (fieldAt b 0 4, fieldAt b 4 4) }
  if raw && c.ok then some c else none

/-- Reads and checks a code object: an access error, CODEOBJ as none, or the object. -/
def State.readCode (s : State) (asid : BitVec 12) (va : Nat) : Except VaErr (Option Code) × State :=
  match s.vaRead headViewer asid va 256 with
  | (.error e, s) => (.error e, s)
  | (.ok hdr, s) =>
    if !headerOk hdr then (.ok none, s)
    else
      match s.sections asid va ((List.range 7).map fun i => secAt hdr (i + 1)) with
      | (.error e, s) => (.error e, s)
      | (.ok tabs, s) => (.ok (buildCode va hdr tabs), s)

/-! ### Rounds (R139) -/

/-- The rounds of nodes 0, 1, …, given those before. -/
def roundsFrom (edges : List (Nat × Nat)) : Nat → List Nat → List Nat
  | 0, acc => acc
  | n + 1, acc =>
    let i := acc.length
    let prev := if i = 0 then 0 else nth acc (i - 1) 0
    let own := (edges.filter fun e => e.2 == i).foldl (fun m e => max m (nth acc e.1 0 + 1)) prev
    roundsFrom edges n (acc ++ [own])

def Code.rounds (c : Code) : List Nat := roundsFrom c.edges c.nodes.length []

end Sys2Proof.Machine
end

