-- ==== Sys2Proof/Machine/Trace.lean ====
section
/-! DEFINITION. Traces and propagation (R177, R186–R195, R364, R370, R390, R401): TRACE, MODW, PROP and its reruns, the
merge of rounds (R142, R249), and compaction (R301). -/

namespace Sys2Proof.Machine

open Host

/-! ### TRACE (R186, R390) -/

def execTrace (f : TraceOp) (s : State) : Outcome State Fault Refusal :=
  issue (.trace f) (fun iss s =>
    match f.fn with
    | .suspend => iss.done (iss.map s fun _ _ th => { th with recording := false })
    | .resume => iss.done (iss.map s fun _ _ th => { th with recording := true })
    | .note => iss.done (iss.each s fun s _ ln th =>
        s.recordRead iss.r.tid (some (iss.r, ln)) ((th.ra f.ar).toNat / 32))) s

/-! ### MODW (R188, R195, R364) -/

def modwBytes : ModwTy → Nat
  | .b32 => 4
  | .b64 => 8

/-- A direct write that marks the sector's readers where the arena is in state 2 or 4 and the bytes change. -/
def State.modWrite (s : State) (a : ArenaAt) (tag : Nat × Nat) (va pa : Nat) (bs : List Byte) : State :=
  let old := (List.range bs.length).map fun i => s.plainByte tag (pa + i)
  let s := s.plainWrite tag pa bs
  let st := if a.va = 0 then 0 else s.arState a
  if (st = 2 ∨ st = 4) ∧ old ≠ bs then s.markSector a (va / 32) none else s

/-- A task sees what its MODW has written at once, also where it holds the bytes in shadow or from its parent (R364). DESIGN
CHOICE (log 124): a shadow byte takes the new value, and the merge leaves that. -/
def State.overShadow (s : State) (tid pa : Nat) (bs : List Byte) : State :=
  let fill := fun (m : Shadow) => bs.zipIdx.foldl (fun (m : Shadow) b =>
    if (m.get? (pa + b.2)).isSome then m.set (pa + b.2) b.1 else m) m
  s.modTask tid fun t => { t with shadow := fill t.shadow, inherited := fill t.inherited }

/-- One thread's MODW. DESIGN CHOICE (log 133): it leaves no write record, being neither a merge nor a store of an exclusive
range (R178). -/
def Iss.modwOne (iss : Iss) (f : EOp ModwTy) (s : State) (w : Wave) (ln : Nat) (th : Thread) : State :=
  let n := modwBytes f.ty
  let va := areaE f th
  let flt := fun (s : State) (code : Nat) => s.raise iss.r ln { code, detail := va, access := n }
  if va % n ≠ 0 then flt s Flt.align
  else
    let p := iss.reach s ln va 1 n (·.w)
    match p.1, p.2.task? iss.r.tid, p.2.launchOf? iss.r.tid with
    | some (a, pa), some t, some l =>
      let s := p.2
      if a.target ≠ 0 then flt s Flt.perm
      else if a.cell then flt s Flt.cellst
      else if l.checked && !covered ((s.rootOf t).extents.filter (·.2.2)) va n then flt s Flt.range
      else
        let acc := s.accessOf t iss.r w ln th 4 pa va n true false
        let race := racesOf t acc
        match race.1 with
        | some b => s.raiseRace iss.r ln t acc b
        | none =>
          let bs := bytes n (src w ln th (8 * n) f.val)
          let s := s.noteAccess iss.r.tid acc race.2
          let tag := s.pageTag l a.buf
          let s := s.l1Fill t iss.r.core tag false pa va
          let s := s.laneOlder iss.r tag va pa n
          let s := ((s.modWrite l.arenaAt tag va pa bs).overShadow t.tid pa bs).pushStore iss.r .slice
          s.l1Write t iss.r.core pa bs
    | _, _, _ => p.2

/-- MODW (R364); the marks in the arena that the launch names wait for the trace-maintenance budget (R256). -/
def execModw (f : EOp ModwTy) (s : State) : Outcome State Fault Refusal :=
  memIssue (.modw f) true (fun _ _ th => areaE f th) (fun iss s => iss.each s (iss.modwOne f)) s

/-! ### Propagation (R189, R190, R193, R194, R370, R401) -/

/-- The launch whose partition, address space, flags and shadow arena the reruns use; for PROPAGATE, one with the
partition and arena that the primitive names. -/
def State.rerunLaunch (s : State) (p : Propag) (code : Code) : Launch :=
  match p.lid.bind s.launch? with
  | some l => { l with lid := p.runAs, code, arena := p.arena, trace := true, lrec := 1, prop := some p.pid, st := .running,
                       round := 0, rounds := [], admitted := 0, records := [], faultCount := 0, fatal := false, lost := false,
                       hostSet := [], hostLog := [], pending := (0, 0, 0), stopReq := false }
  | none => { lid := p.runAs, queue := p.queue.getD 0, asid := p.asid, cr := 0, trace := true, part := p.part, code,
              arena := p.arena, shadowVa := p.shadowVa, shadowSlots := p.shadowSlots, lrec := 1, prop := some p.pid }

/-- The next task to run, least key first, in a round of its own; none left ends the propagation in state 2. With the task
table full it starts later (R251). DEDUCED (log 39): its extents are the recorded ones, checked or not. -/
def State.nextRerun (s : State) (pid : Nat) : State :=
  match s.prop? pid with
  | none => s
  | some p =>
    let a := p.arenaAt
    let st := s.arState a
    let s := s.ask 10 (1 + (s.arTable a 0).2.2)
    let least := (sortBy (fun (x y : Nat × TaskRec) => x.2.key < y.2.key) (s.toRun a p.last)).head?
    if p.failed || st != 4 then (s.arPut a 6 1 3).modProp pid fun p => { p with st := 2, toRun := [] }
    else
      match least with
      | none => (s.arPut a 6 1 2).modProp pid fun p => { p with st := 2, toRun := [] }
      | some (i, r) =>
        if Config.taskEntries ≤ s.liveTasks then s
        else
          let s := s.modProp pid fun p => { p with last := some (BitVec.ofNat 48 r.key) }
          let s := s.startRerun pid i
          let f := s.takeFresh
          let node := r.key / 2 ^ 32
          let t : Task :=
            { tid := f.1, lid := p.runAs, key := BitVec.ofNat 48 r.key, kernel := r.entry, slot := r.slot,
              block := BitVec.ofNat 72 r.block, extents := s.extentsOf p.arena node, record := some i, prop := some pid }
          { f.2 with tasks := f.2.tasks ++ [t] }

/-- Earlier propagations on the same arena. -/
def State.propWaits (s : State) (p : Propag) : Bool :=
  (s.props.takeWhile fun q => q.pid != p.pid).any fun q => q.arenaAt == p.arenaAt

/-- What begins a propagation: the check of state and generation, then state 4 and the first rerun. answers whether it
began. -/
def State.beginProp (s : State) (pid : Nat) : Bool × State :=
  match s.prop? pid with
  | none => (false, s)
  | some p =>
    let a := p.arenaAt
    let gen := s.arGeneration a
    if s.arState a ≠ 2 ∨ gen = 0x1FFFFFFF then (false, s)
    else
      let c := s.readCode p.asid (s.arNum a 0x88 9)
      let s := (c.2.arPut a 8 4 (gen + 1)).arPut a 6 1 4
      let f := s.takeFresh
      let s := f.2.modProp pid fun p => { p with st := 1, runAs := f.1 }
      let s := match s.prop? pid, c.1 with
        | some p, .ok (some code) => { s with launches := s.launches ++ [s.rerunLaunch p code] }
        | _, _ => s.modProp pid fun p => { p with failed := true }
      (true, s.nextRerun pid)

/-- The counts reach s13, s14 and s15 of the wave. -/
def State.giveCounts (s : State) (r : WaveRef) (re sp di : Word) : State :=
  s.modWave r fun w => ((w.setS 13 re).setS 14 sp).setS 15 di

/-- TRACECAP of R401 in the lowest thread, and counts of 0xFFFFFFFF. -/
def State.propRefused (s : State) (r : WaveRef) (mask : Nat) (arena : Nat) : State :=
  match s.task? r.tid, s.wave? r with
  | some t, some w =>
    let ln := (w.byTix mask).headD 0
    match w.thread? ln with
    | some th =>
      let f := s.recordOf t ln th.tix th.pc { code := Flt.tracecap, detail := arena }
      let s := (s.modWave r fun w => w.modLane ln fun th => th.count Flt.tracecap).report t { f with fatal := false }
      s.giveCounts r 0xFFFFFFFF 0xFFFFFFFF 0xFFFFFFFF
    | none => s
  | _, _ => s

/-- PROP (R189, R190, R370). -/
def execProp (f : ArOp) (s : State) : Outcome State Fault Refusal :=
  issue (.prop f) (fun iss s =>
    match iss.lead s, s.launchOf? iss.r.tid with
    | some (ln, th), some l =>
      match s.props.find? fun p => p.wave == some iss.r with
      | some p => iss.waits s (.prop iss.take p.pid)
      | none =>
        let va := (th.ra f.ar).toNat
        if va % 64 ≠ 0 then iss.done (s.raise iss.r ln { code := Flt.align, detail := va })
        else
          let p := iss.reach s ln va 0 0 (·.r)
          match p.1 with
          | none => iss.done p.2
          | some _ =>
            let f := p.2.takeFresh
            let p : Propag := { pid := f.1, asid := l.asid, arena := BitVec.ofNat 72 va, lid := some l.lid, wave := some iss.r,
                                queue := none, part := l.part }
            let s := { f.2 with props := f.2.props ++ [p] }
            if s.propWaits p then iss.waits s (.prop iss.take f.1)
            else
              let began := (s.beginProp f.1).1
              let w := s.maintains true fun s => (s.beginProp f.1).2
              if !w.1 || began then iss.waits w.2 (.prop iss.take f.1)
              else
                let s := { w.2 with props := w.2.props.filter (·.pid != f.1) }
                iss.done (s.propRefused iss.r iss.take va)
    | _, _ => iss.done s) s

/-- What a finished PROPAGATE writes at its result VA (R247). -/
def propResult (re sp di : Word) (first : Option FaultRec) : List Byte :=
  bytes 4 re.toNat ++ bytes 4 sp.toNat ++ bytes 4 di.toNat ++ bytes 4 0 ++
    (match first with | some r => r.bytes | none => List.replicate 32 0)

/-- The propagation is gone; its pseudo-launch with it. -/
def State.removeProp (s : State) (p : Propag) : State :=
  { s with
    launches := s.launches.filter (·.lid != p.runAs)
    tasks := s.tasks.filter (·.lid != p.runAs)
    props := s.props.filter (·.pid != p.pid) }

/-- A wave's PROP that was begun late and finds the arena unusable, or that has finished, goes on. -/
def State.endProp (s : State) (p : Propag) (began : Bool) : State :=
  match p.wave with
  | some r =>
    match s.wave? r with
    | some w =>
      match w.wait with
      | .prop mask _ =>
        let s := if began then s.giveCounts r p.re p.sp p.di else s.propRefused r mask p.arena.toNat
        (s.removeProp p).endWait r mask
      | _ => s
    | none => s
  | none => s

/-- PROP_RETURN (R189, R190): a propagation that waited its turn begins; one that has finished, with its withdrawals
done, returns its counts to its wave. A wave that has been evicted, or whose launch has halted, does not receive them now (R268, R370). -/
def execPropReturn (pid : Nat) (s : State) : Outcome State Fault Refusal :=
  match s.prop? pid with
  | none => .next s
  | some p =>
    let scope := 2 * (p.asid.toNat + 4096 * p.arena.toNat) + 1
    let runs := match p.wave.bind fun r => s.task? r.tid with | some t => s.taskRuns t | none => false
    let gone := match p.wave with
      | some r => match s.task? r.tid with | some t => t.over | none => true
      | none => false
    if gone && p.st != 1 then .next (s.removeProp p)
    else match p.st with
    | 0 =>
      if s.propWaits p || p.wave.isNone then .next s
      else
        let began := (s.beginProp pid).1
        let w := s.maintains true fun s => (s.beginProp pid).2
        .next (if w.1 && !began && runs then w.2.endProp p false else w.2)
    | 2 => if runs && !(s.withdrawals.any fun w => w.2.1 == scope) then .next (s.endProp p true) else .next s
    | _ => .next s

/-! ### The end of a round (R142, R146, R249, R251) -/

/-- A launch's round merges once all its tasks are over; a fault ends the launch, the last round completes it. -/
def State.mergeRound (s : State) (l : Launch) : State :=
  let mine := fun (t : Task) => t.lid == l.lid && t.round == l.round
  let nodes := (List.range l.code.nodes.length).filter fun i => nth l.rounds i 0 == l.round
  let roots := s.tasks.filter fun t => mine t && t.parent.isNone
  if l.st != .running || l.prop.isSome || nodes.any (l.admitted ≤ ·) || !(roots.all Task.over) then s
  else (s.maintains (l.lrec == 1) fun s =>
    let s := s.mergeTasks (sortBy (fun (a b : Task) => a.key < b.key) (roots.filter (·.st == .retired)))
    let s := (s.tasks.filter mine).foldl (fun s t => s.flushTask t.tid) s
    let s := s.applyHostLog l.lid
    let s := { s with tasks := s.tasks.filter fun t => !mine t }
    let s := (s.gateUnused l).modLaunch l.lid fun l => { l with merged := l.merged + 1 }
    match s.launch? l.lid with
    | none => s
    | some l =>
      if l.fatal then s.closeLaunch l.lid 2 0
      else if l.rounds.all (· ≤ l.round) then s.closeLaunch l.lid 1 0
      else ((s.modLaunch l.lid fun l => { l with round := l.round + 1 }).admitNodes l.lid l.code.nodes.length).foldCells).2

/-- The round of a rerun merges, and the next one begins (R190). -/
def State.mergeRerun (s : State) (p : Propag) : State :=
  let mine := s.tasks.filter fun t => t.lid == p.runAs
  let roots := mine.filter (·.parent.isNone)
  let runs := match s.launch? p.runAs with | some l => s.launchRuns l | none => false
  if p.st != 1 || !runs || !(roots.all Task.over) then s
  else (s.maintains true fun s =>
    let s := s.mergeTasks (roots.filter (·.st == .retired))
    let s := mine.foldl (fun s t => s.flushTask t.tid) s
    let s := { s with tasks := s.tasks.filter fun t => t.lid != p.runAs }
    (s.nextRerun p.pid).foldCells).2

/-- ROUND_MERGE (R142, R190, R249). -/
def execRoundMerge (r : RoundOf) (s : State) : Outcome State Fault Refusal :=
  match r with
  | .launch lid => match s.launch? lid with
    | some l => .next (s.mergeRound l)
    | none => .next s
  | .prop pid => match s.prop? pid with
    | some p => .next (s.mergeRerun p)
    | none => .next s

/-! ### Compaction (R183, R301) -/

/-- Records of the current runs, and the place where each task's run begins. DESIGN CHOICE (log 135): an empty run begins
where the next one does. -/
def compactRuns {α : Type} (runs : List (List α)) : List α × List (Nat × Nat) :=
  runs.foldl (fun acc r => (acc.1 ++ r, acc.2 ++ [(acc.1.length, r.length)])) ([], [])

/-- Compaction: discarded tasks and records outside current runs go, the rest is renumbered in order. -/
def State.compact (s : State) (a : ArenaAt) : State :=
  let kept := (s.taskRecs a).filter fun p => p.2.st != 3
  let at' := fun (i : Nat) => match kept.findIdx? fun p => p.1 == i with | some n => n | none => noRecord
  let reads := compactRuns (kept.map fun p => (List.range p.2.reads.2).map fun k => s.readRec a (p.2.reads.1 + k))
  let words := compactRuns (kept.map fun p => (List.range p.2.writes.2).map fun k => s.wordRec a (p.2.writes.1 + k))
  let adds := compactRuns (kept.map fun p => (List.range p.2.contribs.2).map fun k => s.contribRec a (p.2.contribs.1 + k))
  let recs := (kept.zipIdx).map fun p => { p.1.2 with
    parent := at' p.1.2.parent, first := at' p.1.2.first, next := at' p.1.2.next
    reads := nth reads.2 p.2 (0, 0), writes := nth words.2 p.2 (0, 0), contribs := nth adds.2 p.2 (0, 0) }
  let rs := reads.1.map fun r => { r with ix := at' r.ix }
  let ws := words.1.map fun w => { w with task := at' w.task }
  let zero := fun (s : State) (i : Nat) => s.setUsed a.asid a.va i 0
  let s := [0, 1, 2, 3, 4].foldl zero s
  let s := (s.appendRecs a 0 64 (recs.map TaskRec.bytes)).2
  let s := (s.appendRecs a 1 16 (rs.map fun r => bytes 16 r.num)).2
  let s := (s.appendRecs a 2 32 (ws.map WordRec.bytes)).2
  let s := (s.appendRecs a 3 32 (adds.1.map ContribRec.bytes)).2
  let nb := (s.arTable a 4).2.1
  let s := s.arenaPut a.asid (a.va + (s.arTable a 4).1) (List.replicate (16 * nb) 0xFF)
  (rs.zipIdx).foldl (fun s p => s.addBucket a { p.1 with ix := p.2 }) s

/-- TRACE_COMPACTION (R301, bit 5): firmware compacts a state-2 arena that no launch names once its reader index has
passed three quarters. -/
def execTraceCompaction (asid : BitVec 12) (arena : Addr) (s : State) : Outcome State Fault Refusal :=
  let a : ArenaAt := ⟨asid, arena.toNat⟩
  let x := s.arTable a 4
  let named := (s.launches.any fun l => l.asid == asid && l.arena == arena) ||
    s.props.any fun p => p.asid == asid && p.arena == arena
  if s.dev.split.getLsbD 5 || named || s.arNum a 0 4 != 0x4352544B || s.arState a != 2 || 4 * x.2.2 ≤ 3 * x.2.1 then
    .next s
  else .next (s.maintains true fun s => (s.ask 10 (4 + ((List.range 5).map fun i => (s.arTable a i).2.2).sum)).compact a).2

end Sys2Proof.Machine
end

