-- ==== Sys2Proof/Machine/Reed.lean ====
section
/-! DEFINITION. Reed engines (R242–R246): queue descriptors, the frame of a reed operation, the 22 operations, the
operation limit and the checks of a reed program. -/

namespace Sys2Proof.Machine

open Host

/-! ### Queue descriptors (R242) -/

structure QDesc where
  ring : Nat
  size : Nat
  asid : BitVec 12
  prog : Nat
  read : Nat
  win2 : Nat × Nat
  win3 : Nat × Nat
deriving DecidableEq, Repr

def State.qAddr (s : State) (q : Nat) : Nat := s.dev.qbase + 64 * q

def State.qDesc (s : State) (q : Nat) : QDesc :=
  let f := fun (o n : Nat) => num (s.mem.read (s.qAddr q + o) n)
  { ring := f 0 9, size := 2 ^ min (f 9 1) 24, asid := BitVec.ofNat 12 (f 10 2), prog := f 12 4, read := f 16 8,
    win2 := (f 0x20 9, f 0x2C 4), win3 := (f 0x30 9, f 0x3C 4) }

def State.setReadPtr (s : State) (q n : Nat) : State := { s with mem := s.mem.write (s.qAddr q + 16) (bytes 8 n) }

/-! ### Packets -/

def State.modPacket (s : State) (q : Nat) (f : Packet → Packet) : State :=
  s.modQueue q fun k => { k with packet := k.packet.map f }

def Packet.rx (p : Packet) (n : Fin 16) : Addr := if n.val = 0 then 0 else nth p.x n 0

/-- x0 ignores writes. -/
def Packet.setX (p : Packet) (n : Nat) (v : Addr) : Packet := if n = 0 then p else { p with x := putAt 0 p.x n v }

/-- At the end of a loop body the loop runs again or is left. -/
def loopBack : List ReedLoop → Nat → List ReedLoop × Nat
  | [], pc => ([], pc)
  | l :: r, pc =>
    if pc = l.last then (if l.left = 0 then loopBack r pc else ({ l with left := l.left - 1 } :: r, l.first))
    else (l :: r, pc)

/-- The packet goes on at an operation. -/
def Packet.goTo (p : Packet) (pc : Nat) : Packet :=
  let r := loopBack p.loops pc
  { p with loops := r.1, pc := r.2 }

def Packet.next (p : Packet) : Packet := p.goTo (p.pc + 1)

/-- The packet ends without consuming: error with a code (R245). -/
def State.failPacket (s : State) (q : Nat) (code : BitVec 8) : State := s.queueError q code 0

/-- A page fault stalls the queue, and its packet leaves the engine (R244); UNMAPPED, PERM and a line that cannot be read set it to error. -/
def State.stallOn (s : State) (q : Nat) (asid : BitVec 12) (acc : Nat) (e : VaErr) : State :=
  match e with
  | .parks level va =>
    let f := s.pageFault asid va level acc 0xFFFF
    f.2.modPacket q fun p => { p with fault := some f.1, faultVa := va, engine := false }
  | .unmapped va => s.queueError q 0 va
  | .perm va => s.queueError q 0 va
  | .dataerr va => s.queueError q 0 va

/-- Whether a packet waits at a fault, and what becomes of it. -/
inductive Stall where
  | no
  | waits
  | failed (va : Nat)
deriving DecidableEq, Repr

def State.stall (s : State) (p : Packet) : Stall :=
  match p.fault.bind fun fid => s.faults.find? fun (f : PageFault) => f.fid == fid with
  | some f => if f.failed then .failed p.faultVa else .waits
  | none => .no

/-- A SIGNAL of the queue waits at a page fault, which stalls the queue (R244). -/
def Queue.signalStalls (k : Queue) : Bool := k.signals.any (·.fault.isSome)

/-- THE FRAME OF A REED OPERATION: the queue whose turn it is, its packet neither stalled nor inside a primitive; each
operation counts (R246). -/
def reedOp (body : State → Nat → Packet → State) (s : State) : Outcome State Fault Refusal :=
  match s.turnQueue with
  | none => .fault .noPacket
  | some q =>
    match (s.queueD q).packet with
    | none => .fault .noPacket
    | some p =>
      match s.stall p with
      | .waits => .next s
      | .failed va => .next (if p.prim = .none then s.queueError q 0 va else s)
      | .no =>
        if p.prim ≠ .none then .next s
        else if 512 ≤ p.ops then .next (s.failPacket q 0xFE)
        else .next (body s q { p with fault := none })

/-- The operation is done. -/
def State.opDone (s : State) (q : Nat) (p : Packet) : State :=
  s.modPacket q fun _ => { p.next with ops := p.ops + 1 }

/-- An operation on registers. -/
def regOp (f : Packet → Packet) (s : State) : Outcome State Fault Refusal := reedOp (fun s q p => s.opDone q (f p)) s

/-! ### Windows (R245) -/

/-- Size of a window and where it lies: 0 the packet, 1 local, 2 and 3 in memory. -/
def windowSize (d : QDesc) (w : Nat) : Nat :=
  match w with
  | 0 => 256
  | 1 => 256
  | 2 => if d.win2.1 = 0 then 0 else min d.win2.2 16384
  | _ => if d.win3.1 = 0 then 0 else min d.win3.2 16384

def winAddr (f : ReedMem) (p : Packet) : Nat := (p.rx f.s + BitVec.ofNat 72 f.off.toNat).toNat

def winOk (d : QDesc) (w a n : Nat) : Bool := a % 4 == 0 && a + n ≤ windowSize d w

/-- Bytes of the ring at a pointer. -/
def State.ringRead (s : State) (d : QDesc) : Nat → Nat → Except VaErr (List Byte) × State
  | 0, _ => (.ok [], s)
  | n + 1, ptr =>
    match s.vaRead headViewer d.asid (d.ring + ptr % d.size) 4 with
    | (.error e, s) => (.error e, s)
    | (.ok b, s) =>
      match s.ringRead d n (ptr + 4) with
      | (.error e, s) => (.error e, s)
      | (.ok r, s) => (.ok (b ++ r), s)

/-- A load of n bytes. -/
def reedLoad (f : ReedMem) (n : Nat) (s : State) : Outcome State Fault Refusal :=
  reedOp (fun s q p =>
    let d := s.qDesc q
    let w := f.w.toNat
    let a := winAddr f p
    let put := fun (s : State) (bs : List Byte) => s.opDone q (p.setX f.d (BitVec.ofNat 72 (num (bs.take n))))
    if !winOk d w a n then s.failPacket q 0xFF
    else match w with
      | 0 =>
        if (s.queueD q).wptr < d.read + a + n then s.modPacket q fun _ => p
        else match s.ringRead d ((n + 3) / 4) (d.read + a) with
          | (.ok bs, s) => put s bs
          | (.error e, s) => s.stallOn q d.asid 0 e
      | 1 => put s (p.mem.read a n)
      | _ =>
        match s.vaRead headViewer d.asid ((if w = 2 then d.win2.1 else d.win3.1) + a) n with
        | (.ok bs, s) => put s bs
        | (.error e, s) => s.stallOn q d.asid 0 e) s

/-- A store of n bytes; window 0 refuses it. -/
def reedStore (f : ReedMem) (n : Nat) (s : State) : Outcome State Fault Refusal :=
  reedOp (fun s q p =>
    let d := s.qDesc q
    let w := f.w.toNat
    let a := winAddr f p
    let bs := bytes n (p.rx f.d).toNat
    if w = 0 ∨ !winOk d w a n then s.failPacket q 0xFF
    else if w = 1 then s.opDone q { p with mem := p.mem.write a bs }
    else
      match s.vaWrite headViewer d.asid ((if w = 2 then d.win2.1 else d.win3.1) + a) bs with
      | (.ok _, s) => s.opDone q p
      | (.error e, s) => s.stallOn q d.asid 1 e) s

/-! ### The operations (R245) -/

def execReedLdw (f : ReedMem) (s : State) : Outcome State Fault Refusal := reedLoad f 4 s
def execReedLdd (f : ReedMem) (s : State) : Outcome State Fault Refusal := reedLoad f 8 s
def execReedLdv (f : ReedMem) (s : State) : Outcome State Fault Refusal := reedLoad f 9 s
def execReedStw (f : ReedMem) (s : State) : Outcome State Fault Refusal := reedStore f 4 s
def execReedStd (f : ReedMem) (s : State) : Outcome State Fault Refusal := reedStore f 8 s
def execReedStv (f : ReedMem) (s : State) : Outcome State Fault Refusal := reedStore f 9 s

/-- sext(imm, 16) in 72 bits. -/
def immS (imm : BitVec 16) : Addr := imm.signExtend 72

def execReedLi (f : ReedImm) (s : State) : Outcome State Fault Refusal := regOp (fun p => p.setX f.d (immS f.imm)) s
def execReedLis (f : ReedImm) (s : State) : Outcome State Fault Refusal :=
  regOp (fun p => p.setX f.d ((p.rx f.d <<< 16) ||| f.imm.setWidth 72)) s
def execReedAdd (f : ReedReg) (s : State) : Outcome State Fault Refusal :=
  regOp (fun p => p.setX f.d (p.rx f.d + p.rx f.s)) s
def execReedAddi (f : ReedImm) (s : State) : Outcome State Fault Refusal :=
  regOp (fun p => p.setX f.d (p.rx f.d + immS f.imm)) s
def execReedSub (f : ReedReg) (s : State) : Outcome State Fault Refusal :=
  regOp (fun p => p.setX f.d (p.rx f.d - p.rx f.s)) s
def execReedAnd (f : ReedReg) (s : State) : Outcome State Fault Refusal :=
  regOp (fun p => p.setX f.d (p.rx f.d &&& p.rx f.s)) s
def execReedOr (f : ReedReg) (s : State) : Outcome State Fault Refusal :=
  regOp (fun p => p.setX f.d (p.rx f.d ||| p.rx f.s)) s
def execReedShli (f : ReedImm) (s : State) : Outcome State Fault Refusal :=
  regOp (fun p => p.setX f.d (p.rx f.d <<< (f.imm.toNat % 128))) s
def execReedShri (f : ReedImm) (s : State) : Outcome State Fault Refusal :=
  regOp (fun p => p.setX f.d (p.rx f.d >>> (f.imm.toNat % 128))) s

/-- A forward skip. -/
def skipOp (c : Addr → Addr → Bool) (f : ReedBr) (s : State) : Outcome State Fault Refusal :=
  reedOp (fun s q p =>
    let p2 := if c (p.rx f.d) (p.rx f.s) then p.goTo (p.pc + 1 + f.imm.toNat) else p.next
    s.modPacket q fun _ => { p2 with ops := p.ops + 1 }) s

def execReedBeq (f : ReedBr) (s : State) : Outcome State Fault Refusal := skipOp (· == ·) f s
def execReedBne (f : ReedBr) (s : State) : Outcome State Fault Refusal := skipOp (· != ·) f s
def execReedBltu (f : ReedBr) (s : State) : Outcome State Fault Refusal := skipOp BitVec.ult f s

/-- loop: the next imm[15:8] operations run min(d, imm[7:0]) times. -/
def execReedLoop (f : ReedImm) (s : State) : Outcome State Fault Refusal :=
  reedOp (fun s q p =>
    let n := f.imm.toNat / 256
    let times := min (p.rx f.d).toNat (f.imm.toNat % 256)
    let p2 := if times = 0 ∨ n = 0 then p.goTo (p.pc + 1 + n)
      else { p with pc := p.pc + 1, loops := { first := p.pc + 1, last := p.pc + 1 + n, left := times - 1 } :: p.loops }
    s.modPacket q fun _ => { p2 with ops := p.ops + 1 }) s

/-- call: the primitive begins; its row performs it. -/
def execReedCall (imm : BitVec 16) (s : State) : Outcome State Fault Refusal :=
  reedOp (fun s q p => s.modPacket q fun _ => { p with prim := .called imm.toNat, ops := p.ops + 1 }) s

/-- end: the read pointer moves on and the packet ends. -/
def execReedEnd (imm : BitVec 16) (s : State) : Outcome State Fault Refusal :=
  reedOp (fun s q _ =>
    (s.setReadPtr q ((s.qDesc q).read + imm.toNat)).modQueue q fun k => { k with packet := none }) s

/-- fail: error, with the code in dv_qctl. -/
def execReedFail (imm : BitVec 16) (s : State) : Outcome State Fault Refusal :=
  reedOp (fun s q _ => s.failPacket q (imm.setWidth 8)) s

/-- OPERATION_LIMIT (R246): the 513th operation ends the packet as fail 0xFE. -/
def execOperationLimit (q : Nat) (s : State) : Outcome State Fault Refusal :=
  match (s.queueD q).packet with
  | some p => .next (if 512 ≤ p.ops ∧ p.prim = .none then s.failPacket q 0xFE else s)
  | none => .next s

/-! ### Primitives: what they share -/

/-- A primitive that its packet has called: the frame of the rows of R247. fails: what follows where the fault that it
waited at, at a VA, has been answered as fatal. -/
def primWith (n q : Nat) (fails : State → Packet → QDesc → Nat → State) (body : State → Packet → QDesc → State)
    (s : State) : Outcome State Fault Refusal :=
  match (s.queueD q).packet with
  | none => .next s
  | some p =>
    let go := s.modPacket q fun p => { p with fault := none }
    match s.stall p with
    | .waits => .next s
    | .failed va => .next (if p.prim = .called n then fails go p (s.qDesc q) va else s)
    | .no => .next (if p.prim = .called n then body go p (s.qDesc q) else s)

/-- A primitive of which a fatal answer to a page fault sets the queue to error (R244). -/
def primOp (n q : Nat) (body : State → Packet → QDesc → State) (s : State) : Outcome State Fault Refusal :=
  primWith n q (fun s _ _ va => s.queueError q 0 va) body s

/-- A primitive blocks: it holds its queue and no engine (R247). -/
def State.blocks (s : State) (q : Nat) (prim : Prim) : State := s.modPacket q fun p => { p with prim, engine := false }

/-- The primitive returns: x7 takes the result and the program goes on. -/
def State.primDone (s : State) (q x7 : Nat) : State :=
  s.modPacket q fun p => { (p.setX 7 (BitVec.ofNat 72 x7)).next with prim := .none }

/-! ### The checks of a program (R246) -/

/-- Where an operation may go next outside its loop counts: skip targets. -/
def skipOf : Instr → Option Nat
  | .reedBeq f => some f.imm.toNat
  | .reedBne f => some f.imm.toNat
  | .reedBltu f => some f.imm.toNat
  | _ => none

def loopOf : Instr → Option Nat
  | .reedLoop f => some (f.imm.toNat / 256)
  | _ => none

def endsPacket : Instr → Bool
  | .reedEnd _ => true
  | .reedFail _ => true
  | _ => false

def windowOf : Instr → Option Nat
  | .reedLdw f => some f.w.toNat
  | .reedLdd f => some f.w.toNat
  | .reedLdv f => some f.w.toNat
  | .reedStw f => some f.w.toNat
  | .reedStd f => some f.w.toNat
  | .reedStv f => some f.w.toNat
  | _ => none

def callOf : Instr → Option Nat
  | .reedCall imm => some imm.toNat
  | _ => none

/-- The checks that need no queue: operands, branches, loop bodies, nesting. -/
def reedProgOk (ops : List Instr) : Bool :=
  let n := ops.length
  let at' := ops.zipIdx
  let loops := at'.filterMap fun p => (loopOf p.1).map fun k => (p.2 + 1, p.2 + 1 + k)
  let inBody := fun (l : Nat × Nat) (i : Nat) => l.1 ≤ i && i < l.2
  n ≤ 1024 && ops.all Instr.wf &&
    (at'.all fun p => match skipOf p.1 with
      | some k => p.2 + 1 + k ≤ n && loops.all fun l => !inBody l p.2 || p.2 + 1 + k ≤ l.2
      | none => true) &&
    (loops.all fun l => l.2 ≤ n && at'.all fun p => !(inBody l p.2 && endsPacket p.1)) &&
    at'.all fun p => (loops.filter fun l => inBody l p.2).length ≤ 4

/-- The checks against a queue: windows present, primitives in its mask. -/
def reedBindOk (ops : List Instr) (d : QDesc) (mask : BitVec 14) : Bool :=
  ops.all fun i =>
    (match windowOf i with
      | some w => w < 2 || windowSize d w != 0
      | none => true) &&
    match callOf i with
      | some n => 1 ≤ n && n ≤ 14 && mask.getLsbD (n - 1)
      | none => true

/-- The operations of a loaded program. -/
def State.reedProg (s : State) (ix : Nat) : Option (List Instr) :=
  (s.dev.reeds.find? (·.1 == ix)).map fun r => r.2.1.filterMap decodeReed

end Sys2Proof.Machine
end

