-- ==== Sys2Proof/Machine/Headworks.lean ====
section
/-! DEFINITION. The Headworks (R242–R252): doorbells, the queue fetchers, and the primitives but for PREEMPT: LAUNCH
with its checks and plan, gangs, COPY, SIGNAL, WAITVAL, INTERRUPT, MODWRITE, PROPAGATE, RECLAIM, REPLAY and DUMPTO. -/

namespace Sys2Proof.Machine

open Host

/-! ### Doorbells and fetchers (R243, R246, R301) -/

/-- A doorbell write: the write pointer only grows (R243). -/
def State.ring (s : State) (q v : Nat) : State :=
  let d := s.qDesc q
  if v < d.read ∨ d.read + d.size < v then
    let s' := s.modQueue q fun k => { k with state := 3 }
    if (s.queueD q).irq then s'.event 4 else s'
  else s.modQueue q fun k => { k with wptr := max k.wptr v }

/-- Packets in the reed engines of a queue's fetcher (R243). -/
def State.enginesOf (s : State) (q : Nat) : Nat :=
  (s.queues.filter fun r => r.q / 512 == q / 512 && match r.packet with | some p => p.engine | none => false).length

/-- A queue that a fetcher may serve. -/
def State.mayFetch (s : State) (q : Nat) : Bool :=
  let k := s.queueD q
  k.state == 1 && k.packet.isNone && !k.signalStalls && (s.qDesc q).read < k.wptr && (!s.dev.split.getLsbD 1 || k.grants != 0)

/-- Places after the last served queue, in turn. -/
def turnOf (last q : Nat) : Nat := (q + 8192 - last - 1) % 8192

/-- Queue q is the one its fetcher takes: greatest priority, then round-robin. -/
def State.fetchNext (s : State) (q : Nat) : Bool :=
  let k := s.queueD q
  let last := ((s.dev.served.find? (·.1 == (q / 512, k.prio))).map (·.2)).getD 8191
  let rivals := s.queues.filter fun r => r.q / 512 == q / 512 && s.mayFetch r.q
  rivals.all fun r => r.prio < k.prio || (r.prio == k.prio && turnOf last q ≤ turnOf last r.q)

/-- PACKET_FETCH (R243, R246): at most two packets of a fetcher are in its engines; the program and its binding are
checked again. -/
def execPacketFetch (q : Nat) (s : State) : Outcome State Fault Refusal :=
  let k := s.queueD q
  if !s.mayFetch q || 2 ≤ s.enginesOf q || !s.fetchNext q then .next s
  else
    match s.reedProg (s.qDesc q).prog with
    | none => .next (s.queueError q 0 0)
    | some ops =>
      if !reedBindOk ops (s.qDesc q) k.mask then .next (s.queueError q 0 0)
      else
        let key := (q / 512, k.prio)
        let s := { s with dev := { s.dev with served := (key, q) :: s.dev.served.filter fun e => e.1 != key } }
        .next (s.modQueue q fun k => { k with
          packet := some { since := s.drone }, grants := if s.dev.split.getLsbD 1 then k.grants - 1 else k.grants })

/-! ### The planner's checks (R63, R64, R66) -/

def Part.positions (p : Part) : List (Nat × Nat) :=
  (List.range p.h).flatMap fun j => (List.range p.w).map fun i => (p.x0 + i, p.y0 + j)

/-- The tasks of a list of kernels can be resident at once. -/
def State.canHold (s : State) (l : Launch) (p : Part) : List Nat → Bool
  | [] => true
  | k :: r => p.positions.any fun q => s.fits l k q.1 q.2 &&
      (let f := s.takeFresh
       let t : Task := { tid := f.1, lid := l.lid, key := 0, kernel := k }
       ({ f.2 with tasks := f.2.tasks ++ [t] }.place l t q.1 q.2 fun _ tix => newThread tix 0).canHold l p r)

/-- The launch error of R63, or 0. -/
def State.planError (s : State) (l : Launch) (p : Part) : Nat :=
  let whole := { p with cores := none }
  let s0 := { s with tasks := [], launches := [l], dev := { s.dev with parts := [whole] } }
  let ks := List.range l.code.kernels.length
  let bars := l.code.nodes.any fun k => (l.kernel k).launchBar
  if ks.any (fun k => !p.positions.any fun q => p.aligned (l.kernel k) q.1 q.2) then 3
  else if ks.any (fun k => !s0.coreRoom l k p.x0 p.y0) then 3
  else if bars && (!l.code.edges.isEmpty || !s0.canHold l whole l.code.nodes) then 4
  else 0

/-! ### LAUNCH (R54–R57, R63, R146, R177–R179, R248–R250, R402) -/

/-- The completion record of a launch that fails its checks. -/
def errorBytes (code now : Nat) : List Byte :=
  bytes 4 3 ++ bytes 2 code ++ bytes 10 0 ++ bytes 8 now ++ bytes 8 0 ++ List.replicate 32 0

/-- A part of a gang has failed its checks (R252). -/
def State.gangFails (s : State) (handle : Nat) : State :=
  { s with gangs := upd (fun g => g.handle == handle) (fun g => { g with failed := true }) s.gangs }

/-- LAUNCH fails: the record, where it can be written, and x7. -/
def State.launchFails (s : State) (q handle : Nat) (asid : BitVec 12) (cr code : Nat) : State :=
  let f := s.takeFresh
  let w : OutWrite := { n := f.1, kind := .final, va := BitVec.ofNat 72 cr, asid, data := errorBytes code s.drone }
  let s := if code = 12 ∧ cr % 64 ≠ 0 then s else (f.2.addWrite q w).retryRecords q
  (s.gangFails handle).primDone q code

/-- Reserved fields of a descriptor are zero and its limits hold (R248). -/
def descFieldsOk (d : List Byte) : Bool :=
  fieldAt d 9 1 < 16 && fieldAt d 10 2 < 4096 && fieldAt d 0x1A 2 ≤ 4096 && fieldAt d 0x1C 4 == 0 && fieldAt d 0x29 7 == 0 &&
    fieldAt d 0x39 7 == 0 && fieldAt d 0x49 3 == 0 && fieldAt d 0x4C 4 != 0 && fieldAt d 0x59 3 == 0 &&
    fieldAt d 0x60 9 % 64 == 0 && fieldAt d 0x69 23 == 0

/-- The partition that a mask names, if exactly one bit of it is set. -/
def maskPart (m : Nat) : Option Nat := (List.range 8).find? fun p => m == 2 ^ p

def parseBuffer (b : List Byte) : Buffer :=
  { id := fieldAt b 0 2, rewritten := fieldAt b 2 1 % 2 == 1, version := BitVec.ofNat 32 (fieldAt b 4 4)
    base := BitVec.ofNat 72 (fieldAt b 8 9), len := fieldAt b 0x18 8 }

/-- The device pages that a launch's buffers reach at admission (R146). -/
def State.declaredPages (s : State) (asid : BitVec 12) (bs : List Buffer) : List Nat :=
  ((bs.flatMap fun b => (pieces b.base.toNat b.len).map (·.1)).filterMap fun va =>
    match s.devicePa asid va with
    | some (a, pa) => if a.target = 0 then some (pa / 65536) else none
    | none => none).eraseDups

/-- R177, R179: the arena lies on plain writable device pages and its header passes. DESIGN CHOICE (log 134): a table without
bytes lies nowhere, so its offset is not checked. -/
def State.arenaOk (s : State) (asid : BitVec 12) (va nodes : Nat) (h : List Byte) : Bool :=
  let size := fieldAt h 0x10 8
  let tabs := (List.range 5).map fun i => (fieldAt h (0x20 + 16 * i) 8, fieldAt h (0x28 + 16 * i) 4 * nth [64, 16, 32, 32, 16] i 0)
  let spans := (0, 256) :: tabs.filter (·.2 != 0)
  let nb := fieldAt h 0x68 4
  let apart := (spans.zipIdx).all fun p => (spans.zipIdx).all fun q =>
    p.2 == q.2 || p.1.1 + p.1.2 ≤ q.1.1 || q.1.1 + q.1.2 ≤ p.1.1
  fieldAt h 0 4 == 0x4352544B && fieldAt h 4 2 == 1 && fieldAt h 6 1 == 0 && 256 ≤ size &&
    (spans.all fun p => p.1 + p.2 ≤ size) && apart && 256 ≤ nb && nb == 2 ^ nb.log2 && nodes ≤ fieldAt h 0x28 4 &&
    (pieces va size).all fun p => match s.devicePa asid p.1 with
      | some (a, _) => a.w && a.target == 0 && !a.cell && !a.mod && !a.ordw
      | none => false

/-- A launch with a trace begins to record: state 1, the code object, and the task records of the graph (R178, R179).
Entries of an earlier trace at the same place become part of the base values. -/
def State.startTrace (s : State) (l : Launch) : State :=
  let a := l.arenaAt
  let n := l.code.nodes.length
  let recs := (l.code.nodes.zipIdx).map fun p =>
    ({ key := p.2 * 2 ^ 32, slot := 0, parent := noRecord, site := noRecord, entry := p.1,
       block := (addrAdd l.argBase (p.2 * l.argStride : Nat)).toNat } : TaskRec)
  let old := s.cells.filter fun h => h.traced && h.scope == l.scope
  let s := old.foldl (fun s h =>
    let tag := s.tagAt (h.pa / 64)
    s.plainWrite tag h.pa (bytes 16 (applyEntries (s.cellBase tag h.pa) h.entries))) s
  let s := { s with cells := s.cells.filter fun h => !(h.traced && h.scope == l.scope) }
  let s := s.arPut a 6 1 1
  let s := s.arPut a 0x88 9 l.code.va.toNat
  let s := s.arenaPut a.asid (a.va + 0x98) l.code.graph
  let s := s.arPut a 0xA8 4 n
  (s.appendRecs a 0 64 (recs.map TaskRec.bytes)).2

/-- The planner's cache, most recent first (R57, R250). -/
def State.usePlan (s : State) (l : Launch) (p : Part) : State :=
  let key := (l.code.graph, p.w, p.h)
  { s with plans := (key :: s.plans.filter (· != key)).take 256 }

/-- The launch enters the machine: status 0, empty cores power-gated (R62), its trace, its tasks. -/
def State.enterLaunch (s : State) (q : Nat) (l : Launch) (p : Part) : State :=
  let s := { s with launches := s.launches ++ [l] }
  let s := s.usePlan l p
  let s := (s.addWrite q { n := l.lid, kind := .admitted, va := l.cr, asid := l.asid, data := l.crBytes 0 0 0 }).retryRecords q
  let s := s.gateIdle p
  let s := if l.lrec = 1 then s.startTrace l else s
  (s.admitNodes l.lid l.code.nodes.length).primDone q 0

/-- An access to the page of a fault that has been answered as fatal meets UNMAPPED (R218, R402). -/
def VaErr.answered (dead : Option Nat) : VaErr → VaErr
  | .parks k va => if dead = some (va / 65536) then .unmapped va else .parks k va
  | .unmapped va => .unmapped va
  | .perm va => .perm va
  | .dataerr va => .dataerr va

/-- A read of a LAUNCH; dead: the page of a fault that has been answered as fatal. -/
def VaErr.orDead {α : Type} (dead : Option Nat) (r : Except VaErr α × State) : Except VaErr α × State :=
  match r.1 with
  | .error e => (.error (e.answered dead), r.2)
  | .ok x => (.ok x, r.2)

/-- What follows the descriptor's own checks: steps 1 (buffer table) to 5 of R248. DESIGN CHOICE (log 116): a part of a gang
counts as admitted, with its declared pages fixed, when its LAUNCH stages it (R146, R247). -/
def State.launchSteps (s : State) (q handle : Nat) (dead : Option Nat) (d : List Byte) (part : Nat) (p : Part) : State :=
  let asid : BitVec 12 := BitVec.ofNat 12 (fieldAt d 10 2)
  let cr := fieldAt d 0x60 9
  let flag := fun (n : Nat) => (fieldAt d 9 1).testBit n
  match VaErr.orDead dead (s.vaRead headViewer asid (fieldAt d 0x20 9) (32 * fieldAt d 0x1A 2)) with
  | (.error (.parks k va), s) => s.stallOn q asid 0 (.parks k va)
  | (.error _, s) => s.launchFails q handle asid cr 12
  | (.ok table, s) =>
    match VaErr.orDead dead (s.readCode asid (fieldAt d 0 9)) with
    | (.error (.parks k va), s) => s.stallOn q asid 0 (.parks k va)
    | (.error _, s) => s.launchFails q handle asid cr 1
    | (.ok none, s) => s.launchFails q handle asid cr 1
    | (.ok (some code), s) =>
      let arena := fieldAt d 0x30 9
      let traced := flag 1 && arena != 0
      let bufs := (recordsOf 32 (fieldAt d 0x1A 2) table).map parseBuffer
      if code.features.toNat &&& (2 ^ 128 - 1 - s.feat0.toNat) ≠ 0 then s.launchFails q handle asid cr 2
      else
        match (if traced then VaErr.orDead dead ((s.ask 10 4).vaRead headViewer asid arena 256) else (.ok [], s)) with
        | (.error (.parks k va), s) => s.stallOn q asid 0 (.parks k va)
        | (.error _, s) => s.launchFails q handle asid cr 7
        | (.ok h, s) =>
          if traced && !s.arenaOk asid arena code.nodes.length h then s.launchFails q handle asid cr 7
          else
            let f := s.takeFresh
            let l : Launch :=
              { lid := f.1, queue := q, asid, cr := BitVec.ofNat 72 cr, det := flag 0, trace := flag 1, checked := flag 2,
                haltFatal := flag 3, part, st := if handle = 0 then .running else .staged, code
                argBase := BitVec.ofNat 72 (fieldAt d 0x10 9), argStride := fieldAt d 0x0C 4
                bufTable := BitVec.ofNat 72 (fieldAt d 0x20 9), buffers := bufs, arena := BitVec.ofNat 72 arena
                shadowVa := BitVec.ofNat 72 (fieldAt d 0x40 9), shadowSlots := 512 * fieldAt d 0x4C 4
                dumpVa := BitVec.ofNat 72 (fieldAt d 0x50 9), dumpSize := fieldAt d 0x5C 4, rounds := code.rounds
                lrec := if traced then 1 else 0, handle, hostSet := s.declaredPages asid bufs }
            match s.planError l p with
            | 0 => f.2.enterLaunch q l p
            | e => s.launchFails q handle asid cr e

/-- A LAUNCH from its descriptor on. Until a gang that holds the partition has started, another launch is not admitted and
the queue waits (R252); a traced one waits for the trace-maintenance budget (R256). DESIGN CHOICE (log 73): a partition
outside the handle's mask gives x7 alone. -/
def State.launchFrom (s : State) (q : Nat) (p : Packet) (qd : QDesc) (dead : Option Nat) : State :=
  let handle := (p.rx 2).toNat
  match VaErr.orDead dead (s.vaRead headViewer qd.asid (p.rx 1).toNat 128) with
  | (.error e, s) => s.stallOn q qd.asid 0 e
  | (.ok d, s) =>
    let asid : BitVec 12 := BitVec.ofNat 12 (fieldAt d 10 2)
    let cr := fieldAt d 0x60 9
    let gang := s.gangs.find? fun g => g.handle == handle && g.start.isNone
    if handle ≠ 0 && gang.isNone then s.primDone q 0xFFFF
    else if asid ≠ qd.asid && !(s.queueD q).foreign then s.launchFails q handle qd.asid cr 11
    else
      match maskPart (fieldAt d 0x19 1), (maskPart (fieldAt d 0x19 1)).bind s.part? with
      | some n, some part =>
        let inGang := match gang with | some g => g.mask.getLsbD n | none => true
        if !inGang then s.primDone q 8
        else if !descFieldsOk d then s.launchFails q handle asid cr 12
        else if handle = 0 && s.gangs.any fun g => g.mask.getLsbD n then s.blocks q (.called 1)
        else
          let w := s.maintains ((fieldAt d 9 1).testBit 1) fun s => s.launchSteps q handle dead d n part
          if w.1 then w.2 else w.2.blocks q (.called 1)
      | _, _ => s.launchFails q handle asid cr 8

/-- LAUNCH (R248, R252, R402): a fatal answer to a page fault that it waits at counts as UNMAPPED at that page. -/
def execLaunch (q : Nat) (s : State) : Outcome State Fault Refusal :=
  primWith 1 q (fun s p qd va => s.launchFrom q p qd (some (va / 65536))) (fun s p qd => s.launchFrom q p qd none) s

/-! ### Gangs (R252) -/

/-- GANGRESERVE. DESIGN CHOICE (log 138): the handle is the lowest free one. -/
def execGangreserve (q : Nat) (s : State) : Outcome State Fault Refusal :=
  primOp 2 q (fun s p _ =>
    let m := (p.rx 1).toNat
    let mask : BitVec 8 := BitVec.ofNat 8 m
    let busy := s.launches.any (fun l => l.prop.isNone && mask.getLsbD l.part) || s.gangs.any fun g => g.mask &&& mask != 0
    let free := (List.range 255).map (· + 1) |>.find? fun h => !s.gangs.any (·.handle == h)
    if m = 0 ∨ 256 ≤ m then s.primDone q 0xFFFF
    else if busy then s.primDone q 0
    else match free with
      | some h =>
        let s1 : State := { s with gangs := s.gangs ++ [{ handle := h, mask }] }
        s1.primDone q h
      | none => s.primDone q 0) s

def State.partsOf (s : State) (handle : Nat) : List Launch := s.launches.filter fun l => l.handle == handle && l.st == .staged

/-- Staged parts complete with status 4 and GANGABORT, and the handle is free. -/
def State.abortGang (s : State) (handle : Nat) : State :=
  let s := (s.partsOf handle).foldl (fun s l => s.closeLaunch l.lid 4 9) s
  { s with gangs := s.gangs.filter (·.handle != handle) }

/-- GANGCOMMIT: the start time of every staged part, or none starts. -/
def execGangcommit (q : Nat) (s : State) : Outcome State Fault Refusal :=
  primOp 3 q (fun s p _ =>
    let h := (p.rx 1).toNat
    match s.gangs.find? fun g => g.handle == h && g.start.isNone with
    | none => s.primDone q 0xFFFF
    | some g =>
      if g.failed then (s.abortGang h).primDone q 9
      else
        let ts := (s.drone + max (p.rx 2).toNat 2048 + 63) / 64 * 64
        let s := { s with gangs := upd (fun g => g.handle == h) (fun g => { g with start := some ts }) s.gangs }
        let set := fun (l : Launch) => if l.handle == h && l.st == .staged then { l with startAt := some ts } else l
        let s2 : State := { s with launches := s.launches.map set }
        s2.primDone q 0) s

/-- GANGABORT. -/
def execGangabort (q : Nat) (s : State) : Outcome State Fault Refusal :=
  primOp 4 q (fun s p _ =>
    let h := (p.rx 1).toNat
    if s.gangs.any fun g => g.handle == h && g.start.isNone then (s.abortGang h).primDone q 0 else s.primDone q 0xFFFF) s

/-- GANG_START (R252): at Ts by the local Drone copy every staged part begins. -/
def execGangStart (handle : Nat) (s : State) : Outcome State Fault Refusal :=
  match s.gangs.find? fun g => g.handle == handle with
  | some g =>
    match g.start with
    | some ts =>
      if s.droneAt .sluice < ts then .next s
      else
        let parts := s.partsOf handle
        let go := fun (l : Launch) => if l.handle == handle && l.st == .staged then { l with st := .running } else l
        let s := { s with launches := s.launches.map go, gangs := s.gangs.filter (·.handle != handle) }
        .next (parts.foldl (fun s l => s.admitNodes l.lid l.code.nodes.length) s)
    | none => .next s
  | none => .next s

/-! ### COPY, SIGNAL, WAITVAL, INTERRUPT (R247) -/

/-- Where it begins and before the Headworks' copy engine moves into a new page it renews a lease that ends soon (R214). -/
def State.renewAt (s : State) (asid : BitVec 12) (va : Nat) (first : Bool) : State :=
  if first || va % 65536 == 0 then s.renew .headworks asid va else s

/-- Bytes of the next piece of a transfer of at most n bytes at a VA (R123), and whether they lie in a CELL page. -/
def State.headPiece (s : State) (asid : BitVec 12) (va n : Nat) (need : Attr → Bool) : Nat × Bool :=
  match (s.translate headViewer asid va need).1 with
  | .ok a pa => (min n (granule a - pa % granule a), a.target == 0 && a.cell)
  | _ => (n, false)

/-- One piece of the Headworks' copy engine, on the copy engines' budget (R123, R256): units of 64 bytes are read piece by
piece, then written piece by piece. DESIGN CHOICE (log 123): a CELL page as the target, for which R125 gives CELLST and no
lane takes it, ends the copy with x7 = 0xFFFF. -/
def State.headCopy (s : State) (q : Nat) (p : Packet) (asid : BitVec 12) (done : Nat) (unit : List Byte) (out : Bool) : State :=
  let n := (p.rx 3).toNat
  if n % 64 ≠ 0 then s.primDone q 0xFFFF
  else if n ≤ done then s.primDone q 0
  else if out then
    let dst := (addrAdd (p.rx 2) (done + (64 - unit.length) : Nat)).toNat
    let s := s.renewAt asid dst (done == 0 && unit.length == 64)
    let k := s.headPiece asid dst unit.length (·.w)
    if k.2 then s.primDone q 0xFFFF
    else match s.vaWrite headViewer asid dst (unit.take k.1) with
      | (.error e, s) => s.stallOn q asid 5 e
      | (.ok _, s) =>
        if k.1 < unit.length then s.blocks q (.copying done (unit.drop k.1) true)
        else
          let s := (s.transfer 8 1).hbmRequest 1 768 p.since
          if n ≤ done + 64 then s.primDone q 0 else s.blocks q (.copying (done + 64) [] false)
  else if unit.isEmpty && !s.mayTransfer 8 then s.blocks q (.copying done [] false)
  else
    let src := (addrAdd (p.rx 1) (done + unit.length : Nat)).toNat
    let s := s.renewAt asid src (done == 0 && unit.isEmpty)
    let k := s.headPiece asid src (64 - unit.length) (·.r)
    match s.vaRead headViewer asid src k.1 with
    | (.error e, s) => s.stallOn q asid 4 e
    | (.ok bs, s) => s.blocks q (.copying done (unit ++ bs) (64 ≤ (unit ++ bs).length))

/-- HEADWORKS_COPY: each turn moves one piece. -/
def execHeadworksCopy (q : Nat) (s : State) : Outcome State Fault Refusal :=
  match (s.queueD q).packet with
  | none => .next s
  | some p =>
    let mine := match p.prim with
      | .called n => n == 5
      | .copying _ _ _ => true
      | _ => false
    match s.stall p with
    | .waits => .next s
    | .failed va => .next (if mine then s.queueError q 0 va else s)
    | .no =>
      let s := s.modPacket q fun p => { p with fault := none }
      match p.prim with
      | .called 5 => .next (s.headCopy q p (s.qDesc q).asid 0 [] false)
      | .copying done unit out => .next (s.headCopy q p (s.qDesc q).asid done unit out)
      | _ => .next s

/-- SIGNAL: the write is due once the queue's earlier launches have completed; its copies already have. -/
def execSignal (q : Nat) (s : State) : Outcome State Fault Refusal :=
  primOp 6 q (fun s p _ =>
    let f := s.takeFresh
    let g : SignalReq := { n := f.1, va := p.rx 1, value := (p.rx 2).setWidth 64 }
    (f.2.modQueue q fun k => { k with signals := k.signals ++ [g] }).primDone q 0) s

/-- The queue's launches before a SIGNAL have completed, their records written (R247). -/
def State.signalDue (s : State) (k : Queue) (g : SignalReq) : Bool :=
  !(s.launches.any fun l => l.queue == k.q && l.prop.isNone && l.lid < g.n) &&
    !k.crWaits.any fun w => w.kind != .admitted && w.n < g.n

/-- SIGNAL_WRITE: the oldest pending value is written once it is due; at a page fault it waits and stalls the queue (R244). -/
def execSignalWrite (q : Nat) (s : State) : Outcome State Fault Refusal :=
  match (s.queueD q).signals with
  | [] => .next s
  | g :: rest =>
    let drop := fun (s : State) => s.modQueue q fun k => { k with signals := rest }
    match g.fault.bind fun fid => s.faults.find? fun (f : PageFault) => f.fid == fid with
    | some f => .next (if f.failed then (drop s).queueError q 0 g.faultVa else s)
    | none =>
      let asid := (s.qDesc q).asid
      if !s.signalDue (s.queueD q) g then .next s
      else
        match s.vaWrite headViewer asid g.va.toNat (bytes 8 g.value.toNat) with
        | (.ok _, s) => .next ((drop s).retryRecords q)
        | (.error (.parks k at'), s) =>
          let f := s.pageFault asid at' k 1 0xFFFF
          .next (f.2.modQueue q fun k => { k with signals := { g with fault := some f.1, faultVa := at' } :: rest })
        | (.error (.unmapped at'), s) => .next ((drop s).queueError q 0 at')
        | (.error (.perm at'), s) => .next ((drop s).queueError q 0 at')
        | (.error (.dataerr at'), s) => .next ((drop s).queueError q 0 at')

/-- Reads the word of a WAITVAL and returns, or blocks until the next reading. -/
def State.tryWait (s : State) (q : Nat) (p : Packet) (d : QDesc) : State :=
  match s.vaRead headViewer d.asid (p.rx 1).toNat 8 with
  | (.error e, s) => s.stallOn q d.asid 0 e
  | (.ok bs, s) =>
    let want := (p.rx 2).toNat % 2 ^ 64
    let met := if p.rx 3 = 0 then num bs = want else want ≤ num bs
    if met then s.primDone q 0 else s.blocks q (.waitval s.drone)

/-- WAITVAL. -/
def execWaitval (q : Nat) (s : State) : Outcome State Fault Refusal :=
  primOp 7 q (fun s p d => if 2 ≤ (p.rx 3).toNat then s.primDone q 0xFFFF else s.tryWait q p d) s

/-- WAITVAL_REREAD: 1,024 ns after the last reading. -/
def execWaitvalReread (q : Nat) (s : State) : Outcome State Fault Refusal :=
  match (s.queueD q).packet with
  | none => .next s
  | some p =>
    match s.stall p, p.prim with
    | .failed va, .waitval _ => .next (s.queueError q 0 va)
    | .no, .waitval t =>
      if s.drone < t + 1024 then .next s
      else .next ((s.modPacket q fun p => { p with fault := none }).tryWait q p (s.qDesc q))
    | _, _ => .next s

/-- INTERRUPT. -/
def execInterrupt (q : Nat) (s : State) : Outcome State Fault Refusal :=
  primOp 8 q (fun s p _ =>
    let v := (p.rx 1).toNat
    if 64 ≤ v then s.primDone q 0xFFFF
    else { s with host := { s.host with interrupts := s.host.interrupts ++ [v] } }.primDone q 0) s

/-! ### MODWRITE, PROPAGATE (R188, R190, R247) -/

/-- MODWRITE. -/
def execModwrite (q : Nat) (s : State) : Outcome State Fault Refusal :=
  primOp 9 q (fun s p d =>
    let va := (p.rx 2).toNat
    let n := (p.rx 4).toNat
    if (n ≠ 4 ∧ n ≠ 8) ∨ va % n ≠ 0 then s.primDone q 0xFFFF
    else
      match s.vaRead headViewer d.asid (p.rx 1).toNat 256 with
      | (.error e, s) => s.stallOn q d.asid 0 e
      | (.ok _, s) =>
        match s.translate headViewer d.asid va (·.w) with
        | (.ok a pa, s) =>
          if a.target ≠ 0 then s.queueError q 0 va
          else if a.cell then s.primDone q 0xFFFF
          else
            let w := s.maintains ((p.rx 1).toNat != 0) fun s =>
              s.modWrite ⟨d.asid, (p.rx 1).toNat⟩ (s.tagAt (pa / 64)) va pa (bytes n (p.rx 3).toNat)
            if w.1 then w.2.primDone q 0 else w.2.blocks q (.called 9)
        | (.parks k, s) => s.stallOn q d.asid 1 (.parks k va)
        | (.unmapped, s) => s.queueError q 0 va
        | (.perm, s) => s.queueError q 0 va
        | (.dataerr, s) => s.queueError q 0 va) s

/-- Writes the result of a PROPAGATE; the propagation is gone once it is written. -/
def State.propagateEnds (s : State) (q : Nat) (p : Packet) (d : QDesc) (g : Propag) (bs : List Byte) (x7 : Nat) : State :=
  match s.vaWrite headViewer d.asid (p.rx 3).toNat bs with
  | (.ok _, s) => (s.removeProp g).primDone q x7
  | (.error e, s) => s.stallOn q d.asid 1 e

/-- A PROPAGATE that its queue waits for. -/
def State.propagateStep (s : State) (q : Nat) (p : Packet) (d : QDesc) (g : Propag) : State :=
  let scope := 2 * (g.asid.toNat + 4096 * g.arena.toNat) + 1
  match g.st with
  | 0 =>
    if s.propWaits g then s
    else
      let began := (s.beginProp g.pid).1
      let w := s.maintains true fun s => (s.beginProp g.pid).2
      if !w.1 || began then w.2
      else w.2.propagateEnds q p d g (bytes 4 0xFFFFFFFF ++ bytes 4 0xFFFFFFFF ++ bytes 4 0xFFFFFFFF) 7
  | 2 =>
    if s.withdrawals.any fun w => w.2.1 == scope then s
    else s.propagateEnds q p d g (propResult g.re g.sp g.di g.first) 0
  | _ => s

/-- PROPAGATE. -/
def execPropagate (q : Nat) (s : State) : Outcome State Fault Refusal :=
  match (s.queueD q).packet with
  | none => .next s
  | some p =>
    let d := s.qDesc q
    let mine := match p.prim with
      | .called n => n == 10
      | .propagating _ => true
      | _ => false
    match s.stall p with
    | .waits => .next s
    | .failed va => .next (if mine then s.queueError q 0 va else s)
    | .no =>
      let s := s.modPacket q fun p => { p with fault := none }
      match p.prim with
      | .called 10 =>
        let part := (p.rx 2).toNat
        if (p.rx 3).toNat % 16 ≠ 0 ∨ (p.rx 1).toNat % 64 ≠ 0 ∨ (s.part? part).isNone then .next (s.primDone q 0xFFFF)
        else
          match s.vaRead headViewer d.asid (p.rx 1).toNat 256 with
          | (.error e, s) => .next (s.stallOn q d.asid 0 e)
          | (.ok _, s) =>
            let f := s.takeFresh
            let g : Propag :=
              { pid := f.1, asid := d.asid, arena := p.rx 1, lid := none, wave := none, queue := some q, part,
                result := p.rx 3, shadowVa := p.rx 4, shadowSlots := 512 * (p.rx 5).toNat }
            let s := { f.2 with props := f.2.props ++ [g] }
            .next ((s.blocks q (.propagating f.1)).propagateStep q p d g)
      | .propagating pid =>
        match s.prop? pid with
        | some g => .next (s.propagateStep q p d g)
        | none => .next (s.primDone q 0)
      | _ => .next s

/-! ### RECLAIM, REPLAY, DUMPTO (R211, R218, R220, R247, R264, R268, R301) -/

/-- Σ (lease(Lj) + 2,016) over the packed codes (R211). -/
def reclaimSum (codes n : Nat) : Nat := ((List.range n).map fun j => leaseNs (codes / 16 ^ j % 16) + 2016).sum

/-- RECLAIM. -/
def execReclaim (q : Nat) (s : State) : Outcome State Fault Refusal :=
  primOp 11 q (fun s p _ =>
    let n := (p.rx 3).toNat
    if n = 0 ∨ 6 < n then s.primDone q 0xFFFF
    else s.blocks q (.reclaim ((p.rx 1).toNat + reclaimSum (p.rx 2).toNat n))) s

/-- RECLAIM_RETURN. -/
def execReclaimReturn (q : Nat) (s : State) : Outcome State Fault Refusal :=
  match (s.queueD q).packet with
  | none => .next s
  | some p =>
    match p.prim with
    | .reclaim t => .next (if t ≤ s.drone then s.primDone q 0 else s)
    | _ => .next s

/-- REPLAY: retry or fatal. -/
def execReplay (q : Nat) (s : State) : Outcome State Fault Refusal :=
  primOp 13 q (fun s p _ =>
    let fid := (p.rx 1).toNat
    if 2 ≤ (p.rx 2).toNat || !(s.faults.any fun f => f.fid == fid && !f.failed) then s.primDone q 0xFFFF
    else (if p.rx 2 = 0 then s.retryFault fid else (s.failLanes fid).failFault fid).primDone q 0) s

/-- Every wave of a launch has stopped (R264). -/
def State.allStopped (s : State) (lid : Nat) : Bool :=
  (s.tasks.filter fun t => t.lid == lid && t.st == .resident).all fun t =>
    t.shares.all fun h => h.waves.all fun w => w.stopped || w.wait.switched || w.blocked

/-- DUMPTO: a dump of reason 4 of a launch that a debugger has stopped, else a halt and a dump of reason 2. -/
def execDumpto (q : Nat) (s : State) : Outcome State Fault Refusal :=
  primOp 14 q (fun s p d =>
    let va := (p.rx 2).toNat
    let size := (p.rx 3).toNat
    match s.launches.find? fun l => l.prop.isNone && l.cr == p.rx 1 && l.asid == d.asid && l.st != .staged with
    | none => s.primDone q 0xFFFF
    | some l =>
      let halt := fun (t : Nat) =>
        (s.modLaunch l.lid fun l => { l with st := .halting t 2 (p.rx 2) size }).primDone q 0
      match l.st with
      | .running =>
        if l.stopReq && s.allStopped l.lid then (s.writeDump l 4 s.drone va size).primDone q 0 else halt s.now
      | .halted t => halt t
      | _ => s.primDone q 0xFFFF) s

/-! ### The halt's drain and the dump (R268, R278) -/

/-- A copy that would wait for room, for its bytes or at a fault. -/
def State.copyWaits (s : State) (k : CopyCmd) : Bool :=
  k.fault.isSome || (k.kind == .out && !k.fired) ||
    ((k.kind == .lin || k.kind == .box || k.kind == .mcast) && k.dests.all fun d =>
      k.cnt ≤ 64 * d.2 || match (s.share? k.tid d.1).bind fun h => h.chans[k.ch]? with
        | some c => decide (c.q + c.size < c.p + 64)
        | none => true)

/-- A halt cancels a copy: its channels keep the delivered count. -/
def State.haltCopy (s : State) (k : CopyCmd) : State :=
  k.dests.foldl (fun s d => s.modShare k.tid d.1 fun h => h.modChan k.ch fun c =>
    { c with lastTag := k.tag, lastBytes := 64 * d.2, cancelled := true }) s

def State.copiesOfLaunch (s : State) (lid : Nat) : List CopyCmd :=
  (s.cores.flatMap fun c => c.copies.flatten).filter fun k => match s.task? k.tid with
    | some t => t.lid == lid
    | none => false

/-- When the halt of a launch was broadcast. -/
def Launch.haltedAt (l : Launch) : Option Nat := match l.st with
  | .halting t _ _ _ => some t
  | .halted t => some t
  | _ => none

/-- Copies of a halted launch that are cancelled now: those that would wait, and all of them 4,096 ns after the broadcast
(R268). -/
def State.drainNow (s : State) (l : Launch) : List CopyCmd := match l.haltedAt with
  | some t => (s.copiesOfLaunch l.lid).filter fun k => t + 4096 * Config.droneTick ≤ s.now || s.copyWaits k
  | none => []

def CopyCmd.is (k : CopyCmd) (o : CopyCmd) : Bool := k.tid == o.tid && k.core == o.core && k.wix == o.wix && k.tag == o.tag

/-- They are cancelled, each at a unit boundary: a unit of a COPYO that has begun is written to its end. -/
def State.drainCopies (s : State) (l : Launch) : State :=
  let mine := fun (k : CopyCmd) => (s.drainNow l).any k.is
  let s := s.cores.foldl (fun s c => (List.range 8).foldl (fun s ctx => s.endUnit c.x c.y ctx mine 8) s) s
  let s := ((s.copiesOfLaunch l.lid).filter mine).foldl State.haltCopy s
  { s with cores := s.cores.map fun c => { c with copies := c.copies.map fun q => q.filter fun k => !mine k } }

/-- COPY_DRAIN (R268). -/
def execCopyDrain (lid : Nat) (s : State) : Outcome State Fault Refusal := match s.launch? lid with
  | none => .next s
  | some l => .next (s.drainCopies l)

/-- A wave's instruction is in progress and completes although its launch has been halted (R268): it is neither a wait nor
held at R42's switch point, nor one that waits for the merge of a round (R145). -/
def Wave.inProgress (w : Wave) : Bool := match w.wait with
  | .fence _ _ _ => true
  | .fencex _ _ _ _ => true
  | .cells _ => true
  | .retry k switched => k == 0 && !switched
  | _ => false

def State.progresses (s : State) (lid : Nat) : Bool :=
  s.tasks.any fun t => t.lid == lid && t.st == .resident && t.shares.any fun h => h.waves.any Wave.inProgress

/-- DUMP (R268, R274): once instructions in progress have completed and the copies have drained, the dump is written and the
launch ends with HALTED. -/
def execDump (lid : Nat) (s : State) : Outcome State Fault Refusal :=
  match s.launch? lid with
  | none => .next s
  | some l =>
    match l.st with
    | .halting t reason va size =>
      if !(s.copiesOfLaunch lid).isEmpty || s.progresses lid then .next s
      else .next ((s.writeDump l reason (t / Config.droneTick) va.toNat size).closeLaunch lid 3 10)
    | _ => .next s

end Sys2Proof.Machine
end

