-- ==== Sys2Proof/Machine/Preempt.lean ====
section
/-! DEFINITION. Pre-emption (R88, R238, R253–R255, R301): PREEMPT, its timeout, and the firmware's own decision. -/

namespace Sys2Proof.Machine

open Host

/-! ### Masks (R253) -/

/-- The cores that a mask names: bit j * w + i is the core i right of and j above the partition's corner. -/
def Part.maskCores (p : Part) (m : Nat) : List (Nat × Nat) :=
  (p.positions.zipIdx.filter fun q => m.testBit q.2).map (·.1)

/-- The cores that a partition has now. -/
def Part.present (p : Part) : List (Nat × Nat) := p.cores.getD p.positions

/-- The smallest rectangle around a list of cores: low corner, width, height. -/
def boundsOf (l : List (Nat × Nat)) : Nat × Nat × Nat × Nat :=
  let x0 := (l.map (·.1)).foldl min 1024
  let y0 := (l.map (·.2)).foldl min 1024
  let x1 := (l.map (·.1)).foldl max 0
  let y1 := (l.map (·.2)).foldl max 0
  (x0, y0, x1 + 1 - x0, y1 + 1 - y0)

/-- A mask that is an aligned rectangle inside the partition (R64, R253). -/
def Part.maskOk (p : Part) (m : Nat) : Bool :=
  let cs := p.maskCores m
  let b := boundsOf cs
  let log := fun (n : Nat) => n == 2 ^ n.log2 && n ≤ 16
  !cs.isEmpty && m < 2 ^ (p.w * p.h) && cs.length == b.2.2.1 * b.2.2.2 && log b.2.2.1 && log b.2.2.2 &&
    b.1 % b.2.2.1 == 0 && b.2.1 % b.2.2.2 == 0

/-- The mask is the partition's present one. -/
def Part.maskSame (p : Part) (m : Nat) : Bool :=
  let cs := p.maskCores m
  m < 2 ^ (p.w * p.h) && cs.all p.present.contains && p.present.all cs.contains

def State.modPart (s : State) (n : Nat) (f : Part → Part) : State :=
  { s with dev := { s.dev with parts := upd (·.p == n) f s.dev.parts } }

/-! ### The chosen tasks (R254, steps 2 to 5) -/

/-- Resident tasks of a partition whose polder touches a core outside a list. -/
def State.chosen (s : State) (n : Nat) (left : List (Nat × Nat)) : List Task :=
  s.tasks.filter fun t => t.st == .resident && (match s.launch? t.lid with | some l => l.part == n | none => false) &&
    t.shares.any fun h => !left.contains (s.coreXY t h.c)

def Code.inRegion (c : Code) (pc : Nat) : Bool := c.regions.any fun r => r.1 ≤ pc && pc < r.2

/-- Every live thread of a task, in its waves and in bins. -/
def State.threadsOf (s : State) (t : Task) : List Thread :=
  (t.shares.flatMap fun h => h.waves.flatMap fun w => w.lanes.filterMap id) ++
    (s.cores.flatMap fun c => (c.bins.filter (·.tid == t.tid)).flatMap fun b => b.entries.map (·.th))

/-- Every live thread of the task is inside an idempotent region (R88). -/
def State.idempotent (s : State) (t : Task) : Bool :=
  match s.launch? t.lid with
  | some l => let ths := s.threadsOf t; !ths.isEmpty && ths.all fun th => l.code.inRegion th.pc
  | none => false

/-- A wave that stands: it waits, is blocked, or has stopped at a safe point. -/
def Wave.stands (w : Wave) : Bool := w.stopped || w.wait.switched || w.blocked

/-- Tasks to be saved stop at the next safe points of their waves. -/
def State.markLeaving (s : State) (ts : List Task) : State :=
  ts.foldl (fun s t => if s.idempotent t then s else s.modTask t.tid fun t => { t with leaving := true }) s

def State.matrixHeld (s : State) (t : Task) : List (Nat × Matrix) :=
  t.shares.filterMap fun h =>
    let xy := s.coreXY t h.c
    let m := (s.core xy.1 xy.2).matrix
    if m.holder == some t.tid then some (h.c, m) else none

def State.copiesIn (s : State) (t : Task) : List CopyCmd :=
  (s.cores.flatMap fun c => c.copies.flatten).filter (·.tid == t.tid)

/-- A chosen task may be evicted now: it is not about to retire (R255), the matrix engine has no command in flight, and
outside idempotent regions every wave stands, its loads have returned, and its copies have finished (R238). -/
def State.evictable (s : State) (t : Task) : Bool :=
  !s.canRetire t && !(s.matrixHeld t).any (fun m => m.2.loading.isSome || !m.2.queue.isEmpty) &&
    (s.idempotent t ||
      ((t.shares.all fun h => h.waves.all fun w => w.stands && w.loads.isEmpty) && (s.copiesIn t).isEmpty))

/-! ### Eviction (R254, steps 6 and 7) -/

/-- What a stopped wave keeps: its latches are lost and its wait begins anew; barrier waits stay. -/
def Wave.saved (w : Wave) (stopReq : Bool) : Wave :=
  let w := w.modLanes 0xFFFFFFFF fun _ th => { th with latch := [] }
  { w with wait := .none, pend := [], pass := false, stopped := stopReq && w.stopped, paid := 0 }

/-- Bytes of what a save holds: registers, scratch and typed-buffer shares. -/
def State.saveSize (s : State) (t : Task) : Nat :=
  t.shares.length * regBytesOf (s.stagesOf t) +
    (t.shares.map fun h => ((List.range 4).map fun sp => h.size sp).sum).sum

/-- Evicts one task: its entry in the task table keeps its shares; what it holds on its cores goes with it or, inside
idempotent regions, is dropped; the race tags of its L1 lines travel to the slices (R138). -/
def State.evict (s : State) (t : Task) : State :=
  let idem := s.idempotent t
  let stopReq := match s.launch? t.lid with | some l => l.stopReq | none => false
  let v : Saved :=
    { tid := t.tid
      bins := s.cores.flatMap fun c => c.bins.filter (·.tid == t.tid)
      retry := s.cores.flatMap fun c => c.retry.filter (·.tid == t.tid)
      matrix := if idem then [] else s.matrixHeld t }
  let s := s.freeCores t
  let s := t.shares.foldl (fun s h => s.loseTags t.tid h.c fun _ => true) s
  let s := { s with saved := s.saved ++ [v] }
  s.modTask t.tid fun t => { t with
    st := .evicted idem
    leaving := false
    shares := t.shares.map fun (h : Share) => { h with waves := h.waves.map fun w => w.saved stopReq } }

/-- A PREEMPT returns: x7 of the queue that asked; firmware's own has none. -/
def State.preemptDone (s : State) (q : Option Nat) (x7 : Nat) : State :=
  match q with
  | some q => s.primDone q x7
  | none => s

/-- Nothing is evicted: the mask is as it was and the chosen tasks go on. -/
def State.preemptBack (s : State) (n : Nat) (e : Preempt) (x7 : Nat) : State :=
  let ts := s.chosen n e.left
  let s := s.modPart n fun p => { p with cores := e.before, preempt := none }
  let s := ts.foldl (fun s t =>
    let stopReq := match s.launch? t.lid with | some l => l.stopReq | none => false
    s.modTask t.tid fun t => { t with
      leaving := false
      shares := t.shares.map fun (h : Share) => { h with waves := h.waves.map fun w =>
        { w with stopped := stopReq && w.stopped, since := s.free } } }) s
  s.preemptDone e.queue x7

/-- Saved tasks of a partition may return. -/
def State.bringBack (s : State) (n : Nat) : State :=
  let mine := fun (tid : Nat) => match s.launchOf? tid with | some l => l.part == n | none => false
  { s with saved := s.saved.map fun v => if mine v.tid then { v with back := true } else v }

/-- The chosen tasks leave and the cores are power-gated; where the mask also grows, evicted tasks may return. -/
def State.preemptEnds (s : State) (n : Nat) (p : Part) (e : Preempt) : State :=
  let ts := s.chosen n e.left
  let grows := e.left.any fun q => !(e.before.getD p.positions).contains q
  let s := if grows then s.bringBack n else s
  let s := ts.foldl State.evict s
  let s := s.modPart n fun p => { p with cores := some e.left, preempt := none }
  let gone := (e.before.getD p.positions).filter fun q => !e.left.contains q
  let s := gone.foldl (fun s q => s.modCore q.1 q.2 fun c => { c with gated := true }) s
  s.preemptDone e.queue ts.length

/-- When every running wave of the chosen tasks must have reached a safe point: after 2^20 core cycles (R254). -/
def Preempt.limit (e : Preempt) : Nat := e.since + 1048576 * Config.coreCycle

/-- Some running wave of a chosen task had reached no safe point in time. -/
def Preempt.late (e : Preempt) (now : Nat) : Bool := e.limit ≤ now && !e.stood

/-- The waves of the tasks that are to be saved stand. -/
def State.chosenStand (s : State) (n : Nat) (e : Preempt) : Bool :=
  (s.chosen n e.left).all fun t => s.idempotent t || t.shares.all fun h => h.waves.all Wave.stands

/-- Time is about to pass by n: the PREEMPTs whose limit comes note whether their waves stand. -/
def State.notePreempts (s : State) (n : Nat) : State :=
  let note := fun (p : Part) => { p with preempt := p.preempt.map fun e =>
    if s.now < e.limit ∧ e.limit ≤ s.now + n then { e with stood := s.chosenStand p.p e } else e }
  { s with dev := { s.dev with parts := s.dev.parts.map note } }

/-- A PREEMPT under way looks whether its tasks can leave. A page fault on the save area stalls the queue. -/
def State.preemptStep (s : State) (n : Nat) (p : Part) (e : Preempt) : State :=
  let ts := s.chosen n e.left
  let s := s.markLeaving ts
  if e.late s.now then s.preemptBack n e 0xFFFD
  else if !ts.all s.evictable then s
  else
    let keep := ts.filter fun t => !s.idempotent t
    let size := if keep.isEmpty then 0 else Config.saveBytes (keep.map s.saveSize).sum
    match e.queue with
    | none => s.preemptEnds n p e
    | some q =>
      if e.size < size then s.preemptBack n e 0xFFFE
      else
        let d := s.qDesc q
        let now := s.free
        let data := (List.range size).map fun i => Config.freeByte now i
        match s.vaWrite headViewer d.asid e.area data with
        | (.ok _, s) => s.preemptEnds n p e
        | (.error err, s) => s.stallOn q d.asid 1 err

/-- Begins to change the mask of a partition. -/
def State.preemptStart (s : State) (n : Nat) (p : Part) (mask : Nat) (queue : Option Nat) (area size : Nat) : State :=
  let left := p.maskCores mask
  let lost := p.present.filter fun q => !left.contains q
  let gains := left.filter fun q => !p.present.contains q
  if lost.isEmpty && gains.isEmpty then s.preemptDone queue 0
  else if lost.isEmpty then
    ((s.bringBack n).modPart n fun p => { p with cores := some left }).preemptDone queue 0
  else
    let e : Preempt := { since := s.now, left, before := p.cores, queue, area, size }
    let s := s.modPart n fun p => { p with cores := some (p.present.filter left.contains), preempt := some e }
    let s := match queue with
      | some q => s.blocks q .preempting
      | none => s
    s.preemptStep n p e

def State.gangHolds (s : State) (n : Nat) : Bool := s.gangs.any fun g => g.start.isNone && g.mask.getLsbD n

/-- The partition whose PREEMPT a queue waits for. -/
def State.preemptOf (s : State) (q : Nat) : Option (Part × Preempt) :=
  (s.dev.parts.filterMap fun p => p.preempt.map fun e => (p, e)).find? fun r => r.2.queue == some q

/-- PREEMPT (R253, R254): begins, or looks again whether the chosen tasks can leave. -/
def execPreempt (q : Nat) (s : State) : Outcome State Fault Refusal :=
  match (s.queueD q).packet with
  | none => .next s
  | some p =>
    let mine := p.prim == .called 12 || p.prim == .preempting
    match s.stall p with
    | .waits => .next s
    | .failed va =>
      if !mine then .next s
      else match s.preemptOf q with
      | some r => .next ((s.preemptBack r.1.p { r.2 with queue := none } 0).queueError q 0 va)
      | none => .next (s.queueError q 0 va)
    | .no =>
      let s := s.modPacket q fun p => { p with fault := none }
      match p.prim with
      | .called 12 =>
        let n := (p.rx 1).toNat
        let m := (p.rx 2).toNat
        match s.part? n with
        | none => .next (s.primDone q 0xFFFF)
        | some part =>
          if s.gangHolds n then .next (s.primDone q 0xFFFF)
          else if part.preempt.isSome then .next (s.blocks q (.called 12))
          else if part.maskSame m then .next (s.primDone q 0)
          else if !part.maskOk m then .next (s.primDone q 0xFFFF)
          else .next (s.preemptStart n part m (some q) (p.rx 3).toNat (p.rx 4).toNat)
      | .preempting =>
        match s.preemptOf q with
        | some r => .next (s.preemptStep r.1.p r.1 r.2)
        | none => .next (s.primDone q 0xFFFF)
      | _ => .next s

/-- PREEMPT_TIMEOUT (R254). -/
def execPreemptTimeout (q : Nat) (s : State) : Outcome State Fault Refusal :=
  match s.preemptOf q with
  | some r => .next (if r.2.late s.now then s.preemptBack r.1.p r.2 0xFFFD else s)
  | none => .next s

/-- Some enabled queue with a packet has a greater priority than a launch that runs in a partition. -/
def State.higherWaits (s : State) (n : Nat) : Bool :=
  s.launches.any fun l => l.part == n && l.prop.isNone && l.st == .running &&
    s.queues.any fun k => k.state == 1 && (s.queueD l.queue).prio < k.prio && (k.packet.isSome || (s.qDesc k.q).read < k.wptr)

/-- PREEMPTION_DECISION (R301): where dv_split leaves the decision to the firmware, it issues PREEMPT on its own, or
goes on with one; its save area is its own. -/
def execPreemptionDecision (p : Nat) (mask : BitVec 64) (s : State) : Outcome State Fault Refusal :=
  match s.part? p with
  | none => .next s
  | some part =>
    match part.preempt with
    | some e =>
      if e.queue.isSome then .next s
      else .next (s.preemptStep p part e)
    | none =>
      if s.dev.split.getLsbD 2 || !s.higherWaits p || s.gangHolds p || !part.maskOk mask.toNat then .next s
      else .next (s.preemptStart p part mask.toNat none 0 0)

end Sys2Proof.Machine
end

