-- ==== Sys2Proof/Machine/System.lean ====
section
/-! DEFINITION. Host attachment, links, memory and device management (R4, R5, R288–R306) and debugging through
registers (R264): the register map, host and peer accesses, links, heartbeats, refresh, scrub, health, bring-up,
attestation, reed loading and budgets. -/

namespace Sys2Proof.Machine

open Host

/-! ### Operations behind single registers -/

def State.modDev (s : State) (f : Dev → Dev) : State := { s with dev := f s.dev }

/-- Device event CONFIG. -/
def State.config (s : State) : State := s.event 3

/-- The partition that a value of dv_part describes (R305). -/
def partOf (p : Nat) (val : BitVec 64) : Part :=
  let f := fun (lo n : Nat) => bitsAt val.toNat lo n
  { p, x0 := f 0 5, y0 := f 8 5, w := f 16 5, h := f 24 5, key := f 32 6, valid := val.getLsbD 63 }

def Part.value (p : Part) : Nat :=
  p.x0 + p.y0 * 2 ^ 8 + p.w * 2 ^ 16 + p.h * 2 ^ 24 + p.key * 2 ^ 32 + (if p.valid then 2 ^ 63 else 0)

def Part.overlaps (a b : Part) : Bool :=
  a.x0 < b.x0 + b.w && b.x0 < a.x0 + a.w && a.y0 < b.y0 + b.h && b.y0 < a.y0 + a.h

/-- A write of dv_part (R305). -/
def State.putPart (s : State) (p : Nat) (val : BitVec 64) : State :=
  let n := partOf p val
  let old := s.part? p
  let runs := old.isSome && s.launches.any fun l => l.part == p && l.st != .staged
  let bad := n.valid && (n.w == 0 || n.h == 0 || Config.meshW < n.x0 + n.w || Config.meshH < n.y0 + n.h ||
    s.dev.parts.any fun o => o.p != p && o.valid && n.overlaps o)
  if runs || bad then s.config
  else { s with dev := { s.dev with parts := s.dev.parts.filter (·.p != p) ++ [n] } }

/-- A write of key material (R305). -/
def State.putKey (s : State) (k : Nat) (key : BitVec 512) : State :=
  if s.dev.keyvalid.getLsbD k then s.config
  else
    let n := ((s.dev.keys.find? (·.1 == k)).map (·.2.2)).getD 0
    { s with dev := { s.dev with keys := s.dev.keys.filter (·.1 != k) ++ [(k, key, n + 1)] } }

/-- A write of dv_rhthresh (R295). -/
def State.putThresh (s : State) (v : Nat) : State :=
  let n := v % 2 ^ 15
  if 256 ≤ n ∧ n ≤ 16384 then { s with dev := { s.dev with rhthresh := n } } else s.config

/-- A write of dv_evmask: an interrupt for each event whose bit stands already and whose mask bit is now set
(R305). -/
def State.putMask (s : State) (v : BitVec 7) : State :=
  let fresh := v &&& ~~~s.dev.evmask &&& s.dev.event
  let n := ((List.range 7).filter fun i => fresh.getLsbD i).length
  { s with
    dev := { s.dev with evmask := v }
    host := { s.host with interrupts := s.host.interrupts ++ List.replicate n s.dev.evvec.toNat } }

def State.stack (s : State) (n : Nat) : Stack := (s.dev.hbm.find? (·.n == n)).getD { n }

def State.modStack (s : State) (n : Nat) (f : Stack → Stack) : State :=
  if 12 ≤ n then s
  else
    let d := s.dev.hbm
    { s with dev := { s.dev with hbm := if d.any (·.n == n) then upd (·.n == n) f d else d ++ [f { n }] } }

/-- The handback bit (R294): it counts while the controller owns refresh. -/
def State.handback (s : State) (n : Nat) : State := s.modStack n fun k => { k with handback := k.handback || k.owner }

/-- Scrub happens only on request where refresh and repair (R294) or scrub (R301) is host-assisted. -/
def Dev.scrubsOnRequest (d : Dev) : Bool := d.split.getLsbD 3 || d.split.getLsbD 4

/-- The scrub bit asks for one pass in host-assisted mode, for each write. -/
def State.askScrub (s : State) (n : Nat) : State :=
  if s.dev.scrubsOnRequest then s.modStack n fun k => { k with scrubReq := k.scrubReq + 1 } else s

/-- The repair-request bit asks the management core in host-assisted mode (R294). -/
def State.askRepair (s : State) (n : Nat) : State :=
  if s.dev.split.getLsbD 3 then s.modStack n fun k => { k with repairReq := true } else s

/-- A halt write (R264). -/
def State.haltIn (s : State) (p : Nat) : State :=
  if (s.debug p).enable then s.stopIn p else s

/-- The 100 µs periods since a stack's last heartbeat that have passed without one; a beat in the very ns in which a miss
falls due comes first (R306). -/
def Stack.missesAt (k : Stack) (drone : Nat) : Nat := (drone - k.lastBeat - 1) / 100000

/-- The misses of a stack are counted as far as they have come; the third takes over refresh (R294). -/
def State.countMisses (s : State) (n : Nat) : State :=
  let k := s.stack n
  let m := k.missesAt s.drone
  if s.dev.split.getLsbD 3 || 12 ≤ n || m ≤ k.misses then s
  else
    let third := k.misses < 3 && 3 ≤ m
    let s1 := s.modStack n fun k => { k with misses := m, owner := k.owner || third }
    if third then s1.event 1 else s1

/-- A write of dv_split (R301): the controllers count misses only while refresh is in hardware mode, from when it becomes so
(log 80). -/
def State.putSplit (s : State) (v : BitVec 8) : State :=
  let s := (List.range 12).foldl State.countMisses s
  let s := if s.dev.split.getLsbD 3 && !v.getLsbD 3 then
      (List.range 12).foldl (fun s n => s.modStack n fun k => { k with misses := 0, lastBeat := s.drone }) s
    else s
  s.modDev fun d => { d with split := v }

/-- Every stopped wave of a launch goes on, with a pass for the safe point before which it has stopped. -/
def State.freeWaves (s : State) (lid : Nat) : State :=
  let go := fun (w : Wave) => if w.stopped then { w with stopped := false, atSafe := false, pass := w.atSafe, since := s.free } else w
  { s with tasks := s.tasks.map fun t => if t.lid == lid then
      { t with shares := t.shares.map fun h => { h with waves := h.waves.map go } } else t }

/-- A step write: the request stays, so each wave stops again at its next safe point (R264). -/
def State.stepIn (s : State) (p : Nat) : State :=
  (s.launchesIn p).foldl (fun s l => if l.stopReq then s.freeWaves l.lid else s) s

/-- A resume write (R264). -/
def State.resumeIn (s : State) (p : Nat) : State :=
  (s.launchesIn p).foldl (fun s l => (s.freeWaves l.lid).modLaunch l.lid fun l => { l with stopReq := false }) s

/-- The words of an image as far as its last nonzero word. -/
def reedWords (image : List Byte) : List Nat :=
  let ws := (recordsOf 4 1024 image).map num
  (ws.reverse.dropWhile (· == 0)).reverse

/-- A write of dv_reedload (R245, R246, R298): nothing is installed where a check fails. -/
def State.loadReed (s : State) (val : BitVec 64) : State :=
  let ix := val.toNat % 4096
  let pa := bitsAt val.toNat 12 40 * 4096
  let image := s.mem.read pa 4096
  let signed := s.mem.read pa (4096 + 3309)
  let ws := reedWords image
  let ops := ws.map decodeReed
  let prog := ops.filterMap id
  let bound := s.queues.filter fun k => k.state == 1 && (s.qDesc k.q).prog == ix
  if Config.signatureOk signed && ops.all Option.isSome && reedProgOk prog &&
      bound.all (fun k => reedBindOk prog (s.qDesc k.q) k.mask) then
    { s with dev := { s.dev with
        reeds := insertBy (fun a b => a.1 < b.1) (ix, ws, image) (s.dev.reeds.filter (·.1 != ix)) } }
  else s

/-- A write of dv_attreq (R299): ignored while a request is pending. -/
def State.askReport (s : State) (val : BitVec 64) : State :=
  if s.dev.attreq.isSome then s
  else { s with dev := { s.dev with attreq := some (bitsAt val.toNat 12 40 * 4096), ready := false } }

/-! ### The register map (R305) -/

def Queue.ctl (k : Queue) (stalled : Bool) : Nat :=
  (if k.state = 1 ∧ stalled then 2 else k.state) + k.prio * 2 ^ 4 + (if k.irq then 2 ^ 7 else 0) + k.fail.toNat * 2 ^ 8 +
    k.mask.toNat * 2 ^ 17 + (if k.foreign then 2 ^ 31 else 0) + k.grants * 2 ^ 32

/-- The queue waits at a page fault. -/
def State.stalled (s : State) (q : Nat) : Bool :=
  match (s.queueD q).packet with
  | some p => s.stall p == .waits
  | none => false

def State.peerReg (s : State) (i : Nat) : Nat := ((s.dev.peers.find? (·.1 == i)).map (·.2.toNat)).getD 0
def State.missedReg (s : State) (r : Nat) : Nat := ((s.dev.missed.find? (·.1 == r)).map (·.2.toNat)).getD 0
def State.badReg (s : State) (sl e : Nat) : Nat :=
  ((s.dev.bad.find? fun b => b.1 == sl && b.2.1 == e).map fun b => b.2.2 / 64 * 64 + 1).getD 0
def Debug.bp (d : Debug) (i : Nat) : Word := nth d.bps i 0xFFFFFFFF

/-- A launch is halted and stays stopped until DUMPTO (R301). -/
def Launch.isHeld (l : Launch) : Bool := match l.st with
  | .halted _ => true
  | _ => false

/-- Every wave of the launches in a partition has stopped (R264, R301). -/
def State.stoppedIn (s : State) (p : Nat) : Bool :=
  let ls := s.launchesIn p
  (!ls.isEmpty || s.launches.any fun l => l.part == p && l.isHeld) && ls.all fun l => l.stopReq && s.allStopped l.lid

/-- What the 8 bytes at an aligned offset read as; none where no register lies. DESIGN CHOICE (log 128): the last 8 bytes of
a 32-byte dv_qctl slot read as 0 and discard writes. -/
def State.regAt (s : State) (off : Nat) : Option Nat :=
  let d := s.dev
  if off = 0x00 then some 0x4B330001
  else if off = 0x08 then some (d.stage + d.failCode.toNat * 2 ^ 8 + if d.ready then 2 ^ 16 else 0)
  else if off = 0x10 then some d.split.toNat
  else if off = 0x18 then some d.event.toNat
  else if off = 0x20 then some d.evmask.toNat
  else if off = 0x28 then some d.evvec.toNat
  else if off = 0x30 then some (d.eolMonths.toNat + d.eolDie.toNat * 2 ^ 16)
  else if off = 0x38 then some d.asbase
  else if off = 0x40 then some d.qbase
  else if off = 0x48 then some 0
  else if off = 0x50 then some d.poolbase
  else if off = 0x58 then some d.rhthresh
  else if off = 0x60 then some d.hbmdl.toNat
  else if off = 0x68 then some d.sampctl.toNat
  else if off = 0x70 then some d.sampbase
  else if off = 0x78 then some d.sampsize.toNat
  else if off = 0x80 then some d.samphead.toNat
  else if off = 0x88 then some d.samptail.toNat
  else if off = 0x90 then some d.sampdrop.toNat
  else if off = 0x98 then some d.keyvalid.toNat
  else if off = 0xA0 then some 0
  else if off = 0xA8 then some (d.hfqbase + d.hfqlog)
  else if off = 0xB0 then some d.hfqhead
  else if off = 0xB8 then some d.hfqtail
  else if off < 0x100 then some (nth d.wdog ((off - 0xC0) / 8) 0).toNat
  else if off < 0x140 then some (((d.parts.find? (·.p == (off - 0x100) / 8)).map Part.value).getD 0)
  else if off < 0x1B8 then some (nth d.budget ((off - 0x140) / 8) 0).toNat
  else if off < 0x200 then none
  else if off < 0x600 then
    let p := (off - 0x200) / 0x80
    let i := (off - 0x200) % 0x80 / 8
    if i = 0 then some ((if (s.debug p).enable then 1 else 0) + if s.stoppedIn p then 16 else 0)
    else if i ≤ 8 then some ((s.debug p).bp (i - 1)).toNat
    else none
  else if off < 0x660 then some (if (s.stack ((off - 0x600) / 8)).owner then 1 else 0)
  else if off < 0x1000 then none
  else if off < 0x2000 then some 0
  else if off < 0x2200 then some (s.peerReg ((off - 0x2000) / 8))
  else if off < 0x3000 then none
  else if off < 0x3C48 then
    let r := (off - 0x3000) / 4
    some (s.missedReg r + s.missedReg (r + 1) * 2 ^ 32)
  else if off < 0x10000 then none
  else if off < 0x28000 then some (s.badReg ((off - 0x10000) / 512) ((off - 0x10000) % 512 / 8))
  else if off < 0x40000 then none
  else if off < 0x80000 then
    let q := (off - 0x40000) / 32
    let k := s.queueD q
    match (off - 0x40000) % 32 with
    | 0 => some (k.ctl (s.stalled q))
    | 8 => some (k.faultVa.toNat % 2 ^ 64)
    | 16 => some (k.faultVa.toNat / 2 ^ 64)
    | _ => some 0
  else if off < 0x90000 then some 0
  else none

/-- W1C registers, whose unwritten half counts as zeros. -/
def clearsOnes (off : Nat) : Bool := off == 0x18 || off == 0x90 || (0x3000 ≤ off && off < 0x3C48)

/-- Ones of v clear a counter of missed deadlines. -/
def State.clearMissed (s : State) (r v : Nat) : State :=
  let n := s.missedReg r
  s.modDev fun d => { d with missed := (d.missed.filter (·.1 != r)) ++
    (let m := without n v; if m = 0 then [] else [(r, BitVec.ofNat 32 m)]) }

/-- A write of a bad-line entry: bit 0 clear removes it (R296). -/
def State.putBad (s : State) (sl e v : Nat) : State :=
  s.modDev fun d => { d with bad := (d.bad.filter fun b => !(b.1 == sl && b.2.1 == e)) ++
    (if v % 2 = 1 then [(sl, e, bitsAt v 6 46 * 64)] else []) }

/-- A write of dv_qctl; state 2 and the fail code are read-only. -/
def State.putQctl (s : State) (q v : Nat) : State :=
  s.modQueue q fun k => { k with
    state := if v % 4 = 2 then k.state else v % 4
    prio := bitsAt v 4 3
    irq := v.testBit 7
    mask := BitVec.ofNat 14 (v / 2 ^ 17)
    foreign := v.testBit 31
    grants := bitsAt v 32 16 }

/-- A write of dv_dbgctl (R264). -/
def State.putDebug (s : State) (p v : Nat) : State :=
  let s := s.modDebug p fun d => { d with enable := v.testBit 0 }
  let s := if v.testBit 1 then s.haltIn p else s
  let s := if v.testBit 2 then s.resumeIn p else s
  if v.testBit 3 then s.stepIn p else s

def State.putRefctl (s : State) (n v : Nat) : State :=
  let s := if v.testBit 1 then s.handback n else s
  let s := if v.testBit 2 then s.askScrub n else s
  if v.testBit 3 then s.askRepair n else s

/-- 8 bytes of key material of a slot. -/
def State.putKeyWord (s : State) (k i v : Nat) : State :=
  let old := ((s.dev.keys.find? (·.1 == k)).map (·.2.1.toNat)).getD 0
  let hi := old / 2 ^ (64 * (i + 1)) * 2 ^ (64 * (i + 1))
  s.putKey k (BitVec.ofNat 512 (hi + v * 2 ^ (64 * i) + old % 2 ^ (64 * i)))

/-- What a write of 8 bytes at an aligned offset does; reserved fields and read-only registers ignore it (R4, R5). -/
def State.regPut (s : State) (off v : Nat) : State :=
  if off = 0x10 then s.putSplit (BitVec.ofNat 8 v)
  else if off = 0x18 then s.modDev fun d => { d with event := d.event &&& ~~~BitVec.ofNat 7 v }
  else if off = 0x20 then s.putMask (BitVec.ofNat 7 v)
  else if off = 0x28 then s.modDev fun d => { d with evvec := BitVec.ofNat 6 v }
  else if off = 0x38 then s.modDev fun d => { d with asbase := bitsAt v 16 36 * 65536 }
  else if off = 0x40 then s.modDev fun d => { d with qbase := bitsAt v 6 46 * 64 }
  else if off = 0x48 then s.loadReed (BitVec.ofNat 64 v)
  else if off = 0x50 then s.modDev fun d => { d with poolbase := bitsAt v 11 41 * 2048 }
  else if off = 0x58 then s.putThresh v
  else if off = 0x60 then s.modDev fun d => { d with hbmdl := BitVec.ofNat 64 v }
  else if off = 0x68 then s.modDev fun d => { d with sampctl := BitVec.ofNat 32 v &&& 0x001FFF01 }
  else if off = 0x70 then s.modDev fun d => { d with sampbase := bitsAt v 16 36 * 65536 }
  else if off = 0x78 then s.modDev fun d => { d with sampsize := BitVec.ofNat 32 v }
  else if off = 0x88 then s.modDev fun d => { d with samptail := BitVec.ofNat 32 v }
  else if off = 0x90 then s.modDev fun d => { d with sampdrop := d.sampdrop &&& ~~~BitVec.ofNat 32 v }
  else if off = 0x98 then s.modDev fun d => { d with keyvalid := BitVec.ofNat 64 v }
  else if off = 0xA0 then s.askReport (BitVec.ofNat 64 v)
  else if off = 0xA8 then s.modDev fun d => { d with hfqbase := bitsAt v 12 40 * 4096, hfqlog := v % 16 }
  else if off = 0xB8 then s.modDev fun d => { d with hfqtail := v }
  else if off < 0xC0 then s
  else if off < 0x100 then s.modDev fun d => { d with wdog := putAt 0 d.wdog ((off - 0xC0) / 8) (BitVec.ofNat 32 v) }
  else if off < 0x140 then s.putPart ((off - 0x100) / 8) (BitVec.ofNat 64 v)
  else if off < 0x1B8 then s.modDev fun d => { d with budget := putAt 0 d.budget ((off - 0x140) / 8) (BitVec.ofNat 32 v) }
  else if off < 0x200 then s
  else if off < 0x600 then
    let p := (off - 0x200) / 0x80
    let i := (off - 0x200) % 0x80 / 8
    if i = 0 then s.putDebug p v
    else if i ≤ 8 then s.modDebug p fun d => { d with bps := putAt 0xFFFFFFFF d.bps (i - 1) (BitVec.ofNat 32 v) }
    else s
  else if off < 0x660 then s.putRefctl ((off - 0x600) / 8) v
  else if off < 0x1000 then s
  else if off < 0x2000 then s.putKeyWord ((off - 0x1000) / 64) ((off - 0x1000) % 64 / 8) v
  else if off < 0x2200 then
    let i := (off - 0x2000) / 8
    s.modDev fun d => { d with peers := d.peers.filter (·.1 != i) ++ [(i, BitVec.ofNat 64 v &&& 0x0000FFFFFFFF0003)] }
  else if off < 0x3000 then s
  else if off < 0x3C48 then
    let r := (off - 0x3000) / 4
    (s.clearMissed r (v % 2 ^ 32)).clearMissed (r + 1) (v / 2 ^ 32)
  else if off < 0x10000 then s
  else if off < 0x28000 then s.putBad ((off - 0x10000) / 512) ((off - 0x10000) % 512 / 8) v
  else if off < 0x40000 then s
  else if off < 0x80000 then (if (off - 0x40000) % 32 = 0 then s.putQctl ((off - 0x40000) / 32) v else s)
  else if off < 0x90000 then s.ring ((off - 0x80000) / 8) v
  else s

/-- Register offsets that stand before stage 4 (R304). -/
def earlyReg (off : Nat) : Bool := off / 8 == 0 || off / 8 == 1

/-- A register access of n bytes has a register: width, alignment, window, stage (R288, R304). -/
def State.regOk (s : State) (off n : Nat) : Bool :=
  (n == 4 || n == 8) && off % n == 0 && (s.regAt (off / 8 * 8)).isSome && (s.dev.stage == 4 || earlyReg off)

/-- What a register read of n bytes answers; none is code 3. -/
def State.regRead (s : State) (off n : Nat) : Option Nat :=
  if s.regOk off n then (s.regAt (off / 8 * 8)).map fun v => if n = 8 then v % 2 ^ 64 else v / 2 ^ (8 * (off % 8)) % 2 ^ 32
  else none

/-- What a 4-byte write leaves of the half of an 8-byte register that it does not name: as it reads, but zeros where ones
clear, and what the register holds where it cannot be read (R4). -/
def State.otherHalf (s : State) (slot : Nat) : Nat :=
  if clearsOnes slot then 0
  else if 0x1000 ≤ slot ∧ slot < 0x2000 then
    ((s.dev.keys.find? (·.1 == (slot - 0x1000) / 64)).map fun k => k.2.1.toNat / 2 ^ (slot % 64 * 8) % 2 ^ 64).getD 0
  else if 0x80000 ≤ slot then (s.queueD ((slot - 0x80000) / 8)).wptr
  else (s.regAt slot).getD 0

/-- The response to the register access that is served (R288). -/
def State.answerReg (s : State) (code : Nat) (data : List Byte) : State := s.reply s.host.stream code data

/-- A register access of the stream that is served waits behind a delayed store of the stream (R153). -/
def State.regWaits (s : State) : Bool := s.streamWaits s.host.stream

/-- REGISTER_WRITE of n bytes (R4, R5, R288, R304, R305). -/
def execRegisterWrite (off n : Nat) (val : BitVec 64) (s : State) : Outcome State Fault Refusal :=
  if s.regWaits then .next s
  else if !s.regOk off n then .next (s.answerReg 3 [])
  else
    let slot := off / 8 * 8
    let old := s.otherHalf slot
    let v32 := val.toNat % 2 ^ 32
    let v := if n = 8 then val.toNat
      else if off % 8 = 0 then old / 2 ^ 32 * 2 ^ 32 + v32 else v32 * 2 ^ 32 + old % 2 ^ 32
    .next ((s.regPut slot v).answerReg 0 [])

/-- A register read of n bytes by a stream (R288). -/
def State.hostRegRead (s : State) (stream off n : Nat) : State :=
  if s.streamWaits stream then s
  else match s.regRead off n with
    | some v => s.reply stream 0 (bytes n v)
    | none => s.reply stream 3 []

/-- A write of a register with a row of its own, which exists: taken at stage 4, code 3 before. -/
def State.whenReady (s : State) (there : Bool) (f : State → State) : Outcome State Fault Refusal :=
  .next (if s.regWaits then s else if s.dev.stage = 4 ∧ there = true then (f s).answerReg 0 [] else s.answerReg 3 [])

def execDvAttreq (val : BitVec 64) (s : State) : Outcome State Fault Refusal := s.whenReady true fun s => s.askReport val

def execDvReedload (val : BitVec 64) (s : State) : Outcome State Fault Refusal := s.whenReady true fun s => s.loadReed val

def execDvPart (p : Nat) (val : BitVec 64) (s : State) : Outcome State Fault Refusal :=
  s.whenReady (p < 8) fun s => s.putPart p val

def execDvKeyslot (k : Nat) (key : BitVec 512) (s : State) : Outcome State Fault Refusal :=
  s.whenReady (k < 64) fun s => s.putKey k key

def execDvRhthresh (val : BitVec 64) (s : State) : Outcome State Fault Refusal :=
  s.whenReady true fun s => s.putThresh val.toNat

def execDvEvmask (val : BitVec 64) (s : State) : Outcome State Fault Refusal :=
  s.whenReady true fun s => s.putMask (BitVec.ofNat 7 val.toNat)

/-- DV_DOORBELL (R243); code 3 before stage 4 (R304). -/
def execDvDoorbell (q : Nat) (val : BitVec 64) (s : State) : Outcome State Fault Refusal :=
  s.whenReady (q < 8192) fun s => s.ring q val.toNat

def execRefctlHandback (stack : Nat) (s : State) : Outcome State Fault Refusal :=
  s.whenReady (stack < 12) fun s => s.handback stack

def execRefctlScrub (stack : Nat) (s : State) : Outcome State Fault Refusal :=
  s.whenReady (stack < 12) fun s => s.askScrub stack

def execRefctlRepair (stack : Nat) (s : State) : Outcome State Fault Refusal :=
  s.whenReady (stack < 12) fun s => s.askRepair stack

def execDbgctlHalt (p : Nat) (s : State) : Outcome State Fault Refusal := s.whenReady (p < 8) fun s => s.haltIn p

def execDbgctlStep (p : Nat) (s : State) : Outcome State Fault Refusal := s.whenReady (p < 8) fun s => s.stepIn p

def execDbgctlResume (p : Nat) (s : State) : Outcome State Fault Refusal := s.whenReady (p < 8) fun s => s.resumeIn p

/-! ### Host and peer accesses (R146–R148, R256, R288–R290) -/

/-- DEVICE_MEMORY_READ: it waits where its budget is used up, and behind a delayed store of its stream (R153). -/
def execDeviceMemoryRead (stream pa key : Nat) (ver : BitVec 32) (s : State) : Outcome State Fault Refusal :=
  if !s.mayTransfer 9 || s.streamWaits stream then .next s
  else .next (((s.transfer 9 1).hbmRequest 1 769 0).hostLoad stream pa key ver)

/-- DEVICE_MEMORY_WRITE. -/
def execDeviceMemoryWrite (stream pa key : Nat) (ver : BitVec 32) (mask : BitVec 64) (data : BitVec 512) (s : State) :
    Outcome State Fault Refusal :=
  if !s.mayTransfer 9 then .next s else .next (((s.transfer 9 1).hbmRequest 1 769 0).hostStore stream pa key ver mask data)

def State.replyPeer (s : State) (peer code : Nat) (data : List Byte) : State :=
  { s with host := { s.host with peerReplies := s.host.peerReplies ++ [(peer, code, data)] } }

/-- PEER_ACCESS (R122, R148, R290, R297): a valid peer reads or writes a 32-byte granule in the MSC, in plaintext. -/
def execPeerAccess (peer pa : Nat) (write : Option (BitVec 256)) (mask : BitVec 32) (s : State) :
    Outcome State Fault Refusal :=
  let pa := pa / 32 * 32
  if !s.peerOk peer then .next s
  else if s.peerDown (BitVec.ofNat 6 peer) pa then .next (s.replyPeer peer 1 [])
  else if Config.deviceBytes ≤ pa then .next (s.replyPeer peer 3 [])
  else match write with
    | some d =>
      let bs := ((List.range 32).filter fun i => mask.getLsbD i).map fun i => (pa + i, BitVec.ofNat 8 (d.toNat / 2 ^ (8 * i)))
      .next ((bs.foldl (fun s b => s.plainWrite (0, 0) b.1 [b.2]) s).replyPeer peer 0 [])
    | none =>
      if s.badLine pa then .next ((s.lineFails pa).replyPeer peer 1 [])
      else .next (s.replyPeer peer 0 ((List.range 32).map fun i => s.plainByte (0, 0) (pa + i)))

/-- LINK_TRAINING_LOSS (R290). -/
def execLinkTrainingLoss (port : Nat) (s : State) : Outcome State Fault Refusal :=
  if 16 ≤ port ∨ s.dev.lostPorts.contains port then .next s
  else .next (s.modDev fun d => { d with lostPorts := d.lostPorts ++ [port] })

/-- LINK_TRAINING (R290). -/
def execLinkTraining (port : Nat) (s : State) : Outcome State Fault Refusal :=
  .next (s.modDev fun d => { d with lostPorts := d.lostPorts.filter (· != port) })

/-! ### Refresh, row hammering, scrub (R277, R294–R296, R301) -/

/-- HEARTBEAT (R294): the misses start again; ownership passes back once the handback bit was written; a repair that
was asked for is under way. -/
def execHeartbeat (stack : Nat) (s : State) : Outcome State Fault Refusal :=
  .next ((s.countMisses stack).modStack stack fun k => { k with
    misses := 0, lastBeat := s.drone, owner := k.owner && !k.handback, handback := false, repairReq := false })

/-- HEARTBEAT_MISS (R294): 100 µs have passed since the last beat or miss. -/
def execHeartbeatMiss (stack : Nat) (s : State) : Outcome State Fault Refusal := .next (s.countMisses stack)

/-- One activation in a tracker of 16 counters; true: the threshold is reached and the counter is free. -/
def trackRow (thresh row : Nat) (t : List (Nat × Nat)) : List (Nat × Nat) × Bool :=
  match t.find? (·.1 == row) with
  | some e =>
    if thresh ≤ e.2 + 1 then (t.filter (·.1 != row), true)
    else (upd (·.1 == row) (fun p => (p.1, p.2 + 1)) t, false)
  | none =>
    if t.length < 16 then (t ++ [(row, 1)], false)
    else ((t.map fun p => (p.1, p.2 - 1)).filter (·.2 != 0), false)

/-- Trackers clear once for each 32 ms of Drone time; activations in the very ns of the clear come first (R295, R306). -/
def State.clearTrackers (s : State) : State :=
  let n := (s.drone - 1) / 32000000
  if n ≤ s.dev.clears then s
  else s.modDev fun d => { d with clears := n, hbm := d.hbm.map fun k => { k with trackers := [] } }

/-- Directed refreshes that the budget of refresh management lets go on (R256, R295). -/
def State.refreshOwed (s : State) (n : Nat) : State :=
  let due := (s.stack n).refreshDue
  let m := s.mayPay 13 due.length
  if m = 0 then s
  else (s.transfer 13 m).modStack n fun k => { k with directed := k.directed ++ due.take m, refreshDue := due.drop m }

/-- ROW_ACTIVATION (R295). -/
def execRowActivation (stack channel bank row : Nat) (s : State) : Outcome State Fault Refusal :=
  let s := s.clearTrackers
  let k := s.stack stack
  let t := ((k.trackers.find? (·.1 == (channel, bank))).map (·.2)).getD []
  let r := trackRow s.dev.rhthresh row t
  let near := [row + 1, row + 2] ++ (if 1 ≤ row then [row - 1] else []) ++ (if 2 ≤ row then [row - 2] else [])
  let s := s.modStack stack fun k => { k with
    trackers := (k.trackers.filter (·.1 != (channel, bank))) ++ [((channel, bank), r.1)]
    refreshDue := if r.2 then k.refreshDue ++ near.map fun n => (channel, bank, n) else k.refreshDue }
  .next (s.refreshOwed stack)

/-- TRACKER_CLEAR (R295). -/
def execTrackerClear (s : State) : Outcome State Fault Refusal := .next s.clearTrackers

/-- The lines of a stack, which a scrub pass reads (R296). -/
def stackLines : Nat := Config.deviceBytes / 12 / 64

/-- A pass over a stack: it reads every line; those that it cannot correct are listed, be they new ones or such as it has
found before (R294, R296). -/
def State.scrub (s : State) (stack day : Nat) (bad : List Nat) : State :=
  let onRequest := s.dev.scrubsOnRequest
  let s := (s.ask 12 stackLines).modStack stack fun k =>
    { k with scrubs := k.scrubs + 1, scrubReq := if onRequest then k.scrubReq - 1 else k.scrubReq
             scrubDays := if onRequest then k.scrubDays else day + 1 }
  let all := bad.filter (· < Config.deviceBytes) ++ s.dev.broken.map (64 * ·)
  (all.filter fun pa => stackOf pa == stack).foldl State.lineFails (s.hbmRequests 3 (774 + stack) 0 stackLines)

/-- SCRUB_PASS (R294, R296, R301): automatic, once in each 24 hours of Drone time, or one for each request in host-assisted
mode; it waits until the budget of scrub covers it (R256). -/
def execScrubPass (stack : Nat) (bad : List Nat) (s : State) : Outcome State Fault Refusal :=
  let k := s.stack stack
  let day := s.drone / 86400000000000
  let due := if s.dev.scrubsOnRequest then k.scrubReq ≠ 0 else k.scrubDays ≤ day
  if 12 ≤ stack || !decide due then .next s
  else .next (s.budgeted 12 (·.scrub stack day bad)).2

/-! ### Health, bring-up, attestation (R10, R298–R300, R304) -/

/-- EOL_UPDATE (R300): once in every hour of Drone time. -/
def execEolUpdate (months : BitVec 16) (die : BitVec 8) (s : State) : Outcome State Fault Refusal :=
  let hour := s.drone / 3600000000000
  let d := die.toNat
  if hour ≤ s.dev.eolHour ∨ !(d < 4 ∨ (16 ≤ d ∧ d ≤ 27)) then .next s
  else .next (s.modDev fun v => { v with eolHour := hour, eolMonths := months, eolDie := die })

def popcount (w : BitVec 104) : Nat := ((List.range 104).filter fun i => w.getLsbD i).length

/-- BRING_UP (R10, R298, R304): one stage each time. Reset goes over to firmware verification, that to training, training
to harvest, and harvest to stage 4 with the working cores; what fails goes to stage 15. -/
def execBringUp (res : BringUp) (s : State) : Outcome State Fault Refusal :=
  let goes := fun (n : Nat) => s.modDev fun d => { d with stage := n }
  let fails := fun (code : Nat) => s.modDev fun d => { d with stage := 15, failCode := BitVec.ofNat 8 code }
  match s.dev.stage, res with
  | 0, _ => .next (goes 1)
  | 1, _ => .next (if (List.range 3).all fun i => Config.signatureOk (Config.firmware i) then goes 2 else fails 1)
  | 2, .ok _ => .next (goes 3)
  | 2, .trainingFails => .next (fails 2)
  | 3, .ok working =>
    .next (if working.length = 4 ∧ working.all (fun w => 96 ≤ popcount w) then
      s.modDev fun d => { d with stage := 4, harvest := working } else fails 3)
  | _, _ => .next s

/-- The signed part of a report (R299). -/
def State.reportBody (s : State) (page : Nat) : List Byte :=
  let pad := fun (n : Nat) (l : List Byte) => l.take n ++ List.replicate (n - l.length) 0
  let hash := fun (l : List Byte) => pad 64 (shake256 64 l)
  s.mem.read page 32 ++ bytes 8 0x4B330001 ++ bytes 8 s.dev.split.toNat ++ hash (Config.firmware 0) ++ hash (Config.firmware 1) ++
    hash (Config.firmware 2) ++ hash (s.dev.reeds.flatMap fun r => r.2.2) ++
    pad 52 (s.dev.harvest.flatMap fun w => bytes 13 w.toNat) ++ List.replicate 92 0

/-- ATTESTATION_REPORT (R299). -/
def execAttestationReport (s : State) : Outcome State Fault Refusal :=
  match s.dev.attreq with
  | none => .next s
  | some page =>
    let body := s.reportBody page
    let sig := Config.sign body
    let bs := body ++ sig.take 3309 ++ List.replicate (3309 - sig.length) 0 ++ List.replicate 339 0
    let s1 : State := { s with mem := if page + 4096 ≤ Config.deviceBytes then s.mem.write page bs else s.mem }
    .next ((s1.modDev fun d => { d with attreq := none, ready := true }).event 6)

/-! ### Budgets (R256) -/

/-- What has waited for its budget goes on: transfers that are owed, directed refreshes, samples. -/
def State.payDues (s : State) : State :=
  let s := (List.range 15).foldl (fun s i => if s.owes i then s.owe i 0 else s) s
  let s := s.dev.hbm.foldl (fun s k => s.refreshOwed k.n) s
  s.cores.foldl (fun s c => s.flushSamples c.x c.y 0) s

/-- BUDGET_PERIOD: a new period of 8,192 ns begins. -/
def execBudgetPeriod (s : State) : Outcome State Fault Refusal :=
  let now := s.drone / 8192
  if now ≤ s.dev.period then .next s
  else .next (s.modDev fun d => { d with period := now, used := List.replicate 15 0 }).payDues

end Sys2Proof.Machine
end

