-- ==== Sys2Proof/Machine/Dispatch.lean ====
section
/-! DEFINITION. The dispatch of every instruction to its meaning. -/

namespace Sys2Proof.Machine

open Host

def exec (i : Instr) (s : State) : Host.Outcome State Fault Refusal :=
  match i with
  | .iadd f => Sys2Proof.Machine.execIadd f s
  | .isub f => Sys2Proof.Machine.execIsub f s
  | .imul f => Sys2Proof.Machine.execImul f s
  | .imulh f => Sys2Proof.Machine.execImulh f s
  | .imulhu f => Sys2Proof.Machine.execImulhu f s
  | .imad f => Sys2Proof.Machine.execImad f s
  | .idiv f => Sys2Proof.Machine.execIdiv f s
  | .idivu f => Sys2Proof.Machine.execIdivu f s
  | .irem f => Sys2Proof.Machine.execIrem f s
  | .iremu f => Sys2Proof.Machine.execIremu f s
  | .imin f => Sys2Proof.Machine.execImin f s
  | .imax f => Sys2Proof.Machine.execImax f s
  | .umin f => Sys2Proof.Machine.execUmin f s
  | .umax f => Sys2Proof.Machine.execUmax f s
  | .and f => Sys2Proof.Machine.execAnd f s
  | .or f => Sys2Proof.Machine.execOr f s
  | .xor f => Sys2Proof.Machine.execXor f s
  | .andn f => Sys2Proof.Machine.execAndn f s
  | .shl f => Sys2Proof.Machine.execShl f s
  | .shru f => Sys2Proof.Machine.execShru f s
  | .shrs f => Sys2Proof.Machine.execShrs f s
  | .bfx f => Sys2Proof.Machine.execBfx f s
  | .bfi f => Sys2Proof.Machine.execBfi f s
  | .sel f => Sys2Proof.Machine.execSel f s
  | .icmp f => Sys2Proof.Machine.execIcmp f s
  | .iaddi f => Sys2Proof.Machine.execIaddi f s
  | .andi f => Sys2Proof.Machine.execAndi f s
  | .ori f => Sys2Proof.Machine.execOri f s
  | .xori f => Sys2Proof.Machine.execXori f s
  | .shli f => Sys2Proof.Machine.execShli f s
  | .shrui f => Sys2Proof.Machine.execShrui f s
  | .shrsi f => Sys2Proof.Machine.execShrsi f s
  | .movi f => Sys2Proof.Machine.execMovi f s
  | .movhi f => Sys2Proof.Machine.execMovhi f s
  | .aadd f => Sys2Proof.Machine.execAadd f s
  | .aaddi f => Sys2Proof.Machine.execAaddi f s
  | .aput f => Sys2Proof.Machine.execAput f s
  | .aget f => Sys2Proof.Machine.execAget f s
  | .ldg f => Sys2Proof.Machine.execLdg f s
  | .stg f => Sys2Proof.Machine.execStg f s
  | .ldgx f => Sys2Proof.Machine.execLdgx f s
  | .stgx f => Sys2Proof.Machine.execStgx f s
  | .lds f => Sys2Proof.Machine.execLds f s
  | .sts f => Sys2Proof.Machine.execSts f s
  | .ldb f => Sys2Proof.Machine.execLdb f s
  | .stb f => Sys2Proof.Machine.execStb f s
  | .ldc f => Sys2Proof.Machine.execLdc f s
  | .cadd f => Sys2Proof.Machine.execCadd f s
  | .ctwo f => Sys2Proof.Machine.execCtwo f s
  | .cmin f => Sys2Proof.Machine.execCmin f s
  | .cmax f => Sys2Proof.Machine.execCmax f s
  | .cord f => Sys2Proof.Machine.execCord f s
  | .caff f => Sys2Proof.Machine.execCaff f s
  | .cbit f => Sys2Proof.Machine.execCbit f s
  | .ldct f => Sys2Proof.Machine.execLdct f s
  | .ldcs f => Sys2Proof.Machine.execLdcs f s
  | .satom f => Sys2Proof.Machine.execSatom f s
  | .shfl f => Sys2Proof.Machine.execShfl f s
  | .vote f => Sys2Proof.Machine.execVote f s
  | .wred f => Sys2Proof.Machine.execWred f s
  | .wscan f => Sys2Proof.Machine.execWscan f s
  | .sread f => Sys2Proof.Machine.execSread f s
  | .swrite f => Sys2Proof.Machine.execSwrite f s
  | .br f => Sys2Proof.Machine.execBr f s
  | .jmp f => Sys2Proof.Machine.execJmp f s
  | .call f => Sys2Proof.Machine.execCall f s
  | .ret f => Sys2Proof.Machine.execRet f s
  | .jmpi f => Sys2Proof.Machine.execJmpi f s
  | .reform f => Sys2Proof.Machine.execReform f s
  | .yield f => Sys2Proof.Machine.execYield f s
  | .exit f => Sys2Proof.Machine.execExit f s
  | .bar f => Sys2Proof.Machine.execBar f s
  | .bara f => Sys2Proof.Machine.execBara f s
  | .barw f => Sys2Proof.Machine.execBarw f s
  | .trap f => Sys2Proof.Machine.execTrap f s
  | .bkpt f => Sys2Proof.Machine.execBkpt f s
  | .fence f => Sys2Proof.Machine.execFence f s
  | .fencex f => Sys2Proof.Machine.execFencex f s
  | .spawn f => Sys2Proof.Machine.execSpawn f s
  | .join f => Sys2Proof.Machine.execJoin f s
  | .prop f => Sys2Proof.Machine.execProp f s
  | .modw f => Sys2Proof.Machine.execModw f s
  | .trace f => Sys2Proof.Machine.execTrace f s
  | .mres f => Sys2Proof.Machine.execMres f s
  | .mrel f => Sys2Proof.Machine.execMrel f s
  | .mloadb f => Sys2Proof.Machine.execMloadb f s
  | .sca f => Sys2Proof.Machine.execSca f s
  | .fadd f => Sys2Proof.Machine.execFadd f s
  | .fsub f => Sys2Proof.Machine.execFsub f s
  | .fmul f => Sys2Proof.Machine.execFmul f s
  | .fma f => Sys2Proof.Machine.execFma f s
  | .fmin f => Sys2Proof.Machine.execFmin f s
  | .fmax f => Sys2Proof.Machine.execFmax f s
  | .fcmp f => Sys2Proof.Machine.execFcmp f s
  | .dadd f => Sys2Proof.Machine.execDadd f s
  | .dsub f => Sys2Proof.Machine.execDsub f s
  | .dmul f => Sys2Proof.Machine.execDmul f s
  | .dfma f => Sys2Proof.Machine.execDfma f s
  | .dmin f => Sys2Proof.Machine.execDmin f s
  | .dmax f => Sys2Proof.Machine.execDmax f s
  | .dcmp f => Sys2Proof.Machine.execDcmp f s
  | .badd2 f => Sys2Proof.Machine.execBadd2 f s
  | .bmul2 f => Sys2Proof.Machine.execBmul2 f s
  | .bfma2 f => Sys2Proof.Machine.execBfma2 f s
  | .fsgn f => Sys2Proof.Machine.execFsgn f s
  | .mov f => Sys2Proof.Machine.execMov f s
  | .rdlane f => Sys2Proof.Machine.execRdlane f s
  | .rng f => Sys2Proof.Machine.execRng f s
  | .wsort f => Sys2Proof.Machine.execWsort f s
  | .bcnt f => Sys2Proof.Machine.execBcnt f s
  | .icmpi f => Sys2Proof.Machine.execIcmpi f s
  | .setp f => Sys2Proof.Machine.execSetp f s
  | .cvtF32D f => Sys2Proof.Machine.execCvtF32D f s
  | .cvtDF32 f => Sys2Proof.Machine.execCvtDF32 f s
  | .cvtB16F32 f => Sys2Proof.Machine.execCvtB16F32 f s
  | .cvtF32B16 f => Sys2Proof.Machine.execCvtF32B16 f s
  | .cvtH16F32 f => Sys2Proof.Machine.execCvtH16F32 f s
  | .cvtF32H16 f => Sys2Proof.Machine.execCvtF32H16 f s
  | .cvtS32F32 f => Sys2Proof.Machine.execCvtS32F32 f s
  | .cvtF32S32 f => Sys2Proof.Machine.execCvtF32S32 f s
  | .cvtZ32F32 f => Sys2Proof.Machine.execCvtZ32F32 f s
  | .cvtF32Z32 f => Sys2Proof.Machine.execCvtF32Z32 f s
  | .cvtS64D f => Sys2Proof.Machine.execCvtS64D f s
  | .cvtDS64 f => Sys2Proof.Machine.execCvtDS64 f s
  | .cvtN8F32 f => Sys2Proof.Machine.execCvtN8F32 f s
  | .cvtF32N8 f => Sys2Proof.Machine.execCvtF32N8 f s
  | .cvtQ8F32 f => Sys2Proof.Machine.execCvtQ8F32 f s
  | .cvtF32Q8 f => Sys2Proof.Machine.execCvtF32Q8 f s
  | .rsqa f => Sys2Proof.Machine.execRsqa f s
  | .rcpa f => Sys2Proof.Machine.execRcpa f s
  | .ex2a f => Sys2Proof.Machine.execEx2a f s
  | .lg2a f => Sys2Proof.Machine.execLg2a f s
  | .sina f => Sys2Proof.Machine.execSina f s
  | .cosa f => Sys2Proof.Machine.execCosa f s
  | .tanha f => Sys2Proof.Machine.execTanha f s
  | .fsqrt f => Sys2Proof.Machine.execFsqrt f s
  | .fdiv f => Sys2Proof.Machine.execFdiv f s
  | .fex2 f => Sys2Proof.Machine.execFex2 f s
  | .flg2 f => Sys2Proof.Machine.execFlg2 f s
  | .frnd f => Sys2Proof.Machine.execFrnd f s
  | .dsqrt f => Sys2Proof.Machine.execDsqrt f s
  | .ddiv f => Sys2Proof.Machine.execDdiv f s
  | .drsq f => Sys2Proof.Machine.execDrsq f s
  | .drnd f => Sys2Proof.Machine.execDrnd f s
  | .copy f => Sys2Proof.Machine.execCopy f s
  | .copyt f => Sys2Proof.Machine.execCopyt f s
  | .copym f => Sys2Proof.Machine.execCopym f s
  | .copyo f => Sys2Proof.Machine.execCopyo f s
  | .copyw f => Sys2Proof.Machine.execCopyw f s
  | .copyx f => Sys2Proof.Machine.execCopyx f s
  | .chinit f => Sys2Proof.Machine.execChinit f s
  | .chwait f => Sys2Proof.Machine.execChwait f s
  | .chadv f => Sys2Proof.Machine.execChadv f s
  | .chpub f => Sys2Proof.Machine.execChpub f s
  | .chqry f => Sys2Proof.Machine.execChqry f s
  | .chfree f => Sys2Proof.Machine.execChfree f s
  | .pref f => Sys2Proof.Machine.execPref f s
  | .drop f => Sys2Proof.Machine.execDrop f s
  | .tdesc f => Sys2Proof.Machine.execTdesc f s
  | .cpstat f => Sys2Proof.Machine.execCpstat f s
  | .mmul f => Sys2Proof.Machine.execMmul f s
  | .movCompact f => Sys2Proof.Machine.execMovCompact f s
  | .iaddCompact f => Sys2Proof.Machine.execIaddCompact f s
  | .isubCompact f => Sys2Proof.Machine.execIsubCompact f s
  | .imulCompact f => Sys2Proof.Machine.execImulCompact f s
  | .andCompact f => Sys2Proof.Machine.execAndCompact f s
  | .orCompact f => Sys2Proof.Machine.execOrCompact f s
  | .xorCompact f => Sys2Proof.Machine.execXorCompact f s
  | .shlCompact f => Sys2Proof.Machine.execShlCompact f s
  | .shruCompact f => Sys2Proof.Machine.execShruCompact f s
  | .shrsCompact f => Sys2Proof.Machine.execShrsCompact f s
  | .faddCompact f => Sys2Proof.Machine.execFaddCompact f s
  | .fsubCompact f => Sys2Proof.Machine.execFsubCompact f s
  | .fmulCompact f => Sys2Proof.Machine.execFmulCompact f s
  | .fminCompact f => Sys2Proof.Machine.execFminCompact f s
  | .fmaxCompact f => Sys2Proof.Machine.execFmaxCompact f s
  | .selCompact f => Sys2Proof.Machine.execSelCompact f s
  | .reedLdw f => Sys2Proof.Machine.execReedLdw f s
  | .reedLdd f => Sys2Proof.Machine.execReedLdd f s
  | .reedLdv f => Sys2Proof.Machine.execReedLdv f s
  | .reedStw f => Sys2Proof.Machine.execReedStw f s
  | .reedStd f => Sys2Proof.Machine.execReedStd f s
  | .reedStv f => Sys2Proof.Machine.execReedStv f s
  | .reedLi f => Sys2Proof.Machine.execReedLi f s
  | .reedLis f => Sys2Proof.Machine.execReedLis f s
  | .reedAdd f => Sys2Proof.Machine.execReedAdd f s
  | .reedAddi f => Sys2Proof.Machine.execReedAddi f s
  | .reedSub f => Sys2Proof.Machine.execReedSub f s
  | .reedAnd f => Sys2Proof.Machine.execReedAnd f s
  | .reedOr f => Sys2Proof.Machine.execReedOr f s
  | .reedShli f => Sys2Proof.Machine.execReedShli f s
  | .reedShri f => Sys2Proof.Machine.execReedShri f s
  | .reedBeq f => Sys2Proof.Machine.execReedBeq f s
  | .reedBne f => Sys2Proof.Machine.execReedBne f s
  | .reedBltu f => Sys2Proof.Machine.execReedBltu f s
  | .reedLoop f => Sys2Proof.Machine.execReedLoop f s
  | .reedCall imm => Sys2Proof.Machine.execReedCall imm s
  | .reedEnd imm => Sys2Proof.Machine.execReedEnd imm s
  | .reedFail imm => Sys2Proof.Machine.execReedFail imm s
  | .operationLimit q => Sys2Proof.Machine.execOperationLimit q s
  | .dvDoorbell q val => Sys2Proof.Machine.execDvDoorbell q val s
  | .packetFetch q => Sys2Proof.Machine.execPacketFetch q s
  | .launch q => Sys2Proof.Machine.execLaunch q s
  | .gangreserve q => Sys2Proof.Machine.execGangreserve q s
  | .gangcommit q => Sys2Proof.Machine.execGangcommit q s
  | .gangabort q => Sys2Proof.Machine.execGangabort q s
  | .headworksCopy q => Sys2Proof.Machine.execHeadworksCopy q s
  | .signal q => Sys2Proof.Machine.execSignal q s
  | .signalWrite q => Sys2Proof.Machine.execSignalWrite q s
  | .waitval q => Sys2Proof.Machine.execWaitval q s
  | .waitvalReread q => Sys2Proof.Machine.execWaitvalReread q s
  | .interrupt q => Sys2Proof.Machine.execInterrupt q s
  | .modwrite q => Sys2Proof.Machine.execModwrite q s
  | .propagate q => Sys2Proof.Machine.execPropagate q s
  | .reclaim q => Sys2Proof.Machine.execReclaim q s
  | .reclaimReturn q => Sys2Proof.Machine.execReclaimReturn q s
  | .preempt q => Sys2Proof.Machine.execPreempt q s
  | .preemptTimeout q => Sys2Proof.Machine.execPreemptTimeout q s
  | .replay q => Sys2Proof.Machine.execReplay q s
  | .dumpto q => Sys2Proof.Machine.execDumpto q s
  | .gangStart handle => Sys2Proof.Machine.execGangStart handle s
  | .taskDispatch tid x y => Sys2Proof.Machine.execTaskDispatch tid x y s
  | .taskRetire tid => Sys2Proof.Machine.execTaskRetire tid s
  | .roundMerge r => Sys2Proof.Machine.execRoundMerge r s
  | .cellArrival n => Sys2Proof.Machine.execCellArrival n s
  | .cellWithdrawal n => Sys2Proof.Machine.execCellWithdrawal n s
  | .loadReturn w n => Sys2Proof.Machine.execLoadReturn w n s
  | .chwaitReturn w => Sys2Proof.Machine.execChwaitReturn w s
  | .copywReturn w => Sys2Proof.Machine.execCopywReturn w s
  | .chfreeReturn w => Sys2Proof.Machine.execChfreeReturn w s
  | .joinMerge w => Sys2Proof.Machine.execJoinMerge w s
  | .ldcsReturn w => Sys2Proof.Machine.execLdcsReturn w s
  | .propReturn pid => Sys2Proof.Machine.execPropReturn pid s
  | .mrelReturn w => Sys2Proof.Machine.execMrelReturn w s
  | .fenceCompletion w => Sys2Proof.Machine.execFenceCompletion w s
  | .fencexCompletion w => Sys2Proof.Machine.execFencexCompletion w s
  | .binDrain x y n => Sys2Proof.Machine.execBinDrain x y n s
  | .copyUnitDelivery x y ctx dest => Sys2Proof.Machine.execCopyUnitDelivery x y ctx dest s
  | .copyoFire x y ctx => Sys2Proof.Machine.execCopyoFire x y ctx s
  | .mloadbFire x y => Sys2Proof.Machine.execMloadbFire x y s
  | .mmulRow x y => Sys2Proof.Machine.execMmulRow x y s
  | .pageWalk ag asid va => Sys2Proof.Machine.execPageWalk ag asid va s
  | .translationFaultService fid => Sys2Proof.Machine.execTranslationFaultService fid s
  | .leaseExpiry n => Sys2Proof.Machine.execLeaseExpiry n s
  | .droneBeacon ag dev => Sys2Proof.Machine.execDroneBeacon ag dev s
  | .shareReassign x y => Sys2Proof.Machine.execShareReassign x y s
  | .watchdog x y slot => Sys2Proof.Machine.execWatchdog x y slot s
  | .budgetPeriod => Sys2Proof.Machine.execBudgetPeriod s
  | .copyDrain lid => Sys2Proof.Machine.execCopyDrain lid s
  | .dump lid => Sys2Proof.Machine.execDump lid s
  | .deviceMemoryRead stream pa key ver => Sys2Proof.Machine.execDeviceMemoryRead stream pa key ver s
  | .deviceMemoryWrite stream pa key ver mask data => Sys2Proof.Machine.execDeviceMemoryWrite stream pa key ver mask data s
  | .peerAccess peer pa write mask => Sys2Proof.Machine.execPeerAccess peer pa write mask s
  | .linkTrainingLoss port => Sys2Proof.Machine.execLinkTrainingLoss port s
  | .heartbeat stack => Sys2Proof.Machine.execHeartbeat stack s
  | .heartbeatMiss stack => Sys2Proof.Machine.execHeartbeatMiss stack s
  | .rowActivation stack channel bank row => Sys2Proof.Machine.execRowActivation stack channel bank row s
  | .trackerClear => Sys2Proof.Machine.execTrackerClear s
  | .scrubPass stack bad => Sys2Proof.Machine.execScrubPass stack bad s
  | .eolUpdate months die => Sys2Proof.Machine.execEolUpdate months die s
  | .bringUp res => Sys2Proof.Machine.execBringUp res s
  | .dvAttreq val => Sys2Proof.Machine.execDvAttreq val s
  | .attestationReport => Sys2Proof.Machine.execAttestationReport s
  | .dvReedload val => Sys2Proof.Machine.execDvReedload val s
  | .dvPart p val => Sys2Proof.Machine.execDvPart p val s
  | .dvKeyslot k key => Sys2Proof.Machine.execDvKeyslot k key s
  | .dvRhthresh val => Sys2Proof.Machine.execDvRhthresh val s
  | .dvEvmask val => Sys2Proof.Machine.execDvEvmask val s
  | .refctlHandback stack => Sys2Proof.Machine.execRefctlHandback stack s
  | .refctlScrub stack => Sys2Proof.Machine.execRefctlScrub stack s
  | .refctlRepair stack => Sys2Proof.Machine.execRefctlRepair stack s
  | .dbgctlHalt p => Sys2Proof.Machine.execDbgctlHalt p s
  | .dbgctlStep p => Sys2Proof.Machine.execDbgctlStep p s
  | .dbgctlResume p => Sys2Proof.Machine.execDbgctlResume p s
  | .registerWrite off n val => Sys2Proof.Machine.execRegisterWrite off n val s
  | .l1LineReplacement x y n => Sys2Proof.Machine.execL1LineReplacement x y n s
  | .cacheEntryDrop n => Sys2Proof.Machine.execCacheEntryDrop n s
  | .mloadbCompletion x y => Sys2Proof.Machine.execMloadbCompletion x y s
  | .traceCompaction asid arena => Sys2Proof.Machine.execTraceCompaction asid arena s
  | .preemptionDecision p mask => Sys2Proof.Machine.execPreemptionDecision p mask s
  | .linkTraining port => Sys2Proof.Machine.execLinkTraining port s

end Sys2Proof.Machine
end

