-- ==== Sys2Proof/Machine/Fetch.lean ====
section
/-! DEFINITION. Turns: which wave may issue (R70, R75, R76), the stop at a safe point (R43, R254, R264), fetching and
decoding (R27–R29, R48), a queue's turn (R245, R246), time with the watchdog's count (R85), and what comes from
outside. -/

namespace Sys2Proof.Machine

open Host

/-- What a turn comes to: an instruction to execute, or a state. -/
inductive Move where
  | run (i : Instr) (s : State)
  | done (s : State)

/-! ### Issue slots (R75, R76) -/

/-- A wave keeps its slot: it is running or held (R86). -/
def Wave.keepsSlot (w : Wave) : Bool := !w.blocked && !w.wait.switched && (!w.stopped || w.pass)

/-- A wave is ready: it may issue, its pending data has arrived, and no instruction holds it (R76, R86). -/
def Wave.isReady (w : Wave) : Bool := w.canIssue && match w.wait with
  | .none => true
  | .pending => w.loads.isEmpty
  | _ => false

/-- The ready waves of a slot. -/
def State.readyOn (s : State) (x y slot : Nat) : List (Task × Share × Wave) :=
  (s.sharesAt x y).flatMap fun p =>
    let runs := match s.launch? p.1.lid with | some l => s.launchRuns l | none => false
    (p.2.waves.filter fun w => w.slot == slot && w.isReady && runs).map fun w => (p.1, p.2, w)

def refOf (p : Task × Share × Wave) : WaveRef := ⟨p.1.tid, p.2.1.c, p.2.2.wix⟩

/-- Stages with a ready wave on a slot. -/
def stagesReady (ready : List (Task × Share × Wave)) : List (Nat × Nat) := (ready.map fun p => (p.1.tid, p.2.2.stage)).eraseDups

/-- Consecutive switches of a slot that have passed over a stage. -/
def Slot.passedBy (sl : Slot) (g : Nat × Nat) : Nat := ((sl.passed.find? (·.1 == g)).map (·.2)).getD 0

/-- Stages that wait, each with the switches that have passed it over: none comes to more than 64 where each of the coming
switches takes the one that has waited longest (R76). -/
def canCatchUp (ps : List Nat) : Bool := ((sortBy (fun a b => b < a) ps).zipIdx).all fun p => p.1 + p.2 + 1 ≤ 64

/-- A slot may choose a ready wave: in cooperative mode the one with the lowest k.tix, not the one that yielded while another
is ready (R75); in throughput mode the oldest of its stage, where the other ready stages can still be served in time, or of
the stage that has waited longest (R76). -/
def slotChooses (r : WaveRef) (w : Wave) (l : Launch) (sl : Slot) (ready : List (Task × Share × Wave)) : Bool :=
  if l.det then
    let others := ready.filter fun p => some (refOf p) != sl.yielded
    let pool := if others.isEmpty then ready else others
    pool.any (fun p => refOf p == r) && pool.all fun p => w.lowTix ≤ p.2.2.lowTix
  else
    let mine := (r.tid, w.stage)
    let others := (stagesReady ready).filter (· != mine)
    ready.any (fun p => refOf p == r) &&
      (ready.all fun p => p.1.tid != r.tid || p.2.2.stage != w.stage || w.since ≤ p.2.2.since) &&
      (canCatchUp (others.map sl.passedBy) || others.all fun g => sl.passedBy g ≤ sl.passedBy mine)

/-- The slot of a wave may issue it. -/
def State.slotTakes (s : State) (r : WaveRef) (w : Wave) (l : Launch) (xy : Nat × Nat) : Bool :=
  let sl := nth (s.core xy.1 xy.2).slots w.slot {}
  let holder := match sl.running.bind s.wave? with
    | some h => if h.keepsSlot then sl.running else none
    | none => none
  match holder with
  | some h => h == r || (sl.free && slotChooses r w l sl (s.readyOn xy.1 xy.2 w.slot))
  | none => slotChooses r w l sl (s.readyOn xy.1 xy.2 w.slot)

/-- The slot issues the wave; a switch restarts the watchdog's count with the limit now in force (R85, R305). -/
def State.takeSlot (s : State) (r : WaveRef) (w : Wave) (l : Launch) (xy : Nat × Nat) : State :=
  let stages := stagesReady (s.readyOn xy.1 xy.2 w.slot)
  let limit := (nth s.dev.wdog l.part 0x04000000).toNat
  let switch := fun (sl : Slot) =>
    if sl.running == some r then { sl with free := false }
    else
      { sl with running := some r, free := false, yielded := none, count := 0, limit
                passed := (stages.filter (· != (r.tid, w.stage))).map fun g => (g, sl.passedBy g + 1) }
  s.modCore xy.1 xy.2 fun c => { c with slots := c.slots.modify w.slot switch }

/-! ### Safe points (R43, R254, R264) -/

/-- A 32-bit instruction with S = 1 can be a safe point (R43). -/
def isSafe (i : Instr) : Bool := match i.lane? with | some f => f.s && f.len == 4 | none => false

/-- A wave that is about to execute a safe point stops there: at a breakpoint with the whole launch, or because its
launch stops or its task is to leave. -/
inductive Halt where
  | no
  | here
  | launch
deriving DecidableEq, Repr

def State.haltAt (s : State) (t : Task) (w : Wave) (l : Launch) (pc : Nat) (i : Instr) : Halt :=
  if w.pass || w.wait != .none || !isSafe i then .no
  else match safeAt l.code pc with
    | none => .no
    | some o =>
      let d := s.debug l.part
      if d.enable && o != 0xFFFFFFFF && d.bps.contains (BitVec.ofNat 32 o) then .launch
      else if l.stopReq || t.leaving then .here
      else .no

/-! ### Fetch (R28, R48, R201) -/

/-- What a fetch yields. -/
inductive Fetched where
  | ok (i : Instr)
  | flt (f : Flt)
  | parks (level va : Nat)

/-- Bytes of the code segment at a VA: what is committed there. -/
def State.codeBytes (s : State) (t : Task) (l : Launch) (xy : Nat × Nat) (va n : Nat) :
    Except Fetched (List Byte) × State :=
  let bad := fun (code : Nat) => Except.error (Fetched.flt { code, detail := va, access := n })
  match s.translate (laneViewer t.tid xy.1 xy.2) l.asid va (·.x) with
  | (.ok a pa, s) =>
    if s.dataErr a pa n then (bad Flt.dataerr, s.found a pa n)
    else if a.target = 0 then
      let tag := s.pageTag l a.buf
      (.ok ((List.range n).map fun i => s.plainByte tag (pa + i)), s)
    else (.ok (readRaw s a pa n), s)
  | (.parks k, s) => (.error (.parks k va), s)
  | (.unmapped, s) => (bad Flt.unmapped, s)
  | (.perm, s) => (bad Flt.perm, s)
  | (.dataerr, s) => (bad Flt.dataerr, s)

/-- Decodes the bytes of an instruction: ILLEGAL or OPERAND report the word (R48, R260). -/
def decoded (bs : List Byte) : Fetched :=
  match decodeBytes bs with
  | some (.ok i) => .ok i
  | some (.error .illegal) => .flt { code := Flt.illegal, detail := num bs }
  | some (.error .operand) => .flt { code := Flt.operand, detail := num bs }
  | none => .flt { code := Flt.fetch }

/-- Fetches at a PC: R28's bounds, one parcel, and a second where bit 0 of the first asks for it. -/
def State.fetch (s : State) (t : Task) (l : Launch) (xy : Nat × Nat) (pc : Nat) : Fetched × State :=
  let va := fun (n : Nat) => (addrAdd l.code.text (pc + n : Nat)).toNat
  if l.code.size < pc + 2 then (.flt { code := Flt.fetch, detail := pc }, s)
  else
    match s.codeBytes t l xy (va 0) 2 with
    | (.error e, s) => (e, s)
    | (.ok p, s) =>
      if num p % 2 = 0 then (decoded p, s)
      else if l.code.size < pc + 4 then (.flt { code := Flt.fetch, detail := pc }, s)
      else
        match s.codeBytes t l xy (va 2) 2 with
        | (.error e, s) => (e, s)
        | (.ok q, s) => (decoded (p ++ q), s)

/-- After a fetch that faulted: a blocked wave leaves its slot, and the task may stop (R75, R258). -/
def State.afterFetch (s : State) (r : WaveRef) : State :=
  let s := match s.wave? r with
    | some w => if w.blocked then s.leaveSlot r false else s
    | none => s
  s.settle r.tid

/-- What a switched-away retry waits for has come: its loads, its turn to file, or room in the engine's queue (R84). -/
def State.retryOver (s : State) (t : Task) (r : WaveRef) (w : Wave) : Bool :=
  match w.wait with
  | .retry 8 true => w.loads.isEmpty
  | .retry 11 true => match s.share? r.tid r.core with | some h => s.mayFile t h w | none => true
  | .retry _ true => (s.cores? t r.core).matrix.queue.length < queueLimit
  | _ => false

/-- The wave's core is awake (R62). -/
def State.isAwake (s : State) (xy : Nat × Nat) : Bool := (s.core xy.1 xy.2).awake ≤ s.now

/-- The turn of a wave: it issues the instruction at its frontier (R70), finds that a phase in which it waits has lost a
member (R83), or that it need not wait any more. -/
def State.waveTurn (s : State) (r : WaveRef) : Move :=
  match s.task? r.tid, s.wave? r, s.launchOf? r.tid with
  | some t, some w, some l =>
    let xy := s.coreXY t r.core
    if t.st != .resident || !(s.launchRuns l || (l.haltedAt.isSome && w.inProgress)) || !s.isAwake xy then .done s
    else if w.blocked && !w.barWaits.isEmpty then .done (s.barExits l.lid)
    else if s.retryOver t r w then .done (s.modWave r fun w => { w with wait := .none, since := s.free })
    else if !w.canIssue || !s.slotTakes r w l xy then .done s
    else
      match w.frontier with
      | none => .done s
      | some (pc, front) =>
        match (s.takeSlot r w l xy).fetch t l xy pc with
        | (.ok i, s) =>
          match s.haltAt t w l pc i with
          | .here => .done (s.modWave r fun w => { w with stopped := true, atSafe := true })
          | .launch => .done ((s.modWave r fun w => { w with stopped := true, atSafe := true }).stopIn l.part)
          | .no => .run i { s with issuer := some r }
        | (.flt f, s) => .done ((s.raiseAll r front f).afterFetch r)
        | (.parks k va, s) =>
          let q := s.pageFault l.asid va k 2 (xy.2 * 256 + xy.1)
          .done (((lanesOf front).foldl (fun s ln => s.parkOn r ln q.1 va 2) q.2).afterFetch r)
  | _, _, _ => .done s

/-! ### A queue's turn (R245, R246) -/

/-- The row that performs the primitive a packet is in. -/
def primRow (q : Nat) : Prim → Option Instr
  | .none => none
  | .called n => match n with
    | 1 => some (.launch q)
    | 2 => some (.gangreserve q)
    | 3 => some (.gangcommit q)
    | 4 => some (.gangabort q)
    | 5 => some (.headworksCopy q)
    | 6 => some (.signal q)
    | 7 => some (.waitval q)
    | 8 => some (.interrupt q)
    | 9 => some (.modwrite q)
    | 10 => some (.propagate q)
    | 11 => some (.reclaim q)
    | 12 => some (.preempt q)
    | 13 => some (.replay q)
    | 14 => some (.dumpto q)
    | _ => none
  | .waitval _ => some (.waitvalReread q)
  | .reclaim _ => some (.reclaimReturn q)
  | .copying _ _ _ => some (.headworksCopy q)
  | .propagating _ => some (.propagate q)
  | .preempting => some (.preempt q)

/-- A packet's operations run in an engine of its fetcher: it has one, or takes a free one (R243, R244, R247). -/
def State.takeEngine (s : State) (q : Nat) (p : Packet) : Option State :=
  if p.engine then some s
  else if s.enginesOf q < 2 then some (s.modPacket q fun p => { p with engine := true })
  else none

/-- Operations and primitives of the Headworks that ask for lines of HBM; its copies count their units themselves. -/
def Instr.asksHbm : Instr → Bool
  | .reedLdw f | .reedLdd f | .reedLdv f | .reedStw f | .reedStd f | .reedStv f => f.w.toNat != 1
  | .launch _ | .signal _ | .signalWrite _ | .waitval _ | .waitvalReread _ | .modwrite _ | .propagate _ | .preempt _ => true
  | .packetFetch _ => true
  | _ => false

/-- What a queue's operation asks of HBM, issued since its packet was fetched (R293). -/
def State.headRequest (s : State) (q : Nat) (i : Instr) : State :=
  if Instr.asksHbm i then s.hbmRequest 1 768 (match (s.queueD q).packet with | some p => p.since | none => 0) else s

/-- The turn of a queue: writes for its launches that waited are made, then the engine runs one operation of the packet or
goes on with its primitive; past the end of the program the packet ends as fail 0xFD does (R246). A SIGNAL that waits at a
page fault stalls the queue (R244). -/
def State.reedTurn (s : State) (q : Nat) : Move :=
  let s := if (s.queueD q).crWaits.isEmpty then s else s.retryRecords q
  if (s.queueD q).signalStalls then .done s
  else match (s.queueD q).packet with
  | none => .done s
  | some p =>
    match primRow q p.prim with
    | some i => .run i (s.headRequest q i)
    | none =>
      match s.takeEngine q p, s.reedProg (s.qDesc q).prog with
      | none, _ => .done s
      | _, none => .done (s.queueError q 0 0)
      | some s, some ops =>
        match ops[p.pc]? with
        | none => .done (s.failPacket q 0xFD)
        | some i => if 512 ≤ p.ops then .run (.operationLimit q) s else .run i { s.headRequest q i with turnQueue := some q }

/-! ### Time (R14, R15, R85, R86) -/

/-- The running wave is held, or stopped for a debugger: its watchdog does not count. In throughput mode a wave at the switch
point of R42 is not held (R86). -/
def Wave.uncounted (w : Wave) (det : Bool) : Bool := w.stopped || (w.wait != .none && (det || w.wait != .pending))

/-- The launch of a wave runs in cooperative mode (R75). -/
def State.detOf (s : State) (r : Option WaveRef) : Bool := match r.bind fun r => s.launchOf? r.tid with
  | some l => l.det
  | none => false

/-- Time passes: the watchdog of each slot counts core cycles, and a PREEMPT's time may run out (R254). -/
def State.advance (s : State) (n : Nat) : State :=
  let cycles := (s.now + n) / Config.coreCycle - s.now / Config.coreCycle
  let count := fun (sl : Slot) => match sl.running.bind s.wave? with
    | some w => if w.uncounted (s.detOf sl.running) then sl else { sl with count := sl.count + cycles }
    | none => sl
  let s := s.notePreempts n
  { s with now := s.now + n, cores := s.cores.map fun c => { c with slots := c.slots.map count } }

/-! ### Turns -/

/-- The oldest store of a wave is acknowledged; one to device memory has been a request to HBM with a deadline (R293). -/
def State.acknowledge (s : State) (r : WaveRef) : State :=
  match s.task? r.tid, s.wave? r with
  | some t, some w =>
    let late : Bool := match w.stores.head? with | some p => p.2.1 == .slice && decide (p.2.2 < s.drone) | none => false
    let s := (s.landWhere fun h => h.r == r && w.stores.head?.any (·.1 == h.id)).modWave r fun w => { w with stores := w.stores.tail }
    let core := coreRequester (s.coreXY t r.core)
    let s := s.addMissed late core
    match w.stores.head? with
    | some p => s.sampleBack t r.core p.1 0 late
    | none => s
  | _, _ => s

/-- What the outside world writes into its own memory. -/
def State.poke (s : State) (peer : Bool) (a : Nat) (b : Byte) : State :=
  if peer then { s with peerMem := s.peerMem.set a b } else s.putHost none a [b]

/-- The queue that an event row works for. -/
def Instr.primQueue : Instr → Option Nat
  | .launch q | .gangreserve q | .gangcommit q | .gangabort q | .headworksCopy q | .signal q | .waitval q | .interrupt q => some q
  | .modwrite q | .propagate q | .reclaim q | .preempt q | .replay q | .dumpto q | .waitvalReread q | .reclaimReturn q => some q
  | _ => none

/-- The queue for which an event asks for lines. -/
def Instr.headQueue : Instr → Option Nat
  | .packetFetch q => some q
  | .signalWrite q => some q
  | i => Instr.primQueue i

/-- A queue that a SIGNAL's page fault stalls performs no primitive (R244). -/
def State.queueStands (s : State) (i : Instr) : Bool := match Instr.primQueue i with
  | some q => (s.queueD q).signalStalls
  | none => false

/-- What a turn comes to. An event of the opcode table is executed; an instruction word needs a wave or a queue. -/
def State.turn (s : State) : Turn → Move
  | .wave r => s.waveTurn r
  | .reed q => s.reedTurn q
  | .ev i => if (encode i).isNone && !s.queueStands i then
      .run i (match Instr.headQueue i with | some q => s.headRequest q i | none => s) else .done s
  | .clock n => .done (s.advance n)
  | .ack r => .done (s.acknowledge r)
  | .spill tid line => .done (s.spillLine tid line)
  | .drift ag d => .done (if beyond d 2 then s else s.setDrift ag d)
  | .sluice lid =>
    let n := match s.launch? lid with | some l => l.code.nodes.length | none => 0
    .done (s.admitNodes lid n)
  | .outside peer a b => .done (s.poke peer a b)
  | .land => .done (match s.halves with | [] => s | h :: _ => s.landWhere (· == h))
  | .hostError g on =>
    let rest := s.host.errors.filter (· != g)
    .done { s with host := { s.host with errors := if on then g :: rest else rest } }
  | .extent cr node va n writes =>
    .done { s with host := { s.host with extents := s.host.extents ++ [(cr, node, va, n, writes)] } }
  | .host stream i => if (encode i).isNone then .run i { s with host := { s.host with stream } } else .done s
  | .regRead stream off n => .done (s.hostRegRead stream off n)

/-! ### What comes before any other turn -/

/-- Shadow lines that a slice can hold, 1.5 MiB of them (R12). -/
def sliceLines : Nat := 1572864 / 64

/-- Shadow lines that stand in slices: task and line. -/
def State.heldLines (s : State) : List (Nat × Nat) :=
  s.tasks.flatMap fun t => if t.shadow.isEmpty then []
    else ((t.lines.map (·.line)).filter fun n => !t.spilled.contains n).map fun n => (t.tid, n)

/-- A line of a slice that holds more than it has room for; which one spills is not specified (R141). -/
def State.overfull (s : State) : Option (Nat × Nat) :=
  let all := s.heldLines
  if all.length ≤ sliceLines then none
  else (List.range 192).findSome? fun n =>
    let mine := all.filter fun p => sliceNo (64 * p.2) == n
    if mine.length ≤ sliceLines then none else mine[Config.freePick s.free 2 % mine.length]?

/-- A bin that drains in this cycle: its core and its place (R73). -/
def State.dueBin (s : State) : Option (Nat × Nat × Nat) :=
  s.cores.findSome? fun c => if c.bins.isEmpty then none
    else ((s.dueBins c.x c.y).head?).bind fun b => (c.bins.findIdx? (· == b)).map fun n => (c.x, c.y, n)

/-- Entries of a cell have come to lie below the watermark (R168). -/
def State.foldDue (s : State) : Bool :=
  s.cells.any fun h => h.settles (s.scopeMark h.scope)

/-- A slot whose count has passed the watchdog's limit: a switch in the very cycle in which it is reached wins (R85, R89). -/
def State.dueWatchdog (s : State) : Option (Nat × Nat × Nat) :=
  s.cores.findSome? fun c => (c.slots.findIdx? fun sl => sl.limit != 0 && sl.limit < sl.count &&
    match sl.running.bind s.wave? with
    | some w => w.frontier.isSome && match sl.running.bind fun r => s.task? r.tid with
      | some t => s.taskRuns t
      | none => false
    | none => false).map fun n => (c.x, c.y, n)

/-- A halted launch of which copies are to be cancelled now (R268). -/
def State.dueDrain (s : State) : Option Launch := s.launches.find? fun l => !(s.drainNow l).isEmpty

/-- What the K3 does by itself before anything else moves: a full slice spills, due bins drain, a slot past its limit raises
WATCHDOG, copies of a halted launch are cancelled, settled entries fold, failed faults at which nothing waits leave. -/
def State.urgent (s : State) : Option Move :=
  let next : State := { s with free := s.free + 1 }
  match s.overfull, s.dueBin, s.dueWatchdog with
  | some p, _, _ => some (.done (next.spillLine p.1 p.2))
  | none, some b, _ => some (.run (.binDrain b.1 b.2.1 b.2.2) next)
  | none, none, some b => some (.done (next.bark b.1 b.2.1 b.2.2))
  | none, none, none =>
    if let some l := s.dueDrain then some (.done (next.drainCopies l))
    else if s.foldDue then some (.done next.foldCells)
    else if s.faults.any fun f => f.failed && !s.waitsAt f.fid then some (.done next.dropFailed)
    else none

/-- The next turn: the first of the agenda, what is urgent, else a free one. Every step has a free counter of its own. -/
def State.move (s : State) : Move :=
  match s.agenda, s.urgent with
  | t :: r, _ => { s with agenda := r, free := s.free + 1 }.turn t
  | [], some m => m
  | [], none => { s with free := s.free + 1 }.turn (Config.freeTurn s.free)

/-! ### Placing an instruction for the next step -/

/-- The code object, launch and task that a lane instruction needs: one wave of 32 threads at PC 0 on core (0, 0), in
code of 64 bytes on a page that is executable. -/
def loadedCode : Code :=
  { size := 64, kernels := [⟨0, 1, 0, 0, 0, 0, 0, false⟩], stages := [⟨0, 3, 96, 1⟩], nodes := [0], graph := [] }

def loadedLaunch (lid : Nat) : Launch :=
  { lid, queue := 0, asid := 0, cr := 0, code := loadedCode, rounds := [0], admitted := 1 }

def loadedTask (tid lid : Nat) : Task :=
  { tid, lid, key := 0, kernel := 0, st := .resident, shares := [{ c := 0, waves := [newWave 1 0 0 0 0 0 fun tix => newThread tix 0] }] }

def loadedEntry (expiry : Nat) : TlbEntry :=
  { ag := .l1 0 0, asid := 0, group := 0, base := 0, mask := 1, expiry
    attr := ⟨true, true, true, 0, 0, false, false, false, 0⟩ }

/-- A lane instruction of these bytes stands where a new wave of a new launch fetches, and that wave has the turn. -/
def State.placeLane (s : State) (bs : List Byte) : State :=
  let f := s.takeFresh
  let g := f.2.takeFresh
  let s := g.2.modCore 0 0 fun c => { c with slots := c.slots.set 0 {}, gated := false, awake := 0 }
  let s := s.setTag 0 (s.pageTag (loadedLaunch f.1) 0)
  { s with
    mem := s.mem.write 0 bs
    dev := { s.dev with bad := s.dev.bad.filter (fun b => b.2.2 / 64 != 0), broken := s.dev.broken.filter (· != 0) }
    launches := s.launches ++ [loadedLaunch f.1]
    tasks := s.tasks ++ [loadedTask g.1 f.1]
    tlb := loadedEntry (s.droneAt (.l1 0 0) + 1) :: s.tlb
    agenda := .wave ⟨g.1, 0, 0⟩ :: s.agenda }

/-- A reed operation is the first of the program of queue 0, whose packet begins. -/
def State.placeReed (s : State) (w : Nat) : State :=
  let s := s.modQueue 0 fun k => { k with state := 1, packet := some {}, crWaits := [], signals := [] }
  { s with
    mem := s.mem.write (s.qAddr 0 + 12) (bytes 4 0)
    dev := { s.dev with reeds := (0, [w], bytes 4 w) :: s.dev.reeds.filter (·.1 != 0) }
    agenda := .reed 0 :: s.agenda }

end Sys2Proof.Machine
end

