-- ==== Sys2Proof/Machine/Step.lean ====
section
/-! DEFINITION. One step: the next turn, and the instruction it comes to. -/

namespace Sys2Proof.Machine

/-- One step of the machine: a wave's instruction, a reed operation, an event, or time. -/
def step (s : State) : Host.Outcome State Fault Refusal :=
  match s.move with
  | .run i t => exec i t
  | .done t => .next t

/-- The state whose very next step fetches and runs the instruction with these bits: a reed operation in queue 0's
program, a lane instruction in the code of a launch that is loaded for it. -/
def State.withFetchWord (s : State) (nbits w : Nat) : State :=
  if isReedWord nbits w then s.placeReed w else s.placeLane (leBytes (nbits / 8) w)

end Sys2Proof.Machine
end

