-- ==== Sys2Proof/Safety.lean ====
section
/-! DEFINITION. The terms in which statements are made: a run that never stops, the canonical form of the memories, a
wave that stands ready for an instruction, and what an instruction leaves as it was. -/

namespace Sys2Proof

open Machine

/-- The v-registers that an instruction names. -/
def Instr.names (i : Instr) : List Nat :=
  match i.lane? with
  | some l => l.uses.flatMap Use.regs
  | none => []

/-- The lanes of a frontier that execute: those whose guard lets them (R37). -/
def Instr.takes (i : Instr) (w : Wave) (front : Nat) : Nat :=
  match i.lane? with
  | some l => without front (if l.g then w.maskWhere fun th => !th.rp 0 else 0)
  | none => 0

/-- Its length in bytes. -/
def Instr.len (i : Instr) : Nat := match i.lane? with | some l => l.len | none => 0

/-- A switch point: every latch of the wave is invalid after it (R41). -/
def Instr.isSwitch (i : Instr) : Bool := match i.lane? with | some l => l.sw || l.s | none => false

/-- Every latch that it reads is valid in the executing lanes (R40). -/
def Instr.latched (i : Instr) (w : Wave) (front : Nat) : Bool :=
  match i.lane? with
  | some l => (lanesOf (i.takes w front)).all fun ln => match w.thread? ln with
    | some th => latchesOk w ln th l.uses
    | none => true
  | none => false

/-- Every word with a row's opcode and bit 0 whose other fixed bits differ from the row's, or whose fields are as said, is
ILLEGAL (R33, R46). -/
def Rejects (fixed mask : BitVec 32) (bad : BitVec 32 → Bool) : Prop := ∀ w : BitVec 32, w &&& 0x1FD = fixed →
  (w &&& mask ≠ fixed ∨ bad w = true) → decodeBytes (leBytes 4 w.toNat) = some (.error .illegal)

/-- The words decode to the instructions. -/
def Decodes (nbits : Nat) (l : List (Nat × Instr)) : Prop := ∀ p ∈ l, decodeTableWord nbits p.1 = some p.2

end Sys2Proof

namespace Sys2Proof.Machine

open Host

/-! ### Runs -/

/-- An answer with a next state. -/
def Goes (o : Outcome State Fault Refusal) : Prop := ∃ t, o = .next t

/-- Every finite run from a state goes on: no step faults or is refused. -/
def State.Safe (s : State) : Prop := ∀ k, ∃ t, Sys2Proof.core.run k s = .next t

/-- Device, host and peer memory are in their canonical form. -/
def State.MemOk (s : State) : Prop := s.mem.wf = true ∧ s.hostMem.wf = true ∧ s.peerMem.wf = true

/-! ### A wave that stands ready (R36, R37, R40, R42, R46–R48, R70) -/

/-- Wave r of task t issues at its frontier (pc, front), and the instruction passes the checks that come before its own
(R48): legal selectors, legal operands under the stage's budget, no pending register named, every latch valid. -/
def ready (s : State) (r : WaveRef) (i : Instr) (t : Task) (w : Wave) (pc front : Nat) : Bool :=
  s.issuer == some r && s.task? r.tid == some t && s.wave? r == some w && w.frontier == some (pc, front) &&
    i.lane?.isSome && i.selOk && i.opOk (s.stageOf t w.stage).budget && !i.names.any (w.isPending front) && i.latched w front

/-! ### What an instruction leaves as it was -/

/-- A thread without its PC, its latches, its note of the region it is in and its count of re-executions. -/
def Thread.base (th : Thread) : Thread := { th with pc := 0, latch := [], entry := none, replays := 0 }

/-- The latches after an instruction: none after a switch point (R39, R41). -/
def latchesAfter (sw : Bool) (l : List Latch) : List Latch := if sw then [] else l

/-- Nothing outside the wave changes but the slots of cores: no other task, no other wave of the task, no scratch, typed
buffer, channel or barrier, no memory, launch, cell or register of the device. -/
def WaveOnly (s t : State) (r : WaveRef) : Prop :=
  t = { s with tasks := t.tasks, cores := t.cores } ∧
  (∀ x y, { t.core x y with slots := [] } = { s.core x y with slots := [] }) ∧
  (∀ n, n ≠ r.tid → t.task? n = s.task? n) ∧
  (t.task? r.tid).map (fun k => { k with shares := [] }) = (s.task? r.tid).map (fun k => { k with shares := [] }) ∧
  (∀ c, c ≠ r.core → t.share? r.tid c = s.share? r.tid c) ∧
  (t.share? r.tid r.core).map (fun h => { h with waves := [] }) = (s.share? r.tid r.core).map (fun h => { h with waves := [] }) ∧
  (∀ q, q ≠ r → t.wave? q = s.wave? q)

/-- A wave without its lanes, its wait and the marks of the issue. -/
def Wave.base (w : Wave) : Wave := { w with lanes := [], wait := .none, pass := false, since := 0, stopped := false }

/-- The lanes of a wave after an instruction that completes: executing lanes have gone on with an effect, guarded-off
lanes of the frontier have gone on unchanged (R37), all others have stayed. -/
def Advanced (w w' : Wave) (i : Instr) (front take : Nat) (eff : Nat → Thread → Thread → Prop) : Prop :=
  ∀ ln th, ln < 32 → w.thread? ln = some th → ∃ th', w'.thread? ln = some th' ∧
    (if take.testBit ln then eff ln th th' ∧ th'.pc = th.pc + i.len
     else th'.base = th.base ∧ th'.latch = latchesAfter i.isSwitch th.latch ∧
       th'.pc = if front.testBit ln then th.pc + i.len else th.pc)

/-- An instruction of single threads has run: its executing lanes went on with an effect, and nothing outside the wave
changed. -/
def Ran (s t : State) (r : WaveRef) (w : Wave) (i : Instr) (front : Nat) (eff : Nat → Thread → Thread → Prop) : Prop :=
  ∃ w', t.wave? r = some w' ∧ w'.base = w.base ∧ WaveOnly s t r ∧ Advanced w w' i front (i.takes w front) eff

/-- What an instruction leaves, apart from what the end of every instruction does to PCs, latches, the marks of the issue
and the slots of cores. -/
structure Expect where
  /-- Everything outside tasks and cores. -/
  rest : State
  /-- The wave's task but for its shares, its share but for the waves, its wave but for the lanes. -/
  task : Task
  share : Share
  wave : Wave
  core : Nat → Nat → Core

/-- Nothing but the wave's lanes changes. -/
def Expect.same (s : State) (k : Task) (h : Share) (w : Wave) : Expect := { rest := s, task := k, share := h, wave := w, core := s.core }

/-- A step has left what is expected; no other task, share or wave has changed; the lanes are as said. -/
def LeavesWith (s t : State) (r : WaveRef) (e : Expect) (lanes : Wave → Prop) : Prop :=
  { t with tasks := [], cores := [] } = { e.rest with tasks := [], cores := [] } ∧
  (∀ x y, { t.core x y with slots := [] } = { e.core x y with slots := [] }) ∧
  (∀ n, n ≠ r.tid → t.task? n = s.task? n) ∧
  (t.task? r.tid).map (fun k => { k with shares := [] }) = some { e.task with shares := [] } ∧
  (∀ c, c ≠ r.core → t.share? r.tid c = s.share? r.tid c) ∧
  (t.share? r.tid r.core).map (fun h => { h with waves := [] }) = some { e.share with waves := [] } ∧
  (∀ q, q ≠ r → t.wave? q = s.wave? q) ∧
  ∃ w', t.wave? r = some w' ∧ w'.base = e.wave.base ∧ lanes w'

/-- An instruction has run and left what is expected. -/
def Leaves (s t : State) (r : WaveRef) (w : Wave) (i : Instr) (front : Nat) (e : Expect)
    (eff : Nat → Thread → Thread → Prop) : Prop :=
  LeavesWith s t r e fun w' => Advanced w w' i front (i.takes w front) eff

/-- The lanes of a wave that has begun to wait at an instruction: executing lanes stay as they are, guarded-off lanes of
the frontier go on (R37). -/
def Stays (w w' : Wave) (i : Instr) (front take : Nat) : Prop :=
  ∀ ln th, ln < 32 → w.thread? ln = some th → ∃ th', w'.thread? ln = some th' ∧ th'.base = th.base ∧ th'.latch = th.latch ∧
    th'.pc = if front.testBit ln ∧ ¬ take.testBit ln then th.pc + i.len else th.pc

/-- An instruction has begun its wait and left what is expected. -/
def LeavesWaiting (s t : State) (r : WaveRef) (w : Wave) (i : Instr) (front : Nat) (e : Expect) (wait : Wait) : Prop :=
  LeavesWith s t r e fun w' => w'.wait = wait ∧ Stays w w' i front (i.takes w front)

/-- A lane whose thread keeps everything but its PC, and its latches except at a switch point. -/
def Kept (i : Instr) (th th' : Thread) : Prop := th'.base = th.base ∧ th'.latch = latchesAfter i.isSwitch th.latch

/-- What an instruction writes into a thread: v-registers, a latch, sticky flags, predicates, address registers are named
where they change; everything else of the thread but its PC stays (R38, R39, R93). -/
def Thread.Wrote (th th' : Thread) (sw : Bool) (dst : List (Nat × Word)) (lat : Option Latch) (fl : Flags) : Prop :=
  (∀ n, th'.rv n = ((dst.find? (·.1 == n)).map (·.2)).getD (th.rv n)) ∧
  th'.latch = latchesAfter sw (match lat with | some l => (l :: th.latch).take 4 | none => th.latch) ∧
  th'.flags = th.flags ||| fl ∧
  { th'.base with v := [], flags := 0 } = { th.base with v := [], flags := 0 }

/-- The v-registers that a result reaches: none where the destination is vz or the result is not written (R34, R38). -/
def dstRegs (d : Opnd) (noWrite : Bool) (ws : List Word) : List (Nat × Word) :=
  match d with
  | .v n => if noWrite then [] else ws.zipIdx.map fun p => (n.val + p.2, p.1)
  | _ => []

/-- Wherever its wave stands ready, the instruction goes on, and each executing thread changes as said. -/
def Runs (i : Instr) (eff : Wave → Nat → Thread → Thread → Prop) : Prop :=
  ∀ s r t w pc front, ready s r i t w pc front = true →
    ∃ t', exec i s = .next t' ∧ Ran s t' r w i front (eff w)

/-- It delivers a 32-bit result to its destination and the latches, and raises flags. -/
def Gives32 (i : Instr) (d : Opnd) (noWrite : Bool) (val : Wave → Nat → Thread → Word)
    (fl : Wave → Nat → Thread → Flags := fun _ _ _ => 0) : Prop :=
  Runs i fun w ln th th' =>
    th.Wrote th' i.isSwitch (dstRegs d noWrite [val w ln th]) (some ⟨(val w ln th).setWidth 64, false⟩) (fl w ln th)

/-- It delivers a 64-bit result to its destination pair and the latches, and raises flags. -/
def Gives64 (i : Instr) (d : Opnd) (noWrite : Bool) (val : Wave → Nat → Thread → DWord)
    (fl : Wave → Nat → Thread → Flags := fun _ _ _ => 0) : Prop :=
  Runs i fun w ln th th' =>
    th.Wrote th' i.isSwitch (dstRegs d noWrite [(val w ln th).setWidth 32, (val w ln th >>> 32).setWidth 32])
      (some ⟨val w ln th, true⟩) (fl w ln th)

/-- It writes one predicate and raises flags; no latch is entered. -/
def GivesP (i : Instr) (p : Fin 8) (val : Wave → Nat → Thread → Bool) (fl : Wave → Nat → Thread → Flags := fun _ _ _ => 0) :
    Prop :=
  Runs i fun w ln th th' =>
    (∀ n, th'.rp n = if n = p.val then val w ln th else th.rp n) ∧ th'.latch = latchesAfter i.isSwitch th.latch ∧
    th'.flags = th.flags ||| fl w ln th ∧ { th'.base with p := [], flags := 0 } = { th.base with p := [], flags := 0 }

/-- It writes one address register; no latch is entered and no flag raised. -/
def GivesA (i : Instr) (d : Fin 8) (val : Wave → Nat → Thread → Addr) : Prop :=
  Runs i fun w ln th th' =>
    (∀ n, th'.ra n = if n = d.val then val w ln th else th.ra n) ∧ th'.latch = latchesAfter i.isSwitch th.latch ∧
    { th'.base with a := [] } = { th.base with a := [] }

/-! ### Memory instructions -/

/-- The executing lanes of an instruction with their threads, in ascending k.tix. -/
def Wave.acting (w : Wave) (take : Nat) : List (Nat × Thread) :=
  (w.byTix take).filterMap fun ln => (w.thread? ln).map fun th => (ln, th)

/-- The core of a wave takes no samples (R266): sampling is off and none is under way. -/
def State.unsampled (s : State) (xy : Nat × Nat) : Bool := !s.dev.sampctl.getLsbD 0 && (s.core xy.1 xy.2).samples.isEmpty

/-- The cores after one more memory instruction of a core. -/
def State.counted (s : State) (xy : Nat × Nat) (x y : Nat) : Core :=
  if (x, y) = xy then { s.core x y with memCount := (s.core x y).memCount + 1 } else s.core x y

/-- A lane's core-local access passes its checks (R121, R131, R138). -/
def localOk (s : State) (k : Task) (h : Share) (w : Wave) (r : WaveRef) (space n : Nat) (write satom : Bool)
    (off : Nat → Thread → Nat) (p : Nat × Thread) : Bool :=
  let a := s.accessOf k r w p.1 p.2 space (off p.1 p.2) (off p.1 p.2) n write satom
  (localFault h w space (off p.1 p.2) n write).isNone && (space != 0 || (racesOf k a).1.isNone)

/-- What the race checker keeps of core-local accesses, numbered from those that it has (R138). -/
def localAccesses (s : State) (k : Task) (w : Wave) (r : WaveRef) (space n : Nat) (write satom : Bool)
    (off : Nat → Thread → Nat) (l : List (Nat × Thread)) : List Access :=
  l.zipIdx.map fun q => { s.accessOf k r w q.1.1 q.1.2 space (off q.1.1 q.1.2) (off q.1.1 q.1.2) n write satom with
    epoch := k.accesses.length + 1 + q.2 }

/-- The live entry that translates a lane's access without a walk (R209). -/
def State.cached (s : State) (v : Viewer) (asid : BitVec 12) (va : Nat) : Option TlbEntry :=
  ((s.lookups v asid va).findSome? fun ag => (s.tlbHit ag asid va).map fun e => (ag, e)).map (·.2)

/-- The PA that an entry gives a VA (R208). -/
def TlbEntry.pa (e : TlbEntry) (va : Nat) : Nat := (e.base + (va / 2 ^ 16 % 16 : Nat) * 65536).toNat + va % 65536

/-- No task of an earlier round of the launch holds shadow bytes (R145). -/
def State.noEarlier (s : State) (k : Task) : Bool :=
  !s.tasks.any fun u => u.lid == k.lid && u.round < k.round && !u.shadow.isEmpty

/-- The task after bytes of device memory have gone into its shadow lines (R141). -/
def Task.shadowed (k : Task) (tag : Nat × Nat) (ordw : Bool) (va pa : Nat) (bs : List Byte) : Task :=
  let ns := ((List.range bs.length).map fun i => (pa + i) / 64).eraseDups
  { k with shadow := bs.zipIdx.foldl (fun m p => Shadow.set m (pa + p.2) p.1) k.shadow
           lines := (ns.map fun n => { line := n, va := va - pa % 65536 + 64 * n % 65536, tag, ordw : LineInfo }) ++
             k.lines.filter fun e => !ns.contains e.line }

/-- The task after a wave's store of n device bytes, which its copies may not see yet (R151). -/
def Task.aged (k : Task) (s : State) (r : WaveRef) (tag : Nat × Nat) (va pa n : Nat) : Task :=
  { k with older := { space := 4, addr := pa, old := s.view k tag false pa va n, path := 0, wave := (r.core, r.wix), hidden := [1],
                          seenBy := [(r.core, r.wix)] } :: k.older }

/-- Bytes that the task holds in shadow lines or has from its parent take new values (R364, log 124). -/
def Task.overwrote (k : Task) (pa : Nat) (bs : List Byte) : Task :=
  let new := fun (m : Shadow) => bs.zipIdx.foldl (fun (m : Shadow) b =>
    if (m.get? (pa + b.2)).isSome then m.set (pa + b.2) b.1 else m) m
  { k with shadow := new k.shadow, inherited := new k.inherited }

/-- A lane's access to device memory that translates through a cached entry, meets no check and finds its line in the L1:
aligned, permitted, inside the extents of a checked launch, on no bad line, without a race, and not recorded. -/
def deviceOk (s : State) (k : Task) (l : Launch) (w : Wave) (r : WaveRef) (n : Nat) (write ext : Bool)
    (va : Nat → Thread → Nat) (p : Nat × Thread) : Bool :=
  let xy := s.coreXY k r.core
  let a := va p.1 p.2
  a % n == 0 && !(ext && s.outside k a n) &&
  match s.cached (laneViewer k.tid xy.1 xy.2) l.asid a with
  | some e => (if write then e.attr.w && !e.attr.cell else e.attr.r) && e.attr.target == 0 && (write || !s.badIn (e.pa a) n) &&
      !(e.attr.mod && l.records? && (write || p.2.recording)) && (s.l1Line? k r.core (e.pa a / 64)).isSome &&
      (e.attr.cell || (racesOf k (s.accessOf k r w p.1 p.2 4 (e.pa a) a n write false)).1.isNone)
  | none => false

/-- The entry that a lane's access goes through. -/
def entryOf (s : State) (k : Task) (l : Launch) (r : WaveRef) (va : Nat) : TlbEntry :=
  let xy := s.coreXY k r.core
  (s.cached (laneViewer k.tid xy.1 xy.2) l.asid va).getD { ag := .headworks, asid := 0, group := 0, base := 0, mask := 0, attr := attrOf 0, expiry := 0 }

/-- What the race checker keeps of global accesses: none on CELL pages (R138). -/
def globalAccesses (s : State) (k : Task) (l : Launch) (w : Wave) (r : WaveRef) (n : Nat) (write : Bool)
    (va : Nat → Thread → Nat) (ps : List (Nat × Thread)) : List Access :=
  (ps.filter fun p => !(entryOf s k l r (va p.1 p.2)).attr.cell).zipIdx.map fun q =>
    let a := va q.1.1 q.1.2
    { s.accessOf k r w q.1.1 q.1.2 4 ((entryOf s k l r a).pa a) a n write false with epoch := k.accesses.length + 1 + q.2 }

/-- Transfers that the lanes of an access make: 64-byte lines, for a load those that the L1 does not hold (R256). -/
def sentLines (s : State) (k : Task) (l : Launch) (r : WaveRef) (load : Bool) (va : Nat → Thread → Nat)
    (ps : List (Nat × Thread)) : Nat :=
  ((ps.filterMap fun p =>
    let line := (entryOf s k l r (va p.1 p.2)).pa (va p.1 p.2) / 64
    if load && (s.l1Line? k r.core line).isSome then none else some line).eraseDups).length

/-- The budget of its partition lets a wave make what is left of n transfers now (R256). -/
def State.affords (s : State) (l : Launch) (w : Wave) (n : Nat) : Bool := s.mayPay l.part (n - w.paid) == n - w.paid

/-- They are charged. -/
def State.charged (s : State) (l : Launch) (w : Wave) (n : Nat) : State := s.transfer l.part (n - w.paid)

/-- The task after its accesses have been kept, with the races that slices find (R138). -/
def Task.noted (k : Task) (as : List Access) : Task :=
  { k with accesses := k.accesses ++ as
           races := k.races ++ as.flatMap fun a => (racesOf k a).2.map fun b => (b, a) }

/-- A global load by lanes whose lines are in the L1 (R355–R357): each lane has one load under way with the bytes of its
line; nothing else changes but marks, traffic and the race checker's notes. -/
def LoadsGlobal (i : Instr) (d : Opnd) (n width : Nat) (ext : Bool) (va : State → Task → Wave → Nat → Thread → Nat)
    (more : State → Task → Wave → Nat → Thread → Bool) : Prop :=
  ∀ s r k w pc front l h, ready s r i k w pc front = true → s.launchOf? r.tid = some l → s.share? r.tid r.core = some h →
    s.unsampled (s.coreXY k r.core) = true → (l.checked = false ∨ s.noEarlier k = true) →
    let act := w.acting (i.takes w front)
    act.all (deviceOk s k l w r n false ext (va s k w)) = true → act.all (fun p => more s k w p.1 p.2) = true →
    ∃ t, exec i s = .next t ∧ Leaves s t r w i front
      { rest := { s with fresh := s.fresh + act.length }.transfer l.part 0
        task := k.noted (globalAccesses s k l w r n false (va s k w) act)
        share := h
        wave := { w with pend := w.marked (i.takes w front) d width
                         paid := 0
                         loads := w.loads ++ act.zipIdx.map fun q =>
                           let a := va s k w q.1.1 q.1.2
                           { id := s.fresh + q.2, tix := q.1.2.tix, reg := destReg d
                             words := words (regSpan width) (num (s.l1Read k r.core ((entryOf s k l r a).pa a) n)) } }
        core := s.counted (s.coreXY k r.core) } fun _ => Kept i

/-- The cores after lanes have written bytes into lines of the L1 that hold them. -/
def State.l1Wrote (s : State) (k : Task) (xy : Nat × Nat) (ws : List (Nat × List Byte)) (x y : Nat) : Core :=
  let c := s.counted xy x y
  if (x, y) = xy then
    { c with l1 := ws.foldl (fun ls p => upd (fun q => q.tid == k.tid && q.line == p.1 / 64)
        (fun q => { q with bytes := q.bytes.take (p.1 % 64) ++ p.2 ++ q.bytes.drop (p.1 % 64 + p.2.length) }) ls) c.l1 }
  else c

/-- A global store by lanes whose lines are in the L1, outside exclusive ranges (R141, R388): the bytes go into the
task's shadow lines and the L1, and no byte of device, host or peer memory changes. -/
def StoresGlobal (i : Instr) (n width : Nat) (data : Opnd) (va : Wave → Nat → Thread → Nat) : Prop :=
  ∀ s r k w pc front l h, ready s r i k w pc front = true → s.launchOf? r.tid = some l → s.share? r.tid r.core = some h →
    s.unsampled (s.coreXY k r.core) = true →
    (s.tasks.any fun u => u.parent == some k.tid && !u.joined) = false →
    let act := w.acting (i.takes w front)
    let sent := sentLines s k l r false (va w) act
    act.all (deviceOk s k l w r n true true (va w)) = true → s.affords l w sent = true →
    act.all (fun p => (List.range n).all fun j => !k.exclusive (va w p.1 p.2 + j)) = true →
    let pa := fun (p : Nat × Thread) => (entryOf s k l r (va w p.1 p.2)).pa (va w p.1 p.2)
    let bs := fun (p : Nat × Thread) => bytes n (src w p.1 p.2 width data)
    ∃ t, exec i s = .next t ∧ Leaves s t r w i front
      { rest := { s with fresh := s.fresh + act.length }.charged l w sent
        task := act.foldl (fun u p => let e := entryOf s k l r (va w p.1 p.2)
          (u.aged s r (s.pageTag l e.attr.buf) (va w p.1 p.2) (pa p) n).shadowed (s.pageTag l e.attr.buf) e.attr.ordw (va w p.1 p.2) (pa p) (bs p))
          (k.noted (globalAccesses s k l w r n true (va w) act))
        share := h
        wave := { w with paid := 0, stores := w.stores ++ act.zipIdx.map fun q => (s.fresh + q.2, .slice, s.deadline 2) }
        core := s.l1Wrote k (s.coreXY k r.core) (act.map fun p => (pa p, bs p)) } fun _ => Kept i

/-- A lane's access through a cached entry that goes to device memory (target 0) with its line not in the L1, to host memory
(1) or to peer memory (2), and meets no check. -/
def farOk (s : State) (k : Task) (l : Launch) (w : Wave) (r : WaveRef) (n target : Nat) (write ext : Bool)
    (va : Nat → Thread → Nat) (p : Nat × Thread) : Bool :=
  let xy := s.coreXY k r.core
  let a := va p.1 p.2
  a % n == 0 && !(ext && s.outside k a n) &&
  match s.cached (laneViewer k.tid xy.1 xy.2) l.asid a with
  | some e => (if write then e.attr.w && !e.attr.cell else e.attr.r) && e.attr.target.toNat == target && (write && target == 0 || !s.dataErr e.attr (e.pa a) n) &&
      (target != 0 || !e.attr.cell && !(e.attr.mod && l.records? && (write || p.2.recording)) &&
        (s.l1Line? k r.core (e.pa a / 64)).isNone && (racesOf k (s.accessOf k r w p.1 p.2 4 (e.pa a) a n write false)).1.isNone)
  | none => false

/-- The L1 of a core has room, and takes a line for a task. -/
def State.l1Took (s : State) (k : Task) (xy : Nat × Nat) (line : Nat) (bs : List Byte) (x y : Nat) : Core :=
  let c := s.counted xy x y
  if (x, y) = xy then { c with l1 := { tid := k.tid, line, bytes := bs } :: c.l1 } else c

/-- No wave has a 16-byte load of host memory under way, and no piece of a store waits. -/
def State.hostQuiet (s : State) : Bool :=
  s.halves.isEmpty && s.tasks.all fun t => t.shares.all fun h => h.waves.all fun w => w.loads.all (·.host.isNone)

/-- One lane's global load that the L1 cannot serve (R355–R357): its line is allocated with the bytes that the task sees, and
the request carries its deadline; or it reads host or peer memory. -/
def LoadsFar (i : Instr) (d : Opnd) (n width : Nat) (ext : Bool) (va : State → Task → Wave → Nat → Thread → Nat)
    (more : State → Task → Wave → Nat → Thread → Bool) : Prop :=
  ∀ s r k w pc front l h ln th, ready s r i k w pc front = true → s.launchOf? r.tid = some l → s.share? r.tid r.core = some h →
    s.unsampled (s.coreXY k r.core) = true → (l.checked = false ∨ s.noEarlier k = true) →
    w.acting (i.takes w front) = [(ln, th)] → more s k w ln th = true →
    let xy := s.coreXY k r.core
    let a := va s k w ln th
    let e := entryOf s k l r a
    let pa := e.pa a
    let line := s.laneView k (s.pageTag l e.attr.buf) false (pa / 64 * 64) (a - pa % 64) 64
    let ok := fun (target : Nat) => farOk s k l w r n target false ext (va s k w) (ln, th)
    let left := fun (rest : State) (task : Task) (core : Nat → Nat → Core) (bs : List Byte) (due host : Option Nat) =>
      ∃ t, exec i s = .next t ∧ Leaves s t r w i front
        { rest, task, share := h, core
          wave := { w with pend := w.marked (i.takes w front) d width, paid := 0
                           loads := w.loads ++ [{ id := s.fresh, tix := th.tix, reg := destReg d, words := words (regSpan width) (num bs)
                                                  due, host }] } } fun _ => Kept i
    (ok 0 = true → s.affords l w 1 = true → (s.core xy.1 xy.2).l1.length < 2048 →
      left ({ s with fresh := s.fresh + 1 }.charged l w 1) (k.noted (globalAccesses s k l w r n false (va s k w) [(ln, th)]))
        (s.l1Took k xy (pa / 64) line) ((line.drop (pa % 64)).take n) (some (s.deadline 2)) none) ∧
    (ok 1 = true → s.hostQuiet = true →
      left ({ s with fresh := s.fresh + 1 }.transfer l.part 0) k (s.counted xy) (s.hostMem.read pa n) none
        (if n = 16 then some pa else none)) ∧
    (ok 2 = true →
      left ({ s with fresh := s.fresh + 1 }.transfer l.part 0) k (s.counted xy) (s.peerMem.read (peerAddr e.attr.peer pa) n) none none)

/-- One lane's global store outside exclusive ranges whose line is not in the L1, or to host or peer memory (R141, R388). -/
def StoresFar (i : Instr) (n width : Nat) (data : Opnd) (va : Wave → Nat → Thread → Nat) : Prop :=
  ∀ s r k w pc front l h ln th, ready s r i k w pc front = true → s.launchOf? r.tid = some l → s.share? r.tid r.core = some h →
    s.unsampled (s.coreXY k r.core) = true → (s.tasks.any fun u => u.parent == some k.tid && !u.joined) = false →
    w.acting (i.takes w front) = [(ln, th)] →
    let xy := s.coreXY k r.core
    let a := va w ln th
    let e := entryOf s k l r a
    let pa := e.pa a
    let tag := s.pageTag l e.attr.buf
    let bs := bytes n (src w ln th width data)
    let line := s.laneView k tag false (pa / 64 * 64) (a - pa % 64) 64
    let ok := fun (target : Nat) => farOk s k l w r n target true true (va w) (ln, th)
    let left := fun (rest : State) (task : Task) (core : Nat → Nat → Core) (kind : StoreKind) =>
      ∃ t, exec i s = .next t ∧ Leaves s t r w i front
        { rest, task, share := h, core, wave := { w with paid := 0, stores := w.stores ++ [(s.fresh, kind, s.deadline 2)] } } fun _ => Kept i
    (ok 0 = true → s.affords l w 1 = true → (s.core xy.1 xy.2).l1.length < 2048 →
      ((List.range n).all fun j => !k.exclusive (a + j)) = true →
      left ({ s with fresh := s.fresh + 1 }.charged l w 1)
        (((k.noted (globalAccesses s k l w r n true (va w) [(ln, th)])).aged s r tag a pa n).shadowed tag e.attr.ordw a pa bs)
        (s.l1Took k xy (pa / 64) (line.take (pa % 64) ++ bs ++ line.drop (pa % 64 + n))) .slice) ∧
    (ok 1 = true → s.hostQuiet = true →
      left ({ (s.transfer l.part 0).hostWrite r pa bs with fresh := s.fresh + 1 }) k (s.counted xy) .host) ∧
    (ok 2 = true → left ({ s with fresh := s.fresh + 1, peerMem := s.peerMem.write (peerAddr e.attr.peer pa) bs }.transfer l.part 0) k
      (s.counted xy) .peer)

/-! ### Cells (R159–R174) -/

/-- The executing lanes in ascending lane order. -/
def Wave.ascending (w : Wave) (take : Nat) : List (Nat × Thread) :=
  (lanesOf take).filterMap fun ln => (w.thread? ln).map fun th => (ln, th)

/-- A lane's cell access passes its checks through a cached entry of a CELL page (R320, R358). -/
def cellOk (s : State) (k : Task) (l : Launch) (r : WaveRef) (n : Nat) (write : Bool) (va : Nat → Thread → Nat)
    (p : Nat × Thread) : Bool :=
  let xy := s.coreXY k r.core
  let a := va p.1 p.2
  a % 32 == 0 && !s.outside k a n &&
  match s.cached (laneViewer k.tid xy.1 xy.2) l.asid a with
  | some e => e.attr.r && (!write || e.attr.w) && e.attr.cell && !s.badIn (e.pa a) 32
  | none => false

/-- A cell instruction: each executing lane, in ascending lane order, sends one operation with its stamp, and the wave
holds its place until the slices have answered (R162, R320). -/
def SendsCells (i : Instr) (major ty bits n : Nat) (val : Opnd) (va : Nat → Thread → Nat) : Prop :=
  ∀ s r k w pc front l h, ready s r i k w pc front = true → s.launchOf? r.tid = some l → s.share? r.tid r.core = some h →
    s.unsampled (s.coreXY k r.core) = true →
    let act := w.ascending (i.takes w front)
    s.affords l w act.length = true → act ≠ [] → act.all (cellOk s k l r n true va) = true → act.all (fun p => p.2.cseq != 0xFFFFFFFF) = true →
    let ops := act.zipIdx.map fun q =>
      ({ id := s.fresh + q.2, lid := k.lid, scope := l.scope, tid := k.tid, core := r.core, wix := r.wix, lane := q.1.1,
         key := k.key, tix := q.1.2.tix, cseq := q.1.2.cseq, pa := (entryOf s k l r (va q.1.1 q.1.2)).pa (va q.1.1 q.1.2)
         va := va q.1.1 q.1.2, major, ty, operand := BitVec.ofNat 128 (src w q.1.1 q.1.2 bits val), due := s.deadline 2 } : CellOp)
    ∃ t, exec i s = .next t ∧ LeavesWaiting s t r w i front
      { rest := { s with fresh := s.fresh + act.length, flight := s.flight ++ ops }.charged l w act.length
        task := k
        share := h
        wave := { w with paid := 0, cellsLeft := w.cellsLeft ++ ops.map (·.id) }
        core := s.counted (s.coreXY k r.core) } (.cells (w.still (i.takes w front)))

/-! ### Cross-lane instructions (R114–R117, R265) -/

/-- The member mask of a format W instruction passes R265: every member lane holds a thread, every executing lane is a
member. -/
def Wave.memberMask (w : Wave) (m : Mask) (take : Nat) : Bool :=
  without (w.members m) w.live == 0 && without take (w.members m) == 0

/-- The value at node (level, i) of the binary tree over lane index, and the flags of every step in it (R115). -/
def treeNode (fn : WredFn) (x : Nat → Nat) : Nat → Nat → Nat × Flags
  | 0, n => (x n, 0)
  | k + 1, n =>
    let a := treeNode fn x k (2 * n)
    let b := treeNode fn x k (2 * n + 1)
    let c := WredFn.step fn a.1 b.1
    (c.1, c.2 ||| a.2 ||| b.2)

/-- The inclusive prefix at a lane, and the flags of its steps (R116). -/
def scanTo (fn : WredFn) (x : Nat → Nat) : Nat → Nat × Flags
  | 0 => (x 0, 0)
  | n + 1 =>
    let a := scanTo fn x n
    let c := WredFn.step fn a.1 (x (n + 1))
    (c.1, c.2 ||| a.2)

/-- The term of a lane: a member's operand, or the identity (R393). -/
def Wave.term (w : Wave) (m : Mask) (fn : WredFn) (o : Opnd) (ln : Nat) : Nat :=
  if (w.members m).testBit ln then memberVal w fn.bits ln o else WredFn.identity fn

/-- The wave after a result that goes once to an s-register (R393). -/
def Wave.took (w : Wave) (take : Nat) (d : Opnd) (ws : List Word) : Wave :=
  match d with
  | .s n => if take = 0 then w else w.setSs n ws
  | _ => w

/-! ### What becomes of the lanes of a wave -/

/-- A thread without its note of the region it is in and its count of re-executions. -/
def Thread.plain (th : Thread) : Thread := { th with entry := none, replays := 0 }

/-- Every lane holds what is said, or nothing. -/
def Became (w w' : Wave) (eff : Nat → Thread → Option Thread) : Prop :=
  ∀ ln, ln < 32 → (w'.thread? ln).map Thread.plain = ((w.thread? ln).bind (eff ln)).map Thread.plain

/-- Executing threads change as said, other threads of the frontier go on; a switch point clears the latches of all. -/
def turns (i : Instr) (front take : Nat) (f : Thread → Option Thread) (ln : Nat) (th : Thread) : Option Thread :=
  (if take.testBit ln then f th else if front.testBit ln then some { th with pc := th.pc + i.len } else some th).map fun u =>
    { u with latch := latchesAfter i.isSwitch u.latch }

/-- No wave of a launch waits at a barrier. -/
def State.noBarWaits (s : State) (lid : Nat) : Bool :=
  s.tasks.all fun t => t.lid != lid || t.shares.all fun h => h.waves.all fun w => w.barWaits.isEmpty

/-- No wave of a launch waits in a phase that a member has left without arriving (R83). -/
def State.noneDead (s : State) (lid : Nat) : Bool :=
  s.tasks.all fun t => t.lid != lid || t.shares.all fun h => h.waves.all fun w => w.barWaits.all fun bw =>
    let b : BarName := ⟨bw.lvl, bw.n, bw.shape, barKey bw.lvl w⟩
    (s.group t h.c b).all fun p => (match s.task? p.1 with | some u => u.st == .waits | none => true) ||
      (s.missing p b).all fun n => s.liveTix p.1 n

/-- A thread of the wave that can issue stays behind when the lanes of a mask stop. -/
def Wave.others (w : Wave) (mask : Nat) : Bool :=
  (List.range 32).any fun ln => !mask.testBit ln && (w.thread? ln).any Thread.running

/-- A thread of the task, of this wave or another one, can go on when the lanes of a mask of the wave stop (R258). -/
def Task.goesOn (k : Task) (r : WaveRef) (w : Wave) (mask : Nat) : Bool :=
  w.others mask || k.shares.any fun g => g.waves.any fun v => (g.c != r.core || v.wix != r.wix) && v.active

/-- The core after a task's clean lines have been discarded in it (R149). -/
def Core.cleared (c : Core) (tid : Nat) : Core := { c with l1 := c.l1.filter (·.tid != tid) }

/-- The task after its tags have left a core with the lines (R138). -/
def Task.untagged (k : Task) (c : Nat) : Task :=
  { k with accesses := k.accesses.map fun a => if a.space == 4 && a.core == c then { a with held := false } else a }

/-- Wherever its wave stands ready, each executing thread goes to its target, where it has one, or on; a thread whose
target fails R28 takes FETCH and stays. Where some do, the launch does not halt and a thread of the task runs on. -/
def Jumps (i : Instr) (target : Nat → Thread → Option Int) (eff : Nat → Thread → Thread) : Prop :=
  ∀ s r k w pc front h l, ready s r i k w pc front = true → s.share? r.tid r.core = some h → s.launchOf? r.tid = some l →
    let bad := fun (th : Thread) => (target pc th).any (badTarget l.code.size)
    let lost := (w.acting (i.takes w front)).filter fun p => bad p.2
    (lost = [] ∨ (l.haltFatal = false ∧ k.prop = none ∧ k.goesOn r w (maskOf (lost.map (·.1))) = true)) →
    ∃ t, exec i s = .next t ∧ LeavesWith s t r
      { Expect.same s k h w with
        rest := s.modLaunch k.lid fun l => lost.foldl (fun l p => l.record s.now (s.recordOf k p.1 p.2.tix p.2.pc
          { code := 0x04, detail := (BitVec.ofInt 32 ((target pc p.2).getD 0)).toNat })) l }
      fun w' => Became w w' (turns i front (i.takes w front) fun th => some (if bad th then { th with park := .fatal, atBar := false }
        else { eff pc th with pc := ((target pc th).getD (pc + 4)).toNat }))

/-- The launches after the same fault of every executing thread (R257, R261). -/
def State.recorded (s : State) (k : Task) (act : List (Nat × Thread)) (f : Flt) : State :=
  s.modLaunch k.lid fun l => act.foldl (fun l p => l.record s.now (s.recordOf k p.1 p.2.tix p.2.pc f)) l

/-- Every executing thread takes a fault: it parks at the instruction and its record reaches the launch. -/
def Faults (s t : State) (r : WaveRef) (k : Task) (h : Share) (w : Wave) (i : Instr) (front : Nat) (f : Flt) : Prop :=
  LeavesWith s t r { Expect.same s k h w with rest := s.recorded k (w.acting (i.takes w front)) f } fun w' =>
    Became w w' (turns i front (i.takes w front) fun th => some { th with park := .fatal, atBar := false })

/-- A barrier of a core after an arrival of lanes of a wave (R79). -/
def Bar.reached (x : Bar) (b : BarName) (w : Wave) (wix take : Nat) (k : Clock) : Bar :=
  let ths := (w.ascending take).map (·.2)
  let fresh := ths.filter fun th => !x.who.contains th.tix
  { x with who := x.who ++ fresh.map (·.tix)
           members := if b.lvl = .wave ∧ x.who = [] then w.lanes.filterMap fun o => o.map (·.tix) else x.members
           arrived := if x.arrived.any (·.1 == wix) then upd (·.1 == wix) (fun p => (p.1, p.2 ||| take)) x.arrived
             else x.arrived ++ [(wix, take)]
           flags := fresh.foldl (fun f th => f ||| th.flags) x.flags
           shape := if b.lvl = .polder then some b.shape else none
           clock := Clock.join x.clock k }

/-- What an arrival leaves of its wave: the arrival record names this phase (R79). -/
def Wave.reached (w : Wave) (b : BarName) (phase : Nat) : Wave :=
  { w with recs := { lvl := b.lvl, n := b.n, shape := b.shape, phase, done := none, clock := [] } ::
             w.recs.filter fun x => !(x.lvl == b.lvl && x.n == b.n) }

/-- Lanes that begin to wait at a barrier: they stay, and a switch point clears the latches of all. -/
def AtBar (w w' : Wave) (take : Nat) : Prop :=
  Became w w' fun ln th => some { th with atBar := th.atBar || take.testBit ln, latch := [] }

/-- What a wait that ends leaves: the lanes of its mask go on, latches are invalid (R41). -/
def Returned (w w' : Wave) (mask : Nat) : Prop :=
  w'.wait = .none ∧ Became w w' fun ln th =>
    some { th with pc := if mask.testBit ln ∧ th.park = .runs then th.pc + 4 else th.pc, latch := [] }

/-- What the end of a fence's wait makes of a thread: the lanes of its mask go on, its latches stay where the instruction
is no switch point (R41). -/
def heldOn (mask : Nat) (stop : Bool) (ln : Nat) (th : Thread) : Option Thread :=
  some { th with pc := if mask.testBit ln ∧ th.park = .runs then th.pc + 4 else th.pc, latch := latchesAfter stop th.latch }

/-- Each thread's bin entry when REFORM files it behind itself, with what is ordered before it (R72, R136). -/
def State.filedAs (s : State) (r : WaveRef) (k : Task) (pc : Nat) (th : Thread) : BinEntry :=
  { th := (s.codeOf r.tid).enterRegion { th with pc := pc + 4, latch := [], replays := 0 }, clock := k.filed th.tix }

/-- The wave once the threads of a mask have left it. -/
def Wave.left (w : Wave) (take : Nat) : Wave := if take = 0 then w else w.dropMarks take

/-- The cores once loads of a task have been lost on one of them: samples wait for them no more (R266). -/
def State.lost (s : State) (xy : Nat × Nat) (ids : List Nat) (x y : Nat) : Core :=
  if (x, y) = xy then { s.core x y with
    samples := (s.core x y).samples.map fun p => { p with loads := p.loads.filter fun n => !ids.contains n } } else s.core x y

/-- The expectation after a task's clean lines have left a core (R149). -/
def Expect.discards (s : State) (r : WaveRef) (k : Task) (h : Share) (w : Wave) : Expect :=
  { Expect.same s k h w with task := k.untagged r.core
                             core := fun x y => if (x, y) = s.coreXY k r.core then (s.core x y).cleared r.tid else s.core x y }

/-- Writes that wave r has now observed complete (R152). -/
def Expect.saw (e : Expect) (r : WaveRef) (p : Older → Bool) : Expect :=
  let see := seeOlder p (r.core, r.wix)
  { e with task := { e.task with older := see e.task.older }, share := { e.share with older := see e.share.older } }

/-- The writes that wave r has observed complete and a FENCEX covers are visible to the to-class paths (R152). -/
def Expect.shows (e : Expect) (r : WaveRef) (frm into : Nat) : Expect :=
  let show_ := showOlder frm into (r.core, r.wix)
  { e with task := { e.task with older := show_ e.task.older }, share := { e.share with older := show_ e.share.older } }

/-- An arrival at polder and launch level discards them too: it acts as a FENCE (R149, R150). -/
def Expect.arrives (s : State) (r : WaveRef) (k : Task) (h : Share) (w : Wave) (lvl : Level) : Expect :=
  if lvl = .polder ∨ lvl = .launch then Expect.discards s r k h w else Expect.same s k h w

/-! ### Commands that act once per wave (R225, R226) -/

/-- A command at its issue: its wave with task and share, the lanes that execute, and the one with the lowest k.tix. -/
structure Cmd where
  s : State
  r : WaveRef
  k : Task
  h : Share
  w : Wave
  take : Nat
  ln : Nat
  th : Thread

/-- A source operand, read from the lowest-k.tix executing thread. -/
def Cmd.arg (x : Cmd) (o : Opnd) : Nat := src x.w x.ln x.th 32 o

def Cmd.xy (x : Cmd) : Nat × Nat := x.s.coreXY x.k x.r.core

def Cmd.same (x : Cmd) : Expect := Expect.same x.s x.k x.h x.w

/-- The channel that a command names. -/
def Cmd.chan (x : Cmd) (ch : Fin 16) : Chan := (x.h.chans[ch.val]?).getD { space := 0, base := 0, size := 0, elem := 0 }

def Cmd.declared (x : Cmd) (ch : Fin 16) : Bool := (x.h.chans[ch.val]?).isSome

/-- No other wave of a share has observed the channel. -/
def unseenBy (h : Share) (wix ch : Nat) : Bool :=
  h.waves.all fun u => u.wix == wix || (u.obs.all (·.1 != ch) && u.chClocks.all (·.1 != ch))

def Cmd.unseen (x : Cmd) (ch : Nat) : Bool := unseenBy x.h x.r.wix ch

/-- A wave that has not observed the channel (R127). -/
def Wave.unsees (w : Wave) (ch : Nat) : Wave :=
  { w with obs := w.obs.filter (·.1 != ch), chClocks := w.chClocks.filter (·.1 != ch) }

/-- The cores after a change of the command's own. -/
def Cmd.coreWith (x : Cmd) (f : Core → Core) (a b : Nat) : Core := if (a, b) = x.xy then f (x.s.core a b) else x.s.core a b

/-- Every executing lane has the same word under way. -/
def Cmd.delivers (x : Cmd) (e : Expect) (d : Opnd) (v : Word) : Expect :=
  let act := x.w.acting x.take
  { e with rest := { e.rest with fresh := x.s.fresh + act.length }
           wave := { e.wave with pend := x.w.marked x.take d 32
                                 loads := x.w.loads ++ act.zipIdx.map fun q =>
                                   { id := x.s.fresh + q.2, tix := q.1.2.tix, reg := destReg d, words := [v] } } }

/-- A condition on a command where its wave stands ready, some lane executes and the stage's role allows it. -/
def AtCmd (i : Instr) (p : Cmd → Nat → Prop) : Prop :=
  ∀ s r k w pc front h ln th, ready s r i k w pc front = true → s.share? r.tid r.core = some h →
    (w.acting (i.takes w front)).head? = some (ln, th) → roleAllows (s.stageOf k w.stage).role i = true →
    p ⟨s, r, k, h, w, i.takes w front, ln, th⟩ front

/-- Under a condition, the command goes on and leaves what is expected. -/
def Commands (i : Instr) (cond : Cmd → Prop) (e : Cmd → Expect) (eff : Nat → Thread → Thread → Prop := fun _ => Kept i) : Prop :=
  AtCmd i fun x front => cond x → ∃ t, exec i x.s = .next t ∧ Leaves x.s t x.r x.w i front (e x) eff

/-- Under a condition, the command waits; no thread of its task has a fatal record. -/
def CommandWaits (i : Instr) (cond : Cmd → Prop) (wait : Cmd → Wait) : Prop :=
  AtCmd i fun x front => cond x → x.s.fatalIn x.k = false →
    ∃ t, exec i x.s = .next t ∧ LeavesWaiting x.s t x.r x.w i front x.same (wait x)

/-- The event that ends a wait: under a condition the wave's lanes go on, and what is expected is left. -/
def WaitEnds (ev : WaveRef → Instr) (cond : State → WaveRef → Task → Share → Wave → Nat → Prop)
    (e : State → WaveRef → Task → Share → Wave → Expect) : Prop :=
  ∀ s r k h w mask, s.task? r.tid = some k → s.share? r.tid r.core = some h → s.wave? r = some w → s.taskRuns k = true →
    s.fatalIn k = false → cond s r k h w mask → ∃ t, exec (ev r) s = .next t ∧ LeavesWith s t r (e s r k h w) fun w' => Returned w w' mask

/-- A copy command as its issue makes it: the next tag, recorded where an executing thread records (R235). -/
def Cmd.copy (x : Cmd) (kind : CopyKind) (ch : Fin 16) (va : Addr) (cnt : Nat) (dests : List Nat) (desc : List Byte) (off : Word) :
    CopyCmd :=
  { tid := x.r.tid, core := x.r.core, wix := x.r.wix, tag := x.w.lastTag + 1, kind, ch := ch.val, va, cnt, desc, off
    dests := dests.map fun c => (c, 0), recorded := (x.w.acting x.take).any fun p => p.2.recording
    since := x.s.drone }

/-- A copy command joins the queue of context k.wix mod 8. -/
def Cmd.queued (x : Cmd) (c : CopyCmd) : Expect :=
  { x.same with wave := { x.w with lastTag := x.w.lastTag + 1 }
                core := x.coreWith fun k => { k with copies := k.copies.modify (x.r.wix % 8) fun q => q ++ [c] } }

/-- The captured descriptor of a slot. -/
def Cmd.desc (x : Cmd) (slot : Bool) : Option (List Byte) := nth x.w.tdesc (if slot then 1 else 0) none

/-! ### The matrix engine (R222–R231) -/

def Cmd.matrix (x : Cmd) : Matrix := (x.s.core x.xy.1 x.xy.2).matrix

/-- A field of the matrix configuration of the wave. -/
def Cmd.mc (x : Cmd) (n lo len : Nat) : Nat := mcField x.w n lo len

/-- The command joins the queue of the core's engine. -/
def Cmd.engineQueues (x : Cmd) (c : MCmd) : Expect :=
  { x.same with core := x.coreWith fun k => { k with matrix := { k.matrix with queue := k.matrix.queue ++ [c] } } }

/-- The records of row n of an MMUL's command and what the engine keeps of the row (R229). -/
def Matrix.rowOf (tile : Tile) (h : Share) (p a b : Chan) (ch : Nat) (ca cb : MClass) (arr aAt sAt : Nat) (fmt : Word) (bank : Bool)
    (n : Nat) : List Byte × RowMeta :=
  (rowRecords ca tile (windows ca (NFmt.of fmt) (elements ca (h.stream a (aAt + n * rowBytes ca arr) (rowBytes ca arr)))),
   { ch, pos := p.p + p.part, ca, cb, arr, aScale := halfWords (h.stream b (sAt + n * 2 * 2 ^ arr) (2 * 2 ^ arr)), bank, sca := p.cons == .lanes
     bScale := tile.cols.map fun col => col.map fun w => (w.2.2.2, w.2.2.1) })

/-! ### Tasks and traces -/

/-- As a state is, around one wave. -/
def Expect.asIn (u : State) (k : Task) (h : Share) (w : Wave) : Expect := { rest := u, task := k, share := h, wave := w, core := u.core }

/-! ### Reed programs and primitives (R245–R247) -/

/-- Queue q has its turn at an operation of packet p, which neither stalls nor is inside a primitive and has operations
left. -/
def AtReed (s : State) (q : Nat) (p : Packet) : Prop :=
  s.turnQueue = some q ∧ (s.queueD q).packet = some p ∧ s.stall p = .no ∧ p.prim = .none ∧ p.ops < 512

/-- Nothing but queue q's packet differs. -/
def PacketOnly (s t : State) (q : Nat) : Prop :=
  t = { s with queues := t.queues } ∧ (∀ n, n ≠ q → t.queueD n = s.queueD n) ∧
  { t.queueD q with packet := none } = { s.queueD q with packet := none }

/-- The packet after one operation that goes on at a place of the program. -/
def Packet.after (p : Packet) (f : Packet) : Packet := { f with ops := p.ops + 1, fault := none }

/-- In its turn, the operation changes its packet alone, as said. -/
def ReedRuns (i : Instr) (eff : Packet → Packet → Prop) : Prop := ∀ s q p, AtReed s q p →
  ∃ t p', exec i s = .next t ∧ PacketOnly s t q ∧ (t.queueD q).packet = some p' ∧ eff p p'

/-- It writes one register, x0 apart, and goes on. -/
def Packet.Put (p p' : Packet) (d : Fin 16) (v : Addr) : Prop :=
  (∀ n, p'.rx n = if n = d ∧ n.val ≠ 0 then v else p.rx n) ∧ { p' with x := [] } = { p.after p.next with x := [] }

def ReedGives (i : Instr) (d : Fin 16) (val : Packet → Addr) : Prop := ReedRuns i fun p p' => p.Put p' d (val p)

/-- Queue q's packet has called primitive n and does not stall. -/
def Called (s : State) (q n : Nat) (p : Packet) : Prop :=
  (s.queueD q).packet = some p ∧ s.stall p = .no ∧ p.prim = .called n

/-- The primitive has returned x7 and the program goes on; everything outside the packet is as in u, its place in an engine
aside. -/
def Returns (u t : State) (q : Nat) (p : Packet) (x7 : Nat) : Prop :=
  ∃ p', PacketOnly u t q ∧ (t.queueD q).packet = some p' ∧
    (∀ n, p'.rx n = if n.val = 7 then BitVec.ofNat 72 x7 else p.rx n) ∧
    { p' with x := [], engine := false } = { p.next with x := [], prim := .none, fault := none, engine := false }

/-- The packet stays inside its primitive and holds no engine; everything outside it is as in u. -/
def StaysIn (u t : State) (q : Nat) (p : Packet) (prim : Prim) : Prop :=
  PacketOnly u t q ∧ (t.queueD q).packet = some { p with prim, fault := none, engine := false }

/-! ### Floating point against exact values (R90, R93) -/

/-- The value of a finite number. -/
def FV.toRat : FV → ℚ
  | .fin s m e => (if s then -1 else 1) * (m : ℚ) * (2 : ℚ) ^ e
  | .inf _ => 0
  | .nan _ => 0

/-- The value of a number in the order of the numbers, its infinities the least and the greatest. -/
def FV.value : FV → WithBot (WithTop ℚ)
  | .fin s m e => (((FV.fin s m e).toRat : WithTop ℚ) : WithBot (WithTop ℚ))
  | .inf s => if s then ⊥ else ((⊤ : WithTop ℚ) : WithBot (WithTop ℚ))
  | .nan _ => ⊥

/-- r is x rounded to nearest even in the format, with its flags: OF and NX where it is infinite, else NX where it differs
from x, and UF where it differs and x rounded without a bound on the exponent lies below the normal numbers. -/
def Fmt.Nearest (f : Fmt) (x : ℝ) (r : Nat × Flags) : Prop :=
  match f.unpack r.1 with
  | .nan _ => False
  | .inf s => s = decide (x < 0) ∧ ((2 : ℝ) ^ (f.mb + 2) - 1) * (2 : ℝ) ^ ((f.bias : Int) - f.mb - 1) ≤ |x| ∧
    r.2 = fOF ||| fNX
  | .fin s m e =>
    (∀ y s' m' e', f.unpack y = .fin s' m' e' →
      |((FV.fin s m e).toRat : ℝ) - x| ≤ |((FV.fin s' m' e').toRat : ℝ) - x| ∧
      (|((FV.fin s m e).toRat : ℝ) - x| = |((FV.fin s' m' e').toRat : ℝ) - x| →
        (FV.fin s m e).toRat = (FV.fin s' m' e').toRat ∨ r.1 % 2 = 0)) ∧
    |x| < ((2 : ℝ) ^ (f.mb + 2) - 1) * (2 : ℝ) ^ ((f.bias : Int) - f.mb - 1) ∧
    r.2 &&& (fNV ||| fDZ ||| fOF) = 0 ∧ (r.2 &&& fNX = 0 ↔ ((FV.fin s m e).toRat : ℝ) = x) ∧
    (r.2 &&& fUF ≠ 0 ↔ ((FV.fin s m e).toRat : ℝ) ≠ x ∧ |x| < (1 - (2 : ℝ) ^ (-((f.mb : Int) + 2))) * (2 : ℝ) ^ f.emin)

/-- r is the value of the format next to x, none between them, on the side of +∞ (up) or of −∞; NX says that it differs
(R95, R97). -/
def Fmt.Directed (f : Fmt) (up : Bool) (x : ℚ) (r : Nat × Flags) : Prop :=
  let le := fun (u v : WithBot (WithTop ℚ)) => if up then u ≤ v else v ≤ u
  let a : WithBot (WithTop ℚ) := ((x : WithTop ℚ) : WithBot (WithTop ℚ))
  (f.unpack r.1).isNaN = false ∧ le a (f.unpack r.1).value ∧
  (∀ y, (f.unpack y).isNaN = false → le a (f.unpack y).value → le (f.unpack r.1).value (f.unpack y).value) ∧
  (r.2 &&& fNX = 0 ↔ (f.unpack r.1).value = a)

/-- The result of a rounding of x ≠ 0 in each mode but the stochastic one (R90, R95). -/
def Fmt.Rounds (f : Fmt) (x : ℚ) (r : Round → Nat × Flags) : Prop :=
  f.Nearest (x : ℝ) (r .rne) ∧ f.Directed true x (r .ru) ∧ f.Directed false x (r .rd) ∧ f.Directed (decide (x < 0)) x (r .rz)

/-- n is x rounded to an integer (R95–R97, R112); h is the draw of stochastic rounding. -/
def Round.To (md : Round) (x : ℚ) (n : ℤ) : Prop :=
  match md with
  | .rne => |(n : ℚ) - x| ≤ 1 / 2 ∧ (|(n : ℚ) - x| = 1 / 2 → Even n)
  | .rz => n = if x < 0 then ⌈x⌉ else ⌊x⌋
  | .rd => n = ⌊x⌋
  | .ru => n = ⌈x⌉
  | .rs h => n = (if x < 0 then -1 else 1) * (⌊|x|⌋ + if (h : ℚ) < (|x| - (⌊|x|⌋ : ℚ)) * 2 ^ 24 then 1 else 0)

/-- r is exactly v, without a flag. -/
def Fmt.Exact (f : Fmt) (v : ℚ) (r : Nat × Flags) : Prop :=
  r.2 = 0 ∧ ∃ s m e, f.unpack r.1 = .fin s m e ∧ (FV.fin s m e).toRat = v

/-- A value of at most 12 significant bits in binary32's range (R110). -/
def Twelve (v : ℝ) : Prop := ∃ m e : ℤ, |m| < 4096 ∧ -149 ≤ e ∧ v = m * (2 : ℝ) ^ e ∧ |v| < 2 ^ 128

/-- r is a value of at most 12 significant bits that none is closer to x than, without a flag (R110). -/
def Near12 (x : ℝ) (r : Nat × Flags) : Prop :=
  r.2 = 0 ∧ ∃ s m e, Fmt.f32.unpack r.1 = .fin s m e ∧ Twelve ((FV.fin s m e).toRat : ℝ) ∧
    ∀ u, Twelve u → |((FV.fin s m e).toRat : ℝ) - x| ≤ |u - x|

/-- The number that an element's code stands for, none for NaN and the infinities (R102). -/
def NFmt.number (f : NFmt) (x : Nat) : Option ℚ :=
  let m := x % 2 ^ f.mb
  let e := x / 2 ^ f.mb % 2 ^ f.eb
  let sign : ℚ := if f.sgn = 1 ∧ (x / 2 ^ (f.mb + f.eb)).testBit 0 then -1 else 1
  if (f.special = 1 ∧ x % 2 ^ (f.mb + f.eb) = 2 ^ (f.mb + f.eb) - 1) ∨ (f.special = 2 ∧ e = 2 ^ f.eb - 1) then none
  else if f.eb = 0 then some (sign * m * (2 : ℚ) ^ (-f.bias))
  else if e = 0 then some (sign * (m / 2 ^ f.mb) * (2 : ℚ) ^ (1 - f.bias))
  else some (sign * (1 + m / 2 ^ f.mb) * (2 : ℚ) ^ ((e : Int) - f.bias))

/-- A code is the format's largest number with a sign. -/
def NFmt.Largest (f : NFmt) (s : Bool) (c : Nat) : Prop :=
  ∃ v, f.number c = some (if s then -v else v) ∧ 0 ≤ v ∧ ∀ d u, f.number d = some u → |u| ≤ v

/-- The exponent of an element (R102). -/
def NFmt.exponent (f : NFmt) (x : Nat) : Int :=
  if f.eb = 0 then (f.mb : Int) - 1 - f.bias else max 1 ((x / 2 ^ f.mb % 2 ^ f.eb : Nat) : Int) - f.bias

/-- The scale that a byte of E5M3 gives (R108). -/
def scaleOf (x : Nat) : ℚ :=
  if x / 8 % 32 = 0 then (x % 8 : ℚ) / 8 * (2 : ℚ) ^ (-14 : ℤ) else (1 + (x % 8 : ℚ) / 8) * (2 : ℚ) ^ (((x / 8 % 32 : Nat) : ℤ) - 15)

end Sys2Proof.Machine
end

