-- ==== Sys2Proof/Certificates/Slice0/Obligations.lean ====
section
/-! DEFINITION. The statements about the K3, from the numbered rules of the spec. -/

open Sys2Proof Sys2Proof.Machine Host

/-! ### Results of lane arithmetic -/

/-- R316, R349, R391, and R99, R311, R368, R378, R381, R396 for the instructions of format T: integer results modulo 2^32,
no flag, no fault; division by 0 and the overflowing quotient; shifts by the low five bits of b; logic, bit fields and
SEL; the words that R316, R349 and R391 give. -/
def Obligations.IntegerResults : Prop :=
  (∀ f : TOp,
    let a := fun (w : Wave) (ln : Nat) (th : Thread) => src32 w ln th f.a
    let b := fun (w : Wave) (ln : Nat) (th : Thread) => src32 w ln th f.b
    let d := fun (w : Wave) (ln : Nat) (th : Thread) => src32 w ln th f.d
    let len := fun (w : Wave) (ln : Nat) (th : Thread) => min ((b w ln th).extractLsb' 8 8).toNat 32
    let pos := fun (w : Wave) (ln : Nat) (th : Thread) => ((b w ln th).extractLsb' 0 8).toNat
    let ones := fun (w : Wave) (ln : Nat) (th : Thread) => ((1 : BitVec 33) <<< len w ln th - 1).setWidth 32
    Gives32 (.iadd f) f.d f.w (fun w ln th => a w ln th + b w ln th) ∧
    Gives32 (.isub f) f.d f.w (fun w ln th => a w ln th - b w ln th) ∧
    Gives32 (.imul f) f.d f.w (fun w ln th => a w ln th * b w ln th) ∧
    Gives32 (.imad f) f.d f.w (fun w ln th => a w ln th * b w ln th + d w ln th) ∧
    Gives32 (.imulh f) f.d f.w (fun w ln th => ((a w ln th).signExtend 64 * (b w ln th).signExtend 64).extractLsb' 32 32) ∧
    Gives32 (.imulhu f) f.d f.w (fun w ln th => ((a w ln th).setWidth 64 * (b w ln th).setWidth 64).extractLsb' 32 32) ∧
    Gives32 (.idiv f) f.d f.w (fun w ln th => if b w ln th = 0 then 0xFFFFFFFF else (a w ln th).sdiv (b w ln th)) ∧
    Gives32 (.idivu f) f.d f.w (fun w ln th => if b w ln th = 0 then 0xFFFFFFFF else a w ln th / b w ln th) ∧
    Gives32 (.irem f) f.d f.w (fun w ln th => if b w ln th = 0 then a w ln th else (a w ln th).srem (b w ln th)) ∧
    Gives32 (.iremu f) f.d f.w (fun w ln th => if b w ln th = 0 then a w ln th else a w ln th % b w ln th) ∧
    Gives32 (.imin f) f.d f.w (fun w ln th => if (a w ln th).toInt ≤ (b w ln th).toInt then a w ln th else b w ln th) ∧
    Gives32 (.imax f) f.d f.w (fun w ln th => if (a w ln th).toInt ≤ (b w ln th).toInt then b w ln th else a w ln th) ∧
    Gives32 (.umin f) f.d f.w (fun w ln th => if a w ln th ≤ b w ln th then a w ln th else b w ln th) ∧
    Gives32 (.umax f) f.d f.w (fun w ln th => if a w ln th ≤ b w ln th then b w ln th else a w ln th) ∧
    Gives32 (.and f) f.d f.w (fun w ln th => a w ln th &&& b w ln th) ∧
    Gives32 (.or f) f.d f.w (fun w ln th => a w ln th ||| b w ln th) ∧
    Gives32 (.xor f) f.d f.w (fun w ln th => a w ln th ^^^ b w ln th) ∧
    Gives32 (.andn f) f.d f.w (fun w ln th => a w ln th &&& ~~~(b w ln th)) ∧
    Gives32 (.shl f) f.d f.w (fun w ln th => a w ln th <<< (b w ln th &&& 31)) ∧
    Gives32 (.shru f) f.d f.w (fun w ln th => a w ln th >>> (b w ln th &&& 31)) ∧
    Gives32 (.shrs f) f.d f.w (fun w ln th => (a w ln th).sshiftRight' (b w ln th &&& 31)) ∧
    Gives32 (.bfx f) f.d f.w (fun w ln th => a w ln th >>> pos w ln th &&& ones w ln th) ∧
    Gives32 (.bfi f) f.d f.w (fun w ln th =>
      let mask := ones w ln th <<< pos w ln th
      d w ln th &&& ~~~mask ||| a w ln th <<< pos w ln th &&& mask) ∧
    Gives32 (.sel f) f.d f.w (fun w ln th => if th.rp 0 then a w ln th else b w ln th)) ∧
  (let t : TOp := ⟨.v 8, .v 6, .v 4, false, false, false⟩
   Decodes 32 [(0x10182005, .iadd t), (0x10182009, .isub t), (0x1018200D, .imul t), (0x10182011, .imulh t),
     (0x10182015, .imulhu t), (0x10182019, .imad t), (0x1018201D, .idiv t), (0x10182021, .idivu t),
     (0x10182025, .irem t), (0x10182029, .iremu t), (0x1018202D, .imin t), (0x10182031, .imax t),
     (0x0A101835, .umin ⟨.v 5, .v 4, .v 3, false, false, false⟩), (0x0A101839, .umax ⟨.v 5, .v 4, .v 3, false, false, false⟩),
     (0x080C1059, .bfx ⟨.v 4, .v 3, .v 2, false, false, false⟩), (0x080C105D, .bfi ⟨.v 4, .v 3, .v 2, false, false, false⟩)]) ∧
  Decodes 16 [(0x1882, .iaddCompact ⟨.v 6, 4⟩), (0x1884, .isubCompact ⟨.v 6, 4⟩), (0x1886, .imulCompact ⟨.v 6, 4⟩)]

/-- R113, R315, R348, R350, R365, R366, R375 and the immediate forms of R311, R368, R381, R396; no flag. -/
def Obligations.ImmediateResults : Prop :=
  (∀ f : IOp,
    let a := fun (w : Wave) (ln : Nat) (th : Thread) => src32 w ln th f.a
    Gives32 (.iaddi f) f.d f.w (fun w ln th => a w ln th + f.imm.signExtend 32) ∧
    Gives32 (.andi f) f.d f.w (fun w ln th => a w ln th &&& f.imm.setWidth 32) ∧
    Gives32 (.ori f) f.d f.w (fun w ln th => a w ln th ||| f.imm.setWidth 32) ∧
    Gives32 (.xori f) f.d f.w (fun w ln th => a w ln th ^^^ f.imm.setWidth 32) ∧
    Gives32 (.shli f) f.d f.w (fun w ln th => a w ln th <<< (f.imm &&& 31)) ∧
    Gives32 (.shrui f) f.d f.w (fun w ln th => a w ln th >>> (f.imm &&& 31)) ∧
    Gives32 (.shrsi f) f.d f.w (fun w ln th => (a w ln th).sshiftRight' (f.imm &&& 31))) ∧
  (∀ f : LOp,
    Gives32 (.movi f) f.d false (fun _ _ _ => f.imm.signExtend 32) ∧
    Gives32 (.movhi f) f.d false (fun w ln th => f.imm ++ (src32 w ln th f.d).setWidth 16)) ∧
  (∀ f : MovOp, Gives32 (.mov f) f.d f.w (fun w ln th => src32 w ln th f.a)) ∧
  (∀ f : RngOp, Gives32 (.rng f) f.d f.w
    (fun w ln th => rngHash (src32 w ln th f.a) (w.rs (2 * f.key)) (w.rs (2 * f.key + 1)))) ∧
  (∀ f : IFnOp FsgnFn, Gives32 (.fsgn f) f.d f.w (fun w ln th => match f.fn with
    | .neg => src32 w ln th f.a ^^^ 0x80000000
    | .abs => src32 w ln th f.a &&& 0x7FFFFFFF
    | .nabs => src32 w ln th f.a ||| 0x80000000)) ∧
  (∀ f : IFnOp BcntFn, Gives32 (.bcnt f) f.d f.w (fun w ln th => match f.fn with
    | .pop => BitVec.ofNat 32 (((List.range 32).filter fun k => (src32 w ln th f.a).getLsbD k).length)
    | .clz => (src32 w ln th f.a).clz
    | .ctz => (src32 w ln th f.a).ctz
    | .rev => (src32 w ln th f.a).reverse)) ∧
  (∀ ctr lo hi : Word,
    let x := (ctr ^^^ lo).toNat * 0x2C9277B5 % 2 ^ 32
    let y := ((x ^^^ x / 2 ^ 15) ^^^ hi.toNat) * 0xAC564B05 % 2 ^ 32
    (rngHash ctr lo hi).toNat = y ^^^ y / 2 ^ 16) ∧
  Rejects 0x1A5 0x1FD (fun w => 3 ≤ w.toNat / 2 ^ 24) ∧ Rejects 0x1B9 0x1FD (fun w => 4 ≤ w.toNat / 2 ^ 24) ∧
  Decodes 32 [(0xFF020469, .iaddi ⟨0xFF, .v 1, .v 1, false, false⟩), (0x01040869, .iaddi ⟨1, .v 2, .v 2, false, false⟩),
    (0x01080DA5, .fsgn ⟨.abs, .v 4, .v 3, false, false⟩), (0x02244DB9, .bcnt ⟨.ctz, .v 18, .v 19, false, false⟩)]

/-- R308, R309, R310, R312: address registers move modulo 2^72; APUT writes one part, AGET reads one; only AGET enters a
latch. -/
def Obligations.AddressResults : Prop :=
  (∀ f : AaddOp, GivesA (.aadd f) f.d (fun w ln th => th.ra f.a + (src32 w ln th f.b).signExtend 72)) ∧
  (∀ f : AaddiOp, GivesA (.aaddi f) f.d (fun _ _ th => th.ra f.a + f.imm.signExtend 72)) ∧
  (∀ f : AputOp, GivesA (.aput f) f.d (fun w ln th => match f.part with
    | .lo => (th.ra f.d).extractLsb' 32 40 ++ src32 w ln th f.a
    | .mid => (th.ra f.d).extractLsb' 64 8 ++ src32 w ln th f.a ++ (th.ra f.d).extractLsb' 0 32
    | .hi => (src32 w ln th f.a).extractLsb' 0 8 ++ (th.ra f.d).extractLsb' 0 64)) ∧
  (∀ f : AgetOp, Gives32 (.aget f) f.d f.w (fun _ _ th => match f.part with
    | .lo => (th.ra f.a).extractLsb' 0 32
    | .mid => (th.ra f.a).extractLsb' 32 32
    | .hi => ((th.ra f.a).extractLsb' 64 8).setWidth 32)) ∧
  Rejects 0x8D 0x01E3C7FD (fun _ => false) ∧ Rejects 0x91 0x000081FD (fun _ => false) ∧
  Rejects 0x95 0x0001E3FD (fun w => 3 ≤ w.toNat / 2 ^ 24) ∧ Rejects 0x99 0x00F001FD (fun w => 3 ≤ w.toNat / 2 ^ 24) ∧
  Decodes 32 [(0x0600108D, .aadd ⟨.v 3, 0, 2, false⟩), (0x00401291, .aaddi ⟨64, 1, 1, false⟩),
    (0x02000499, .aget ⟨.hi, 0, .v 1, false, false⟩), (0x02020095, .aput ⟨.hi, .v 1, 0, false⟩)]

/-- R351, R379: ICMP, ICMPI and SETP write one predicate, enter no latch and raise no flag. -/
def Obligations.PredicateResults : Prop :=
  (∀ f : CmpOp ICond, GivesP (.icmp f) f.p (fun w ln th => icmp32 f.c (src32 w ln th f.a) (src32 w ln th f.b))) ∧
  (∀ f : CmpIOp, GivesP (.icmpi f) f.p (fun w ln th => icmp32 f.c (src32 w ln th f.a) (f.imm.signExtend 32))) ∧
  (∀ f : SetpOp, GivesP (.setp f) f.d (fun _ _ th => match f.fn with
    | .and => th.rp f.x && th.rp f.y
    | .or => th.rp f.x || th.rp f.y
    | .xor => th.rp f.x ^^ th.rp f.y
    | .andn => th.rp f.x && !th.rp f.y
    | .not => !th.rp f.x
    | .one => true
    | .zero => false)) ∧
  (∀ a b, icmp32 .eq a b = decide (a = b) ∧ icmp32 .ne a b = decide (a ≠ b) ∧
    icmp32 .lt a b = decide (a.toInt < b.toInt) ∧ icmp32 .le a b = decide (a.toInt ≤ b.toInt) ∧
    icmp32 .gt a b = decide (b.toInt < a.toInt) ∧ icmp32 .ge a b = decide (b.toInt ≤ a.toInt) ∧
    icmp32 .lo a b = decide (a.toNat < b.toNat) ∧ icmp32 .ls a b = decide (a.toNat ≤ b.toNat) ∧
    icmp32 .hi a b = decide (b.toNat < a.toNat) ∧ icmp32 .hs a b = decide (b.toNat ≤ a.toNat)) ∧
  Rejects 0x65 0x000005FD (fun w => 10 ≤ w.toNat / 2 ^ 14 % 16) ∧ Rejects 0x1BD 0x000003FD (fun w => 10 ≤ w.toNat / 2 ^ 13 % 16) ∧
  Rejects 0x1C1 0xC0F1E3FD (fun w =>
    let op := w.toNat / 2 ^ 27 % 8
    let y := w.toNat / 2 ^ 24 % 8
    let x := w.toNat / 2 ^ 17 % 8
    op = 7 ∨ (op = 4 ∧ y ≠ 0) ∨ ((op = 5 ∨ op = 6) ∧ (x ≠ 0 ∨ y ≠ 0))) ∧
  Decodes 32 [(0x0C108865, .icmp ⟨.v 6, .v 4, .lt, 1, false, false⟩), (0xFF0AADBD, .icmpi ⟨0xFF, .v 5, .ge, 3, false⟩),
    (0x14EC45BD, .icmpi ⟨20, .tix, .lt, 1, false⟩), (0x030209C1, .setp ⟨.and, 3, 1, 2, false⟩),
    (0x0A0205C1, .setp ⟨.or, 2, 1, 1, false⟩), (0x200201C1, .setp ⟨.not, 0, 1, 0, false⟩), (0x300005C1, .setp ⟨.zero, 0, 0, 1, false⟩)]

/-- R92, R337: FCMP, DCMP, FMIN, FMAX, DMIN and DMAX: conditions, results, and when they raise NV. -/
def Obligations.ComparesAndMinima : Prop :=
  (∀ f : CmpOp FCond, GivesP (.fcmp f) f.p (fun w ln th => (Fmt.f32.cmp f.c (src w ln th 32 f.a) (src w ln th 32 f.b)).1)
    (fun w ln th => (Fmt.f32.cmp f.c (src w ln th 32 f.a) (src w ln th 32 f.b)).2)) ∧
  (∀ f : CmpOp FCond, GivesP (.dcmp f) f.p (fun w ln th => (Fmt.f64.cmp f.c (src w ln th 64 f.a) (src w ln th 64 f.b)).1)
    (fun w ln th => (Fmt.f64.cmp f.c (src w ln th 64 f.a) (src w ln th 64 f.b)).2)) ∧
  (∀ f : TOp,
    let lo := fun (g : Bool) (w : Wave) (ln : Nat) (th : Thread) => Fmt.f32.minmax g (src w ln th 32 f.a) (src w ln th 32 f.b)
    let ld := fun (g : Bool) (w : Wave) (ln : Nat) (th : Thread) => Fmt.f64.minmax g (src w ln th 64 f.a) (src w ln th 64 f.b)
    let of32 := fun (i : Instr) (g : Bool) =>
      Gives32 i f.d f.w (fun w ln th => BitVec.ofNat 32 (lo g w ln th).1) (fun w ln th => (lo g w ln th).2)
    let of64 := fun (i : Instr) (g : Bool) =>
      Gives64 i f.d f.w (fun w ln th => BitVec.ofNat 64 (ld g w ln th).1) (fun w ln th => (ld g w ln th).2)
    of32 (.fmin f) false ∧ of32 (.fmax f) true ∧ of64 (.dmin f) false ∧ of64 (.dmax f) true) ∧
  ∀ f ∈ [Fmt.f32, Fmt.f64], ∀ x y,
  let nan := (f.unpack x).isNaN || (f.unpack y).isNaN
  let sig := (f.unpack x).isSig || (f.unpack y).isSig
  (∀ c, (f.cmp c x y).2 = if (match c with | .lt => nan | .le => nan | .gt => nan | .ge => nan | .eq => sig | .ne => sig | .uo => sig | .or => sig)
    then fNV else 0) ∧
  (f.cmp .uo x y).1 = nan ∧ (f.cmp .or x y).1 = !nan ∧ (f.cmp .ne x y).1 = !(f.cmp .eq x y).1 ∧
  (nan = true → (f.cmp .eq x y).1 = false ∧ (f.cmp .lt x y).1 = false ∧ (f.cmp .le x y).1 = false ∧ (f.cmp .gt x y).1 = false ∧
    (f.cmp .ge x y).1 = false) ∧
  (nan = false → (f.cmp .le x y).1 = !(f.cmp .gt x y).1 ∧ (f.cmp .ge x y).1 = !(f.cmp .lt x y).1 ∧
    (f.cmp .le x y).1 = ((f.cmp .lt x y).1 || (f.cmp .eq x y).1) ∧ (f.cmp .gt x y).1 = (f.cmp .lt y x).1) ∧
  (f.cmp .eq 0 (f.signBit true)).1 = true ∧ (f.minmax false 0 (f.signBit true)).1 = f.signBit true ∧
  (f.minmax true 0 (f.signBit true)).1 = 0 ∧ (f.minmax false (f.signBit true) 0).1 = f.signBit true ∧ (f.minmax true (f.signBit true) 0).1 = 0 ∧
  (nan = false → ((f.cmp .lt x y).1 = true ↔ (f.unpack x).value < (f.unpack y).value) ∧
    ((f.cmp .eq x y).1 = true ↔ (f.unpack x).value = (f.unpack y).value)) ∧
  (∀ g, let r := f.minmax g x y
    r.2 = (if sig then fNV else 0) ∧ ((f.unpack x).isNaN = true → (f.unpack y).isNaN = true → r.1 = f.nan) ∧
    ((f.unpack x).isNaN = true → (f.unpack y).isNaN = false → r.1 = y) ∧
    ((f.unpack x).isNaN = false → (f.unpack y).isNaN = true → r.1 = x) ∧
    (nan = false → r.1 = x ∨ r.1 = y) ∧
    ((f.cmp .lt x y).1 = true → r.1 = if g then y else x) ∧ ((f.cmp .lt y x).1 = true → r.1 = if g then x else y))

/-- R90, R313, R336, R345: the binary32 instructions of format T, the packed bf16 ones and the binary64 ones, which
write an even pair and enter the latches as one 64-bit value; d is read first, flags are ORed. -/
def Obligations.FloatResults : Prop := ∀ f : TOp,
  let g := fun (i : Instr) (op : Nat → Nat → Nat → Nat × Flags) =>
    Gives32 i f.d f.w (fun w ln th => BitVec.ofNat 32 (op (src w ln th 32 f.a) (src w ln th 32 f.b) (src w ln th 32 f.d)).1)
      (fun w ln th => (op (src w ln th 32 f.a) (src w ln th 32 f.b) (src w ln th 32 f.d)).2)
  g (.fadd f) (fun a b _ => Fmt.f32.add a b) ∧ g (.fsub f) (fun a b _ => Fmt.f32.sub a b) ∧
  g (.fmul f) (fun a b _ => Fmt.f32.mul a b) ∧ g (.fma f) Fmt.f32.fma ∧
  g (.badd2 f) (packed fun a b _ => Fmt.bf16.add a b) ∧ g (.bmul2 f) (packed fun a b _ => Fmt.bf16.mul a b) ∧
  g (.bfma2 f) (packed Fmt.bf16.fma) ∧
  let g64 := fun (i : Instr) (op : Nat → Nat → Nat → Nat × Flags) =>
    Gives64 i f.d f.w (fun w ln th => BitVec.ofNat 64 (op (src w ln th 64 f.a) (src w ln th 64 f.b) (src w ln th 64 f.d)).1)
      (fun w ln th => (op (src w ln th 64 f.a) (src w ln th 64 f.b) (src w ln th 64 f.d)).2)
  g64 (.dadd f) (fun a b _ => Fmt.f64.add a b) ∧ g64 (.dsub f) (fun a b _ => Fmt.f64.sub a b) ∧
  g64 (.dmul f) (fun a b _ => Fmt.f64.mul a b) ∧ g64 (.dfma f) Fmt.f64.fma

/-- R110–R112, R331, R338–R340, R342, R371, R382: the special-function group: b of a division is a v-register named by e5;
no W, so the result always reaches d and the latches. RCPA and RSQA deliver a nearest value of 12 significant bits; for the
other approximate functions and FEX2 and FLG2 the values at the operands that the rules list (TANHA from |a| = 32 on, FEX2
below −160) and at the examples; FRND and DRND deliver the integer of their mode with the sign of the operand. -/
def Obligations.SpecialResults : Prop :=
  (∀ f : SfuOp,
    let g := fun (i : Instr) (op : Nat → Nat × Flags) => Gives32 i f.d false
      (fun w ln th => BitVec.ofNat 32 (op (src w ln th 32 f.a)).1) (fun w ln th => (op (src w ln th 32 f.a)).2)
    let h := fun (i : Instr) (op : Nat → Nat × Flags) => Gives64 i f.d false
      (fun w ln th => BitVec.ofNat 64 (op (src w ln th 64 f.a)).1) (fun w ln th => (op (src w ln th 64 f.a)).2)
    g (.rsqa f) rsqa ∧ g (.rcpa f) rcpa ∧ g (.ex2a f) ex2a ∧ g (.lg2a f) lg2a ∧ g (.sina f) sina ∧ g (.cosa f) cosa ∧
    g (.tanha f) tanha ∧ g (.fsqrt f) Fmt.f32.sqrt ∧ g (.fex2 f) fex2 ∧ g (.flg2 f) flg2 ∧
    h (.dsqrt f) Fmt.f64.sqrt ∧ h (.drsq f) Fmt.f64.rsqrt) ∧
  (∀ f : DivOp,
    Gives32 (.fdiv f) f.d false (fun w ln th => BitVec.ofNat 32 (Fmt.f32.div (src w ln th 32 f.a) (th.rv f.b).toNat).1)
      (fun w ln th => (Fmt.f32.div (src w ln th 32 f.a) (th.rv f.b).toNat).2) ∧
    Gives64 (.ddiv f) f.d false (fun w ln th => BitVec.ofNat 64 (Fmt.f64.div (src w ln th 64 f.a) (th.rvs f.b 2)).1)
      (fun w ln th => (Fmt.f64.div (src w ln th 64 f.a) (th.rvs f.b 2)).2)) ∧
  (∀ f : RndOp,
    Gives32 (.frnd f) f.d false (fun w ln th => BitVec.ofNat 32 (Fmt.f32.rint (rndInt f.mode) (src w ln th 32 f.a)).1)
      (fun w ln th => (Fmt.f32.rint (rndInt f.mode) (src w ln th 32 f.a)).2) ∧
    Gives64 (.drnd f) f.d false (fun w ln th => BitVec.ofNat 64 (Fmt.f64.rint (rndInt f.mode) (src w ln th 64 f.a)).1)
      (fun w ln th => (Fmt.f64.rint (rndInt f.mode) (src w ln th 64 f.a)).2)) ∧
  (let approximate := [rcpa, rsqa, ex2a, lg2a, sina, cosa, tanha]
   let one := fun (s : Bool) => (Fmt.f32.signBit s + 0x3F800000, (0 : Flags))
   let invalid := (Fmt.f32.nan, fNV)
   (∀ g ∈ approximate, ∀ x, (g x).2 &&& (fOF ||| fUF ||| fNX) = 0) ∧
   (∀ g ∈ approximate ++ [fex2, flg2], ∀ x, (Fmt.f32.unpack x).isNaN = true →
     g x = (Fmt.f32.nan, if (Fmt.f32.unpack x).isSig then fNV else 0)) ∧
   (∀ x s, Fmt.f32.unpack x = .inf s →
     rcpa x = (Fmt.f32.signBit s, 0) ∧ rsqa x = (if s then invalid else (0, 0)) ∧ sina x = invalid ∧ cosa x = invalid ∧ tanha x = one s ∧
     (∀ g ∈ [ex2a, fex2], g x = (if s then 0 else Fmt.f32.inf false, 0)) ∧
     ∀ g ∈ [lg2a, flg2], g x = if s then invalid else (Fmt.f32.inf false, 0)) ∧
   (∀ x s m e, Fmt.f32.unpack x = .fin s m e →
     let a : ℚ := (FV.fin s m e).toRat
     (m ≠ 0 → Near12 (1 / (a : ℝ)) (rcpa x)) ∧ (0 < a → Near12 (1 / Real.sqrt a) (rsqa x)) ∧
     (m = 0 → (∀ g ∈ [rcpa, rsqa], g x = (Fmt.f32.inf s, fDZ)) ∧ (∀ g ∈ [ex2a, fex2, cosa], g x = one false) ∧
       (∀ g ∈ [lg2a, flg2], g x = (Fmt.f32.inf true, fDZ)) ∧ ∀ g ∈ [sina, tanha], g x = (Fmt.f32.signBit s, 0)) ∧
     (a < 0 → ∀ g ∈ [rsqa, lg2a, flg2], g x = invalid) ∧
     (∀ n : ℤ, a = n → sina x = (Fmt.f32.signBit s, 0) ∧ cosa x = one (decide (Odd n)) ∧
       (-149 ≤ n → n ≤ 127 → ∀ g ∈ [ex2a, fex2], Fmt.f32.Exact ((2 : ℚ) ^ n) (g x))) ∧
     (∀ n : ℤ, a = n + 1 / 2 → sina x = one (decide (Odd n)) ∧ cosa x = (0, 0)) ∧
     (∀ n : ℤ, a = (2 : ℚ) ^ n → ∀ g ∈ [lg2a, flg2], Fmt.f32.Exact n (g x)) ∧
     (128 ≤ a → ex2a x = (0x7F7FF000, 0) ∧ fex2 x = (Fmt.f32.inf false, fOF ||| fNX)) ∧ (a ≤ -150 → ex2a x = (0, 0)) ∧
     (a ≤ -160 → fex2 x = (0, fUF ||| fNX)) ∧ (32 ≤ |a| → tanha x = one s)) ∧
   [ex2a 0x3F000000, lg2a 0x40400000, sina 0x3E800000, cosa 0x3EAAAAAB, tanha 0x3F800000].map (·.1) =
     [0x3FB50000, 0x3FCAE000, 0x3F350000, 0x3F000000, 0x3F42F000]) ∧
  ∀ f ∈ [Fmt.f32, Fmt.f64], ∀ md x,
    let r := f.rint (rndInt md) x
    ((f.unpack x).isNaN = true → r = (f.nan, if (f.unpack x).isSig then fNV else 0)) ∧
    (∀ s, f.unpack x = .inf s → r = (f.inf s, 0)) ∧
    ∀ s m e, f.unpack x = .fin s m e → r.2 = 0 ∧ ∃ (n : ℤ) (m' : Nat) (e' : Int), (rndInt md).To (FV.fin s m e).toRat n ∧
      f.unpack r.1 = .fin s m' e' ∧ (FV.fin s m' e').toRat = n

/-- R31: each compact instruction runs as its 32-bit instruction with d, a = d, b (MOV: a = b) and G = W = S = 0. -/
def Obligations.CompactResults : Prop := ∀ f : COp,
  let d : Opnd := .v ⟨f.d, by omega⟩
  let g := fun (i : Instr) (val : Word → Word → Word) =>
    Gives32 i d false (fun w ln th => val (th.rv f.d) (src32 w ln th f.b))
  let h := fun (i : Instr) (op : Nat → Nat → Nat × Flags) =>
    Gives32 i d false (fun w ln th => BitVec.ofNat 32 (op (th.rv f.d).toNat (src w ln th 32 f.b)).1)
      (fun w ln th => (op (th.rv f.d).toNat (src w ln th 32 f.b)).2)
  g (.movCompact f) (fun _ b => b) ∧ g (.iaddCompact f) (· + ·) ∧ g (.isubCompact f) (· - ·) ∧ g (.imulCompact f) (· * ·) ∧
  g (.andCompact f) (· &&& ·) ∧ g (.orCompact f) (· ||| ·) ∧ g (.xorCompact f) (· ^^^ ·) ∧
  g (.shlCompact f) (fun a b => a <<< (b &&& 31)) ∧ g (.shruCompact f) (fun a b => a >>> (b &&& 31)) ∧
  g (.shrsCompact f) (fun a b => a.sshiftRight' (b &&& 31)) ∧
  h (.faddCompact f) Fmt.f32.add ∧ h (.fsubCompact f) Fmt.f32.sub ∧ h (.fmulCompact f) Fmt.f32.mul ∧
  h (.fminCompact f) (Fmt.f32.minmax false) ∧ h (.fmaxCompact f) (Fmt.f32.minmax true) ∧
  Gives32 (.selCompact f) d false (fun w ln th => if th.rp 0 then th.rv f.d else src32 w ln th f.b)

/-- R95–R98, R101–R103, R333, R334: the conversions and their values; the direction of rounding is the field's, k.rmode's or stochastic; the
narrow formats need a usable k.fmt, the Q8 ones a clear s12 [31:16]. The flags of a NaN under special 10 are left out (log 103),
and NX beside a quantised value (log 104). -/
def Obligations.ConversionResults : Prop :=
  (∀ f : CvtOp,
    let rd := fun (w : Wave) (th : Thread) => cvtRound w th f.r 0
    let g := fun (i : Instr) (width : Nat) (op : Wave → Thread → Nat → Nat × Flags) => Gives32 i f.d false
      (fun w ln th => BitVec.ofNat 32 (op w th (src w ln th width f.a)).1) (fun w ln th => (op w th (src w ln th width f.a)).2)
    let h := fun (i : Instr) (width : Nat) (op : Wave → Thread → Nat → Nat × Flags) => Gives64 i f.d false
      (fun w ln th => BitVec.ofNat 64 (op w th (src w ln th width f.a)).1) (fun w ln th => (op w th (src w ln th width f.a)).2)
    let two := fun (dst : Fmt) (w : Wave) (th : Thread) (x : Nat) =>
      let lo := cvtNarrow .f32 dst (cvtRound w th f.r 0) (x % 2 ^ 32)
      let hi := cvtNarrow .f32 dst (cvtRound w th f.r 1) (x / 2 ^ 32)
      (lo.1 + 65536 * hi.1, lo.2 ||| hi.2)
    g (.cvtF32D f) 64 (fun w th => cvtNarrow .f64 .f32 (rd w th)) ∧
    h (.cvtDF32 f) 32 (fun _ _ => cvtWiden .f32 .f64) ∧
    g (.cvtB16F32 f) 64 (two .bf16) ∧ g (.cvtH16F32 f) 64 (two .f16) ∧
    g (.cvtS32F32 f) 32 (fun w th => Fmt.f32.toInt (rd w th) true 32) ∧
    g (.cvtZ32F32 f) 32 (fun w th => Fmt.f32.toInt (rd w th) false 32) ∧
    g (.cvtF32S32 f) 32 (fun w th x => Fmt.f32.ofInt (rd w th) (BitVec.ofNat 32 x).toInt) ∧
    g (.cvtF32Z32 f) 32 (fun w th x => Fmt.f32.ofInt (rd w th) x) ∧
    h (.cvtS64D f) 64 (fun w th => Fmt.f64.toInt (rd w th) true 64) ∧
    h (.cvtDS64 f) 64 (fun w th x => Fmt.f64.ofInt (rd w th) (BitVec.ofNat 64 x).toInt)) ∧
  (∀ f : CvtSelOp Bool,
    let half := fun (x : Nat) => if f.sel then x / 65536 else x % 65536
    Gives32 (.cvtF32B16 f) f.d false (fun w ln th => BitVec.ofNat 32 (cvtWiden .bf16 .f32 (half (src w ln th 32 f.a))).1)
      (fun w ln th => (cvtWiden .bf16 .f32 (half (src w ln th 32 f.a))).2) ∧
    Gives32 (.cvtF32H16 f) f.d false (fun w ln th => BitVec.ofNat 32 (cvtWiden .f16 .f32 (half (src w ln th 32 f.a))).1)
      (fun w ln th => (cvtWiden .f16 .f32 (half (src w ln th 32 f.a))).2)) ∧
  (∀ f : CvtSelOp (Fin 4), ∀ s r t w pc front, nfmtOk 2 (w.rfmt f.sel) = true →
    (ready s r (.cvtN8F32 f) t w pc front = true → ∃ t', exec (.cvtN8F32 f) s = .next t' ∧
      Ran s t' r w (.cvtN8F32 f) front fun ln th th' =>
        let v := fourBytes (fun j x => (NFmt.of (w.rfmt f.sel)).conv (cvtRound w th f.r j) (Fmt.f32.unpack x)) (src w ln th 128 f.a)
        th.Wrote th' (Instr.cvtN8F32 f).isSwitch (dstRegs f.d false [BitVec.ofNat 32 v.1]) (some ⟨BitVec.ofNat 64 (v.1 % 2 ^ 32), false⟩) v.2) ∧
    (ready s r (.cvtF32N8 f) t w pc front = true → ∃ t', exec (.cvtF32N8 f) s = .next t' ∧
      Ran s t' r w (.cvtF32N8 f) front fun ln th th' =>
        let v := (NFmt.of (w.rfmt f.sel)).toF32 (src w ln th 32 f.a % 256)
        th.Wrote th' (Instr.cvtF32N8 f).isSwitch (dstRegs f.d false [BitVec.ofNat 32 v.1]) (some ⟨BitVec.ofNat 64 (v.1 % 2 ^ 32), false⟩) v.2)) ∧
  (∀ f : CvtOp, ∀ s r t w pc front, (w.rs 12).extractLsb' 16 16 = 0 →
    (ready s r (.cvtQ8F32 f) t w pc front = true → ∃ t', exec (.cvtQ8F32 f) s = .next t' ∧
      Ran s t' r w (.cvtQ8F32 f) front fun ln th th' =>
        let v := fourBytes (fun j x => quantise (cvtRound w th f.r j) (q8Scale w) (q8Zero w) x) (src w ln th 128 f.a)
        th.Wrote th' (Instr.cvtQ8F32 f).isSwitch (dstRegs f.d false [BitVec.ofNat 32 v.1]) (some ⟨BitVec.ofNat 64 (v.1 % 2 ^ 32), false⟩) v.2) ∧
    (ready s r (.cvtF32Q8 f) t w pc front = true → ∃ t', exec (.cvtF32Q8 f) s = .next t' ∧
      Ran s t' r w (.cvtF32Q8 f) front fun ln th th' =>
        th.Wrote th' (Instr.cvtF32Q8 f).isSwitch (dstRegs f.d false ((List.range 4).map fun j =>
          BitVec.ofNat 32 (dequantise (q8Scale w) (q8Zero w) (src w ln th 32 f.a / 2 ^ (8 * j) % 256)))) none 0)) ∧
  (∀ f ∈ [Fmt.f32, Fmt.f64], ∀ (md : Round) (signed : Bool) (n : Nat) (x : Nat), n = 32 ∨ n = 64 →
    let hi : ℤ := if signed then 2 ^ (n - 1) - 1 else 2 ^ n - 1
    let lo : ℤ := if signed then -2 ^ (n - 1) else 0
    let code := fun (i : ℤ) => (i % 2 ^ n).toNat
    ((f.unpack x).isNaN = true → f.toInt md signed n x = (0, fNV)) ∧
    (∀ s, f.unpack x = .inf s → f.toInt md signed n x = (code (if s then lo else hi), fNV)) ∧
    ∀ s m e, f.unpack x = .fin s m e → ∃ i : ℤ, md.To (FV.fin s m e).toRat i ∧ f.toInt md signed n x =
      if hi < i then (code hi, fNV) else if i < lo then (code lo, fNV) else (code i, if (i : ℚ) = (FV.fin s m e).toRat then 0 else fNX)) ∧
  (∀ f ∈ [Fmt.f32, Fmt.f64], ∀ i : ℤ, (i ≠ 0 → f.Rounds i fun md => f.ofInt md i) ∧ ∀ md, f.ofInt md 0 = (0, 0)) ∧
  (∀ p ∈ [(Fmt.f64, Fmt.f32), (Fmt.f32, Fmt.bf16), (Fmt.f32, Fmt.f16)], ∀ x,
    let cv := fun md => cvtNarrow p.1 p.2 md x
    (∀ md, (p.1.unpack x).isNaN = true → cv md = (p.2.nan, if (p.1.unpack x).isSig then fNV else 0)) ∧
    (∀ md s, p.1.unpack x = .inf s → cv md = (p.2.inf s, 0)) ∧
    ∀ s m e, p.1.unpack x = .fin s m e →
      let a := (FV.fin s m e).toRat
      let size := fun (r : Nat × Flags) => |(p.2.unpack r.1).toRat|
      let away := cv (if s then .rd else .ru)
      (m = 0 → ∀ md, cv md = (p.2.signBit s, 0)) ∧ (m ≠ 0 → p.2.Rounds a cv) ∧
      ∀ h, (|a| ≤ |(p.2.unpack (p.2.max false)).toRat| → (cv (.rs h)).1 =
          if (h : ℚ) * (size away - size (cv .rz)) < (|a| - size (cv .rz)) * 2 ^ 24 then away.1 else (cv .rz).1) ∧
        (|(p.2.unpack (p.2.max false)).toRat| < |a| → cv (.rs h) = (p.2.inf s, fOF ||| fNX))) ∧
  (∀ p ∈ [(Fmt.f32, Fmt.f64), (Fmt.bf16, Fmt.f32), (Fmt.f16, Fmt.f32)], ∀ x,
    let r := cvtWiden p.1 p.2 x
    ((p.1.unpack x).isNaN = true → r = (p.2.nan, if (p.1.unpack x).isSig then fNV else 0)) ∧
    (∀ s, p.1.unpack x = .inf s → r = (p.2.inf s, 0)) ∧
    ∀ s m e, p.1.unpack x = .fin s m e → p.2.Exact (FV.fin s m e).toRat r) ∧
  (∀ w : Word, nfmtOk 2 w = true →
    let f := NFmt.of w
    let top := (2 ^ f.eb - 1) * 2 ^ f.mb
    let sign := fun (s : Bool) => if s then 2 ^ (f.eb + f.mb) else 0
    (∀ md sig, (f.special = 0 → f.conv md (.nan sig) = (0, fNV)) ∧
      (f.special = 1 → f.conv md (.nan sig) = (2 ^ (f.eb + f.mb) - 1, if sig then fNV else 0)) ∧
      (f.special = 2 → (f.conv md (.nan sig)).1 = top + 2 ^ (f.mb - 1))) ∧
    (∀ md s, s = false ∨ f.sgn = 1 → (f.special = 0 → f.Largest s (f.conv md (.inf s)).1 ∧ (f.conv md (.inf s)).2 = fNV) ∧
      (f.special = 1 → f.conv md (.inf s) = (2 ^ (f.eb + f.mb) - 1, fNV)) ∧
      (f.special = 2 → f.conv md (.inf s) = (sign s + top, 0))) ∧
    (∀ md m e, m ≠ 0 → f.sgn = 0 → f.conv md (.fin true m e) = (0, fNV)) ∧
    (∀ s m e, m ≠ 0 → s = false ∨ f.sgn = 1 →
      let a := (FV.fin s m e).toRat
      let r := f.conv .rne (.fin s m e)
      (r.2 &&& fOF = 0 → ∃ v, f.number r.1 = some v ∧ (∀ d u, f.number d = some u → |v - a| ≤ |u - a|) ∧ (r.2 &&& fNX = 0 ↔ v = a)) ∧
      (r.2 &&& fOF ≠ 0 → r.2 = fOF ||| fNX ∧ (∀ d u, f.number d = some u → |u| < |a|) ∧
        (f.special = 2 → r.1 = sign s + top) ∧ (f.special ≠ 2 → f.Largest s r.1))) ∧
    ∀ x, (∀ v, f.number x = some v → if |v| < 2 ^ 128 then Fmt.f32.Exact v (f.toF32 x)
        else f.toF32 x = (Fmt.f32.inf (decide (v < 0)), fOF ||| fNX)) ∧
      (f.number x = none → (f.toF32 x).2 = 0 ∧ if f.special = 2 ∧ x % 2 ^ f.mb = 0 then ∃ s, (f.toF32 x).1 = Fmt.f32.inf s
        else (f.toF32 x).1 = Fmt.f32.nan)) ∧
  ∀ (scale : Nat) (z : ℤ), scale < 256 → -128 ≤ z → z ≤ 127 →
    (∀ md x s m e, Fmt.f32.unpack x = .fin s m e → scaleOf scale ≠ 0 → ∃ i : ℤ, md.To ((FV.fin s m e).toRat / scaleOf scale) i ∧
      let r := quantise md scale z x
      r.1 = (min 127 (max (-128) (i + z)) % 256).toNat ∧ (r.2 &&& fNV ≠ 0 ↔ i + z < -128 ∨ 127 < i + z)) ∧
    (∀ md x s, Fmt.f32.unpack x = .inf s → scaleOf scale ≠ 0 → quantise md scale z x = (if s then 128 else 127, fNV)) ∧
    (∀ md x, (Fmt.f32.unpack x).isNaN = true → quantise md scale z x = ((z % 256).toNat, fNV)) ∧
    (∀ md x, (Fmt.f32.unpack x).isNaN = false → scaleOf scale = 0 → quantise md scale z x = ((z % 256).toNat, fDZ)) ∧
    ∀ b, b < 256 → Fmt.f32.Exact ((((BitVec.ofNat 8 b).toInt - z : ℤ) : ℚ) * scaleOf scale) (dequantise scale z b, 0)

/-! ### Floating point against exact values -/

/-- R90, R93: rounding to nearest even of a nonzero exact value: no finite value of the format is closer, a tie goes to
the even code, and only from half a unit beyond the largest finite value on is the result infinite, with OF and NX. NX
says that the result differs from the exact value, UF that it differs and is tiny after rounding. -/
def Obligations.RoundsToNearestEven : Prop := ∀ f ∈ [Fmt.f64, Fmt.f32, Fmt.f16, Fmt.bf16], ∀ s m e, m ≠ 0 →
  f.Nearest ((FV.fin s m e).toRat : ℝ) (f.round .rne s m e)

/-- R90, R93, R111, R336: on finite operands the sum, difference, product, fused product and sum, quotient and square root
are computed exactly and rounded once to nearest even, wherever the exact result is not 0; an exact zero is signed as R336 says. -/
def Obligations.ArithmeticRoundsOnce : Prop := ∀ f ∈ [Fmt.f64, Fmt.f32, Fmt.bf16], ∀ x y z s1 m1 e1 s2 m2 e2 s3 m3 e3,
  f.unpack x = .fin s1 m1 e1 → f.unpack y = .fin s2 m2 e2 → f.unpack z = .fin s3 m3 e3 →
  let a : ℝ := (f.unpack x).toRat
  let b : ℝ := (f.unpack y).toRat
  let c : ℝ := (f.unpack z).toRat
  (a + b ≠ 0 → f.Nearest (a + b) (f.add x y)) ∧ (a - b ≠ 0 → f.Nearest (a - b) (f.sub x y)) ∧
  (a * b ≠ 0 → f.Nearest (a * b) (f.mul x y)) ∧ (a * b + c ≠ 0 → f.Nearest (a * b + c) (f.fma x y z)) ∧
  (a * b ≠ 0 → f.Nearest (a / b) (f.div x y)) ∧ (0 < a → f.Nearest (Real.sqrt a) (f.sqrt x)) ∧
  (a + b = 0 → f.add x y = (f.signBit (s1 && s2), 0)) ∧ (a - b = 0 → f.sub x y = (f.signBit (s1 && !s2), 0))

/-- R90, R91, R93, R111, R339: every NaN that an operation, a special function or a conversion delivers is the canonical NaN
of its format. An invalid operation raises NV: ∞ − ∞, 0 × ∞ whatever is added to it, 0 / 0, ∞ / ∞, the root of a negative
number, a signalling NaN; a finite number divided by 0, and 1/√0, raise DZ; a quiet NaN raises nothing. -/
def Obligations.NaNsAreCanonical : Prop :=
  (∀ f ∈ [Fmt.f64, Fmt.f32, Fmt.bf16], ∀ x y z,
    ∀ r ∈ [f.add x y, f.sub x y, f.mul x y, f.fma x y z, f.div x y, f.minmax false x y, f.minmax true x y, f.sqrt x,
      f.rsqrt x, f.rint .rne x, f.rint .rz x, f.rint .rd x, f.rint .ru x],
    (f.unpack r.1).isNaN = true → r.1 = f.nan) ∧
  (∀ a ∈ [Fmt.f64, Fmt.f32, Fmt.f16, Fmt.bf16], ∀ b ∈ [Fmt.f64, Fmt.f32, Fmt.f16, Fmt.bf16], ∀ md x,
    (b.unpack (cvtNarrow a b md x).1).isNaN = true → (cvtNarrow a b md x).1 = b.nan ∧ (a.unpack x).isNaN = true) ∧
  (∀ x, ∀ r ∈ [rsqa x, rcpa x, ex2a x, lg2a x, sina x, cosa x, tanha x, fex2 x, flg2 x], (Fmt.f32.unpack r.1).isNaN = true →
    r.1 = Fmt.f32.nan) ∧
  (∀ w x, nfmtOk 2 w = true → (Fmt.f32.unpack ((NFmt.of w).toF32 x).1).isNaN = true → ((NFmt.of w).toF32 x).1 = Fmt.f32.nan) ∧
  ∀ f ∈ [Fmt.f64, Fmt.f32, Fmt.bf16], ∀ x y z,
    let a := f.unpack x
    let b := f.unpack y
    let c := f.unpack z
    let zero := fun (v : FV) => ∃ s e, v = .fin s 0 e
    let infinite := fun (v : FV) => ∃ s, v = .inf s
    let invalid := (f.nan, fNV)
    let nanFlags := fun (l : List FV) => if l.any FV.isSig then fNV else (0 : Flags)
    (a.isNaN = true ∨ b.isNaN = true → ∀ r ∈ [f.add x y, f.sub x y, f.mul x y, f.div x y], r = (f.nan, nanFlags [a, b])) ∧
    (a.isNaN = true ∨ b.isNaN = true → f.fma x y z = (f.nan, nanFlags [a, b, c])) ∧
    (∀ s, a = .inf s → (b = .inf (!s) → f.add x y = invalid) ∧ (b = .inf s → f.sub x y = invalid)) ∧
    ((zero a ∧ infinite b) ∨ (infinite a ∧ zero b) → f.mul x y = invalid ∧ f.fma x y z = invalid) ∧
    (∀ s t, mulV a b = some (.inf s) → c = .inf t → f.fma x y z = if s = t then (f.inf s, 0) else invalid) ∧
    ((zero a ∧ zero b) ∨ (infinite a ∧ infinite b) → f.div x y = invalid) ∧
    (∀ s t m e e', a = .fin s m e → m ≠ 0 → b = .fin t 0 e' → f.div x y = (f.inf (s != t), fDZ)) ∧
    (a.isNaN = true → f.sqrt x = (f.nan, nanFlags [a]) ∧ f.rsqrt x = (f.nan, nanFlags [a])) ∧
    ((∃ m e, a = .fin true m e ∧ m ≠ 0) ∨ a = .inf true → f.sqrt x = invalid ∧ f.rsqrt x = invalid) ∧
    (∀ s e, a = .fin s 0 e → f.sqrt x = (f.signBit s, 0) ∧ f.rsqrt x = (f.inf s, fDZ))

/-! ### Core-local memory -/

/-- R118, R121, R137, R355, R356: LDS and LDB read the bytes of the share and deliver them later: each executing lane, in
ascending k.tix, has one load under way, the destination is pending, no register, no byte and no latch changes. A byte of a
typed buffer that another wave wrote in the same interval is unspecified. -/
def Obligations.LocalLoads : Prop :=
  (∀ (f : SOp) s r k w pc front l h, ready s r (.lds f) k w pc front = true → s.launchOf? r.tid = some l →
    s.share? r.tid r.core = some h → s.unsampled (s.coreXY k r.core) = true →
    let i : Instr := .lds f
    let act := w.acting (i.takes w front)
    act.all (localOk s k h w r 0 f.size.bytes false false (offS f w)) = true →
    ∃ t, exec i s = .next t ∧ Leaves s t r w i front
      { rest := { s with fresh := s.fresh + act.length }
        task := { k with accesses := k.accesses ++ localAccesses s k w r 0 f.size.bytes false false (offS f w) act }
        share := h
        wave := { w with pend := w.marked (i.takes w front) f.data f.size.bits
                         loads := w.loads ++ act.zipIdx.map fun q =>
                           { id := s.fresh + q.2, tix := q.1.2.tix, reg := destReg f.data
                             words := words (regSpan f.size.bits) (num (h.scratch.read (offS f w q.1.1 q.1.2) f.size.bytes))
                             region := some (0, offS f w q.1.1 q.1.2, f.size.bytes) } }
        core := s.counted (s.coreXY k r.core) } fun _ => Kept i) ∧
  (∀ (f : QOp) s r k w pc front l h, ready s r (.ldb f) k w pc front = true → s.launchOf? r.tid = some l →
    s.share? r.tid r.core = some h → s.unsampled (s.coreXY k r.core) = true →
    let i : Instr := .ldb f
    let act := w.acting (i.takes w front)
    let n := bufNum f.space
    let read := fun (p : Nat × Thread) => s.sharedRead k h
      (s.accessOf k r w p.1 p.2 n (offQ f w p.1 p.2) (offQ f w p.1 p.2) f.size.bytes false false)
    act.all (localOk s k h w r n f.size.bytes false false (offQ f w)) = true →
    ∃ t, exec i s = .next t ∧ Leaves s t r w i front
      { rest := { s with fresh := s.fresh + act.length }
        task := { k with accesses := k.accesses ++ localAccesses s k w r n f.size.bytes false false (offQ f w) act }
        share := h
        wave := { w with pend := w.marked (i.takes w front) f.data f.size.bits
                         loads := w.loads ++ act.zipIdx.map fun q =>
                           { id := s.fresh + q.2, tix := q.1.2.tix, reg := destReg f.data
                             words := words (regSpan f.size.bits) (num (read q.1))
                             region := some (n, offQ f w q.1.1 q.1.2, f.size.bytes) } }
        core := s.counted (s.coreXY k r.core) } fun _ => Kept i)

/-- R121, R132, R137, R151, R175, R376, R387, R388: STS and STB write the low bytes of their data at once, SATOM one word, lane after
lane in ascending k.tix; every other byte of the share, every other memory and every register keeps its value. A byte of a
typed buffer that meets another wave's store of the same interval is unspecified (R118). Outside valid channels a reader on
another path may still see the older bytes (R151), in one none (R132). The functions of SATOM commute. -/
def Obligations.LocalStores : Prop :=
  (∀ (f : SOp) s r k w pc front l h, ready s r (.sts f) k w pc front = true → s.launchOf? r.tid = some l →
    s.share? r.tid r.core = some h → s.unsampled (s.coreXY k r.core) = true →
    let i : Instr := .sts f
    let act := w.acting (i.takes w front)
    act.all (localOk s k h w r 0 f.size.bytes true false (offS f w)) = true →
    ∃ t, exec i s = .next t ∧ Leaves s t r w i front
      { rest := s
        task := { k with accesses := k.accesses ++ localAccesses s k w r 0 f.size.bytes true false (offS f w) act }
        share := act.foldl (fun h p =>
          h.put 0 (r.core, r.wix) 0 (offS f w p.1 p.2) (bytes f.size.bytes (src w p.1 p.2 f.size.bits f.data))) h
        wave := w
        core := s.counted (s.coreXY k r.core) } fun _ => Kept i) ∧
  (∀ (f : QOp) s r k w pc front l h, ready s r (.stb f) k w pc front = true → s.launchOf? r.tid = some l →
    s.share? r.tid r.core = some h → s.unsampled (s.coreXY k r.core) = true →
    let i : Instr := .stb f
    let act := w.acting (i.takes w front)
    let n := bufNum f.space
    act.all (localOk s k h w r n f.size.bytes true false (offQ f w)) = true →
    ∃ t, exec i s = .next t ∧ Leaves s t r w i front
      { rest := s
        task := { k with accesses := k.accesses ++ localAccesses s k w r n f.size.bytes true false (offQ f w) act }
        share := act.foldl (fun g p => g.put 0 (r.core, r.wix) n (offQ f w p.1 p.2) (s.sharedStore k
          (s.accessOf k r w p.1 p.2 n (offQ f w p.1 p.2) (offQ f w p.1 p.2) f.size.bytes true false)
          (bytes f.size.bytes (src w p.1 p.2 f.size.bits f.data)))) h
        wave := w
        core := s.counted (s.coreXY k r.core) } fun _ => Kept i) ∧
  (∀ (f : SatomOp) s r k w pc front l h, ready s r (.satom f) k w pc front = true → s.launchOf? r.tid = some l →
    s.share? r.tid r.core = some h → s.unsampled (s.coreXY k r.core) = true →
    let i : Instr := .satom f
    let act := w.acting (i.takes w front)
    act.all (localOk s k h w r 0 4 true true (offSatom f w)) = true →
    ∃ t, exec i s = .next t ∧ Leaves s t r w i front
      { rest := s
        task := { k with accesses := k.accesses ++ localAccesses s k w r 0 4 true true (offSatom f w) act }
        share := act.foldl (fun h p => h.put 0 (r.core, r.wix) 0 (offSatom f w p.1 p.2) (bytes 4
          (satomOp f.fn (BitVec.ofNat 32 (num (h.scratch.read (offSatom f w p.1 p.2) 4))) (src32 w p.1 p.2 f.data)).toNat)) h
        wave := w
        core := s.counted (s.coreXY k r.core) } fun _ => Kept i) ∧
  (∀ (h : Share) path wave space off bs n, space < 4 → n < 4 →
    let g := h.put path wave space off bs
    g.mem n = (if n = space then (h.mem n).write off bs else h.mem n) ∧
    { g with scratch := [], abuf := [], cbuf := [], wbuf := [], older := [] } =
      { h with scratch := [], abuf := [], cbuf := [], wbuf := [], older := [] } ∧
    (∀ q a, q < 5 → q ≠ path → h.inChannel space off bs.length = false → off ≤ a → a < off + bs.length →
      (h.mem space).get a ∈ oldBytes q space a g.older) ∧
    (∀ q a, h.inChannel space off bs.length = true → off ≤ a → a < off + bs.length → oldBytes q space a g.older = []) ∧
    ∀ q a, q = path → oldBytes q space a h.older = [] → oldBytes q space a g.older = []) ∧
  ∀ x v : Word, satomOp .addS32 x v = x + v ∧ satomOp .and x v = x &&& v ∧ satomOp .or x v = x ||| v ∧ satomOp .xor x v = x ^^^ v ∧
    (satomOp .minS32 x v).toInt = min x.toInt v.toInt ∧ (satomOp .maxS32 x v).toInt = max x.toInt v.toInt ∧
    (satomOp .minZ32 x v).toNat = min x.toNat v.toNat ∧ (satomOp .maxZ32 x v).toNat = max x.toNat v.toNat ∧
    ∀ fn u, satomOp fn (satomOp fn x v) u = satomOp fn (satomOp fn x u) v

/-- R3, R137: a byte of a memory reads after a write as the byte written there, and every other byte as before; reading n
bytes gives them lowest address first. -/
def Obligations.ReadAfterWrite : Prop := ∀ (m : Mem) (a : Nat) (bs : List Byte), m.wf = true →
  (∀ x, (m.write a bs).get x = if a ≤ x ∧ x < a + bs.length then (bs[x - a]?).getD 0 else m.get x) ∧
  (m.write a bs).read a bs.length = bs

/-! ### Global memory -/

/-- R122, R256, R355, R356, R357: LDG, LDGX and LDC of lines in the L1, and of one lane whose line is not there or that goes
to host or peer memory. LDC reads the argument block, whose size bounds its offset whatever checked says. -/
def Obligations.GlobalLoads : Prop :=
  (∀ f : MOp, LoadsGlobal (.ldg f) f.data f.size.bytes f.size.bits true (fun _ _ _ _ th => areaM f th) fun _ _ _ _ _ => true) ∧
  (∀ f : NOp, LoadsGlobal (.ldgx f) f.data f.size.bytes f.size.bits true (fun _ _ w ln th => areaN f w ln th)
    fun _ _ _ _ _ => true) ∧
  (∀ f : LdcOp, LoadsGlobal (.ldc f) f.d 4 32 false (fun _ k w ln th => (k.block.toNat + ldcOff f w ln th) % 2 ^ 72)
    fun s k w ln th => ldcOff f w ln th % 4 == 0 && ldcOff f w ln th + 4 ≤ (s.kernelOf k).argBytes) ∧
  (∀ f : MOp, LoadsFar (.ldg f) f.data f.size.bytes f.size.bits true (fun _ _ _ _ th => areaM f th) fun _ _ _ _ _ => true) ∧
  (∀ f : NOp, LoadsFar (.ldgx f) f.data f.size.bytes f.size.bits true (fun _ _ w ln th => areaN f w ln th)
    fun _ _ _ _ _ => true) ∧
  (∀ f : LdcOp, LoadsFar (.ldc f) f.d 4 32 false (fun _ k w ln th => (k.block.toNat + ldcOff f w ln th) % 2 ^ 72)
    fun s k w ln th => ldcOff f w ln th % 4 == 0 && ldcOff f w ln th + 4 ≤ (s.kernelOf k).argBytes)

/-- R123, R141, R148, R387, R388: STG and STGX put the low bytes of their data into the task's shadow lines, whether the L1
holds the line or allocates it; to host or peer memory, one lane's bytes go there. A store to host memory lands there, of 16
bytes as two pieces, one of them later. -/
def Obligations.GlobalStores : Prop :=
  (∀ f : MOp, StoresGlobal (.stg f) f.size.bytes f.size.bits f.data fun _ _ th => areaM f th) ∧
  (∀ f : NOp, StoresGlobal (.stgx f) f.size.bytes f.size.bits f.data fun w ln th => areaN f w ln th) ∧
  (∀ f : MOp, StoresFar (.stg f) f.size.bytes f.size.bits f.data fun _ _ th => areaM f th) ∧
  (∀ f : NOp, StoresFar (.stgx f) f.size.bytes f.size.bits f.data fun w ln th => areaN f w ln th) ∧
  (∀ (s : State) r pa bs, s.hostMem.wf = true → s.halves = [] → (bs.length ≤ 8 ∨ bs.length = 16) →
    let t := s.hostWrite r pa bs
    let whole := fun (m : Mem) => ∀ a, m.get a = if pa ≤ a ∧ a < pa + bs.length then (bs[a - pa]?).getD 0 else s.hostMem.get a
    t.mem = s.mem ∧ t.peerMem = s.peerMem ∧ whole (t.landWhere fun _ => true).hostMem ∧ (bs.length ≤ 8 → t.halves = [] ∧ whole t.hostMem) ∧
    (bs.length = 16 → ∃ i, i < 2 ∧ t.halves.map (fun h => (h.pa, h.bs)) = [(pa + 8 * i, (bs.drop (8 * i)).take 8)] ∧
      ∀ a, t.hostMem.get a = if pa + 8 * (1 - i) ≤ a ∧ a < pa + 8 * (1 - i) + 8 then (bs[a - pa]?).getD 0 else s.hostMem.get a))

/-! ### Cells -/

/-- R162, R165, R319, R320: the seven cell instructions send their operations with their stamps, in ascending lane order; no
register, no latch and no memory changes before the slices answer. Each operation makes of the low bits of the cell, as many
as its type has, what R165 says, and leaves the others. -/
def Obligations.CellOperationsSent : Prop :=
  (∀ f : EOp CaddTy, SendsCells (.cadd f) 0x30 f.ty.code f.ty.bits (f.ty.bits / 8) f.val fun _ th => areaE f th) ∧
  (∀ f : EOp CtwoTy, SendsCells (.ctwo f) 0x31 f.ty.code f.ty.bits (f.ty.bits / 8) f.val fun _ th => areaE f th) ∧
  (∀ f : EOp CmmTy, SendsCells (.cmin f) 0x32 f.ty.code f.ty.bits (f.ty.bits / 8) f.val fun _ th => areaE f th) ∧
  (∀ f : EOp CmmTy, SendsCells (.cmax f) 0x33 f.ty.code f.ty.bits (f.ty.bits / 8) f.val fun _ th => areaE f th) ∧
  (∀ f : EOp BitTy, SendsCells (.cord f) 0x34 f.ty.code f.ty.bits (f.ty.bits / 8) f.val fun _ th => areaE f th) ∧
  (∀ f : EOp CaffTy, SendsCells (.caff f) 0x35 f.ty.code f.ty.bits (f.ty.bits / 16) f.val fun _ th => areaE f th) ∧
  (∀ f : EOp CbitTy, SendsCells (.cbit f) 0x36 f.ty.code f.ty.bits (f.ty.bits / 8) f.val fun _ th => areaE f th) ∧
  ∀ x v : Nat,
    let lo := fun (n : Nat) => x % 2 ^ n
    let op := fun (n : Nat) => v % 2 ^ n
    let signed := fun (n : Nat) => (BitVec.ofNat 32 n).toInt
    let two := fun (f : Fmt) (n : Nat) =>
      let add := fun a b => (f.add a b).1
      let sub := fun a b => (f.sub a b).1
      let s := lo n
      let t := add s (op n)
      let b := sub t s
      t + 2 ^ n * add (x / 2 ^ n % 2 ^ n) (add (sub s (sub t b)) (sub (op n) b))
    ∀ p ∈ [(0x30, 0, 32, x + v), (0x30, 1, 64, x + v), (0x30, 2, 32, (Fmt.f32.add (lo 32) (op 32)).1),
        (0x30, 3, 64, (Fmt.f64.add (lo 64) (op 64)).1), (0x31, 2, 64, two .f32 32), (0x31, 3, 128, two .f64 64),
        (0x32, 0, 32, if signed v < signed x then v else x), (0x32, 4, 32, min (lo 32) (op 32)),
        (0x32, 2, 32, (Fmt.f32.minmax false (lo 32) (op 32)).1), (0x32, 3, 64, (Fmt.f64.minmax false (lo 64) (op 64)).1),
        (0x33, 0, 32, if signed x < signed v then v else x), (0x33, 4, 32, max (lo 32) (op 32)),
        (0x33, 2, 32, (Fmt.f32.minmax true (lo 32) (op 32)).1), (0x33, 3, 64, (Fmt.f64.minmax true (lo 64) (op 64)).1),
        (0x34, 0, 32, v), (0x34, 1, 64, v), (0x34, 4, 128, v),
        (0x35, 2, 32, (Fmt.f32.fma (op 32) (lo 32) (v / 2 ^ 32 % 2 ^ 32)).1), (0x35, 3, 64, (Fmt.f64.fma (op 64) (lo 64) (v / 2 ^ 64 % 2 ^ 64)).1),
        (0x36, 0, 32, lo 32 &&& op 32), (0x36, 1, 32, lo 32 ||| op 32), (0x36, 2, 32, lo 32 ^^^ op 32),
        (0x36, 4, 64, lo 64 &&& op 64), (0x36, 5, 64, lo 64 ||| op 64), (0x36, 6, 64, lo 64 ^^^ op 64)],
      cellOp p.1 p.2.1 v x = x / 2 ^ p.2.2.1 * 2 ^ p.2.2.1 + p.2.2.2 % 2 ^ p.2.2.1

/-- R169, R170, R358: LDCT delivers the fold of every entry held, sampled at its issue (the model's choice, log 41); LDCS of a graph task delivers the fold of the entries
below the task's key once the watermark has reached it, and waits before. -/
def Obligations.CellLoads : Prop := ∀ (f : EOp BitTy) s r k w pc front l h, s.launchOf? r.tid = some l →
  s.share? r.tid r.core = some h → s.unsampled (s.coreXY k r.core) = true →
  let n := f.ty.bits / 8
  let load := fun (i : Instr) (fold : Nat) =>
    (w.acting (i.takes w front)).zipIdx.map fun q =>
      let e := entryOf s k l r (areaE f q.1.2)
      ({ id := s.fresh + q.2, tix := q.1.2.tix, reg := destReg f.val
         words := words (regSpan f.ty.bits)
           (s.cellFold (s.pageTag l e.attr.buf) (e.pa (areaE f q.1.2)) l.scope fold % 2 ^ f.ty.bits)
         due := some s.loadDue, cell := true } : Load)
  (ready s r (.ldct f) k w pc front = true → (l.checked = false ∨ s.noEarlier k = true) →
    let act := w.acting ((Instr.ldct f).takes w front)
    let sent := sentLines s k l r true (fun _ th => areaE f th) act
    act.all (cellOk s k l r n false fun _ th => areaE f th) = true → s.affords l w sent = true →
    ∃ t, exec (.ldct f) s = .next t ∧ Leaves s t r w (.ldct f) front
      { rest := { s with fresh := s.fresh + act.length }.charged l w sent
        task := k
        share := h
        wave := { w with paid := 0, pend := w.marked ((Instr.ldct f).takes w front) f.val f.ty.bits, loads := w.loads ++ load (.ldct f) topKey }
        core := s.counted (s.coreXY k r.core) } fun _ => Kept (.ldct f)) ∧
  (ready s r (.ldcs f) k w pc front = true → k.key.toNat % 2 ^ 32 = 0 → s.fatalIn k = false →
    let act := w.acting ((Instr.ldcs f).takes w front)
    s.affords l w act.length = true →
    act.all (cellOk s k l r n false fun _ th => areaE f th) = true →
    (k.key.toNat ≤ s.watermark k.lid →
      ∃ t, exec (.ldcs f) s = .next t ∧ Leaves s t r w (.ldcs f) front
        { rest := { s with fresh := s.fresh + act.length }.charged l w act.length
          task := k
          share := h
          wave := { w with paid := 0
                           pend := w.marked ((Instr.ldcs f).takes w front) f.val f.ty.bits
                           loads := w.loads ++ load (.ldcs f) k.key.toNat }
          core := s.counted (s.coreXY k r.core) } fun _ => Kept (.ldcs f)) ∧
    (s.watermark k.lid < k.key.toNat → act ≠ [] →
      ∃ t, exec (.ldcs f) s = .next t ∧ LeavesWaiting s t r w (.ldcs f) front
        { rest := s.charged l w act.length
          task := k
          share := h
          wave := { w with paid := 0, pend := w.marked ((Instr.ldcs f).takes w front) f.val f.ty.bits }
          core := s.counted (s.coreXY k r.core) }
        (.ldcs (maskOf (act.map (·.1))) (act.map fun p =>
          let e := entryOf s k l r (areaE f p.2)
          { ln := p.1, reg := destReg f.val, width := f.ty.bits, pa := e.pa (areaE f p.2), tag := s.pageTag l e.attr.buf }))))

/-- R144, R188, R364: MODW writes its value straight into device memory, in a launch without an arena; it is a store of the
wave and marks no reader. Every byte but those of its lanes' values stays; where the task holds one in a shadow line or from
its parent, it sees the new value (log 124). The model's choices: it is performed at its issue (log 42), and a child checks
the write extents of its root (log 38). -/
def Obligations.DirectWrites : Prop := ∀ (f : EOp ModwTy) s r k w pc front l h,
  ready s r (.modw f) k w pc front = true → s.launchOf? r.tid = some l → s.share? r.tid r.core = some h →
  s.unsampled (s.coreXY k r.core) = true → l.arena = 0 →
  let i : Instr := .modw f
  let act := w.acting (i.takes w front)
  let n := modwBytes f.ty
  let va := fun (_ : Nat) (th : Thread) => areaE f th
  let pa := fun (p : Nat × Thread) => (entryOf s k l r (va p.1 p.2)).pa (va p.1 p.2)
  let bs := fun (p : Nat × Thread) => bytes n (src w p.1 p.2 (8 * n) f.val)
  let sent := sentLines s k l r false va act
  act.all (deviceOk s k l w r n true false va) = true → s.affords l w sent = true →
  act.all (fun p => !(l.checked && !covered ((s.rootOf k).extents.filter (·.2.2)) (va p.1 p.2) n)) = true →
  act.all (fun p => s.tagAt (pa p / 64) == s.pageTag l (entryOf s k l r (va p.1 p.2)).attr.buf) = true →
  ∃ t, exec i s = .next t ∧ Leaves s t r w i front
    { rest := { s with fresh := s.fresh + act.length, mem := act.foldl (fun m p => m.write (pa p) (bs p)) s.mem }.charged l w sent
      task :=
        let u := (act.foldl (fun (q : Mem × Task) p => (q.1.write (pa p) (bs p), (q.2.aged { s with mem := q.1 } r
          (s.pageTag l (entryOf s k l r (va p.1 p.2)).attr.buf) (va p.1 p.2) (pa p) n).overwrote (pa p) (bs p))) (s.mem, k)).2
        { k.noted (globalAccesses s k l w r n true va act) with older := u.older, shadow := u.shadow, inherited := u.inherited }
      share := h
      wave := { w with paid := 0, stores := w.stores ++ act.zipIdx.map fun q => (s.fresh + q.2, .slice, s.deadline 2) }
      core := s.l1Wrote k (s.coreXY k r.core) (act.map fun p => (pa p, bs p)) } fun _ => Kept i

/-! ### Cross-lane instructions and system registers -/

/-- R265, R372, R380, R395: SHFL and RDLANE move operands between lanes; WSORT gives the i-th member lane the i-th of the
members' pairs, sorted by key with equal keys in lane order; keys order as signed integers, or as binary32 with −0 below
+0 and NaN last either way. The instructions of format W raise MEMBER in every executing thread where the mask is wrong,
before that LATCH where the latches they would read have no value (which threads: log 121). -/
def Obligations.CrossLaneMoves : Prop :=
  (∀ (f : WOp (BitVec 4)) s r k w pc front, ready s r (.shfl f) k w pc front = true →
    let i : Instr := .shfl f
    w.memberMask f.m (i.takes w front) = true → w.unreadEach (i.takes w front) f = 0 →
    ∃ t, exec i s = .next t ∧ Ran s t r w i front fun ln th th' =>
      let j := if f.fn = 0 then (src32 w ln th f.d).toNat % 32 else (ln ^^^ f.fn.toNat) % 32
      let x := BitVec.ofNat 32 (memberVal w 32 (if (w.members f.m).testBit j then j else ln) f.a)
      th.Wrote th' i.isSwitch (dstRegs f.d false [x]) (some ⟨x.setWidth 64, false⟩) 0) ∧
  (∀ (f : RdlaneOp) s r k w pc front h, ready s r (.rdlane f) k w pc front = true → s.share? r.tid r.core = some h →
    (w.thread? f.ln).isSome = true →
    let i : Instr := .rdlane f
    let x := BitVec.ofNat 32 (memberVal w 32 f.ln f.a)
    w.unread (2 ^ f.ln.val) 32 f.a = 0 →
    ∃ t, exec i s = .next t ∧ Leaves s t r w i front
      { Expect.same s k h w with wave := if f.w then w else w.took (i.takes w front) (.s f.d) [x] } fun _ th th' =>
        th.Wrote th' i.isSwitch [] (some ⟨x.setWidth 64, false⟩) 0) ∧
  (∀ (f : WOp WsortFn) s r k w pc front, ready s r (.wsort f) k w pc front = true →
    let i : Instr := .wsort f
    let key := fun (x : Nat) => sortKey f.fn (x % 2 ^ 32)
    let lanes := lanesOf (w.members f.m)
    let pairs := lanes.map fun ln => memberVal w 64 ln f.a
    w.memberMask f.m (i.takes w front) = true → without (w.members f.m) (i.takes w front) = 0 →
    ∃ out : List Nat, out.Pairwise (fun x y => key x ≤ key y) ∧ (∀ c, out.filter (key · == c) = pairs.filter (key · == c)) ∧
      ∃ t, exec i s = .next t ∧ Ran s t r w i front fun ln th th' =>
        let x := nth out (lanes.idxOf ln) 0
        th.Wrote th' i.isSwitch (dstRegs f.d false (words 2 x)) (some ⟨BitVec.ofNat 64 x, true⟩) 0) ∧
  (∀ x y : Word,
    let nan := fun (z : Word) => (Fmt.f32.unpack z.toNat).isNaN
    let lt := fun (a b : Word) => (Fmt.f32.cmp .lt a.toNat b.toNat).1 = true
    (sortKey .ascS32 x.toNat < sortKey .ascS32 y.toNat ↔ x.toInt < y.toInt) ∧
    (sortKey .descS32 x.toNat < sortKey .descS32 y.toNat ↔ y.toInt < x.toInt) ∧
    (sortKey .ascF32 x.toNat < sortKey .ascF32 y.toNat ↔
      nan x = false ∧ (nan y = true ∨ lt x y ∨ (x = 0x80000000 ∧ y = 0))) ∧
    (sortKey .descF32 x.toNat < sortKey .descF32 y.toNat ↔
      nan x = false ∧ (nan y = true ∨ lt y x ∨ (x = 0 ∧ y = 0x80000000)))) ∧
  (let faulty := fun (i : Instr) (m : Mask) (unread : Wave → Nat → Nat) =>
     ∀ s r k w pc front h l, ready s r i k w pc front = true → s.share? r.tid r.core = some h → s.launchOf? r.tid = some l →
       l.haltFatal = false → k.prop = none → i.takes w front ≠ 0 → k.goesOn r w (i.takes w front) = true →
       (unread w (i.takes w front) = i.takes w front →
         ∃ t, exec i s = .next t ∧ Faults s t r k h w i front { code := 0x03, detail := insWord i }) ∧
       (unread w (i.takes w front) = 0 → w.memberMask m (i.takes w front) = false →
         ∃ t, exec i s = .next t ∧ Faults s t r k h w i front { code := 0x0B, detail := m.code })
   (∀ f : WOp (BitVec 4), faulty (.shfl f) f.m fun w take => w.unreadEach take f) ∧
   (∀ f : VoteOp, faulty (.vote f) f.m fun _ _ => 0) ∧ (∀ f : WOp WsortFn, faulty (.wsort f) f.m fun _ _ => 0) ∧
   (∀ f : WOp WredFn, faulty (.wred f) f.m fun w take => w.unreadAll take (w.members f.m) f.fn.bits f.a) ∧
   ∀ f : WOp WscanFn, faulty (.wscan f) f.m fun w take => w.unreadAll take (w.members f.m) 32 f.a)

/-- R115–R117, R392–R394: VOTE, WRED and WSCAN: a tree over lane index, or prefixes from lane 0 upward; the flags of
every step reach every executing thread; a result for an s-register is written once. Over 32 terms, .add.s32 is their
sum modulo 2^32, .and, .or and .xor are bitwise, and .min.s32 and .max.s32 give a term that no term is below or above. -/
def Obligations.CrossLaneReductions : Prop :=
  (∀ (f : VoteOp) s r k w pc front h, ready s r (.vote f) k w pc front = true → s.share? r.tid r.core = some h →
    let i : Instr := .vote f
    let yes := w.maskWhere (fun th => th.rp f.p) &&& w.members f.m
    let x : Word := BitVec.ofNat 32 (match f.fn with
      | .ballot => yes
      | .any => if yes = 0 then 0 else 1
      | .all => if yes = w.members f.m then 1 else 0)
    w.memberMask f.m (i.takes w front) = true →
    ∃ t, exec i s = .next t ∧ Leaves s t r w i front { Expect.same s k h w with wave := w.took (i.takes w front) f.d [x] }
      fun _ th th' => th.Wrote th' i.isSwitch (dstRegs f.d false [x]) (some ⟨x.setWidth 64, false⟩) 0) ∧
  (∀ (f : WOp WredFn) s r k w pc front h, ready s r (.wred f) k w pc front = true → s.share? r.tid r.core = some h →
    let i : Instr := .wred f
    let y := treeNode f.fn (w.term f.m f.fn f.a) 5 0
    let ws := words (regSpan f.fn.bits) y.1
    w.memberMask f.m (i.takes w front) = true → w.unread (w.members f.m) f.fn.bits f.a = 0 →
    ∃ t, exec i s = .next t ∧ Leaves s t r w i front { Expect.same s k h w with wave := w.took (i.takes w front) f.d ws }
      fun _ th th' => th.Wrote th' i.isSwitch (dstRegs f.d false ws)
        (some ⟨BitVec.ofNat 64 (y.1 % 2 ^ f.fn.bits), f.fn.bits == 64⟩) y.2) ∧
  (∀ (f : WOp WscanFn) s r k w pc front, ready s r (.wscan f) k w pc front = true →
    let i : Instr := .wscan f
    let how := WscanFn.how f.fn
    let upTo := scanTo how.1 (w.term f.m how.1 f.a)
    w.memberMask f.m (i.takes w front) = true →
    w.unread (w.members f.m) 32 f.a = 0 →
    ∃ t, exec i s = .next t ∧ Ran s t r w i front fun ln th th' =>
      let x : Word := BitVec.ofNat 32 (if how.2 then (if ln = 0 then WredFn.identity how.1 else (upTo (ln - 1)).1) else (upTo ln).1)
      th.Wrote th' i.isSwitch (dstRegs f.d false [x]) (some ⟨x.setWidth 64, false⟩) (upTo 31).2) ∧
  (∀ x : Nat → Word,
    let red := fun (fn : WredFn) => BitVec.ofNat 32 (treeNode fn (fun n => (x n).toNat) 5 0).1
    red .addS32 = ((List.range 32).map x).sum ∧
    red .and = ((List.range 32).map x).foldl (· &&& ·) 0xFFFFFFFF ∧
    red .or = ((List.range 32).map x).foldl (· ||| ·) 0 ∧
    red .xor = ((List.range 32).map x).foldl (· ^^^ ·) 0 ∧
    (∃ n < 32, red .minS32 = x n) ∧ (∀ n < 32, (red .minS32).toInt ≤ (x n).toInt) ∧
    (∃ n < 32, red .maxS32 = x n) ∧ (∀ n < 32, (x n).toInt ≤ (red .maxS32).toInt))

/-- R385: SREAD delivers the register's value; reading k.drone samples k.droneh, reading a valid channel's status sets
the observed pair. SWRITE stores into the register where it can be written: the executing thread's own, or the value of
the lowest-k.tix executing thread into a register of the wave or of the task on the core. -/
def Obligations.SystemRegisters : Prop :=
  (∀ (f : SreadOp) s r k w pc front h, ready s r (.sread f) k w pc front = true → s.share? r.tid r.core = some h →
    let i : Instr := .sread f
    let n := f.reg.toNat
    let xy := s.coreXY k r.core
    let seen := fun (c : Chan) => if c.valid then w.sees (n - 0x30) c else w
    ∃ t, exec i s = .next t ∧ Leaves s t r w i front
      { Expect.same s k h w with wave := if 0x30 ≤ n ∧ i.takes w front ≠ 0 then (h.chans[n - 0x30]?).elim w seen else w } fun ln th th' =>
        let x := s.sysReg k h w ln th n
        let th := if n = 0x06 then { th with droneh := BitVec.ofNat 32 (s.droneAt (.l1 xy.1 xy.2) / 2 ^ 32) } else th
        th.Wrote th' i.isSwitch (dstRegs f.d f.w [x]) (some ⟨x.setWidth 64, false⟩) 0) ∧
  (∀ (s : State) (k : Task) (h : Share) (w : Wave) (ln : Nat) (th : Thread),
    let xy := s.coreXY k h.c
    let kn := s.kernelOf k
    (∀ p ∈ ([(0x00, BitVec.ofNat 32 ln), (0x01, BitVec.ofNat 32 th.tix), (0x02, BitVec.ofNat 32 w.wix), (0x03, k.key.extractLsb' 0 32),
        (0x04, (k.key.extractLsb' 32 16).setWidth 32), (0x05, th.cseq), (0x06, BitVec.ofNat 32 (s.droneAt (.l1 xy.1 xy.2))),
        (0x07, th.droneh), (0x08, BitVec.ofNat 32 (h.c % kn.polW)), (0x09, BitVec.ofNat 32 (h.c / kn.polW)),
        (0x0A, BitVec.ofNat 32 kn.polW), (0x0B, BitVec.ofNat 32 kn.polH), (0x0C, th.flags.setWidth 32), (0x0D, th.rmode.setWidth 32),
        (0x0E, h.rbfull), (0x20, s.feat0), (0x21, 0), (0x22, 0), (0x23, 0), (0x24, 0x03050506),
        (0x25, BitVec.ofNat 32 (s.watermark k.lid)), (0x26, (th.faults ++ (0 : BitVec 1) ++ th.lastFault).setWidth 32)] : List (Nat × Word)),
      s.sysReg k h w ln th p.1 = p.2) ∧
    (∀ n < 8, s.sysReg k h w ln th (0x10 + n) = w.rfmt n ∧ s.sysReg k h w ln th (0x18 + n) = w.rmc n) ∧
    (∀ n < 16, s.sysReg k h w ln th (0x30 + n) = h.chStatus n)) ∧
  (∀ (f : SwriteOp) s r k w pc front h, ready s r (.swrite f) k w pc front = true → s.share? r.tid r.core = some h →
    let i : Instr := .swrite f
    let n := f.reg.toNat
    let x := ((w.acting (i.takes w front)).head?).map fun p => src32 w p.1 p.2 f.a
    ∃ t, exec i s = .next t ∧ Leaves s t r w i front
      { Expect.same s k h w with
        share := if n = 0x0E then x.elim h fun x => { h with rbfull := x } else h
        wave := if 0x10 ≤ n ∧ n < 0x18 then x.elim w fun x => { w with fmt := putAt 0 w.fmt (n - 0x10) x }
          else if 0x18 ≤ n ∧ n < 0x20 then x.elim w fun x => { w with mc := putAt 0 w.mc (n - 0x18) x } else w }
      fun ln th th' =>
        let x := src32 w ln th f.a
        Kept i { th with flags := if n = 0x0C then x.extractLsb' 0 5 else th.flags
                         rmode := if n = 0x0D then (if 5 ≤ (x.extractLsb' 0 3).toNat then 0 else x.extractLsb' 0 3) else th.rmode
                         faults := if n = 0x26 then x.extractLsb' 8 8 else th.faults
                         lastFault := if n = 0x26 then x.extractLsb' 0 7 else th.lastFault } th')

/-! ### Control -/

/-- R28, R41, R318, R321, R352, R353, R374: the transfers, which are switch points; CALL leaves the return offset in a7. -/
def Obligations.Transfers : Prop :=
  (∀ f : BrOp, Jumps (.br f) (fun pc th => if th.rp f.p != f.neg then some ((pc : Int) + 2 * f.off.toInt) else none) fun _ th => th) ∧
  (∀ f : JOp, Jumps (.jmp f) (fun pc _ => some ((pc : Int) + 2 * f.off.toInt)) fun _ th => th) ∧
  (∀ f : JOp, Jumps (.call f) (fun pc _ => some ((pc : Int) + 2 * f.off.toInt)) fun pc th => th.setA 7 (BitVec.ofNat 72 (pc + 4))) ∧
  (∀ f : GOp, Jumps (.ret f) (fun _ th => some ((th.ra 7).toNat : Int)) fun _ th => th) ∧
  (∀ f : ArOp, Jumps (.jmpi f) (fun _ th => some ((th.ra f.ar).toNat : Int)) fun _ th => th) ∧
  (∀ f : JOp, (Instr.jmp f).isSwitch = true ∧ (Instr.call f).isSwitch = true) ∧ (∀ f : GOp, (Instr.ret f).isSwitch = true) ∧
  (∀ f : ArOp, (Instr.jmpi f).isSwitch = true) ∧ (∀ f : BrOp, (Instr.br f).isSwitch = true) ∧
  Decodes 32 [(0x00002109, .call ⟨16, false⟩), (0xFFFFF105, .jmp ⟨-8, false⟩), (0x0000A301, .br ⟨5, false, 1, false⟩),
    (0x00007501, .br ⟨3, true, 2, false⟩)]

/-- R72, R83, R343, R373, R397: YIELD goes on; EXIT ends the executing threads, whose sticky flags reach the launch, and where
a phase can then not complete its waiting threads take BAREXIT; REFORM files the executing threads in bins of the core, in
cooperative mode in its turn among the waves of the stage (log 122). -/
def Obligations.ThreadsLeave : Prop :=
  (∀ (f : GOp), Runs (.yield f) fun _ _ => Kept (.yield f)) ∧
  (∀ (f : GOp) s r k w pc front h, ready s r (.exit f) k w pc front = true → s.share? r.tid r.core = some h →
    s.noBarWaits k.lid = true → s.fatalIn k = false →
    let i : Instr := .exit f
    let act := w.acting (i.takes w front)
    ∃ t, exec i s = .next t ∧ LeavesWith s t r
      { Expect.same s k h w with
        rest := s.modLaunch k.lid fun l => { l with flags := act.foldl (fun fl p => fl ||| p.2.flags) l.flags }
        wave := { w.dropMarks (i.takes w front) with loads := w.loads.filter fun d => !act.any fun p => p.2.tix == d.tix }
        core := s.lost (s.coreXY k r.core) ((w.loads.filter fun d => act.any fun p => p.2.tix == d.tix).map (·.id)) }
      fun w' => Became w w' (turns i front (i.takes w front) fun _ => none)) ∧
  (∀ (f : GOp) s r k w pc front h q, ready s r (.exit f) k w pc front = true → s.share? r.tid r.core = some h → q ≠ r →
    let take := (Instr.exit f).takes w front
    let ths := (w.acting take).map (·.2)
    let u := ((s.modLaunch k.lid fun l => { l with flags := ths.foldl (fun fl th => fl ||| th.flags) l.flags }).loseLoads r
      (ths.map (·.tix))).modWave r fun w => { w.dropMarks take with
        lanes := w.lanes.zipIdx.map fun p => if take.testBit p.2 then none else p.1 }
    ((u.barExits k.lid).task? r.tid).any Task.active = true →
    ∃ t, exec (.exit f) s = .next t ∧ t.wave? q = (u.barExits k.lid).wave? q ∧
      (t.launch? k.lid).map (·.records) = ((u.barExits k.lid).launch? k.lid).map (·.records)) ∧
  (∀ (s : State) q k h v l bw, s.task? q.tid = some k → k.st = .resident → s.share? q.tid q.core = some h → s.wave? q = some v →
    s.launch? k.lid = some l → l.haltFatal = false → k.prop = none → v.barWaits = [bw] → (s.tasks.map (·.tid)).Nodup →
    (k.shares.map (·.c)).Nodup → (h.waves.map (·.wix)).Nodup →
    (s.tasks.all fun t => t.lid != k.lid || t.shares.all fun g => g.waves.all fun u =>
      u.barWaits.isEmpty || (t.tid == q.tid && g.c == q.core && u.wix == q.wix)) = true →
    (∃ p u, p ≠ q ∧ p.tid = q.tid ∧ s.wave? p = some u ∧ u.active = true) →
    let b : BarName := ⟨bw.lvl, bw.n, bw.shape, barKey bw.lvl v⟩
    (∃ p ∈ s.group k q.core b, (s.task? p.1).any (fun u => u.st != .waits) = true ∧ ∃ n ∈ s.missing p b, s.liveTix p.1 n = false) →
    ∃ v', (s.barExits k.lid).wave? q = some v' ∧ v'.barWaits = [] ∧
      Became v v' (fun ln th => some (if bw.mask.testBit ln ∧ th.park = .runs then { th with park := .fatal, atBar := false } else th)) ∧
      (s.barExits k.lid).launch? k.lid =
        (s.recorded k (v.acting (v.still bw.mask)) { code := 0x0D, detail := barDetail b }).launch? k.lid) ∧
  (∀ (f : GOp) s r k w pc front h bins, ready s r (.reform f) k w pc front = true → s.share? r.tid r.core = some h →
    w.loads = [] → s.fatalIn k = false → ((Instr.reform f).takes w front ≠ 0 → s.mayFile k h w = true) →
    let i : Instr := .reform f
    let xy := s.coreXY k r.core
    (w.acting (i.takes w front)).foldlM (fun bs p =>
      fileBin bs r.tid r.core w.stage (pc + 4) s.now (s.filedAs r k pc p.2)) (s.core xy.1 xy.2).bins =
        some bins →
    ∃ t, exec i s = .next t ∧ LeavesWith s t r
      { Expect.same s k h w with
        wave := w.left (i.takes w front)
        core := fun x y => if (x, y) = xy then { s.core x y with bins } else s.core x y }
      fun w' => Became w w' (turns i front (i.takes w front) fun _ => none))

/-- R257, R263, R264: TRAP, and BKPT outside a debugger's reach, give every executing thread a fatal fault; at a safe
point under a debugger BKPT stops the launch, and resumed it is a counted no-op. Another thread of the task runs on. -/
def Obligations.TrapsAndBreakpoints : Prop :=
  (∀ (f : TrapOp) s r k w pc front h l, ready s r (.trap f) k w pc front = true → s.share? r.tid r.core = some h →
    s.launchOf? r.tid = some l → l.haltFatal = false → k.prop = none → k.goesOn r w ((Instr.trap f).takes w front) = true →
    ∃ t, exec (.trap f) s = .next t ∧ Faults s t r k h w (.trap f) front { code := 0x0F, detail := f.n.toNat }) ∧
  (∀ (f : GOp) s r k w pc front h l, ready s r (.bkpt f) k w pc front = true → s.share? r.tid r.core = some h →
    s.launchOf? r.tid = some l →
    let i : Instr := .bkpt f
    let stops := (s.debug l.part).enable && f.s && (safeAt l.code pc).isSome
    (stops = false → l.haltFatal = false → k.prop = none → k.goesOn r w (i.takes w front) = true →
      ∃ t, exec i s = .next t ∧ Faults s t r k h w i front { code := 0x10 }) ∧
    (stops = true → w.pass = true →
      ∃ t, exec i s = .next t ∧ Ran s t r w i front fun _ th => Kept i { th with
        faults := if th.faults = 0xFF then 0xFF else th.faults + 1, lastFault := 0x10 }) ∧
    (stops = true → w.pass = false →
      ∃ t w', exec i s = .next t ∧ t.wave? r = some w' ∧ w'.stopped = true ∧ w'.atSafe = true ∧ Became w w' (fun _ th => some th) ∧
        t.launchOf? r.tid = some { l with stopReq := true } ∧ t.mem = s.mem ∧ t.dev = s.dev))

/-! ### Barriers and fences -/

/-- R65, R78, R79, R81, R136, R150, R399: an arrival that does not complete its phase: the barrier of the core keeps the
arrivals and their flags, the wave's record names the phase. BAR's threads wait where they are, BARA's go on. The checks:
MEMBER for a shape beyond the polder and for launch level where the kernel has none, BARDIV where the wave's threads are not
together at the PC or the sub-polders of a phase differ; every executing thread takes the fault. -/
def Obligations.BarrierArrivals : Prop := ∀ s r k w pc front h, s.share? r.tid r.core = some h →
  let late := fun (u : State) (b : BarName) =>
    ((u.group k r.core b).any fun p => !(u.missing p b).isEmpty || (u.share? p.1 p.2).isNone) && u.noneDead k.lid
  (∀ f : BaraOp, ready s r (.bara f) k w pc front = true →
    let i : Instr := .bara f
    let b : BarName := ⟨f.lvl, f.n, f.shape.toNat, barKey f.lvl w⟩
    i.takes w front ≠ 0 → s.barFault k h w pc b true = none → w.fenced (arriveScope f.lvl) = true →
    late (s.arrive r (i.takes w front) b) b = true →
    ∃ t, exec i s = .next t ∧ Leaves s t r w i front
      { Expect.arrives s r k h w f.lvl with
        share := h.modBar b fun x => x.reached b w r.wix (i.takes w front) (w.given k r.core)
        wave := w.reached b (h.bar b).phase } fun _ => Kept i) ∧
  (∀ f : BarOp, ready s r (.bar f) k w pc front = true →
    let i : Instr := .bar f
    let b : BarName := ⟨f.lvl, f.n, f.shape.toNat, barKey f.lvl w⟩
    let bw : BarWait := { lvl := f.lvl, n := f.n, shape := f.shape.toNat, phase := (h.bar b).phase, dest := f.k, mask := i.takes w front, pc }
    i.takes w front ≠ 0 → s.barFault k h w pc b true = none → w.fenced (arriveScope f.lvl) = true → s.fatalIn k = false →
    late ((s.arrive r (i.takes w front) b).barWait r (i.takes w front) pc (h.bar b).phase b f.k) b = true →
    ∃ t, exec i s = .next t ∧ LeavesWith s t r
      { Expect.arrives s r k h w f.lvl with
        share := h.modBar b fun x => x.reached b w r.wix (i.takes w front) (w.given k r.core)
        wave := { w.reached b (h.bar b).phase with barWaits := w.barWaits ++ [bw] } }
      fun w' => AtBar w w' (i.takes w front)) ∧
  (let faulty := fun (i : Instr) (b : BarName) (arrives : Bool) => ∀ l code, ready s r i k w pc front = true →
     s.launchOf? r.tid = some l → l.haltFatal = false → k.prop = none → i.takes w front ≠ 0 → k.goesOn r w (i.takes w front) = true →
     s.barFault k h w pc b arrives = some code → ∃ t, exec i s = .next t ∧ Faults s t r k h w i front { code, detail := barDetail b }
   (∀ f : BaraOp, faulty (.bara f) ⟨f.lvl, f.n, f.shape.toNat, barKey f.lvl w⟩ true) ∧
   (∀ f : BarOp, faulty (.bar f) ⟨f.lvl, f.n, f.shape.toNat, barKey f.lvl w⟩ true ∧
     faulty (.barw f) ⟨f.lvl, f.n, f.shape.toNat, barKey f.lvl w⟩ false)) ∧
  ∀ (b : BarName) (arrives : Bool),
    let d := shapeDims (s.kernelOf k) b.shape
    let apart := (∃ ln th, w.thread? ln = some th ∧ th.pc ≠ pc ∧ (b.lvl = .wave → th.park = .runs)) ∨
      (b.lvl ≠ .wave ∧ ∃ ln th, w.thread? ln = some th ∧ th.park ≠ .runs)
    let other := b.lvl = .polder ∧ arrives = true ∧ ∃ c ∈ subCores (s.kernelOf k) b.shape h.c, ∃ g x, s.share? k.tid c = some g ∧
      (g.bar b).shape = some x ∧ shapeDims (s.kernelOf k) x ≠ d
    let outside := (b.lvl = .polder ∧ ((s.kernelOf k).polW < d.1 ∨ (s.kernelOf k).polH < d.2)) ∨
      (b.lvl = .launch ∧ (k.parent ≠ none ∨ (s.kernelOf k).launchBar = false))
    (s.barFault k h w pc b arrives = some 0x0B ↔ outside) ∧
    (s.barFault k h w pc b arrives = some 0x0C ↔ ¬ outside ∧ (apart ∨ other)) ∧
    (s.barFault k h w pc b arrives = none ↔ ¬ outside ∧ ¬ apart ∧ ¬ other)

/-- R79, R314: BARW returns the flags of the recorded phase at once if it has completed, else its threads wait; without an
arrival of the wave they take BARDIV. That a BARW which returns at once discards the task's clean lines on the core is the
model's choice (log 127). -/
def Obligations.BarrierWaits : Prop := (∀ (f : BarOp) s r k w pc front h l, ready s r (.barw f) k w pc front = true →
    s.share? r.tid r.core = some h → s.launchOf? r.tid = some l → l.haltFatal = false → k.prop = none →
    let i : Instr := .barw f
    let b : BarName := ⟨f.lvl, f.n, f.shape.toNat, barKey f.lvl w⟩
    i.takes w front ≠ 0 → k.goesOn r w (i.takes w front) = true → s.barFault k h w pc b false = none →
    w.recs.find? (fun y => y.lvl == f.lvl && y.n == f.n.val) = none →
    ∃ t, exec i s = .next t ∧ Faults s t r k h w i front { code := 0x0C, detail := barDetail b }) ∧
  ∀ (f : BarOp) s r k w pc front h x, ready s r (.barw f) k w pc front = true →
  s.share? r.tid r.core = some h →
  let i : Instr := .barw f
  let b : BarName := ⟨f.lvl, f.n, f.shape.toNat, barKey f.lvl w⟩
  let bw : BarWait := { lvl := f.lvl, n := f.n, shape := f.shape.toNat, phase := x.phase, dest := f.k, mask := i.takes w front, pc }
  i.takes w front ≠ 0 → s.barFault k h w pc b false = none →
  w.recs.find? (fun y => y.lvl == f.lvl && y.n == f.n.val) = some x →
  shapeDims (s.kernelOf k) x.shape = shapeDims (s.kernelOf k) f.shape.toNat →
  (∀ last, x.done = some last →
    ∃ t, exec i s = .next t ∧ Leaves s t r w i front
      { Expect.discards s r k h w with
        wave := { f.k.elim w (fun n => w.setS n (last.setWidth 32)) with clock := Clock.join w.clock x.clock } }
      fun _ th => Kept i { th with synced := Clock.join th.synced x.clock }) ∧
  (x.done = none → s.fatalIn k = false →
    (s.barWait r (i.takes w front) pc x.phase b f.k).noneDead k.lid = true →
    ∃ t, exec i s = .next t ∧ LeavesWith s t r
      { Expect.same s k h w with wave := { w with barWaits := w.barWaits ++ [bw] } } fun w' => AtBar w w' (i.takes w front))

/-- R79, R136: when the last member of a barrier has arrived, its phase advances on every core of the group, its masks and
flags are cleared, and a wave that waits in it alone goes on with the flags of the whole group in its s-register. The same
through BARA and BAR of the last arriver, at every level, where no access still has a race to report. -/
def Obligations.BarrierCompletion : Prop := (∀ s r k w pc front h, s.share? r.tid r.core = some h → w.barWaits = [] →
    (s.tasks.all fun t => t.races.isEmpty) = true →
    let complete := fun (i : Instr) (b : BarName) (u : State) (eff : BitVec 5 → Clock → Wave → Prop) =>
      ready s r i k w pc front = true → i.takes w front ≠ 0 → s.barFault k h w pc b true = none →
      w.fenced (arriveScope b.lvl) = true →
      let g := u.group k r.core b
      g.Nodup → (b.lvl = .launch → u.allAdmitted k.lid = true) →
      (∀ p ∈ g, u.missing p b = [] ∧ ∃ x, u.share? p.1 p.2 = some x ∧ (x.waves.map (·.wix)).Nodup) →
      (u.tryComplete r.tid r.core b).noneDead k.lid = true → s.fatalIn k = false →
      let last := (g.filterMap fun p => (u.share? p.1 p.2).map fun x => (x.bar b).flags).foldl (· ||| ·) 0
      ∃ t w', exec i s = .next t ∧ t.wave? r = some w' ∧ eff last (u.groupClock g r.tid b) w' ∧ ∀ p ∈ g, ∀ x, u.share? p.1 p.2 = some x →
        (∃ x', t.share? p.1 p.2 = some x' ∧
          x'.bar b = { lvl := b.lvl, n := b.n, key := b.key, phase := ((x.bar b).phase + 1) % 2 ^ 32 }) ∧
        ∀ v ∈ x.waves, (⟨p.1, p.2, v.wix⟩ : WaveRef) ≠ r → barKey b.lvl v = b.key → ∀ bw, v.barWaits = [bw] → bw.lvl = b.lvl →
          bw.n = b.n → bw.phase = (x.bar b).phase → ∃ v', t.wave? ⟨p.1, p.2, v.wix⟩ = some v' ∧ v'.barWaits = [] ∧
            (∀ n, bw.dest = some n → v'.rs n = last.setWidth 32) ∧ Became v v' fun ln th =>
              some (if bw.mask.testBit ln ∧ th.park = .runs then { th with
                atBar := false, pc := bw.pc + 4, latch := [], synced := Clock.join th.synced (u.groupClock g p.1 b) }
              else { th with latch := [] })
    (∀ f : BaraOp, let b : BarName := ⟨f.lvl, f.n, f.shape.toNat, barKey f.lvl w⟩
      complete (.bara f) b (s.arrive r ((Instr.bara f).takes w front) b) fun _ _ w' =>
        Became w w' fun ln th => some (if front.testBit ln then { th with pc := th.pc + 4, latch := [] } else { th with latch := [] })) ∧
    ∀ f : BarOp, let b : BarName := ⟨f.lvl, f.n, f.shape.toNat, barKey f.lvl w⟩
      complete (.bar f) b ((s.arrive r ((Instr.bar f).takes w front) b).barWait r ((Instr.bar f).takes w front) pc (h.bar b).phase b f.k)
        fun last clock w' => w'.barWaits = [] ∧ (∀ n, f.k = some n → w'.rs n = last.setWidth 32) ∧ Became w w' fun ln th =>
          some (if front.testBit ln then { th with pc := th.pc + 4, latch := [], atBar := false, synced := Clock.join th.synced clock }
            else { th with latch := [] })) ∧
  ∀ (s : State) tid c k h (b : BarName), s.task? tid = some k → s.share? tid c = some h →
  b.lvl ≠ .polder → b.lvl ≠ .launch → s.missing (tid, c) b = [] → k.races = [] → (h.waves.map (·.wix)).Nodup →
  let t := s.tryComplete tid c b
  (∃ h', t.share? tid c = some h' ∧
    h'.bar b = { lvl := b.lvl, n := b.n, key := b.key, phase := ((h.bar b).phase + 1) % 2 ^ 32 }) ∧
  ∀ w ∈ h.waves, barKey b.lvl w = b.key → ∀ bw, w.barWaits = [bw] → bw.lvl = b.lvl → bw.n = b.n → bw.phase = (h.bar b).phase →
    ∃ w', t.wave? ⟨tid, c, w.wix⟩ = some w' ∧ w'.barWaits = [] ∧
      (∀ n, bw.dest = some n → w'.rs n = (h.bar b).flags.setWidth 32) ∧
      Became w w' fun ln th => some (if bw.mask.testBit ln ∧ th.park = .runs then { th with
          atBar := false, pc := bw.pc + 4, latch := [], synced := Clock.join th.synced (s.groupClock (s.group k c b) tid b) }
        else { th with latch := [] })

/-- R86, R149, R152, R347: FENCE and FENCEX end once the stores that they order are performed, and discard the task's clean
lines where they say so; before that the wave holds its slot, and an event ends the wait. Readers on the to-class paths
then see the writes on the from-class paths that the wave has observed complete. FENCEX to the lanes alone waits for none. -/
def Obligations.Fences : Prop :=
  (∀ (f : FenceOp) s r k w pc front h, ready s r (.fence f) k w pc front = true → s.share? r.tid r.core = some h →
    let i : Instr := .fence f
    (i.takes w front = 0 → ∃ t, exec i s = .next t ∧ Leaves s t r w i front (Expect.same s k h w) fun _ => Kept i) ∧
    (i.takes w front ≠ 0 → w.fenced f.scope = true → ∃ t, exec i s = .next t ∧ Leaves s t r w i front
      (if f.scope = .wave ∨ f.scope = .core then Expect.same s k h w else Expect.discards s r k h w) fun _ => Kept i) ∧
    (i.takes w front ≠ 0 → w.fenced f.scope = false → ∃ t, exec i s = .next t ∧
      LeavesWaiting s t r w i front (Expect.same s k h w) (.fence (i.takes w front) f.scope f.s))) ∧
  (∀ (f : FencexOp) s r k w pc front h, ready s r (.fencex f) k w pc front = true → s.share? r.tid r.core = some h →
    let i : Instr := .fencex f
    ((f.frm.getLsbD 0 = false ∨ f.into.toNat = 1 ∨ w.stores = []) → ∃ t, exec i s = .next t ∧ Leaves s t r w i front
      ((if f.into.getLsbD 0 then Expect.discards s r k h w else Expect.same s k h w).shows r f.frm.toNat f.into.toNat) fun _ => Kept i) ∧
    (f.frm.getLsbD 0 = true → f.into.toNat ≠ 1 → w.stores ≠ [] → ∃ t, exec i s = .next t ∧
      LeavesWaiting s t r w i front (Expect.same s k h w) (.fencex (i.takes w front) f.frm.toNat f.into.toNat f.s))) ∧
  (∀ s r k h w mask stop, s.task? r.tid = some k → s.share? r.tid r.core = some h → s.wave? r = some w → s.fatalIn k = false →
    (∀ scope, w.wait = .fence mask scope stop → w.fenced scope = true → ∃ t, exec (.fenceCompletion r) s = .next t ∧
      LeavesWith s t r (if scope = .wave ∨ scope = .core then Expect.same s k h w else Expect.discards s r k h w)
        fun w' => w'.wait = .none ∧ Became w w' (heldOn mask stop)) ∧
    (∀ frm into, w.wait = .fencex mask frm into stop → (frm.testBit 0 = false ∨ into = 1 ∨ w.stores = []) →
      ∃ t, exec (.fencexCompletion r) s = .next t ∧
      LeavesWith s t r ((if into.testBit 0 then Expect.discards s r k h w else Expect.same s k h w).shows r frm into)
        fun w' => w'.wait = .none ∧ Became w w' (heldOn mask stop))) ∧
  (∀ frm into q wave space a es, into.testBit q = true →
    (∀ e ∈ es, e.space = space → e.addr ≤ a → a < e.addr + e.old.length → e.seenBy.contains wave = true ∧ frm.testBit e.path = true) →
    oldBytes q space a (showOlder frm into wave es) = [])

/-- R92, R149, R152: FCMP, DCMP, FMIN, FMAX, DMIN and DMAX go on wherever their wave stands ready, and FENCE and FENCEX
where nothing that they order is under way; each changes the executing threads as said and nothing outside its wave but for
the clean lines of its task and which older bytes other paths may see. The events that end their waits let the wave go on. -/
def Obligations.ComparesMinimaAndFencesComplete : Prop :=
  (∀ f : CmpOp FCond, (∃ val fl, GivesP (.fcmp f) f.p val fl) ∧ ∃ val fl, GivesP (.dcmp f) f.p val fl) ∧
  (∀ f : TOp, (∃ val fl, Gives32 (.fmin f) f.d f.w val fl) ∧ (∃ val fl, Gives32 (.fmax f) f.d f.w val fl) ∧
    (∃ val fl, Gives64 (.dmin f) f.d f.w val fl) ∧ ∃ val fl, Gives64 (.dmax f) f.d f.w val fl) ∧
  (∀ (f : FenceOp) s r k w pc front h, ready s r (.fence f) k w pc front = true → s.share? r.tid r.core = some h →
    ((Instr.fence f).takes w front = 0 ∨ ∀ p ∈ w.stores, fenceHeld f.scope p.2.1 = false) →
    ∃ t, exec (.fence f) s = .next t ∧ (Leaves s t r w (.fence f) front (Expect.same s k h w) (fun _ => Kept (.fence f)) ∨
      Leaves s t r w (.fence f) front (Expect.discards s r k h w) fun _ => Kept (.fence f))) ∧
  (∀ (f : FencexOp) s r k w pc front h, ready s r (.fencex f) k w pc front = true → s.share? r.tid r.core = some h →
    (f.frm.getLsbD 0 = true → f.into.toNat = 1 ∨ w.stores = []) →
    ∃ t e, exec (.fencex f) s = .next t ∧ (e = Expect.same s k h w ∨ e = Expect.discards s r k h w) ∧
      Leaves s t r w (.fencex f) front (e.shows r f.frm.toNat f.into.toNat) fun _ => Kept (.fencex f)) ∧
  (∀ s r k h w mask stop, s.task? r.tid = some k → s.share? r.tid r.core = some h → s.wave? r = some w → s.fatalIn k = false →
    (∀ scope, w.wait = .fence mask scope stop → (∀ p ∈ w.stores, fenceHeld scope p.2.1 = false) →
      ∃ t w', exec (.fenceCompletion r) s = .next t ∧ t.mem = s.mem ∧ t.wave? r = some w' ∧ w'.wait = .none ∧
        Became w w' (heldOn mask stop)) ∧
    (∀ frm into, w.wait = .fencex mask frm into stop → (frm.testBit 0 = true → into = 1 ∨ w.stores = []) →
      ∃ t w', exec (.fencexCompletion r) s = .next t ∧ t.mem = s.mem ∧ t.wave? r = some w' ∧ w'.wait = .none ∧
        Became w w' (heldOn mask stop))) ∧
  ∀ kind, fenceHeld .wave kind = false ∧ (fenceHeld .core kind = true ↔ kind = .core) ∧
    (fenceHeld .task kind = true ↔ kind = .core ∨ kind = .slice) ∧ (fenceHeld .dev kind = true ↔ kind ≠ .host) ∧
    fenceHeld .sys kind = true

/-! ### Channels and copies -/

/-- R127, R130, R133, R134, R323, R325–R327, R335: CHINIT makes a declared channel valid and empty, CHADV and CHPUB move a
pointer by counts of elements within what the wave has observed, CHQRY loads the status, CHFREE gives the channel up. A CHPUB
comes after those of lower k.wix in its core cycle: after a higher one it waits for the next. -/
def Obligations.ChannelCommands : Prop :=
  (∀ f : ChinitOp, Commands (.chinit f)
    (fun x => x.declared f.ch = true ∧ (x.chan f.ch).valid = false ∧ mayProduce f.prod (x.chan f.ch).space = true ∧
      mayConsume f.cons (x.chan f.ch).space = true ∧ x.unseen f.ch.val = true)
    fun x => { x.same with
      share := x.h.modChan f.ch fun c => { c with valid := true, prod := f.prod, cons := f.cons, p := 0, q := 0, part := 0
                                                  lastTag := 0, lastBytes := 0, cancelled := false, clock := [] }
      wave := x.w.unsees f.ch }) ∧
  (∀ f : ChnOp, Commands (.chadv f)
    (fun x => x.declared f.ch = true ∧ (x.chan f.ch).valid = true ∧ (x.chan f.ch).cons = .lanes ∧
      (x.chan f.ch).q + x.arg f.n * (x.chan f.ch).elem ≤ (x.w.seen f.ch).1 ∧ x.w.loadsFrom (x.chan f.ch) = false)
    fun x =>
      let n := x.arg f.n * (x.chan f.ch).elem
      if n = 0 then x.same
      else { x.same with share := x.h.modChan f.ch fun c => { c with q := c.q + n, clock := x.w.gives x.k x.r.core f.ch (x.chan f.ch) }
                         wave := x.w.observe f.ch (x.w.seen f.ch).1 ((x.chan f.ch).q + n)
                         core := x.coreWith fun k => if k.matrix.holder = some x.k.tid then { k with matrix := { k.matrix with
                           metas := k.matrix.metas.filter fun m => !(m.ch == f.ch && m.pos + 8192 ≤ (x.chan f.ch).q + n) } } else k }) ∧
  (∀ f : ChnOp, Commands (.chpub f)
    (fun x => x.declared f.ch = true ∧ (x.chan f.ch).valid = true ∧ (x.chan f.ch).prod = .lanes ∧
      (x.chan f.ch).p + x.arg f.n * (x.chan f.ch).elem ≤ (x.w.seen f.ch).2 + (x.chan f.ch).size ∧
      (x.chan f.ch).pubLater x.s.now x.r.wix = false)
    fun x =>
      let n := x.arg f.n * (x.chan f.ch).elem
      if n = 0 then x.same
      else { x.same with share := x.h.modChan f.ch fun c => 
          { c with p := c.p + n, clock := x.w.gives x.k x.r.core f.ch (x.chan f.ch), pub := some (x.s.now / 4, x.r.wix) }
                         wave := x.w.observe f.ch ((x.chan f.ch).p + n) (x.w.seen f.ch).2 }) ∧
  (∀ f : ChnOp, AtCmd (.chpub f) fun x _ => x.declared f.ch = true → (x.chan f.ch).pubLater x.s.now x.r.wix = true →
    ∃ t w', exec (.chpub f) x.s = .next t ∧ t.wave? x.r = some w' ∧ w'.wait = .retry 0 false ∧ Became x.w w' (fun _ th => some th) ∧
      (t.share? x.r.tid x.r.core).map (·.chans) = some x.h.chans) ∧
  (∀ (c : Chan) now wix, c.pubLater now wix = true ↔ ∃ n, c.pub = some (now / 4, n) ∧ wix < n) ∧
  (∀ f : ChqryOp, Commands (.chqry f) (fun x => x.declared f.ch = true) fun x =>
    let c := x.chan f.ch
    x.delivers { x.same with wave := if c.valid then x.w.sees f.ch c else x.w } f.d
      (if c.valid then BitVec.ofNat 32 (2 ^ 31 + (c.p - c.q)) else 0)) ∧
  (∀ f : ChOp, Commands (.chfree f)
    (fun x => x.declared f.ch = true ∧ (x.chan f.ch).valid = true ∧ x.s.engineNames x.k x.r.core f.ch = false ∧ x.unseen f.ch.val = true)
    fun x => { x.same with
      share := x.h.modChan f.ch fun c => { c with valid := false, p := 0, q := 0, part := 0, clock := [] }
      wave := x.w.unsees f.ch
      core := x.coreWith fun k => if k.matrix.holder = some x.r.tid then
        { k with matrix := { k.matrix with metas := k.matrix.metas.filter (·.ch != f.ch.val) } } else k })

/-- R84, R129, R133, R152, R324, R330: CHWAIT returns once the bytes are published or free, COPYW once the copies up to its
tag are complete, CHFREE once no engine command names the channel; before that they wait, and an event ends the wait. CHWAIT
and COPYW observe the engines' writes that they tell of complete. -/
def Obligations.ChannelWaits : Prop :=
  (∀ f : ChwaitOp,
    let n := fun (x : Cmd) => x.arg f.n * (x.chan f.ch).elem
    let enough := fun (x : Cmd) =>
      if f.free then n x + (x.chan f.ch).p ≤ (x.chan f.ch).q + (x.chan f.ch).size else (x.chan f.ch).q + n x ≤ (x.chan f.ch).p
    let fit := fun (x : Cmd) => x.declared f.ch = true ∧ (x.chan f.ch).valid = true ∧ n x ≤ (x.chan f.ch).size ∧
      x.w.held.all (·.ch != f.ch.val) = true
    Commands (.chwait f) (fun x => fit x ∧ enough x) (fun x =>
      { x.same with wave := x.w.sees f.ch (x.chan f.ch) }.saw x.r (x.s.chanSeen x.r f.ch)) ∧
    CommandWaits (.chwait f) (fun x => fit x ∧ ¬ enough x) fun x => .chwait x.take f.ch (n x) f.free) ∧
  (∀ ch c bytes free, WaitEnds .chwaitReturn
    (fun _ _ _ h w mask => w.wait = .chwait mask ch bytes free ∧ w.still mask ≠ 0 ∧ h.chans[ch]? = some c ∧ c.valid = true ∧
      w.held.all (·.ch != ch) = true ∧ (if free then bytes + c.p ≤ c.q + c.size else c.q + bytes ≤ c.p))
    fun s r k h w => { Expect.same s k h w with wave := w.sees ch c }.saw r (s.chanSeen r ch)) ∧
  (∀ f : ChOp, CommandWaits (.chfree f)
    (fun x => x.declared f.ch = true ∧ (x.chan f.ch).valid = true ∧ x.s.engineNames x.k x.r.core f.ch = true)
    fun x => .chfree x.take f.ch) ∧
  (∀ ch, WaitEnds .chfreeReturn
    (fun s r k h w mask => w.wait = .chfree mask ch ∧ s.engineNames k r.core ch = false ∧
      unseenBy h r.wix ch = true)
    fun s r k h w => { Expect.same s k h w with
      share := h.modChan ch fun c => { c with valid := false, p := 0, q := 0, part := 0, clock := [] }
      wave := w.unsees ch
      core := fun a b => if (a, b) = s.coreXY k r.core ∧ (s.core a b).matrix.holder = some r.tid then
          { s.core a b with matrix := { (s.core a b).matrix with metas := (s.core a b).matrix.metas.filter (·.ch != ch) } }
        else s.core a b }) ∧
  (∀ f : TagOp,
    let fit := fun (x : Cmd) => x.arg f.tag ≤ x.w.lastTag ∧ x.w.held.all (x.arg f.tag < ·.tag) = true
    Commands (.copyw f) (fun x => fit x ∧ x.s.copiesDone x.r (x.arg f.tag) = true)
      (fun x => x.same.saw x.r (ownCopies x.r (x.arg f.tag))) ∧
    CommandWaits (.copyw f) (fun x => fit x ∧ x.s.copiesDone x.r (x.arg f.tag) = false) fun x => .copyw x.take (x.arg f.tag)) ∧
  (∀ tag, WaitEnds .copywReturn
    (fun s r _ _ w mask => w.wait = .copyw mask tag ∧ w.held.all (tag < ·.tag) = true ∧ s.copiesDone r tag = true)
    fun s r k h w => (Expect.same s k h w).saw r (ownCopies r tag))

/-- R235, R328, R329, R389: COPY, COPYT, COPYM and COPYO take the next tag and join the queue of their context; a box
copy captures its descriptor. -/
def Obligations.CopiesQueued : Prop :=
  (∀ f : CopyOp, Commands (.copy f)
    (fun x => x.declared f.ch = true ∧ (x.chan f.ch).valid = true ∧ (x.chan f.ch).prod = .copy ∧ x.arg f.cnt ≠ 0 ∧
      x.arg f.cnt % 64 = 0 ∧ x.w.lastTag ≠ 0xFFFFFFFF)
    fun x => x.queued (x.copy .lin f.ch (x.th.ra f.ar) (x.arg f.cnt) [x.r.core] [] 0)) ∧
  (∀ (f : CopytOp) d, Commands (.copyt f)
    (fun x => x.declared f.ch = true ∧ (x.chan f.ch).valid = true ∧ (x.chan f.ch).prod = .copy ∧ x.desc f.slot = some d ∧
      x.w.lastTag ≠ 0xFFFFFFFF)
    fun x => x.queued (x.copy .box f.ch (BitVec.ofNat 72 (num (d.take 9))) (descBox d) [x.r.core] d (src32 x.w x.ln x.th f.off))) ∧
  (∀ (f : CopymOp) d, Commands (.copym f)
    (fun x =>
      let dims := shapeDims (x.s.kernelOf x.k) f.shape.toNat
      x.declared f.ch = true ∧ dims.1 ≤ (x.s.kernelOf x.k).polW ∧ dims.2 ≤ (x.s.kernelOf x.k).polH ∧ x.desc f.slot = some d ∧
      x.w.lastTag ≠ 0xFFFFFFFF ∧
      ∀ c ∈ subCores (x.s.kernelOf x.k) f.shape.toNat x.r.core, ∃ h ch, x.s.share? x.r.tid c = some h ∧
        h.chans[f.ch.val]? = some ch ∧ ch.valid = true ∧ ch.prod = .copy)
    fun x => x.queued (x.copy .mcast f.ch (BitVec.ofNat 72 (num (d.take 9))) (descBox d)
      (subCores (x.s.kernelOf x.k) f.shape.toNat x.r.core) d (src32 x.w x.ln x.th f.off))) ∧
  (∀ f : CopyoOp, Commands (.copyo f)
    (fun x => x.declared f.ch = true ∧ (if f.plain then (x.chan f.ch).valid = false ∧ ((x.chan f.ch).space = 0 ∨ (x.chan f.ch).space = 2)
        else (x.chan f.ch).valid = true ∧ (x.chan f.ch).cons = .copy) ∧
      x.arg f.cnt ≠ 0 ∧ x.arg f.cnt % 64 = 0 ∧ x.arg f.cnt ≤ (x.chan f.ch).size ∧ x.w.lastTag ≠ 0xFFFFFFFF)
    fun x => x.queued (x.copy (if f.plain then .plain else .out) f.ch (x.th.ra f.ar) (x.arg f.cnt) [x.r.core] [] 0))

/-- R237, R332, R341, R369, R389: COPYX cancels the wave's copies from a tag on, CPSTAT loads a count (that a multicast counts
its slowest destination is log 54, that a copy which COPYX stopped counts as complete log 112), PREF only
translates and transfers (log 52), TDESC captures a descriptor, DROP leaves the bytes of an exclusive range unspecified and every other
byte of device memory as it was. -/
def Obligations.CopyControl : Prop :=
  (∀ f : TagOp, Commands (.copyx f) (fun x => x.arg f.tag ≤ x.w.lastTag ∧ ∀ k ∈ x.s.copiesOf x.r, k.got = []) fun x => { x.same with
    core := x.coreWith fun c => { c with copies := c.copies.map fun q => q.filter fun k =>
      !(k.tid == x.r.tid && k.core == x.r.core && k.wix == x.r.wix && decide (x.arg f.tag ≤ k.tag)) } }) ∧
  (∀ f : CpstatOp, Commands (.cpstat f) (fun x => x.w.held = []) fun x =>
    let oldest := (sortBy (fun (a b : CopyCmd) => a.tag < b.tag) (x.s.copiesOf x.r)).head?
    let done := oldest.elim x.w.lastTag fun k => k.tag - 1
    let e := if f.sel.val = 0 then x.same.saw x.r (ownCopies x.r done) else x.same
    x.delivers e f.d (BitVec.ofNat 32 (match f.sel.val with
      | 0 => done
      | 1 => x.w.lastTag
      | _ => oldest.elim 0 fun k => 64 * (k.dests.map (·.2)).foldl min (k.cnt / 64)))) ∧
  (∀ (f : RangeOp) l, Commands (.pref f)
    (fun x => x.arg f.cnt ≠ 0 ∧ x.arg f.cnt % 64 = 0 ∧ x.s.launchOf? x.r.tid = some l)
    fun x => { x.same with rest := x.s.prefetch (copyViewer x.xy.1 x.xy.2) l.asid (x.th.ra f.ar).toNat (x.arg f.cnt)
                              (384 + coreRequester x.xy) }) ∧
  (∀ (s : State) v asid va n e req, n ≠ 0 → va < 2 ^ 72 → va % 65536 + n ≤ 65536 → s.cached v asid (va / 64 * 64) = some e →
    e.attr.r = true → e.attr.target = 0 → s.prefetch v asid va n req =
      (s.owe 8 ((va % 64 + n + 63) / 64)).hbmRequests 3 req 0 ((va % 64 + n + 63) / 64)) ∧
  (∀ (f : TdescOp) l e,
    let va := fun (x : Cmd) => (x.th.ra f.ar).toNat
    let d := fun (x : Cmd) => x.s.copyView x.k (x.s.pageTag l e.attr.buf) e.attr.cell (e.pa (va x)) (va x) 256
    Commands (.tdesc f)
      (fun x => va x % 64 = 0 ∧ va x % 65536 + 256 ≤ 65536 ∧ x.s.launchOf? x.r.tid = some l ∧
        x.s.cached (copyViewer x.xy.1 x.xy.2) l.asid (va x) = some e ∧ e.attr.r = true ∧ e.attr.target = 0 ∧ e.attr.mod = false ∧
        (l.checked = false ∨ x.s.noEarlier x.k = true) ∧ x.s.outside x.k (va x) 256 = false ∧ x.s.badIn (e.pa (va x)) 256 = false ∧ descOk (d x) = true)
      fun x => { x.same with wave := { x.w with tdesc := x.w.tdesc.set (if f.slot then 1 else 0) (some (d x)) } }) ∧
  (∀ (f : RangeOp) l e, AtCmd (.drop f) fun x front =>
    let va := (x.th.ra f.ar).toNat
    let n := x.arg f.cnt
    n ≠ 0 → n % 64 = 0 → va % 64 = 0 → va % 65536 + n ≤ 65536 → x.k.isGraph = true →
    covered (x.k.extents.filter (·.2.2)) va n = true → x.w.fenced .task = true → x.s.launchOf? x.r.tid = some l →
    x.s.cached (laneViewer x.k.tid x.xy.1 x.xy.2) l.asid va = some e → e.attr.w = true → e.attr.target = 0 →
    e.pa va % 64 = 0 → x.s.mem.wf = true →
    let race := (racesOf x.k (x.s.accessOf x.k x.r x.w x.ln x.th 4 (e.pa va) va n true false)).1
    (race.isSome = true → ∃ t, exec (.drop f) x.s = .next t ∧ t.mem = x.s.mem) ∧
    (race = none → ∃ t w', exec (.drop f) x.s = .next t ∧ t.wave? x.r = some w' ∧ w'.base = x.w.base ∧
      Advanced x.w w' (.drop f) front x.take (fun _ => Kept (.drop f)) ∧ t.hostMem = x.s.hostMem ∧ t.peerMem = x.s.peerMem ∧
      (∀ a, t.mem.get a = if e.pa va ≤ a ∧ a < e.pa va + n then Config.freeByte x.s.free a else x.s.mem.get a) ∧
      ∃ k', t.task? x.r.tid = some k' ∧ k'.shadow = x.k.shadow ∧ k'.accesses.length = x.k.accesses.length + 1))

/-- R123, R130, R132, R214, R234–R236: a copy into a channel reads its next unit piece by piece for one destination with room
(each destination reads for itself: log 137), and
with the last piece delivers the 64 bytes and publishes them; a COPYO fires once its count is published, writes its next unit
granule by granule as a store of its task, or to host or peer memory, and consumes its count with the last one; the plain form
reads its space from the base and consumes nothing. A piece of a linear copy or of a box is what the task sees there, a
position outside the tensor reads as zeros. -/
def Obligations.CopyUnits : Prop := ∀ (s : State) x y ctx k q t l,
  nth (s.core x y).copies ctx [] = k :: q → k.fault = none → s.task? k.tid = some t → t.st = .resident → s.launchOf? k.tid = some l →
  (∀ dest d done c bs u, k.dests[dest]? = some (d, done) → (k.kind = .lin ∨ k.kind = .box ∨ k.kind = .mcast) → 64 * done < k.cnt →
    s.mayTransfer 8 = true → ((s.share? k.tid d).bind fun h => h.chans[k.ch]?) = some c → c.valid = true → c.p + 64 ≤ c.q + c.size →
    s.unitPiece x y t l k done (k.held d).length = (.ok bs, u) →
    let unit := k.held d ++ bs
    (unit.length < 64 → exec (.copyUnitDelivery x y ctx dest) s = .next (u.setHead x y ctx (k.hold d unit))) ∧
    (64 ≤ unit.length → exec (.copyUnitDelivery x y ctx dest) s = .next (((u.modShare k.tid d fun h =>
      ((h.setMem c.space ((h.mem c.space).write (c.base + c.p % c.size) unit)).noOlder c.space (c.base + c.p % c.size) 64).modChan k.ch
        fun c => { c with p := c.p + 64, lastTag := k.tag, lastBytes := 64 * (done + 1) }).unitMoved x y k.since).unitDone x y ctx k d))) ∧
  (∀ done have_ n, have_ < 64 →
    let piece := fun (va : Nat) (u : State) (want : Nat) => ∀ e, u.cached (copyViewer x y) l.asid va = some e → e.attr.r = true →
      let pa := e.pa va
      let len := min want (granule e.attr - pa % granule e.attr)
      u.outside t va len = false → u.dataErr e.attr pa len = false → (l.checked && (List.range len).any fun i => u.mustWait t (pa + i)) = false →
      e.attr.mod = false →
      s.unitPiece x y t l k done have_ = (.ok (if e.attr.target = 0 then u.copyView t (s.pageTag l e.attr.buf) e.attr.cell pa va len
        else if e.attr.target = 1 then u.hostMem.read pa len else u.peerMem.read (peerAddr e.attr.peer pa) len), u)
    let fresh := fun (b : Bool) (va : Nat) => if b then s.renew (.copyEngine x y) l.asid va else s
    (k.kind = .lin → k.va.toNat % 64 = 0 →
      let va := (k.va.toNat + 64 * done + have_) % 2 ^ 72
      (∀ e, (fresh ((done == 0 && have_ == 0) || va % 65536 == 0) va).cached (copyViewer x y) l.asid va = some e → e.attr.target.toNat < 3) →
      piece va (fresh ((done == 0 && have_ == 0) || va % 65536 == 0) va) (64 - have_)) ∧
    (k.kind = .box ∨ k.kind = .mcast → n = 2 ^ descLog k.desc → n ≤ 16 →
      let dims := dimsOf k.desc (descRank k.desc)
      let i := done * (64 / n) + have_ / n
      (boxPos dims i = none → s.unitPiece x y t l k done have_ = (.ok (List.replicate n 0), s)) ∧
      (∀ d, boxPos dims i = some d → (k.boxVa d) % n = 0 →
        let u := fresh (have_ % n == 0 && k.newPage dims i (k.boxVa d)) (k.boxVa d)
        have_ % n = 0 → (∀ e, u.cached (copyViewer x y) l.asid (k.boxVa d) = some e → e.attr.target.toNat < 3) → piece (k.boxVa d) u n))) ∧
  (∀ (dims : List Dim) i, (∀ m ∈ dims, 1 ≤ m.box) →
    let at_ := fun (j : Nat) => i / ((dims.take j).map (·.box)).prod % ((dims[j]?).map (·.box)).getD 1
    boxPos dims i = if dims.zipIdx.all (fun m => at_ m.2 < m.1.extent)
      then some ((dims.zipIdx.map fun m => (at_ m.2 : Int) * m.1.stride).sum) else none) ∧
  (∀ c, ((s.share? k.tid k.core).bind fun h => h.chans[k.ch]?) = some c → k.kind = .out → c.valid = true → c.q + k.cnt ≤ c.p →
    s.consuming x y k.tid k.core k.ch = false → exec (.copyoFire x y ctx) s = .next (s.setHead x y ctx { k with fired := true })) ∧
  (∀ dest d done h c e, k.dests[dest]? = some (d, done) → ((k.kind = .out ∧ k.fired = true) ∨ k.kind = .plain) → 64 * done < k.cnt →
    s.mayTransfer 8 = true → s.share? k.tid d = some h → h.chans[k.ch]? = some c → k.va.toNat % 64 = 0 →
    let plain := ((h.mem c.space).read (c.base + 64 * done) 64).zipIdx.map fun b =>
      s.seenByte h.older 1 c.space (c.base + 64 * done + b.2) b.1
    let left := if k.held d ≠ [] then k.held d else if k.kind = .plain then plain
      else (h.mem c.space).read (c.base + (c.q + 64 * done) % c.size) 64
    let va := (k.va.toNat + 64 * done + (64 - left.length)) % 2 ^ 72
    let u := if (done = 0 ∧ left.length = 64) ∨ va % 65536 = 0 then s.renew (.copyEngine x y) l.asid va else s
    u.cached (copyViewer x y) l.asid va = some e → e.attr.w = true → e.attr.cell = false → e.attr.target.toNat < 3 →
    let n := granule e.attr
    let pa := e.pa va
    e.attr.mod = false → s.outside t va n = false → (e.attr.target ≠ 0 → u.dataErr e.attr pa n = false) →
    let tag := s.pageTag l e.attr.buf
    let bs := left.take n
    let v := if e.attr.target = 0 then ((u.copyOlder k tag va pa n).storeDevice k.tid tag t.exclusive e.attr.ordw va pa bs).markAfter
        k.tid pa n e.attr.ordw
      else if e.attr.target = 1 then u.putHost none pa bs else { u with peerMem := u.peerMem.write (peerAddr e.attr.peer pa) bs }
    let last : Bool := decide (k.cnt ≤ 64 * (done + 1)) && k.kind == .out
    let m := v.modShare k.tid d fun h => h.modChan k.ch fun c =>
      { c with q := if last then c.q + k.cnt else c.q, lastTag := k.tag, lastBytes := 64 * (done + 1) }
    (n < left.length → exec (.copyUnitDelivery x y ctx dest) s = .next (v.setHead x y ctx (k.hold d (left.drop n)))) ∧
    (left.length ≤ n → exec (.copyUnitDelivery x y ctx dest) s =
      .next (((if last then m.passRows t d k.ch (c.q + k.cnt) else m).unitMoved x y k.since).unitDone x y ctx k d)))

/-! ### The matrix engine -/

/-- R222–R229, R360, R362, R367: MRES takes a free engine for the task, in the cycle of an MREL only for the task of that, and
says whether it has it, and takes one back from a task with a higher order key in the cycle of that task's MRES, all of which
then have p = 0; MLOADB and MMUL join
its queue; MREL gives the engine up once nothing is queued and no record is left, and waits for queued loads. -/
def Obligations.MatrixCommands : Prop :=
  (∀ f : MresOp, AtCmd (.mres f) fun x front =>
    let free : Bool := x.matrix.holder.isNone && !x.matrix.freed.any fun f => f.1 == x.s.now / 4 && f.2 != x.k.tid
    let got : Bool := free || decide (x.matrix.holder = some x.k.tid)
    let grant : Grant := { time := x.s.now, r := x.r, take := x.take, p := f.p, pc := x.th.pc }
    let mine : Matrix := { holder := some x.k.tid, core := x.r.core, grants := [grant] }
    (x.s.contends x.k x.matrix = false → ∃ t, exec (.mres f) x.s = .next t ∧ Leaves x.s t x.r x.w (.mres f) front
      { x.same with core := if free then x.coreWith fun k => { k with matrix := mine }
          else if x.matrix.holder = some x.k.tid ∧ x.matrix.grants ≠ [] then x.coreWith fun k => { k with
            matrix := { k.matrix with grants := k.matrix.grants ++ [grant] } } else x.s.core }
      fun _ th => Kept (.mres f) (th.setP f.p got)) ∧
    (x.s.contends x.k x.matrix = true → (∀ g ∈ x.matrix.grants, g.r ≠ x.r) →
      ∃ t w', exec (.mres f) x.s = .next t ∧ (t.core x.xy.1 x.xy.2).matrix = mine ∧ t.wave? x.r = some w' ∧
        Advanced x.w w' (.mres f) front x.take (fun _ th => Kept (.mres f) (th.setP f.p true)) ∧
        ∀ q u, q ≠ x.r → x.s.wave? q = some u → ∃ u', t.wave? q = some u' ∧ ∀ ln, u'.thread? ln = (u.thread? ln).map fun th =>
          (x.matrix.grants.filter fun g => g.r == q && g.take.testBit ln).foldl (fun th g => th.setP g.p false) th)) ∧
  (∀ f : MloadbOp,
    let cls := fun (x : Cmd) => classOf (x.mc 2 6 2)
    let bs := fun (x : Cmd) => x.mc 0 12 4
    let fmt := fun (x : Cmd) => x.w.rfmt (x.mc 2 3 3)
    Commands (.mloadb f)
      (fun x => x.matrix.holder = some x.k.tid ∧ mcClean x.w 0 = true ∧ mcClean x.w 2 = true ∧ x.matrix.queue.length < 4 ∧
        ((cls x).isInt = true ∨ nfmtOk (fmtClass (cls x)) (fmt x) = true) ∧
        ∃ c b, x.h.engineChan f.ch 3 none (some .matrix) = some c ∧ x.h.engineChan (bs x) 3 none (some .matrix) = some b ∧
          tileBytes (cls x) ≤ c.size ∧ 1024 ≤ b.size)
      fun x => x.engineQueues (.load x.r.wix f.ch (bs x) f.arr.toNat f.front (cls x) (fmt x))) ∧
  (∀ f : MmulOp,
    let rows := fun (x : Cmd) => x.mc 1 0 12
    let arr := fun (x : Cmd) => x.mc 1 14 2
    let fmt := fun (x : Cmd) => x.w.rfmt (x.mc 2 0 3)
    Commands (.mmul f)
      (fun x => x.matrix.holder = some x.k.tid ∧ mcClean x.w 0 = true ∧ mcClean x.w 1 = true ∧ mcClean x.w 2 = true ∧ rows x ≠ 0 ∧
        x.matrix.queue.length < 4 ∧ (f.ca.isInt = true ∨ nfmtOk (fmtClass f.ca) (fmt x) = true) ∧
        (x.matrix.plan.bank (if f.swap then !x.matrix.plan.front else x.matrix.plan.front)) = some (f.cb, arr x) ∧
        ∃ p a b, x.h.engineChan f.ch 2 (some .matrix) none = some p ∧ x.h.engineChan (x.mc 0 0 4) 1 none (some .matrix) = some a ∧
          x.h.engineChan (x.mc 0 4 4) 1 none (some .matrix) = some b ∧ 8192 ≤ p.size ∧
          rows x * rowBytes f.ca (arr x) ≤ a.size ∧ rows x * 2 * 2 ^ arr x ≤ b.size)
      fun x => x.engineQueues (.mul x.r.wix f.ch (x.mc 0 0 4) (x.mc 0 4 4) (rows x) (arr x) f.swap f.ca f.cb (fmt x))) ∧
  (∀ f : SOnly, Commands (.mrel f) (fun x => x.matrix.holder = some x.k.tid ∧ x.matrix.metas = [] ∧ x.matrix.queue = [])
    fun x => { x.same with core := x.coreWith fun k => { k with matrix := { freed := some (x.s.now / 4, x.k.tid) } } }) ∧
  (∀ f : SOnly, CommandWaits (.mrel f) (fun x => x.matrix.holder = some x.k.tid ∧ x.matrix.metas = [] ∧ x.matrix.queue ≠ [] ∧
      ∀ q ∈ x.matrix.queue, ∃ a b c d e g h, q = .load a b c d e g h) fun x => .mrel x.take) ∧
  WaitEnds .mrelReturn (fun s r k _ w mask => w.wait = .mrel mask ∧ (s.matrixOf k r.core).queue = [])
    fun s r k h w =>
      let core := fun a b =>
        if (a, b) = s.coreXY k r.core ∧ (s.core a b).matrix.holder = some k.tid then
          { s.core a b with matrix := { freed := some (s.now / 4, k.tid) } } else s.core a b
      { Expect.same s k h w with core }

/-- R107–R109, R230, R377: SCA adds as many records as whole rows have to a block of binary32 accumulators in CBUF, consumes
them and raises the flags in every executing thread. One record adds round (round (T × 2^X) × sA × sB) with
T = S − zB SA − zA SB + 256 zA zB, zero points only where both classes are integers; a special one makes the accumulator NaN
with NV. -/
def Obligations.MatrixAccumulates : Prop := (∀ (intPair : Bool) (aS bS : Half) (sb s x sa : ℤ) (acc : Nat) (special : Bool),
    -2 ^ 63 ≤ s → s < 2 ^ 63 → -2 ^ 15 ≤ x → x < 2 ^ 15 → -2 ^ 31 ≤ sa → sa < 2 ^ 31 →
    let r := recordBytes s x sa special
    let z := fun (h : Half) => if intPair then (h.extractLsb' 8 8).toInt else 0
    let total := s - z bS * sa - z aS * sb + 256 * z aS * z bS
    (r.length = 16 ∧ num (r.take 8) = (s % 2 ^ 64).toNat ∧ num ((r.drop 8).take 2) = (x % 2 ^ 16).toNat ∧
      num ((r.drop 10).take 4) = (sa % 2 ^ 32).toNat ∧ num (r.drop 14) = if special then 1 else 0) ∧
    (special = true → accumulate intPair aS bS sb r acc = (Fmt.f32.nan, fNV)) ∧
    (special = false → ∃ u sc, (if total = 0 then u = (0, 0) else Fmt.f32.Nearest ((total : ℝ) * (2 : ℝ) ^ x) u) ∧
      Fmt.f32.Exact (scaleOf (aS.toNat % 256) * scaleOf (bS.toNat % 256)) (sc, 0) ∧
      let p := Fmt.f32.mul u.1 sc
      let y := Fmt.f32.add acc p.1
      accumulate intPair aS bS sb r acc = (y.1, u.2 ||| p.2 ||| y.2))) ∧
  ∀ (f : ScaOp), AtCmd (.sca f) fun x front =>
  let srows := x.mc 1 16 12
  let arr := x.mc 1 14 2
  let base := x.mc 3 0 18
  let pch := x.mc 0 16 4
  let cols := 512 / 2 ^ arr
  mcClean x.w 0 = true → mcClean x.w 1 = true → mcClean x.w 3 = true → mcClean x.w 4 = true → srows ≠ 0 → base % 4 = 0 →
  ∀ c, x.h.engineChan pch 2 (some .matrix) (some .lanes) = some c →
  let n := 8192 * srows
  c.q + n ≤ (x.w.seen pch).1 →
  (∀ j < 512 * srows, ∃ m, x.matrix.rowAt pch (c.q + 16 * j) = some m ∧ m.ca = f.ca ∧ m.cb = f.cb ∧ m.arr = arr) →
  base + 4 * srows * cols ≤ x.h.size 2 →
  (∀ d ∈ x.h.chans, d.space = 2 → d.valid = true → base + 4 * srows * cols ≤ d.base ∨ d.base + d.size ≤ base) →
  let record := fun (r : Mem × Flags) (j : Nat) =>
    let pos := c.q + 16 * j
    let row := (x.matrix.rowAt pch pos).getD { ch := 0, pos := 0, ca := f.ca, cb := f.cb, arr := arr, aScale := [], bank := false, bScale := [] }
    let k := (pos - row.pos) / 16
    let scale := nth (nth row.bScale (k / 2 ^ arr) []) (k % 2 ^ arr) (0, 0)
    let at_ := base + 4 * (j / 2 ^ arr)
    let y := accumulate (f.ca.isInt && f.cb.isInt) (nth row.aScale (k % 2 ^ arr) 0) scale.1 scale.2 (x.h.stream c pos 16)
      (if x.mc 4 0 1 = 1 ∧ k % 2 ^ arr = 0 then 0 else num (r.1.read at_ 4))
    (r.1.write at_ (bytes 4 y.1), r.2 ||| y.2)
  let out := (List.range (512 * srows)).foldl record
    (x.s.seenMem x.h 2 2 base (4 * srows * cols), 0)
  ∃ t, exec (.sca f) x.s = .next t ∧ Leaves x.s t x.r x.w (.sca f) front
    { x.same with
      share := (x.h.put 2 (x.r.core, x.r.wix) 2 base (out.1.read base (4 * srows * cols)) (some pch)).modChan pch fun c => { c with q := c.q + n }
      wave := x.w.observe pch (x.w.seen pch).1 (c.q + n)
      core := x.coreWith fun k => { k with matrix := { k.matrix with
        metas := k.matrix.metas.filter fun m => !(m.ch == pch && decide (m.pos + 8192 ≤ c.q + n)) } } }
    fun _ th => Kept (.sca f) { th with flags := th.flags ||| out.2 }

/-- R104–R106, R223, R228, R229: the engine's own steps: a load converts its tile into a bank in 1,024 cycles, a
multiplication fires, exchanging the banks where it swaps, and then writes the 512 records of each row, some elements at a
time; P rises by each element that is complete. Scales that share a channel with the tile or the rows follow them (log 111);
that the A rows are consumed with the last record is the model's reading (log 51). Blocks of 32 elements convert to integers
at the exponent of their largest; a window's record is the sum of the blocks' products at their greatest exponent. -/
def Obligations.MatrixEngineSteps : Prop := ∀ (s : State) x y t h, s.engineShare x y = some (t, h) → t.st = .resident →
  let m := (s.core x y).matrix
  (∀ wix ch bs arr front cls fmt q c b, m.queue = .load wix ch bs arr front cls fmt :: q → h.chans[ch]? = some c → h.chans[bs]? = some b →
    m.loading = none → m.inUse (if front then m.front else !m.front) = false → c.valid = true → b.valid = true →
    let sAt := if ch = bs then b.q + tileBytes cls else b.q
    c.q + tileBytes cls ≤ c.p → sAt + 1024 ≤ b.p →
    let tile := convTile cls arr (NFmt.of fmt) (h.stream c c.q (tileBytes cls)) (h.stream b sAt 1024)
    let bank := if front then m.front else !m.front
    exec (.mloadbFire x y) s = .next (s.modMatrix t h.c fun m =>
      { m with loading := some (bank, tile, s.now + 4096), bank0 := if bank then m.bank0 else none
               bank1 := if bank then none else m.bank1 })) ∧
  (∀ wix ch bs arr front cls fmt q bank tile due, m.queue = .load wix ch bs arr front cls fmt :: q →
    m.loading = some (bank, tile, due) → due ≤ s.now →
    exec (.mloadbCompletion x y) s = .next ((s.modShare t.tid h.c fun h =>
      (h.modChan ch fun c => { c with q := c.q + tileBytes cls }).modChan bs fun b => { b with q := b.q + 1024 }).modMatrix t h.c
        fun m => { m with loading := none, queue := m.queue.tail, bank0 := if bank then m.bank0 else some tile
                          bank1 := if bank then some tile else m.bank1 })) ∧
  (∀ wix ch ach asch rows arr swap ca cb fmt q p a b, m.queue = .mul wix ch ach asch rows arr swap ca cb fmt :: q →
    h.chans[ch]? = some p → h.chans[ach]? = some a → h.chans[asch]? = some b →
    let sAt := if ach = asch then b.q + rows * rowBytes ca arr else b.q
    (m.row = none → a.valid = true → b.valid = true → p.valid = true → a.q + rows * rowBytes ca arr ≤ a.p →
      sAt + rows * 2 * 2 ^ arr ≤ b.p → (swap = true → (m.bank (!m.front)).isSome = true ∧ m.loading = none) →
      exec (.mmulRow x y) s = .next (s.modMatrix t h.c fun m =>
        { m with row := some 0, front := if swap then !m.front else m.front })) ∧
    (∀ n, m.row = some n → m.out ≠ [] → exec (.mmulRow x y) s =
      .next (s.writeRow t h p ch ach asch (rows * rowBytes ca arr) (rows * 2 * 2 ^ arr) n rows m.out)) ∧
    (∀ n tile, m.row = some n → m.out = [] → m.bank m.front = some tile → p.p + p.part + 8192 ≤ p.q + p.size →
      let row := Matrix.rowOf tile h p a b ch ca cb arr a.q sAt fmt m.front n
      exec (.mmulRow x y) s = .next ((s.modMatrix t h.c fun m => { m with metas := m.metas ++ [row.2] }).writeRow t h p ch ach asch
        (rows * rowBytes ca arr) (rows * 2 * 2 ^ arr) n rows row.1))) ∧
  (∀ p ch ach asch aBytes sBytes r rows recs, s.task? t.tid = some t → t.share? h.c = some h → h.chans[ch]? = some p → recs ≠ [] →
    ∃ n, 0 < n ∧ n ≤ recs.length ∧ (p.elem ∣ n ∨ n = recs.length) ∧
      let last := decide (n = recs.length ∧ r + 1 = rows)
      let u := s.writeRow t h p ch ach asch aBytes sBytes r rows recs
      (∃ k, u.share? t.tid h.c = some k ∧ k.waves = h.waves ∧
        k.chans = (((h.modChan ch fun c => c.wrote n).modChan ach fun c => { c with q := if last then c.q + aBytes else c.q }).modChan
          asch fun c => { c with q := if last then c.q + sBytes else c.q }).chans ∧
        k.mem p.space = (recs.take n).zipIdx.foldl (fun mm q => mm.set (p.base + (p.p + p.part + q.2) % p.size) q.1) (h.mem p.space)) ∧
      u.mem = s.mem ∧ u.tlb = s.tlb ∧ u.launches = s.launches) ∧
  (∀ (c : Chan) n, c.elem ≠ 0 → (c.wrote n).p + (c.wrote n).part = c.p + c.part + n ∧ (c.wrote n).part < c.elem ∧
    c.elem ∣ (c.wrote n).p - c.p ∧ (c.wrote n).q = c.q) ∧
  (∀ (cls : MClass) (f : NFmt) (xs : List Nat),
    let b := convBlock cls f xs
    (cls.isInt = true → b = (xs.map fun x => (BitVec.ofNat cls.bits x).toInt, 0, false)) ∧
    (cls.isInt = false → f.special < 3 →
      let nonzero := xs.filter fun x => (f.number x).any (· ≠ 0)
      b.2.2 = xs.any (fun x => (f.number x).isNone) ∧
      (nonzero = [] → b.2.1 = if f.eb = 0 then (f.mb : Int) - 1 - f.bias else 1 - f.bias) ∧
      (nonzero ≠ [] → b.2.1 ∈ nonzero.map f.exponent ∧ ∀ x ∈ nonzero, f.exponent x ≤ b.2.1) ∧
      b.1 = xs.map fun x => match f.number x with
        | some v => (if v < 0 then -1 else 1) * ⌊|v| * (2 : ℚ) ^ (cls.keep - b.2.1)⌋
        | none => 0)) ∧
  (MClass.keep .n8 = 14 ∧ MClass.keep .n4 = 6 ∧ (∀ e, blockX .i4 e = 0 ∧ blockX .i8 e = 0 ∧ blockX .n8 e = e - 14 ∧ blockX .n4 e = e - 6)) ∧
  ∀ (ca cb : MClass) (qa qb : List Int) (ea eb : List (Int × Bool)), qa.length = 256 → qb.length = 256 → ea.length = 8 → eb.length = 8 →
    let r := combine ca cb (qa, ea) (qb, eb)
    let sum := fun (i : Nat) => ((List.range 32).map fun j => nth qa (32 * i + j) 0 * nth qb (32 * i + j) 0).sum
    let x := fun (i : Nat) => blockX ca (nth ea i (0, false)).1 + blockX cb (nth eb i (0, false)).1
    (∃ i < 8, r.2.1 = x i) ∧ (∀ i < 8, x i ≤ r.2.1) ∧
    r.1 = ((List.range 8).map fun i => (sum i).tdiv (2 ^ (r.2.1 - x i).toNat)).sum ∧
    r.2.2 = (ea ++ eb).any (·.2)

/-! ### Tasks, traces and propagation -/

/-- R161, R383: SPAWN in one thread creates the child task with the next key of its level, the parent's round and view,
and the argument block named, and the slot is used up. -/
def Obligations.TasksSpawned : Prop := ∀ (f : SpawnOp) s r k w pc front h l ln th key p, ready s r (.spawn f) k w pc front = true →
  s.share? r.tid r.core = some h → s.launchOf? r.tid = some l → w.acting ((Instr.spawn f).takes w front) = [(ln, th)] →
  w.fenced .task = true → l.records? = false → k.prop = none → childKey k.key.toNat f.slot.toNat = some key →
  f.kern.val < l.code.kernels.length → f.slot.toNat ∉ k.slots → (th.ra f.ar).toNat % 4 = 0 → s.part? l.part = some p →
  (l.kernel f.kern).polW ≤ p.w → (l.kernel f.kern).polH ≤ p.h → s.liveTasks < 65536 →
  let child : Task := { tid := s.fresh, lid := l.lid, key := BitVec.ofNat 48 key, kernel := f.kern, parent := some k.tid
                        spawner := some (r.core, r.wix), slot := f.slot.toNat, round := k.round, block := th.ra f.ar
                        inherited := k.viewShadow, site := (nearestSafe l.code th.pc).1 }
  let paid := s.maintains k.record.isSome fun s => { s with fresh := s.fresh + 1, tasks := s.tasks ++ [child] }
  let u := paid.2
  paid.1 = true → ∃ t, exec (.spawn f) s = .next t ∧ LeavesWith u t r
    { Expect.asIn u k h w with task := { k with slots := k.slots ++ [f.slot.toNat] } }
    fun w' => Advanced w w' (.spawn f) front ((Instr.spawn f).takes w front) fun _ => Kept (.spawn f)

/-- R143, R354: JOIN merges the children that its wave has spawned and not joined once all of them are over, at once or
by the event that ends its wait; of two children without a conflict, the bytes of the higher slot
lie over those of the lower, and both over the parent's. -/
def Obligations.TasksJoined : Prop :=
  (∀ (f : GOp) s r k w pc front h, ready s r (.join f) k w pc front = true → s.share? r.tid r.core = some h →
    let i : Instr := .join f
    let kids := s.kidsOfWave r
    i.takes w front ≠ 0 → (∀ c ∈ kids, c.tid ≠ r.tid) →
    (kids.all Task.over = true → ∀ k' h' w',
      let paid := s.maintains (kids.any (·.record.isSome)) fun s => s.mergeKids r.tid (some (r, i.takes w front)) kids
      let u := paid.2
      paid.1 = true → u.task? r.tid = some k' → u.share? r.tid r.core = some h' → u.wave? r = some w' →
      ∃ t, exec i s = .next t ∧ LeavesWith u t r (Expect.asIn u k' h' w')
        fun x => Advanced w' x i front (i.takes w front) fun _ => Kept i) ∧
    (kids.all Task.over = false → s.fatalIn k = false →
      ∃ t, exec i s = .next t ∧ LeavesWaiting s t r w i front (Expect.same s k h w) (.join (i.takes w front)))) ∧
  (∀ s r k w mask, s.task? r.tid = some k → s.wave? r = some w → s.taskRuns k = true → s.fatalIn k = false → w.wait = .join mask →
    let kids := s.kidsOfWave r
    let paid := s.maintains (kids.any (·.record.isSome)) fun s => s.mergeKids r.tid (some (r, mask)) kids
    let u := paid.2
    kids.all Task.over = true → (∀ c ∈ kids, c.tid ≠ r.tid) → paid.1 = true → ∀ k' h' w',
    u.task? r.tid = some k' → u.share? r.tid r.core = some h' → u.wave? r = some w' →
    ∃ t, exec (.joinMerge r) s = .next t ∧ LeavesWith u t r (Expect.asIn u k' h' w') fun x => Returned w' x mask) ∧
  (∀ (s : State) tid p a b l, s.task? tid = some p → s.launchOf? tid = some l →
    p.prop = none → a.prop = none → b.prop = none → a.record = none → b.record = none → a.tid ≠ b.tid → a.tid ≠ tid → b.tid ≠ tid →
    s.task? a.tid = some a → s.task? b.tid = some b → a.slot < b.slot → p.extents = [] → p.parent = none →
    (a.shadow.map (·.1)).Pairwise (· < ·) → (b.shadow.map (·.1)).Pairwise (· < ·) →
    clash a b = none → clashAfter p a = none → clashAfter p b = none →
    ∃ q, (s.mergeKids tid none [a, b]).task? tid = some q ∧
      ∀ pa, Shadow.get? q.shadow pa = (Shadow.get? b.shadow pa <|> Shadow.get? a.shadow pa <|> Shadow.get? p.shadow pa))

/-- R186, R390: TRACE clears and sets the recording flag, and notes a sector once in a run of the task. -/
def Obligations.TracesRecord : Prop :=
  (∀ f : TraceOp, f.fn = .suspend → Runs (.trace f) fun _ _ th => Kept (.trace f) { th with recording := false }) ∧
  (∀ f : TraceOp, f.fn = .resume → Runs (.trace f) fun _ _ th => Kept (.trace f) { th with recording := true }) ∧
  (∀ (f : TraceOp) s r k w pc front h l, f.fn = .note → ready s r (.trace f) k w pc front = true → s.share? r.tid r.core = some h →
    s.launchOf? r.tid = some l →
    let i : Instr := .trace f
    let act := w.acting (i.takes w front)
    let new := (act.map fun p => (p.2.ra f.ar).toNat / 32).eraseDups.filter fun n => !k.trec.reads.contains n
    (l.records? = false → ∃ t, exec i s = .next t ∧ Leaves s t r w i front (Expect.same s k h w) fun _ => Kept i) ∧
    (l.records? = true →
      (s.arenaTable l.asid l.arena.toNat 1).2.2 + l.pending.1 + act.length ≤ (s.arenaTable l.asid l.arena.toNat 1).2.1 →
      8 * ((s.arenaTable l.asid l.arena.toNat 4).2.2 + l.pending.1 + act.length) ≤ 7 * (s.arenaTable l.asid l.arena.toNat 4).2.1 →
      ∃ t, exec i s = .next t ∧ Leaves s t r w i front
        { Expect.same s k h w with
          rest := s.modLaunch l.lid fun l => { l with pending := (l.pending.1 + new.length, l.pending.2) }
          task := { k with trec := { k.trec with reads := k.trec.reads ++ new } } } fun _ => Kept i))

/-- R187, R189–R193, R370, R401: PROP on an arena in state 2 begins a propagation and waits for it; on an arena in another
state it returns 0xFFFFFFFF in s13 to s15 with TRACECAP counted; the counts of a finished propagation return in them. A
changed sector makes stale each live or spliced reader with a greater key, once; the least stale record beyond the last with
none stale above it runs again; a child that its SPAWN names again is spliced or, if it is stale, runs; an old child that is
left is discarded, a word reverts to what the lowest key of its subtree found (the bytes of the mask alone: log 132) unless a
later task keeps it, and contributions not issued again are withdrawn, those issued on another cell too (log 125). -/
def Obligations.Propagations : Prop :=
  (∀ (f : ArOp) s r k w pc front h l e ln th, ready s r (.prop f) k w pc front = true → s.share? r.tid r.core = some h →
    s.launchOf? r.tid = some l → (w.acting ((Instr.prop f).takes w front)).head? = some (ln, th) →
    (∀ p ∈ s.props, p.wave ≠ some r ∧ p.pid ≠ s.fresh) → s.fatalIn k = false →
    let va := (th.ra f.ar).toNat
    let xy := s.coreXY k r.core
    va % 64 = 0 → s.cached (laneViewer k.tid xy.1 xy.2) l.asid va = some e → e.attr.r = true →
    let p : Propag := { pid := s.fresh, asid := l.asid, arena := th.ra f.ar, lid := some l.lid, wave := some r, queue := none, part := l.part }
    let u := { s with fresh := s.fresh + 1, props := s.props ++ [p] }
    (∀ q ∈ s.props, q.arenaAt ≠ p.arenaAt) →
    let paid := u.maintains true fun s => (s.beginProp p.pid).2
    (paid.1 = false ∨ (s.arState p.arenaAt = 2 ∧ s.arGeneration p.arenaAt ≠ 0x1FFFFFFF) →
      let v := paid.2
      ∃ t, exec (.prop f) s = .next t ∧
        LeavesWaiting v t r w (.prop f) front (Expect.asIn v k h w) (.prop ((Instr.prop f).takes w front) s.fresh)) ∧
    (paid.1 = true → (s.arState p.arenaAt ≠ 2 ∨ s.arGeneration p.arenaAt = 0x1FFFFFFF) → k.prop = none →
      ∃ t, exec (.prop f) s = .next t ∧ LeavesWith s t r
        { Expect.same s k h w with
          rest := { paid.2 with props := s.props }.modLaunch l.lid fun l =>
            l.record s.now { s.recordOf k ln th.tix th.pc { code := 0x17, detail := va } with fatal := false }
          wave := ((w.setS 13 0xFFFFFFFF).setS 14 0xFFFFFFFF).setS 15 0xFFFFFFFF }
        fun w' => Advanced w w' (.prop f) front ((Instr.prop f).takes w front) fun n th =>
          Kept (.prop f) (if n = ln then th.count 0x17 else th))) ∧
  (∀ s r k h w mask pid p, s.task? r.tid = some k → s.share? r.tid r.core = some h → s.wave? r = some w → s.fatalIn k = false →
    s.taskRuns k = true → s.prop? pid = some p → p.wave = some r → p.st = 2 → k.lid ≠ p.runAs → w.wait = .prop mask pid →
    (s.withdrawals.any fun x => x.2.1 == 2 * (p.asid.toNat + 4096 * p.arena.toNat) + 1) = false →
    let u := s.removeProp p
    ∃ t, exec (.propReturn pid) s = .next t ∧ LeavesWith u t r
      { Expect.asIn u k h w with wave := ((w.setS 13 p.re).setS 14 p.sp).setS 15 p.di } fun w' => Returned w w' mask) ∧
  (∀ (s : State) a i writer, let r := s.taskRec a i
    let stale := (r.st = 0 ∨ r.st = 2) ∧ ∀ k, writer = some k → k < r.key
    (stale → s.markRec a writer i = (s.putTaskRec a i { r with st := 1 }).arPut a 0xAC 4 (s.arStale a + 1)) ∧
    (¬ stale → s.markRec a writer i = s)) ∧
  (∀ (s : State) a sector writer, let nb := (s.arTable a 4).2.1
    let found := s.bucketsOf a nb sector nb (homeBucket nb sector)
    ∃ readers : List Nat, readers.Nodup ∧
      (∀ i, i ∈ readers ↔ (∃ ix ∈ found, (s.readRec a ix).ix = i ∧ (s.taskRec a i).st ≠ 3 ∧ (s.taskRec a i).reads.1 ≤ ix ∧
          ix < (s.taskRec a i).reads.1 + (s.taskRec a i).reads.2) ∨
        ∃ k ∈ s.tasks, ∃ l, s.launch? k.lid = some l ∧ k.record = some i ∧ l.arenaAt = a ∧ l.records? = true ∧ sector ∈ k.trec.reads) ∧
      s.markSector a sector writer =
        (readers.foldl (fun s i => s.markRec a writer i) (s.ask 10 (1 + 2 * found.length))).refreshProps a) ∧
  (∀ (s : State) a last i r, (i, r) ∈ s.toRun a last ↔
    i < (s.arTable a 0).2.2 ∧ r = s.taskRec a i ∧ r.st = 1 ∧ (∀ k, last = some k → k.toNat < r.key) ∧
      ∀ j ∈ s.above a 5 i, (s.taskRec a j).st ≠ 1) ∧
  (∀ (s : State) pid p, s.prop? pid = some p → p.failed = false → s.arState p.arenaAt = 4 →
    let asked := s.ask 10 (1 + (s.arTable p.arenaAt 0).2.2)
    (s.toRun p.arenaAt p.last = [] →
      s.nextRerun pid = (asked.arPut p.arenaAt 6 1 2).modProp pid fun p => { p with st := 2, toRun := [] }) ∧
    (s.toRun p.arenaAt p.last ≠ [] → s.liveTasks < 65536 → ∃ i r k, (i, r) ∈ s.toRun p.arenaAt p.last ∧
      (∀ x ∈ s.toRun p.arenaAt p.last, r.key ≤ x.2.key) ∧ (s.nextRerun pid).tasks.getLast? = some k ∧
      k.lid = p.runAs ∧ k.key = BitVec.ofNat 48 r.key ∧ k.kernel = r.entry ∧ k.block = BitVec.ofNat 72 r.block ∧
      k.record = some i ∧ k.prop = some pid ∧ k.parent = none ∧
      ∃ q, (s.nextRerun pid).prop? pid = some q ∧ q.last = some (BitVec.ofNat 48 r.key) ∧ q.re = p.re + 1 ∧ q.sp = p.sp ∧
        q.di = p.di ∧ q.oldOf i = s.kidsOf p.arenaAt i)) ∧
  (∀ (s : State) p parent slot entry block,
    let same := fun (i : Nat) => let c := s.taskRec p.arenaAt i; c.slot = slot ∧ c.entry = entry ∧ c.block = block
    (s.matchKid p parent slot entry block = .fresh ↔ ∀ i ∈ p.oldOf parent, ¬ same i) ∧
    (∀ i, s.matchKid p parent slot entry block = .splice i → i ∈ p.oldOf parent ∧ same i ∧ (s.taskRec p.arenaAt i).st ≠ 1) ∧
    ∀ i, s.matchKid p parent slot entry block = .rerun i → i ∈ p.oldOf parent ∧ same i ∧ (s.taskRec p.arenaAt i).st = 1) ∧
  (∀ (s : State) p parent i splice, s.prop? p.pid = some p → ∃ q, (s.takeKid p parent i splice).prop? p.pid = some q ∧
    q.oldOf parent = (p.oldOf parent).filter (· != i) ∧ q.re = p.re ∧ q.di = p.di ∧ q.sp = if splice then p.sp + 1 else p.sp) ∧
  (∀ (s : State) a inside key va mask pre,
    let kept := ∃ j < (s.arTable a 0).2.2, j ∉ inside ∧ ((s.taskRec a j).st = 0 ∨ (s.taskRec a j).st = 2) ∧
      key < (s.taskRec a j).key ∧ ∃ n < (s.taskRec a j).writes.2, (s.wordRec a ((s.taskRec a j).writes.1 + n)).va = va
    (kept → s.revertWord a inside key va mask pre = s) ∧
    (¬ kept → s.revertWord a inside key va mask pre = ((List.range 8).filter fun i => mask.testBit i).foldl
      (fun s i => s.putMarked a (some key) (va + i) [BitVec.ofNat 8 (pre / 2 ^ (8 * i))]) s)) ∧
  (∀ (l : List (Nat × List WordRec)) va, ((subtreeWords l).find? (·.1 == va)).map (fun e => (e.2.1, e.2.2.2)) =
    ((l.flatMap fun q => q.2.map fun w => (q.1, w)).find? fun e => e.2.va == va).map fun e => (e.1, e.2.pre)) ∧
  (∀ (s : State) (k : Task) pid p i, k.prop = some pid → s.prop? pid = some p → p.pid = pid → k.record = some i →
    ∃ q, (s.finishRerun k).prop? pid = some q ∧ q.re = p.re ∧ q.sp = p.sp ∧ q.di = p.di + BitVec.ofNat 32 (p.oldOf i).length ∧
      q.oldOf i = [] ∧
      (p.oldOf i = [] → ∀ x ∈ (s.finishRerun k).withdrawals, x ∈ s.withdrawals ∨
        ∃ c ∈ s.oldContribs p i, (c.cseq, c.tix, c.va) ∉ k.issued ∧ x.2.2.2.1 = BitVec.ofNat 48 k.key.toNat ∧
          x.2.2.2.2.1 = c.tix ∧ x.2.2.2.2.2 = BitVec.ofNat 32 c.cseq))

/-! ### Reed engines and the Headworks -/

/-- R245: the register operations of a reed program. -/
def Obligations.ReedResults : Prop :=
  (∀ f : ReedImm, ReedGives (.reedLi f) f.d fun _ => f.imm.signExtend 72) ∧
  (∀ f : ReedImm, ReedGives (.reedLis f) f.d fun p => p.rx f.d <<< 16 ||| f.imm.setWidth 72) ∧
  (∀ f : ReedReg, ReedGives (.reedAdd f) f.d fun p => p.rx f.d + p.rx f.s) ∧
  (∀ f : ReedImm, ReedGives (.reedAddi f) f.d fun p => p.rx f.d + f.imm.signExtend 72) ∧
  (∀ f : ReedReg, ReedGives (.reedSub f) f.d fun p => p.rx f.d - p.rx f.s) ∧
  (∀ f : ReedReg, ReedGives (.reedAnd f) f.d fun p => p.rx f.d &&& p.rx f.s) ∧
  (∀ f : ReedReg, ReedGives (.reedOr f) f.d fun p => p.rx f.d ||| p.rx f.s) ∧
  (∀ f : ReedImm, ReedGives (.reedShli f) f.d fun p => p.rx f.d <<< (f.imm.toNat % 128)) ∧
  (∀ f : ReedImm, ReedGives (.reedShri f) f.d fun p => p.rx f.d >>> (f.imm.toNat % 128))

/-- R245, R246: skips, loops, call, end and fail; the 513th operation ends the packet as fail 0xFE. -/
def Obligations.ReedControl : Prop :=
  (∀ f : ReedBr, ReedRuns (.reedBeq f) fun p p' =>
    p' = p.after (if p.rx f.d = p.rx f.s then p.goTo (p.pc + 1 + f.imm.toNat) else p.next)) ∧
  (∀ f : ReedBr, ReedRuns (.reedBne f) fun p p' =>
    p' = p.after (if p.rx f.d ≠ p.rx f.s then p.goTo (p.pc + 1 + f.imm.toNat) else p.next)) ∧
  (∀ f : ReedBr, ReedRuns (.reedBltu f) fun p p' =>
    p' = p.after (if (p.rx f.d).toNat < (p.rx f.s).toNat then p.goTo (p.pc + 1 + f.imm.toNat) else p.next)) ∧
  (∀ f : ReedImm, ReedRuns (.reedLoop f) fun p p' =>
    let times := min (p.rx f.d).toNat (f.imm.toNat % 256)
    let n := f.imm.toNat / 256
    p' = p.after (if times = 0 ∨ n = 0 then p.goTo (p.pc + 1 + n)
      else { p with pc := p.pc + 1, loops := ⟨p.pc + 1, p.pc + 1 + n, times - 1⟩ :: p.loops })) ∧
  (∀ (p : Packet) pc l r, p.loops = l :: r →
    (pc ≠ l.last → p.goTo pc = { p with pc }) ∧
    (pc = l.last → l.left ≠ 0 → p.goTo pc = { p with pc := l.first, loops := { l with left := l.left - 1 } :: r }) ∧
    (pc = l.last → l.left = 0 → p.goTo pc = { p with loops := r }.goTo pc)) ∧
  (∀ imm, ReedRuns (.reedCall imm) fun p p' => p' = { p with prim := .called imm.toNat, ops := p.ops + 1, fault := none }) ∧
  (∀ imm s q p, AtReed s q p → ∃ t, exec (.reedEnd imm) s = .next t ∧
    t = { s with queues := t.queues, mem := s.mem.write (s.dev.qbase + 64 * q + 16) (bytes 8 ((s.qDesc q).read + imm.toNat)) } ∧
    (∀ n, n ≠ q → t.queueD n = s.queueD n) ∧ t.queueD q = { s.queueD q with packet := none }) ∧
  (∀ (imm : BitVec 16) s q p, AtReed s q p → ∃ t, exec (.reedFail imm) s = .next t ∧ t.mem = s.mem ∧
    t.queueD q = { s.queueD q with packet := none, state := 3, fail := imm.setWidth 8, faultVa := 0 } ∧
    (∀ n, n ≠ q → t.queueD n = s.queueD n)) ∧
  (∀ s q p, (s.queueD q).packet = some p → 512 ≤ p.ops → p.prim = .none → ∃ t, exec (.operationLimit q) s = .next t ∧
    t.mem = s.mem ∧ t.queueD q = { s.queueD q with packet := none, state := 3, fail := 0xFE, faultVa := 0 })

/-- R245: loads and stores of the windows; an address that is not 4-aligned or not inside its window, and a store to
window 0, ends the packet as fail 0xFF does. -/
def Obligations.ReedWindows : Prop :=
  let outside := fun (s : State) (q : Nat) (p : Packet) (f : ReedMem) (n : Nat) =>
    let a := (p.rx f.s + f.off.setWidth 72).toNat
    a % 4 ≠ 0 ∨ windowSize (s.qDesc q) f.w.toNat < a + n
  let at' := fun (p : Packet) (f : ReedMem) => (p.rx f.s + f.off.setWidth 72).toNat
  let base := fun (s : State) (q : Nat) (f : ReedMem) => if f.w = 2 then (s.qDesc q).win2.1 else (s.qDesc q).win3.1
  let ends := fun (i : Instr) (s : State) (q : Nat) => ∃ t, exec i s = .next t ∧ t.mem = s.mem ∧
    t.queueD q = { s.queueD q with packet := none, state := 3, fail := 0xFF, faultVa := 0 }
  let loads := fun (i : Instr) (f : ReedMem) (n : Nat) => ∀ s q p, AtReed s q p →
    (outside s q p f n → ends i s q) ∧
    (¬ outside s q p f n →
      (f.w = 1 → ∃ t p', exec i s = .next t ∧ PacketOnly s t q ∧ (t.queueD q).packet = some p' ∧
        p.Put p' f.d (BitVec.ofNat 72 (num (p.mem.read (at' p f) n)))) ∧
      (f.w = 0 → (s.qDesc q).read + at' p f + n ≤ (s.queueD q).wptr → ∀ bs u,
        s.ringRead (s.qDesc q) ((n + 3) / 4) ((s.qDesc q).read + at' p f) = (.ok bs, u) →
        ∃ t p', exec i s = .next t ∧ PacketOnly u t q ∧ (t.queueD q).packet = some p' ∧
          p.Put p' f.d (BitVec.ofNat 72 (num (bs.take n)))) ∧
      ((f.w = 2 ∨ f.w = 3) → ∀ bs u, s.vaRead headViewer (s.qDesc q).asid (base s q f + at' p f) n = (.ok bs, u) →
        ∃ t p', exec i s = .next t ∧ PacketOnly u t q ∧ (t.queueD q).packet = some p' ∧
          p.Put p' f.d (BitVec.ofNat 72 (num (bs.take n)))))
  let stores := fun (i : Instr) (f : ReedMem) (n : Nat) => ∀ s q p, AtReed s q p →
    let bs := bytes n (p.rx f.d).toNat
    ((f.w = 0 ∨ outside s q p f n) → ends i s q) ∧
    (¬ outside s q p f n →
      (f.w = 1 → ∃ t, exec i s = .next t ∧ PacketOnly s t q ∧
        (t.queueD q).packet = some { p.after p.next with mem := p.mem.write (at' p f) bs }) ∧
      ((f.w = 2 ∨ f.w = 3) → ∀ u, s.vaWrite headViewer (s.qDesc q).asid (base s q f + at' p f) bs = (.ok (), u) →
        ∃ t, exec i s = .next t ∧ PacketOnly u t q ∧ (t.queueD q).packet = some (p.after p.next)))
  ∀ f : ReedMem, loads (.reedLdw f) f 4 ∧ loads (.reedLdd f) f 8 ∧ loads (.reedLdv f) f 9 ∧
    stores (.reedStw f) f 4 ∧ stores (.reedStd f) f 8 ∧ stores (.reedStv f) f 9

/-- R242, R243, R246–R252: a doorbell publishes bytes or sets its queue to error; a fetcher starts a packet with zero
registers; LAUNCH without a trace enters the launch and admits its tasks; a gang is reserved, committed to one start
time, aborted and started. That a reservation takes the lowest free handle is the model's choice (log 138). -/
def Obligations.LaunchesStart : Prop :=
  (∀ (s : State) q (v : BitVec 64), s.dev.stage = 4 → q < 8192 → s.regWaits = false →
    let d := s.qDesc q
    (d.read ≤ v.toNat → v.toNat ≤ d.read + d.size →
      exec (.dvDoorbell q v) s = .next ((s.modQueue q fun k => { k with wptr := max k.wptr v.toNat }).answerReg 0 [])) ∧
    ((v.toNat < d.read ∨ d.read + d.size < v.toNat) → ∃ t, exec (.dvDoorbell q v) s = .next t ∧
      t.queueD q = { s.queueD q with state := 3 } ∧ ((s.queueD q).irq = true → t.dev.event.getLsbD 4 = true))) ∧
  (∀ (s : State) q ops, let k := s.queueD q
    k.state = 1 → k.packet = none → k.signalStalls = false → (s.qDesc q).read < k.wptr →
    (s.dev.split.getLsbD 1 = true → k.grants ≠ 0) → s.enginesOf q < 2 →
    s.fetchNext q = true →
    s.reedProg (s.qDesc q).prog = some ops → reedBindOk ops (s.qDesc q) k.mask = true →
    ∃ t, exec (.packetFetch q) s = .next t ∧ t = { s with queues := t.queues, dev := { s.dev with served := t.dev.served } } ∧
      t.queueD q =
        { k with packet := some { since := s.drone }, grants := if s.dev.split.getLsbD 1 then k.grants - 1 else k.grants } ∧
      ∀ n, (Packet.rx {} n) = 0) ∧
  (∀ s q p d u1 table u2 code u3 n part, Called s q 1 p → p.rx 2 = 0 →
    let asid := (s.qDesc q).asid
    (s.modPacket q fun p => { p with fault := none }).vaRead headViewer asid (p.rx 1).toNat 128 = (.ok d, u1) → BitVec.ofNat 12 (fieldAt d 10 2) = asid →
    maskPart (fieldAt d 0x19 1) = some n → u1.part? n = some part → descFieldsOk d = true →
    (u1.gangs.any fun g => g.mask.getLsbD n) = false →
    (u1.gangs.find? fun g => g.handle == 0 && g.start.isNone) = none →
    u1.vaRead headViewer asid (fieldAt d 0x20 9) (32 * fieldAt d 0x1A 2) = (.ok table, u2) →
    u2.readCode asid (fieldAt d 0 9) = (.ok (some code), u3) → code.features.toNat &&& (2 ^ 128 - 1 - u3.feat0.toNat) = 0 →
    ((fieldAt d 9 1).testBit 1 = false ∨ fieldAt d 0x30 9 = 0) →
    let bufs := (recordsOf 32 (fieldAt d 0x1A 2) table).map parseBuffer
    let l : Launch :=
      { lid := u3.fresh, queue := q, asid, cr := BitVec.ofNat 72 (fieldAt d 0x60 9), det := (fieldAt d 9 1).testBit 0
        trace := (fieldAt d 9 1).testBit 1, checked := (fieldAt d 9 1).testBit 2, haltFatal := (fieldAt d 9 1).testBit 3
        part := n, st := .running, code, argBase := BitVec.ofNat 72 (fieldAt d 0x10 9), argStride := fieldAt d 0x0C 4
        bufTable := BitVec.ofNat 72 (fieldAt d 0x20 9), buffers := bufs, arena := BitVec.ofNat 72 (fieldAt d 0x30 9)
        shadowVa := BitVec.ofNat 72 (fieldAt d 0x40 9), shadowSlots := 512 * fieldAt d 0x4C 4
        dumpVa := BitVec.ofNat 72 (fieldAt d 0x50 9), dumpSize := fieldAt d 0x5C 4, rounds := code.rounds
        hostSet := u3.declaredPages asid bufs }
    u3.planError l part = 0 → ∀ t,
    (u1.maintains ((fieldAt d 9 1).testBit 1) fun _ => { u3 with fresh := u3.fresh + 1 }.enterLaunch q l part) = (true, t) →
    exec (.launch q) s = .next t) ∧
  (∀ (s : State) lid l n, s.launch? lid = some l → l.admitted = 0 → l.st = .running → l.fatal = false →
    n = l.code.nodes.length → s.liveTasks + n + 4096 ≤ 65536 → l.lrec = 0 →
    ∃ ts, (s.admitNodes lid n).tasks = s.tasks ++ ts ∧ ts.length = n ∧
      ∀ i x, ts[i]? = some x → x.lid = lid ∧ x.key = BitVec.ofNat 48 (i * 2 ^ 32) ∧ x.kernel = nth l.code.nodes i 0 ∧
        x.block = addrAdd l.argBase (i * l.argStride : Nat) ∧ x.st = .waits ∧ x.parent = none) ∧
  (∀ s q p, Called s q 2 p → 0 < (p.rx 1).toNat → (p.rx 1).toNat < 256 →
    let mask : BitVec 8 := (p.rx 1).setWidth 8
    let taken := (∃ l ∈ s.launches, l.prop = none ∧ mask.getLsbD l.part = true) ∨ ∃ g ∈ s.gangs, g.mask &&& mask ≠ 0
    (taken → ∃ t, exec (.gangreserve q) s = .next t ∧ Returns s t q p 0) ∧
    (¬ taken → ∀ h, 1 ≤ h → h ≤ 255 → (∀ g ∈ s.gangs, g.handle ≠ h) → (∀ j, 1 ≤ j → j < h → ∃ g ∈ s.gangs, g.handle = j) →
      ∃ t, exec (.gangreserve q) s = .next t ∧ Returns { s with gangs := s.gangs ++ [{ handle := h, mask }] } t q p h)) ∧
  (∀ s q p g, Called s q 3 p →
    let h := (p.rx 1).toNat
    (s.gangs.find? fun g => g.handle == h && g.start.isNone) = some g →
    let ts := (s.drone + max (p.rx 2).toNat 2048 + 63) / 64 * 64
    (g.failed = false → ∃ t, exec (.gangcommit q) s = .next t ∧ Returns
      { s with gangs := upd (fun g => g.handle == h) (fun g => { g with start := some ts }) s.gangs
               launches := upd (fun l => l.handle == h && l.st == .staged) (fun l => { l with startAt := some ts }) s.launches }
      t q p 0) ∧
    (g.failed = true → ((s.abortGang h).queueD q).packet = some p →
      ∃ t, exec (.gangcommit q) s = .next t ∧ Returns (s.abortGang h) t q p 9)) ∧
  (∀ s q p, Called s q 4 p →
    let h := (p.rx 1).toNat
    ((∃ g ∈ s.gangs, g.handle = h ∧ g.start = none) → ((s.abortGang h).queueD q).packet = some p →
      ∃ t, exec (.gangabort q) s = .next t ∧ Returns (s.abortGang h) t q p 0) ∧
    ((∀ g ∈ s.gangs, g.handle = h → g.start ≠ none) → ∃ t, exec (.gangabort q) s = .next t ∧ Returns s t q p 0xFFFF)) ∧
  (∀ (s : State) h g ts, s.gangs.find? (fun g => g.handle == h) = some g → g.start = some ts → ts ≤ s.droneAt .sluice →
    exec (.gangStart h) s = .next ((s.partsOf h).foldl (fun s l => s.admitNodes l.lid l.code.nodes.length)
      { s with launches := upd (fun l => l.handle == h && l.st == .staged) (fun l => { l with st := .running }) s.launches
               gangs := s.gangs.filter (·.handle != h) }))

/-- R123, R188, R190, R211, R218, R247, R253, R254, R264: what the other primitives do and return in x7. A copy moves one
piece a step, none of them across its target's granule; one onto a CELL page ends with 0xFFFF (the model's choice, log 123).
MODWRITE writes under the tag that the line has (logs 46 and 47). -/
def Obligations.PrimitivesReturn : Prop :=
  (∀ s q p done unit out, (s.queueD q).packet = some p → s.stall p = .no →
    ((p.prim = .called 5 ∧ done = 0 ∧ unit = [] ∧ out = false) ∨ p.prim = .copying done unit out) →
    (p.rx 3).toNat % 64 = 0 → done < (p.rx 3).toNat → unit.length ≤ 64 →
    let asid := (s.qDesc q).asid
    let src := (addrAdd (p.rx 1) (done + unit.length : Nat)).toNat
    let dst := (addrAdd (p.rx 2) (done + (64 - unit.length) : Nat)).toNat
    (out = false → unit = [] → s.mayTransfer 8 = false →
      ∃ t, exec (.headworksCopy q) s = .next t ∧ StaysIn s t q p (.copying done [] false)) ∧
    (out = false → unit ≠ [] ∨ s.mayTransfer 8 = true → ∀ bs u,
      let v := s.renewAt asid src (done == 0 && unit.isEmpty)
      v.vaRead headViewer asid src (v.headPiece asid src (64 - unit.length) (·.r)).1 = (.ok bs, u) →
      ∃ t, exec (.headworksCopy q) s = .next t ∧
        StaysIn u t q p (.copying done (unit ++ bs) (64 ≤ (unit ++ bs).length))) ∧
    (out = true →
      let v := s.renewAt asid dst (done == 0 && unit.length == 64)
      let piece := v.headPiece asid dst unit.length (·.w)
      (piece.2 = true → ∃ t, exec (.headworksCopy q) s = .next t ∧ Returns v t q p 0xFFFF) ∧
      (piece.2 = false → ∀ u, v.vaWrite headViewer asid dst (unit.take piece.1) = (.ok (), u) →
        let paid := (u.transfer 8 1).hbmRequest 1 768 p.since
        ∃ t, exec (.headworksCopy q) s = .next t ∧
          if piece.1 < unit.length then StaysIn u t q p (.copying done (unit.drop piece.1) true)
          else if (p.rx 3).toNat ≤ done + 64 then Returns paid t q p 0 else StaysIn paid t q p (.copying (done + 64) [] false)))) ∧
  (∀ (s : State) asid va n need a pa u, s.translate headViewer asid va need = (.ok a pa, u) →
    s.headPiece asid va n need = (min n (granule a - pa % granule a), a.target == 0 && a.cell)) ∧
  (∀ s q p, Called s q 6 p → ∃ t, exec (.signal q) s = .next t ∧ Returns (({ s with fresh := s.fresh + 1 } : State).modQueue q fun k =>
    { k with signals := k.signals ++ [{ n := s.fresh, va := p.rx 1, value := (p.rx 2).setWidth 64 }] }) t q p 0) ∧
  (∀ s q g rest u, (s.queueD q).signals = g :: rest → g.fault = none →
    (∀ l ∈ s.launches, l.queue = q → l.prop = none → g.n ≤ l.lid) →
    (∀ w ∈ (s.queueD q).crWaits, w.kind = .admitted ∨ g.n ≤ w.n) →
    s.vaWrite headViewer (s.qDesc q).asid g.va.toNat (bytes 8 g.value.toNat) = (.ok (), u) →
    exec (.signalWrite q) s = .next ((u.modQueue q fun k => { k with signals := rest }).retryRecords q)) ∧
  (∀ s q p bs u t0, (s.queueD q).packet = some p → s.stall p = .no → (p.rx 3).toNat < 2 →
    s.vaRead headViewer (s.qDesc q).asid (p.rx 1).toNat 8 = (.ok bs, u) →
    let met := if p.rx 3 = 0 then num bs = (p.rx 2).toNat % 2 ^ 64 else (p.rx 2).toNat % 2 ^ 64 ≤ num bs
    let after := fun t => if met then Returns u t q p 0 else StaysIn u t q p (.waitval s.drone)
    (p.prim = .called 7 → ∃ t, exec (.waitval q) s = .next t ∧ after t) ∧
    (p.prim = .waitval t0 → t0 + 1024 ≤ s.drone → ∃ t, exec (.waitvalReread q) s = .next t ∧ after t)) ∧
  (∀ s q p, Called s q 8 p → (p.rx 1).toNat < 64 → ∃ t, exec (.interrupt q) s = .next t ∧
    Returns { s with host := { s.host with interrupts := s.host.interrupts ++ [(p.rx 1).toNat] } } t q p 0) ∧
  (∀ s q p bs u1 u2 a pa, Called s q 9 p → ((p.rx 4).toNat = 4 ∨ (p.rx 4).toNat = 8) → (p.rx 2).toNat % (p.rx 4).toNat = 0 →
    let asid := (s.qDesc q).asid
    s.vaRead headViewer asid (p.rx 1).toNat 256 = (.ok bs, u1) → u1.translate headViewer asid (p.rx 2).toNat (·.w) = (.ok a pa, u2) →
    a.target = 0 → a.cell = false →
    let paid := u2.maintains ((p.rx 1).toNat != 0) fun s =>
      s.modWrite ⟨asid, (p.rx 1).toNat⟩ (u2.tagAt (pa / 64)) (p.rx 2).toNat pa (bytes (p.rx 4).toNat (p.rx 3).toNat)
    ∃ t, exec (.modwrite q) s = .next t ∧ if paid.1 then Returns paid.2 t q p 0 else StaysIn paid.2 t q p (.called 9)) ∧
  (∀ s q p bs u, Called s q 10 p → (p.rx 3).toNat % 16 = 0 → (p.rx 1).toNat % 64 = 0 → (s.part? (p.rx 2).toNat).isSome = true →
    let asid := (s.qDesc q).asid
    s.vaRead headViewer asid (p.rx 1).toNat 256 = (.ok bs, u) →
    let g : Propag := { pid := u.fresh, asid, arena := p.rx 1, lid := none, wave := none, queue := some q, part := (p.rx 2).toNat
                        result := p.rx 3, shadowVa := p.rx 4, shadowSlots := 512 * (p.rx 5).toNat }
    (∀ x ∈ u.props, x.pid ≠ u.fresh ∧ x.arenaAt ≠ g.arenaAt) → u.arState g.arenaAt = 2 → u.arGeneration g.arenaAt ≠ 0x1FFFFFFF →
    ∃ t, exec (.propagate q) s = .next t ∧
      StaysIn ({ u with fresh := u.fresh + 1, props := u.props ++ [g] }.maintains true fun s => (s.beginProp u.fresh).2).2 t q p
        (.propagating u.fresh)) ∧
  (∀ s q p g u, (s.queueD q).packet = some p → s.stall p = .no → p.prim = .propagating g.pid → s.prop? g.pid = some g → g.st = 2 →
    (∀ x ∈ s.withdrawals, x.2.1 ≠ 2 * (g.asid.toNat + 4096 * g.arena.toNat) + 1) →
    s.vaWrite headViewer (s.qDesc q).asid (p.rx 3).toNat (propResult g.re g.sp g.di g.first) = (.ok (), u) →
    ∃ t, exec (.propagate q) s = .next t ∧ Returns (u.removeProp g) t q p 0) ∧
  (∀ s q p, Called s q 11 p → 1 ≤ (p.rx 3).toNat → (p.rx 3).toNat ≤ 6 → ∃ t, exec (.reclaim q) s = .next t ∧
    StaysIn s t q p (.reclaim ((p.rx 1).toNat +
      ((List.range (p.rx 3).toNat).map fun j => leaseNs ((p.rx 2).toNat / 16 ^ j % 16) + 2016).sum))) ∧
  (∀ (s : State) q p at', (s.queueD q).packet = some p → p.fault = none → p.prim = .reclaim at' → at' ≤ s.drone →
    ∃ t, exec (.reclaimReturn q) s = .next t ∧ Returns s t q p 0) ∧
  (∀ s q p n part, Called s q 12 p → s.part? n = some part → (∀ x ∈ s.dev.parts, x.p = n → x = part) → (p.rx 1).toNat = n → part.maskOk (p.rx 2).toNat = true →
    s.gangHolds n = false → part.preempt = none →
    let left := part.maskCores (p.rx 2).toNat
    let lost := part.present.filter fun c => !left.contains c
    let ts := s.chosen n left
    (∀ c ∈ left, c ∈ part.present) →
    (lost = [] → ∃ t, exec (.preempt q) s = .next t ∧ Returns s t q p 0) ∧
    (lost ≠ [] → (∀ k ∈ ts, s.idempotent k = true ∧ s.evictable k = true) → ∃ t, exec (.preempt q) s = .next t ∧
      Returns (lost.foldl (fun s c => s.modCore c.1 c.2 fun k => { k with gated := true })
        ((ts.foldl State.evict s).modPart n fun p => { p with cores := some left })) t q p ts.length)) ∧
  (∀ s q p part e, (s.queueD q).packet = some p → p.fault = none → s.preemptOf q = some (part, e) →
    e.since + 1048576 * Config.coreCycle ≤ s.now → e.stood = false →
    ∃ t, exec (.preemptTimeout q) s = .next t ∧ Returns (s.preemptBack part.p { e with queue := none } 0) t q p 0xFFFD) ∧
  (∀ s q p, Called s q 13 p → (∃ f ∈ s.faults, f.fid = (p.rx 1).toNat ∧ f.failed = false) →
    (p.rx 2 = 0 → ∃ t, exec (.replay q) s = .next t ∧ Returns (s.retryFault (p.rx 1).toNat) t q p 0) ∧
    (p.rx 2 = 1 → ∃ t, exec (.replay q) s = .next t ∧
      Returns ((s.failLanes (p.rx 1).toNat).failFault (p.rx 1).toNat) t q p 0)) ∧
  (∀ s q p l, Called s q 14 p →
    (s.launches.find? fun l => l.prop.isNone && l.cr == p.rx 1 && l.asid == (s.qDesc q).asid && l.st != .staged) = some l →
    l.st = .running → l.stopReq = false → ∃ t, exec (.dumpto q) s = .next t ∧ Returns
      (s.modLaunch l.lid fun l => { l with st := .halting s.now 2 (p.rx 2) (p.rx 3).toNat }) t q p 0)

/-! ### Tasks and rounds -/

/-- R66, R67, R61, R138, R142, R249, R283: a waiting task is dispatched with new threads at their stages' entries, their
registers zero and its shares empty; a task whose threads have exited retires, or stops with both records of a race that no
barrier has closed; a round without a conflict merges its tasks' bytes, and the next round begins; of a pair that wrote one
byte the higher key takes MERGE, its bytes are not applied, and the launch ends. -/
def Obligations.TasksAndRounds : Prop :=
  (∀ (s : State) tid x y k l, s.task? tid = some k → s.launch? k.lid = some l → k.st = .waits → s.launchRuns l = true →
    l.stopReq = false → k.round = l.round → k.extents = [] → s.badExtents l k.round = false → s.fits l k.kernel x y = true →
    let stages := l.stages k.kernel
    let n := (stages.map (·.waves)).sum
    ∃ t k', exec (.taskDispatch tid x y) s = .next t ∧ t.task? tid = some k' ∧
      { k' with shares := [] } = ({ k with st := .resident, x := x, y := y, shares := [] } : Task) ∧
      k'.shares.map (·.c) = List.range ((l.kernel k.kernel).polW * (l.kernel k.kernel).polH) ∧ t.mem = s.mem ∧
      (∀ m, m ≠ tid → t.task? m = s.task? m) ∧
      (∀ c ∈ polderCores (l.kernel k.kernel) x y, t.core c.1 c.2 = (s.core c.1 c.2).wake s.now) ∧
      ∀ h ∈ k'.shares, h.scratch = [] ∧ h.abuf = [] ∧ h.cbuf = [] ∧ h.wbuf = [] ∧ h.waves.map (·.wix) = List.range n ∧
        ∀ w ∈ h.waves, w.lanes = (List.range 32).map fun ln =>
          some (l.code.enterRegion { tix := (h.c * n + w.wix) * 32 + ln, pc := (nth stages w.stage ⟨0, 3, 96, 1⟩).entry })) ∧
  (∀ (s : State) tid k, s.task? tid = some k → s.canRetire k = true → s.taskRuns k = true →
    (k.record = none ∨ nth s.dev.budget 10 0 = 0xFFFFFFFF) → k.races = [] → k.prop = none →
    (∀ h ∈ k.shares, ∀ w ∈ h.waves, w.held = []) → (∀ c ∈ s.tasks, c.parent = some tid → c.joined = true) →
    ∃ t k', exec (.taskRetire tid) s = .next t ∧ t.task? tid = some k' ∧ k'.st = .retired ∧
      k'.shares = k.shares.map Share.left ∧ k'.accesses = [] ∧
      k'.shadow = k.shadow ∧ ∀ c ∈ t.cores, c.l1.all (·.tid != tid) = true ∧ c.matrix.holder ≠ some tid) ∧
  (∀ (s : State) tid k l a b, s.task? tid = some k → s.launch? k.lid = some l → l.haltFatal = false → s.canRetire k = true →
    s.taskRuns k = true → (k.record = none ∨ nth s.dev.budget 10 0 = 0xFFFFFFFF) → k.races = [(a, b)] → k.prop = none → (s.tasks.map (·.tid)).Nodup →
    (∀ h ∈ k.shares, ∀ w ∈ h.waves, w.held = []) → (∀ c ∈ s.tasks, c.parent = some tid → c.joined = true) →
    ∃ t k' l', exec (.taskRetire tid) s = .next t ∧ t.task? tid = some k' ∧ k'.st = .stopped ∧ k'.shadow = [] ∧
      t.launch? k.lid = some l' ∧
      l'.records = ((l.record s.now (raceRec k a b s.drone)).record s.now (raceRec k b a s.drone)).records) ∧
  (∀ (a b : Task) pa, (a.shadow.map (·.1)).Pairwise (· < ·) →
    let both := fun (x : Nat) => (Shadow.get? a.shadow x).isSome = true ∧ (Shadow.get? b.shadow x).isSome = true ∧
      ¬ (a.ordered x = true ∧ b.ordered x = true)
    (clash a b = some pa ↔ both pa ∧ ∀ x < pa, ¬ both x)) ∧
  (∀ (s : State) (a b : Task) pa l, clash a b = some pa → a.prop = none → b.prop = none → a.tid ≠ b.tid →
    s.task? a.tid = some a → s.task? b.tid = some b → s.launch? b.lid = some l →
    s.tags = [] → s.mem.wf = true → (a.shadow.map (·.1)).Pairwise (· < ·) → (∀ i ∈ a.lines, i.tag = (0, 0)) →
    let t := s.mergeTasks [a, b]
    let lower : FaultRec := { code := 0x89, lane := 0xFF, tix := 0xFFFF, ordinal := 0xFFFFFFFF, offset := 0, access := 0
                              va := pa, key := a.key, time := s.drone }
    (∀ x, t.mem.get x = (Shadow.get? a.shadow x).getD (s.mem.get x)) ∧
    (t.task? b.tid).map (·.shadow) = some [] ∧
    t.launches = (s.modLaunch b.lid fun l => l.record s.now
      { code := 0x09, lane := 0xFF, tix := 0xFFFF, ordinal := 0xFFFFFFFF, offset := 0, access := 0, va := pa, key := b.key
        time := s.drone, partner := some lower.bytes }).launches) ∧
  (∀ (s : State) lid l, s.launch? lid = some l → l.st = .running → l.prop = none →
    (l.lrec = 1 → nth s.dev.budget 10 0 = 0xFFFFFFFF) →
    let mine := fun (t : Task) => t.lid == lid && t.round == l.round
    let roots := s.tasks.filter fun t => mine t && t.parent.isNone
    (∀ i < l.code.nodes.length, nth l.rounds i 0 = l.round → i < l.admitted) → roots.all Task.over = true →
    (∀ k ∈ roots, k.prop = none) →
    clashes (sortBy (fun (a b : Task) => a.key < b.key) (roots.filter (·.st == .retired))) ≠ [] →
    ∃ t, exec (.roundMerge (.launch lid)) s = .next t ∧ t.launch? lid = none ∧ ∀ k ∈ t.tasks, k.lid ≠ lid) ∧
  (∀ (s : State) (k : Task), k.prop = none → s.tags = [] → s.mem.wf = true → (k.shadow.map (·.1)).Pairwise (· < ·) →
    (∀ i ∈ k.lines, i.tag = (0, 0)) → ∀ a, (s.applyShadow k).mem.get a = (Shadow.get? k.shadow a).getD (s.mem.get a)) ∧
  (∀ (s : State) lid l, s.launch? lid = some l → l.st = .running → l.prop = none → l.fatal = false →
    (l.lrec = 1 → nth s.dev.budget 10 0 = 0xFFFFFFFF) →
    let mine := fun (t : Task) => t.lid == lid && t.round == l.round
    let roots := s.tasks.filter fun t => mine t && t.parent.isNone
    (∀ i < l.code.nodes.length, nth l.rounds i 0 = l.round → i < l.admitted) → roots.all Task.over = true →
    clashes (sortBy (fun (a b : Task) => a.key < b.key) (roots.filter (·.st == .retired))) = [] →
    (∃ n ∈ l.rounds, l.round < n) →
    ∃ t l', exec (.roundMerge (.launch lid)) s = .next t ∧ t.launch? lid = some l' ∧ l'.round = l.round + 1 ∧
      l'.merged = l.merged + 1 ∧ ∀ k ∈ t.tasks, k.lid = lid → k.round = l.round → s.fresh ≤ k.tid)

/-- R72, R73, R85, R183, R254, R268, R274, R301: bins drain into free lanes; a slot whose wave has used up its limit
gives WATCHDOG; a halt cancels the copies that would wait, each at a unit boundary, and the dump ends the launch once no
instruction is in progress; firmware evicts tasks by PREEMPT of its own and compacts arenas. Work on a budget is done whole
once the budget covers it (R256; which lines it counts is the model's, log 49). -/
def Obligations.TasksManaged : Prop :=
  (∀ (s : State) x y n b, (s.core x y).bins[n]? = some b → exec (.binDrain x y n) s = .next
    (if b ∈ s.dueBins x y then (s.dueBins x y).foldl (fun s b => s.drainBin x y b) s else s)) ∧
  (∀ (s : State) x y, ((s.dueBins x y).Pairwise fun a b => ¬ (b.pc < a.pc ∨ (b.pc = a.pc ∧ b.lowTix < a.lowTix))) ∧
    ∀ b, b ∈ s.dueBins x y ↔ b ∈ (s.core x y).bins ∧ s.binEligible b = true ∧ ∃ k, s.task? b.tid = some k ∧ s.taskRuns k = true) ∧
  (∀ (s : State) x y b h, s.share? b.tid b.c = some h → (h.waves.map (·.wix)).Nodup → (∀ w ∈ h.waves, w.lanes.length = 32) →
    let es := sortBy (fun (p q : BinEntry) => p.th.tix < q.th.tix) b.entries
    let t := s.drainBin x y b
    ∀ k, s.task? b.tid = some k →
    let free := h.freeLanes b.stage (s.copiesFly k b.c)
    es.length ≤ free.length → (t.core x y).bins = (s.core x y).bins.filter (· != b) ∧ t.mem = s.mem ∧
      ∀ wix ln, ((t.wave? ⟨b.tid, b.c, wix⟩).bind (·.thread? ln)) =
        match free.findIdx? (· == (wix, ln)) with
        | some i => match es[i]? with
          | some e => some e.th
          | none => (s.wave? ⟨b.tid, b.c, wix⟩).bind (·.thread? ln)
        | none => (s.wave? ⟨b.tid, b.c, wix⟩).bind (·.thread? ln)) ∧
  (∀ (h : Share) stage (held : Nat → Bool) wix ln, (wix, ln) ∈ h.freeLanes stage held →
    ∃ w ∈ h.waves, w.wix = wix ∧ w.stage = stage ∧ ln < 32 ∧ w.thread? ln = none ∧
      ((∃ v ∈ h.waves, v.stage = stage ∧ v.live = 0 ∧ held v.wix = false) → w.live = 0 ∧ held wix = false)) ∧
  (∀ (s : State) (k : Task) c wix, s.copiesFly k c wix = true ↔
    ∃ q ∈ (s.cores? k c).copies, ∃ y ∈ q, y.tid = k.tid ∧ y.core = c ∧ y.wix = wix) ∧
  (∀ (s : State) x y slot sl r k w pc front, (s.core x y).slots[slot]? = some sl → sl.running = some r →
    s.task? r.tid = some k → s.taskRuns k = true → s.wave? r = some w → w.frontier = some (pc, front) → sl.limit ≠ 0 → sl.limit ≤ sl.count →
    exec (.watchdog x y slot) s = .next (((s.raiseAll r front { code := 0x0E }).leaveSlot r false).settle r.tid)) ∧
  (∀ (s : State) lid l at', s.launch? lid = some l →
    ((∃ reason va size, l.st = .halting at' reason va size) ∨ l.st = .halted at') →
    let ends := (s.copiesOfLaunch lid).filter fun k => decide (at' + 40960 ≤ s.now) || s.copyWaits k
    ∃ t, exec (.copyDrain lid) s = .next t ∧ (∀ k ∈ t.copiesOfLaunch lid, ends.any k.is = false) ∧
      ((∀ k ∈ s.copiesOfLaunch lid, k.kind = .out ∨ k.kind = .plain → k.got = []) → t.mem = s.mem ∧
        t.copiesOfLaunch lid = (s.copiesOfLaunch lid).filter fun k => !ends.any k.is)) ∧
  (∀ (s : State) lid l at' reason va size, s.launch? lid = some l → l.st = .halting at' reason va size →
    (s.progresses lid = true → exec (.dump lid) s = .next s) ∧
    (s.progresses lid = false → s.copiesOfLaunch lid = [] → ∃ t, exec (.dump lid) s = .next t ∧ t.launch? lid = none ∧
      t = (s.writeDump l reason (at' / 10) va.toNat size).closeLaunch lid 3 10)) ∧
  (∀ (s : State) lid, s.progresses lid = true ↔ ∃ k ∈ s.tasks, k.lid = lid ∧ k.st = .resident ∧ ∃ h ∈ k.shares, ∃ w ∈ h.waves,
    (∃ mask scope stop, w.wait = .fence mask scope stop) ∨ (∃ mask frm into stop, w.wait = .fencex mask frm into stop) ∨
      (∃ mask, w.wait = .cells mask) ∨ w.wait = .retry 0 false) ∧
  (∀ (s : State) n part (m : BitVec 64), s.part? n = some part → (∀ x ∈ s.dev.parts, x.p = n → x = part) → part.preempt = none → s.dev.split.getLsbD 2 = false →
    s.higherWaits n = true → s.gangHolds n = false → part.maskOk m.toNat = true →
    let left := part.maskCores m.toNat
    let lost := part.present.filter fun c => !left.contains c
    let ts := s.chosen n left
    (∀ c ∈ left, c ∈ part.present) → lost ≠ [] → (∀ k ∈ ts, s.idempotent k = true ∧ s.evictable k = true) →
    exec (.preemptionDecision n m) s = .next (lost.foldl (fun s c => s.modCore c.1 c.2 fun k => { k with gated := true })
      ((ts.foldl State.evict s).modPart n fun p => { p with cores := some left }))) ∧
  (∀ (s : State) asid (arena : Addr), s.dev.split.getLsbD 5 = false → (∀ l ∈ s.launches, l.asid ≠ asid ∨ l.arena ≠ arena) →
    (∀ p ∈ s.props, p.asid ≠ asid ∨ p.arena ≠ arena) →
    let a : ArenaAt := ⟨asid, arena.toNat⟩
    s.arNum a 0 4 = 0x4352544B → s.arState a = 2 → 3 * (s.arTable a 4).2.1 < 4 * (s.arTable a 4).2.2 →
    let lines := 4 + ((List.range 5).map fun i => (s.arTable a i).2.2).sum
    exec (.traceCompaction asid arena) s = .next (s.maintains true fun s => (s.ask 10 lines).compact a).2) ∧
  (∀ (s : State) i (work : State → State), i < 15 →
    (nth s.dev.budget i 0 = 0xFFFFFFFF → (s.budgeted i work).1 = true) ∧
    ((s.budgeted i work).1 = true → (s.budgeted i work).2 = { work s with dev := (s.budgeted i work).2.dev }) ∧
    ((s.budgeted i work).1 = false → (s.budgeted i work).2 = { s with dev := (s.budgeted i work).2.dev }))

/-! ### Loads, cells and translation -/

/-- R42, R153, R162, R166–R169, R171, R358: what a load, a cell operation, a withdrawal and a waiting LDCS do when their time
comes; a wave's loads return in order; a history stays in stamp order whatever the order of arrival, a replay changes
nothing, and its fold applies the entries one after the other to the base value. -/
def Obligations.CellsAndLoads : Prop :=
  (∀ s r n k h w d, s.task? r.tid = some k → s.share? r.tid r.core = some h → s.wave? r = some w →
    w.loads.find? (·.id == n) = some d → (w.loads.find? fun e => e.cell == d.cell) = some d →
    let xy := s.coreXY k r.core
    (s.core xy.1 xy.2).samples = [] →
    ∃ t, exec (.loadReturn r n) s = .next t ∧
      LeavesWith s t r { Expect.same s k h w with
        rest := s.addMissed (d.due.any (· < s.drone)) (coreRequester xy)
        wave := { w with loads := w.loads.filter (·.id != n) } } fun w' =>
        ∀ ln, (w'.thread? ln).map (fun th => { th with v := [] }) = (w.thread? ln).map (fun th => { th with v := [] }) ∧
          ∀ th th' m, w.thread? ln = some th → w'.thread? ln = some th' → th'.rv m =
            if w.laneOf d.tix = some ln then
              (((d.reg.elim [] fun g => d.words.zipIdx.map fun p => (g + p.2, p.1)).find? (·.1 == m)).map (·.2)).getD (th.rv m)
            else th.rv m) ∧
  (∀ (s : State) r n k w d e, s.task? r.tid = some k → s.wave? r = some w → w.loads.find? (·.id == n) = some d →
    (w.loads.find? fun e => e.cell == d.cell) = some e → e.id ≠ n → exec (.loadReturn r n) s = .next s) ∧
  (∀ (s : State) n op spilled l k, s.flight.find? (·.id == n) = some op → (∀ c ∈ s.cores, c.retry.all (·.id != n) = true) →
    s.answer op = .accepted spilled → s.task? op.tid = some k → s.launch? op.lid = some l → l.records? = false →
    (spilled = true → s.mayTransfer 11 = true) →
    let core := coreRequester (s.coreXY k op.core)
    let u := if spilled then s.transfer 11 1 else s
    let v := ({ u with flight := s.flight.filter (·.id != n) } : State).putCell { op with tried := none } (op.scope % 2 == 1) spilled
    let late := decide (op.due < s.drone)
    k.prop = none → exec (.cellArrival n) s = .next ((((v.bumpCseq op).answered op late).addMissed late core).foldCells)) ∧
  (∀ (s : State) n op, (s.flight ++ s.cores.flatMap (·.retry)).find? (·.id == n) = some op →
    (∃ c ∈ s.cores, ∃ o ∈ c.retry, o.id = n) → (∃ w, op.tried = some w ∧ s.watermark op.lid ≤ w) →
    exec (.cellArrival n) s = .next s) ∧
  (∀ (s : State) n op k, s.flight.find? (·.id == n) = some op → (∀ c ∈ s.cores, c.retry.all (·.id != n) = true) →
    s.answer op = .refused → s.task? op.tid = some k → k.over = false →
    let xy := s.coreXY k op.core
    (s.core xy.1 xy.2).retry.length < 32 → s.watermark op.lid ∉ ancestry op.key.toNat → (s.core xy.1 xy.2).samples = [] →
    ∃ t, exec (.cellArrival n) s = .next t ∧ t.flight = s.flight.filter (·.id != n) ∧ t.mem = s.mem ∧ t.cells = s.cells ∧
      (t.core xy.1 xy.2).retry =
        (s.core xy.1 xy.2).retry ++ [{ op with tried := some (s.watermark op.lid), due := s.deadline 2 }]) ∧
  (∀ (es : List CellEntry) e, (es.map (·.op.stamp)).Pairwise (· < ·) →
    ((putEntry es e).map (·.op.stamp)).Pairwise (· < ·) ∧ (∃ x ∈ putEntry es e, x.op = e.op) ∧
    (∀ x ∈ es, x.op.stamp ≠ e.op.stamp → x ∈ putEntry es e) ∧ (e ∈ es → putEntry es e = es) ∧
    ∀ d : CellEntry, d.op.stamp ≠ e.op.stamp → putEntry (putEntry es d) e = putEntry (putEntry es e) d) ∧
  (∀ (s : State) tag pa scope g key, s.hist? pa scope = some g →
    ((s.cells.takeWhile fun h => !(h.pa == pa && h.scope == scope)).all fun h => !(h.pa == pa && h.traced)) = true →
    s.cellFold tag pa scope key = (g.entries.filter fun e => e.op.key.toNat < key).foldl
      (fun x e => cellOp e.op.major e.op.ty e.op.operand.toNat x) (s.cellBase tag pa)) ∧
  (∀ (s : State) g, s.cells = [g] → g.traced = false → s.tags = [] →
    (g.entries.any fun e => e.op.key.toNat < s.scopeMark g.scope) = true →
    let low := fun (e : CellEntry) => decide (e.op.key.toNat < s.scopeMark g.scope)
    s.foldCells.mem = s.mem.write g.pa (bytes 16 ((g.entries.filter low).foldl
      (fun x e => cellOp e.op.major e.op.ty e.op.operand.toNat x) (num (s.mem.read g.pa 16)))) ∧
    ∀ h ∈ s.foldCells.cells, h.pa = g.pa ∧ h.scope = g.scope ∧ h.entries = g.entries.filter fun e => !low e) ∧
  (∀ (s : State) n scope pa key tix cseq, s.withdrawals.find? (·.1 == n) = some (n, scope, pa, key, tix, cseq) →
    ∃ t, exec (.cellWithdrawal n) s = .next t ∧
      t = { s with cells := t.cells, withdrawals := s.withdrawals.filter (·.1 != n) } ∧
      (∀ g ∈ t.cells, g.pa = pa → g.scope = scope → ∀ e ∈ g.entries, ¬ (e.op.key = key ∧ e.op.tix = tix ∧ e.op.cseq = cseq)) ∧
      ∀ g ∈ s.cells, g.entries ≠ [] → (g.pa ≠ pa ∨ g.scope ≠ scope) → g ∈ t.cells) ∧
  (∀ s r k w mask reqs, s.task? r.tid = some k → s.wave? r = some w → s.taskRuns k = true → s.fatalIn k = false →
    w.wait = .ldcs mask reqs → k.key.toNat ≤ s.watermark k.lid → ∀ k' h' w',
    let u := (s.giveCells r reqs).sampleLoads k r s.fresh
    u.task? r.tid = some k' → u.share? r.tid r.core = some h' → u.wave? r = some w' →
    ∃ t, exec (.ldcsReturn r) s = .next t ∧ LeavesWith u t r (Expect.asIn u k' h' w') fun x => Returned w' x mask)

/-- R203–R213, R218, R219, R302, R303, R400: walks, leases, beacons, the fault service, and what leaves a cache. That a walk
takes the lowest free walker is the model's choice (log 139), and a leaf that is valid by the time of service is its reading
(log 60). -/
def Obligations.TranslationEvents : Prop :=
  (∀ (s : State) ag asid (va : Addr) n e fills, (∀ w ∈ s.walks, w.ag = ag → w.asid = asid → w.va ≠ va) →
    s.freeWalker (Agent.die ag) = some n → s.walk (some (Agent.die ag)) asid va.toNat = (.leaf e, fills) →
    exec (.pageWalk ag asid va) s = .next { s.walkRequest (some (Agent.die ag)) with
      walks := s.walks ++ [{ ag, walker := n, asid, va, pte := BitVec.ofNat 128 e, fills
                             readAt := s.droneAt (.walker (Agent.die ag) n) }] }) ∧
  (∀ (s : State) die n, s.freeWalker die = some n ↔ n < 128 ∧ (∀ w ∈ s.walks, Agent.die w.ag = die → w.walker ≠ n) ∧
    ∀ m < n, ∃ w ∈ s.walks, Agent.die w.ag = die ∧ w.walker = m) ∧
  (∀ (s : State) ag asid (va : Addr) w, s.walks.find? (fun w => w.ag == ag && w.asid == asid && w.va == va) = some w →
    s.droneAt (.walker (Agent.die ag) w.walker) ≤ w.readAt + 2000 → leaseOf w.pte.toNat ≠ 0 → s.isSkewed ag = false →
    ∃ t e, exec (.pageWalk ag asid va) s = .next t ∧ t.tlbHit ag asid va.toNat = some e ∧ e.attr = attrOf w.pte.toNat ∧
      e.pa va.toNat = leafPa w.pte.toNat + va.toNat % 65536 ∧ e.expiry ≤ s.droneAt ag + leaseNs (leaseOf w.pte.toNat)) ∧
  (∀ (s : State) n e, s.tlb[n]? = some e →
    (e.expiry ≤ s.droneAt e.ag → exec (.leaseExpiry n) s = .next { s with tlb := s.tlb.eraseIdx n }) ∧
    exec (.cacheEntryDrop n) s = .next { s with tlb := s.tlb.eraseIdx n }) ∧
  (∀ (s : State) n e, s.walkCache[n]? = some e →
    (e.expiry ≤ s.droneAt (.walkCache e.die) →
      exec (.leaseExpiry (s.tlb.length + n)) s = .next { s with walkCache := s.walkCache.eraseIdx n }) ∧
    exec (.cacheEntryDrop (s.tlb.length + n)) s = .next { s with walkCache := s.walkCache.eraseIdx n }) ∧
  (∀ (s : State) ag (d : Int), 80 < d.natAbs → ∃ t, exec (.droneBeacon ag d) s = .next t ∧
    (∀ e ∈ t.tlb, Agent.clock e.ag ≠ Agent.clock ag) ∧
    (∀ e ∈ t.walkCache, Agent.clock (.walkCache e.die) ≠ Agent.clock ag) ∧
    (∀ e ∈ s.tlb, Agent.clock e.ag ≠ Agent.clock ag → e ∈ t.tlb) ∧ t.isSkewed ag = true ∧
    t.dev.event.getLsbD 0 = true ∧ t.drift? ag = d) ∧
  (∀ (s : State) ag (d : Int), d.natAbs ≤ 20 →
    (∀ p ∈ s.skewed, p.1 = Agent.clock ag → p.2 = false ∨ s.dev.event.getLsbD 0 = false) →
    ∃ t, exec (.droneBeacon ag d) s = .next t ∧ t = { s with
      drift := t.drift, skewed := s.skewed.filter (·.1 != Agent.clock ag)
      tlb := s.tlb.filter fun e => Agent.clock e.ag != Agent.clock ag || s.droneAt (Agent.clock ag) < e.expiry
      walkCache := s.walkCache.filter fun e =>
        Agent.clock (.walkCache e.die) != Agent.clock ag || s.droneAt (Agent.clock ag) < e.expiry } ∧ t.drift? ag = d) ∧
  (∀ (s : State) fid f, s.faults.find? (·.fid == fid) = some f → f.queued = false → f.failed = false →
    let root := s.pteAt (s.dev.asbase + 16 * f.asid.toNat)
    let host := f.hostMode = true ∨ root % 2 = 0
    (host → (s.dev.hfqhead + 32) % hfqSize s.dev ≠ s.dev.hfqtail → ∃ t, exec (.translationFaultService fid) s = .next t ∧
      t.mem = s.mem.write (s.dev.hfqbase + s.dev.hfqhead) f.bytes ∧ t.dev.hfqhead = (s.dev.hfqhead + 32) % hfqSize s.dev ∧
      t.dev.event.getLsbD 5 = true) ∧
    (¬ host → s.holeAt f.va.toNat 4 (leafPa root) = none → exec (.translationFaultService fid) s = .next (s.retryFault fid)) ∧
    (¬ host → ∀ k at', s.holeAt f.va.toNat 4 (leafPa root) = some (k, at') →
      (s.poolOf f.asid f.va.toNat = none → exec (.translationFaultService fid) s = .next ((s.failLanes fid).failFault fid)) ∧
      (∀ p, s.poolOf f.asid f.va.toNat = some p → (s.mapPath p f.va.toNat k at').2 = true →
        exec (.translationFaultService fid) s = .next ((s.mapPath p f.va.toNat k at').1.retryFault fid)))) ∧
  (∀ (s : State) x y n l, (s.core x y).l1[n]? = some l → ∃ t, exec (.l1LineReplacement x y n) s = .next t ∧
    (t.core x y).l1 = (s.core x y).l1.eraseIdx n ∧ t.mem = s.mem ∧
    ∀ k, s.task? l.tid = some k → ∃ k', t.task? l.tid = some k' ∧ { k' with accesses := [] } = { k with accesses := [] } ∧
      k'.accesses.length = k.accesses.length)

/-! ### The device and the host -/

/-- R264, R288, R294, R295, R298, R299, R304, R305: registers that the host writes, debugging, refresh requests,
attestation and bring-up. The model's readings: report ready falls when a request is accepted (log 82), a handback counts
only while the controller owns refresh (log 80), an image is 4 KiB and a signature of 3,309 bytes (log 68), and 4 bytes of key
material leave the others (log 64). -/
def Obligations.HostWrites : Prop :=
  (∀ (s : State) (v : BitVec 64) p, s.dev.stage = 4 → s.regWaits = false → p < 8 →
    let n := partOf p v
    let bad := n.valid = true ∧ (n.w = 0 ∨ n.h = 0 ∨ 24 < n.x0 + n.w ∨ 16 < n.y0 + n.h ∨
      ∃ o ∈ s.dev.parts, o.p ≠ p ∧ o.valid = true ∧ n.overlaps o = true)
    let runs := (s.part? p).isSome = true ∧ ∃ l ∈ s.launches, l.part = p ∧ l.st ≠ .staged
    (¬ bad → ¬ runs → exec (.dvPart p v) s =
      .next ((s.modDev fun d => { d with parts := d.parts.filter (·.p != p) ++ [n] }).answerReg 0 [])) ∧
    ((bad ∨ runs) → exec (.dvPart p v) s = .next ((s.event 3).answerReg 0 []))) ∧
  (∀ (s : State) k key, s.dev.stage = 4 → s.regWaits = false → k < 64 → s.dev.keyvalid.getLsbD k = false → ∃ t, exec (.dvKeyslot k key) s = .next t ∧
    t = (s.modDev fun d => { d with keys := t.dev.keys }).answerReg 0 [] ∧ ∃ n, (t.dev.keys.find? (·.1 == k)) = some (k, key, n)) ∧
  (∀ (s : State) (v : BitVec 64), s.dev.stage = 4 → s.regWaits = false →
    exec (.dvRhthresh v) s = .next ((if 256 ≤ v.toNat % 32768 ∧ v.toNat % 32768 ≤ 16384 then
      s.modDev fun d => { d with rhthresh := v.toNat % 32768 } else s.event 3).answerReg 0 [])) ∧
  (∀ (s : State) (v : BitVec 64), s.dev.stage = 4 → s.regWaits = false → ∃ t, exec (.dvEvmask v) s = .next t ∧ t.dev.evmask = v.setWidth 7 ∧
    t.host.interrupts = s.host.interrupts ++ List.replicate
      ((List.range 7).filter fun i => v.getLsbD i && !s.dev.evmask.getLsbD i && s.dev.event.getLsbD i).length s.dev.evvec.toNat) ∧
  (∀ (s : State) (v : BitVec 64), s.dev.stage = 4 → s.regWaits = false → exec (.dvAttreq v) s = .next
    ((if s.dev.attreq.isSome then s
      else s.modDev fun d => { d with attreq := some (v.toNat / 4096 % 2 ^ 40 * 4096), ready := false }).answerReg 0 [])) ∧
  (∀ (s : State) page, s.dev.attreq = some page → page + 4096 ≤ Config.deviceBytes →
    ∃ t, exec .attestationReport s = .next t ∧ t.dev.attreq = none ∧ t.dev.ready = true ∧ t.dev.event.getLsbD 6 = true ∧
      ∃ rest, t.mem = s.mem.write page (s.reportBody page ++ rest)) ∧
  (∀ (s : State) (v : BitVec 64), s.dev.stage = 4 → s.regWaits = false →
    let pa := v.toNat / 4096 % 2 ^ 40 * 4096
    let image := s.mem.read pa 4096
    let ops := (reedWords image).map decodeReed
    let prog := ops.filterMap id
    let ix := v.toNat % 4096
    let ok := Config.signatureOk (s.mem.read pa 7405) = true ∧ ops.all Option.isSome = true ∧ reedProgOk prog = true ∧
      ∀ k ∈ s.queues, k.state = 1 → (s.qDesc k.q).prog = ix → reedBindOk prog (s.qDesc k.q) k.mask = true
    ∃ t, exec (.dvReedload v) s = .next t ∧ (ok → t.reedProg ix = some prog) ∧
      (¬ ok → t = s.answerReg 0 [])) ∧
  (∀ (s : State) n, s.dev.stage = 4 → s.regWaits = false → n < 12 →
    exec (.refctlHandback n) s = .next ((s.modStack n fun k => { k with handback := k.handback || k.owner }).answerReg 0 []) ∧
    (s.dev.scrubsOnRequest = true →
      exec (.refctlScrub n) s = .next ((s.modStack n fun k => { k with scrubReq := k.scrubReq + 1 }).answerReg 0 [])) ∧
    (s.dev.split.getLsbD 3 = true →
      exec (.refctlRepair n) s = .next ((s.modStack n fun k => { k with repairReq := true }).answerReg 0 []))) ∧
  (∀ (s : State) p l, s.dev.stage = 4 → s.regWaits = false → p < 8 → s.launchesIn p = [l] →
    ((s.debug p).enable = true → exec (.dbgctlHalt p) s = .next ((s.stopLaunch l.lid).answerReg 0 [])) ∧
    (l.stopReq = true → exec (.dbgctlStep p) s = .next ((s.freeWaves l.lid).answerReg 0 [])) ∧
    exec (.dbgctlResume p) s =
      .next (((s.freeWaves l.lid).modLaunch l.lid fun l => { l with stopReq := false }).answerReg 0 [])) ∧
  (∀ (s : State) off (v : BitVec 64), s.dev.stage = 4 → s.regWaits = false → off % 8 = 0 → (s.regAt off).isSome = true →
    exec (.registerWrite off 8 v) s = .next ((s.regPut off v.toNat).answerReg 0 []) ∧
    (off = 0x40 → ∃ t, exec (.registerWrite off 8 v) s = .next t ∧ t.regAt off = some (v.toNat / 64 % 2 ^ 46 * 64)) ∧
    (off = 0x60 → ∃ t, exec (.registerWrite off 8 v) s = .next t ∧ t.regAt off = some v.toNat)) ∧
  (∀ (s : State) k i (v : BitVec 64), s.dev.stage = 4 → s.regWaits = false → k < 64 → s.dev.keyvalid.getLsbD k = false → i < 16 →
    let old := ((s.dev.keys.find? (·.1 == k)).map (·.2.1)).getD 0
    ∃ t key n, exec (.registerWrite (0x1000 + 64 * k + 4 * i) 4 v) s = .next t ∧ (t.dev.keys.find? (·.1 == k)) = some (k, key, n) ∧
      ∀ j, j < 16 → key.extractLsb' (32 * j) 32 = if j = i then v.setWidth 32 else old.extractLsb' (32 * j) 32) ∧
  (∀ (s : State) off n (v : BitVec 64), s.dev.stage ≠ 4 → s.regWaits = false → 16 ≤ off →
    exec (.registerWrite off n v) s = .next (s.answerReg 3 [])) ∧
  (∀ (s : State) stream off n x, s.dev.stage = 4 → s.streamWaits stream = false → (n = 4 ∨ n = 8) → off % n = 0 →
    s.regAt (off / 8 * 8) = some x → s.hostRegRead stream off n =
      s.reply stream 0 (bytes n (if n = 8 then x % 2 ^ 64 else x / 2 ^ (8 * (off % 8)) % 2 ^ 32))) ∧
  (∀ (s : State) (ws : List (BitVec 104)) res,
    let fails := fun code => Outcome.next (s.modDev fun d => { d with stage := 15, failCode := code })
    let goes := fun n => Outcome.next (s.modDev fun d => { d with stage := n })
    (s.dev.stage = 0 → exec (.bringUp res) s = goes 1) ∧
    (s.dev.stage = 1 → exec (.bringUp res) s =
      if (List.range 3).all fun i => Config.signatureOk (Config.firmware i) then goes 2 else fails 1) ∧
    (s.dev.stage = 2 → exec (.bringUp .trainingFails) s = fails 2 ∧ exec (.bringUp (.ok ws)) s = goes 3) ∧
    (s.dev.stage = 3 → exec (.bringUp (.ok ws)) s =
      if ws.length = 4 ∧ ∀ w ∈ ws, 96 ≤ popcount w then .next (s.modDev fun d => { d with stage := 4, harvest := ws })
      else fails 3))

/-- R76, R146–R148, R256, R277, R289, R290, R294–R296, R300: host and peer accesses to device memory, links, refresh, row
hammering, scrub, health, budgets and stage shares. That a heartbeat counts the misses before it, and that it clears the
repair request and the handback, is the model's reading (log 80). -/
def Obligations.DeviceEvents : Prop :=
  (∀ (s : State) stream pa key ver, s.mayTransfer 9 = true → s.streamWaits stream = false → pa % 64 = 0 →
    pa < Config.deviceBytes → s.badLine pa = false → s.tags = [] → s.slotKey key = 0 →
    exec (.deviceMemoryRead stream pa key ver) s =
      .next (((s.transfer 9 1).hbmRequest 1 769 0).reply stream 0 (s.mem.read pa 64))) ∧
  (∀ (s : State) stream pa key ver mask data, s.mayTransfer 9 = true → s.streamWaits stream = false → pa % 64 = 0 → pa < Config.deviceBytes →
    s.unsettledLine (pa / 64) = false → s.tags = [] → s.slotKey key = 0 → s.mem.wf = true →
    (∀ l ∈ s.launches, pa / 65536 ∉ l.hostSet) → ∃ t, exec (.deviceMemoryWrite stream pa key ver mask data) s = .next t ∧
      t.host.replies = s.host.replies ++ [(stream, 0, [])] ∧ ∀ a, t.mem.get a =
        if pa ≤ a ∧ a < pa + 64 ∧ mask.getLsbD (a - pa) = true then BitVec.ofNat 8 (data.toNat / 2 ^ (8 * (a - pa)))
        else s.mem.get a) ∧
  (∀ (s : State) peer pa mask, s.peerOk peer = true → s.peerDown (BitVec.ofNat 6 peer) pa = false → pa % 32 = 0 →
    pa < Config.deviceBytes → s.tags = [] → s.mem.wf = true →
    (s.badLine pa = false → exec (.peerAccess peer pa none mask) s = .next (s.replyPeer peer 0 (s.mem.read pa 32))) ∧
    ∀ d : BitVec 256, ∃ t, exec (.peerAccess peer pa (some d) mask) s = .next t ∧
      t.host.peerReplies = s.host.peerReplies ++ [(peer, 0, [])] ∧ ∀ a, t.mem.get a =
        if pa ≤ a ∧ a < pa + 32 ∧ mask.getLsbD (a - pa) = true then BitVec.ofNat 8 (d.toNat / 2 ^ (8 * (a - pa)))
        else s.mem.get a) ∧
  (∀ (s : State) port, port < 16 → (∃ t, exec (.linkTrainingLoss port) s = .next t ∧ port ∈ t.dev.lostPorts) ∧
    ∃ t, exec (.linkTraining port) s = .next t ∧ port ∉ t.dev.lostPorts) ∧
  (∀ (s : State) n, n < 12 → let k := s.stack n
    let m := (s.drone - k.lastBeat - 1) / 100000
    let third := s.dev.split.getLsbD 3 = false ∧ k.misses < 3 ∧ 3 ≤ m
    (∃ t, exec (.heartbeat n) s = .next t ∧ (third → t.dev.event.getLsbD 1 = true) ∧
      t.stack n = { k with misses := 0, lastBeat := s.drone, repairReq := false, handback := false
                           owner := (k.owner || decide third) && !k.handback }) ∧
    (s.dev.split.getLsbD 3 = false → k.misses < m → ∃ t, exec (.heartbeatMiss n) s = .next t ∧
      t.stack n = { k with misses := m, owner := k.owner || decide third } ∧ (third → t.dev.event.getLsbD 1 = true))) ∧
  (∀ (s : State) n ch bank row, n < 12 → (s.drone - 1) / 32000000 ≤ s.dev.clears →
    let k := s.stack n
    let old := ((k.trackers.find? (·.1 == (ch, bank))).map (·.2)).getD []
    let near := [row + 1, row + 2] ++ (if 1 ≤ row then [row - 1] else []) ++ (if 2 ≤ row then [row - 2] else [])
    let all := k.refreshDue ++ if (trackRow s.dev.rhthresh row old).2 then near.map fun r => (ch, bank, r) else []
    ∃ t, exec (.rowActivation n ch bank row) s = .next t ∧ t.mem = s.mem ∧
      ((t.stack n).trackers.find? (·.1 == (ch, bank))) = some ((ch, bank), (trackRow s.dev.rhthresh row old).1) ∧
      (t.stack n).directed ++ (t.stack n).refreshDue = k.directed ++ all ∧
      (t.stack n).refreshDue.length = all.length - s.mayPay 13 all.length) ∧
  (∀ (s : State), s.dev.clears < (s.drone - 1) / 32000000 → exec .trackerClear s = .next (s.modDev fun d =>
    { d with clears := (s.drone - 1) / 32000000, hbm := d.hbm.map (fun k => { k with trackers := [] }) })) ∧
  (∀ (s : State) n, n < 12 → s.dev.broken = [] →
    let day := s.drone / 86400000000000
    let pass := fun (s : State) (f : Stack → Stack) => ((s.ask 12 stackLines).modStack n f).hbmRequests 3 (774 + n) 0 stackLines
    (s.dev.scrubsOnRequest = true → (s.stack n).scrubReq ≠ 0 → exec (.scrubPass n []) s = .next
      (s.budgeted 12 fun s => pass s fun k => { k with scrubs := k.scrubs + 1, scrubReq := k.scrubReq - 1 }).2) ∧
    (s.dev.scrubsOnRequest = false → (s.stack n).scrubDays ≤ day → exec (.scrubPass n []) s = .next
      (s.budgeted 12 fun s => pass s fun k => { k with scrubs := k.scrubs + 1, scrubDays := day + 1 }).2)) ∧
  (∀ (s : State) months die, s.dev.eolHour < s.drone / 3600000000000 → die.toNat < 4 →
    exec (.eolUpdate months die) s = .next (s.modDev fun d =>
      { d with eolHour := s.drone / 3600000000000, eolMonths := months, eolDie := die })) ∧
  (∀ (s : State), s.dev.period < s.drone / 8192 → exec .budgetPeriod s = .next (s.modDev fun d =>
    { d with period := s.drone / 8192, used := List.replicate 15 0 }).payDues) ∧
  (∀ (s : State) x y, ∃ t, exec (.shareReassign x y) s = .next t ∧
    ∀ tid stage, (tid, stage) ∈ (t.core x y).smallest ↔ ∃ k ∈ s.tasks, k.tid = tid ∧ k.st = .resident ∧ ∃ h ∈ k.shares,
      s.coreXY k h.c = (x, y) ∧ ∃ g, (s.stagesOf k)[stage]? = some g ∧ starved h g.role = true)

/-! ### Faults -/

/-- R257–R261, R268, R136, R138, R47, R46, R40, R28: a fault parks its thread and reaches its launch's records in record
order; a halt-on-fatal launch begins to halt; a task of which no other thread can go on stops; what ILLEGAL, OPERAND, LATCH
and FETCH report. A race is a conflicting pair that no order covers; in scratch or on a line held in the L1 the second access
takes RACE and is not performed, and the closing barrier gives it to both threads. -/
def Obligations.FaultsTaken : Prop :=
  (∀ (s : State) r ln f k w th l, s.task? r.tid = some k → s.wave? r = some w → w.thread? ln = some th → k.prop = none →
    s.launch? k.lid = some l → (l.haltFatal = false ∨ l.st ≠ .running) →
    let u := s.raise r ln f
    u = { s with tasks := u.tasks, launches := u.launches } ∧
    u.wave? r = some (w.modLane ln fun th => { th with park := .fatal, atBar := false }) ∧
    u.launches = (s.modLaunch k.lid fun l => l.record s.now
      { code := f.code, lane := ln, tix := th.tix, ordinal := (nearestSafe (s.codeOf r.tid) th.pc).1
        offset := (nearestSafe (s.codeOf r.tid) th.pc).2, access := f.access, va := f.detail, key := f.key.getD k.key
        time := s.drone, partner := f.partner }).launches) ∧
  (∀ (l : Launch) (x : FaultRec) now, (l.st = .running ∨ l.st = .staged ∨ l.st = .ended) →
    (l.records.map FaultRec.size).sum + x.size ≤ 256 →
    (l.record now x).records = insertBy FaultRec.lt x l.records ∧ (l.record now x).faultCount = min (l.faultCount + 1) 0xFFFFFFFF ∧
    (l.record now x).fatal = (l.fatal || x.fatal)) ∧
  (∀ (l : Launch) (x : FaultRec) now at', ((∃ reason va size, l.st = .halting at' reason va size) ∨ l.st = .halted at') →
    at' / Config.coreCycle < now / Config.coreCycle → l.record now x = l) ∧
  (∀ (s : State) r ln f k w th l, s.task? r.tid = some k → s.wave? r = some w → w.thread? ln = some th → k.prop = none →
    s.launch? k.lid = some l → l.haltFatal = true → l.st = .running → f.code ≠ 0x09 → s.dev.split.getLsbD 6 = false →
    ∃ l', (s.raise r ln f).launch? k.lid = some l' ∧ l'.st = .halting s.now 1 l.dumpVa l.dumpSize) ∧
  (∀ (s : State) tid k, s.task? tid = some k → s.taskRuns k = true → s.fatalIn k = true → k.active = false →
    ∃ k', (s.settle tid).task? tid = some k' ∧ k'.st = .stopped ∧ k'.shares = k.shares.map Share.left ∧ k'.shadow = []) ∧
  (∀ i s r k w pc front, s.issuer = some r → i.lane?.isSome = true → s.task? r.tid = some k → s.wave? r = some w →
    w.frontier = some (pc, front) →
    (i.selOk = false → exec i s = .next ((s.raiseAll r front { code := 0x01, detail := insWord i }).settle r.tid)) ∧
    (i.selOk = true → i.opOk (s.stageOf k w.stage).budget = false →
      exec i s = .next ((s.raiseAll r front { code := 0x02, detail := insWord i }).settle r.tid))) ∧
  (∀ i body s r info k w pc front, s.issuer = some r → i.lane? = some info → s.task? r.tid = some k → s.wave? r = some w →
    w.frontier = some (pc, front) → i.selOk = true → i.opOk (s.stageOf k w.stage).budget = true → w.pend = [] →
    let take := i.takes w front
    let bad := maskOf ((lanesOf take).filter fun ln => (w.thread? ln).any fun th => !latchesOk w ln th info.uses)
    let iss : Iss := { r, i, info, pc, front, take := without take bad }
    issue i body s = .next (finish iss i.isSwitch
      (body iss ((s.modWave r fun w => { w with wait := .none }).raiseAll r bad { code := 0x03, detail := insWord i })))) ∧
  (∀ (t : Task) (a : Access),
    let pair := fun (b : Access) => b.space = a.space ∧ (a.space = 4 ∨ b.core = a.core) ∧ a.addr < b.addr + b.len ∧
      b.addr < a.addr + a.len ∧ b.tix ≠ a.tix ∧ (a.write = true ∨ b.write = true) ∧ ¬ (a.satom = true ∧ b.satom = true)
    let ordered := fun (b : Access) => (b.core = a.core ∧ b.wix = a.wix) ∨ b.epoch ≤ a.prior.get (b.core, b.wix)
    let here := fun (b : Access) => a.space = 0 ∨ (b.held = true ∧ b.core = a.core)
    (∀ b, (racesOf t a).1 = some b → b ∈ t.accesses ∧ pair b ∧ ¬ ordered b ∧ here b) ∧
    ((racesOf t a).1 = none → ∀ b ∈ t.accesses, pair b → ordered b ∨ ¬ here b) ∧
    ∀ b, b ∈ (racesOf t a).2 ↔ b ∈ t.accesses ∧ pair b ∧ ¬ ordered b ∧ ¬ here b) ∧
  (∀ (t : Task) (x y : Access) time,
    let size := fun (a : Access) => if a.len ≤ 16 then a.len else 0
    let at' := x.va + (max x.addr y.addr - x.addr)
    let other : FaultRec := { code := 0x88, lane := y.lane, tix := y.tix, ordinal := y.ordinal, offset := y.offset
                              access := size y, va := at', key := t.key, time := y.time }
    raceRec t x y time = { code := 0x08, lane := x.lane, tix := x.tix, ordinal := x.ordinal, offset := x.offset
                           access := size x, va := at', key := t.key, time, partner := some other.bytes }) ∧
  (∀ (iss : Iss) s w ln th k h off n, s.task? iss.r.tid = some k → s.share? iss.r.tid iss.r.core = some h →
    let race := fun (a b : Access) =>
      let f := raceRec k a b s.drone
      s.raise iss.r ln { code := f.code, detail := f.va, access := f.access, partner := f.partner }
    (∀ width d b, localFault h w 0 off n false = none →
      let a := s.accessOf k iss.r w ln th 0 off off n false false
      (racesOf k a).1 = some b → iss.loadLocal 0 off n width d s w ln th = race a b) ∧
    ∀ v b, localFault h w 0 off n true = none →
      let a := s.accessOf k iss.r w ln th 0 off off n true false
      (racesOf k a).1 = some b → iss.storeLocal 0 off n v s w ln th = race a b) ∧
  (∀ (s : State) tid t l a b c p q, s.task? tid = some t → s.launch? t.lid = some l → t.prop = none → l.haltFatal = false →
    (t.shares.map (·.c)).Nodup → (∀ h ∈ t.shares, (h.waves.map (·.wix)).Nodup) →
    t.races = [(a, b)] → a.epoch ≤ Clock.get c a.ctx → b.epoch ≤ Clock.get c b.ctx →
    s.findTix tid a.tix = some p → s.findTix tid b.tix = some q →
    let u := s.closeRaces tid c
    (u.task? tid).map (·.races) = some [] ∧
    ((u.wave? p.1).bind (·.thread? p.2)).map (·.park) = some .fatal ∧
    ((u.wave? q.1).bind (·.thread? q.2)).map (·.park) = some .fatal ∧
    u.launches = (s.modLaunch t.lid fun l =>
      (l.record s.now (raceRec t a b s.drone)).record s.now (raceRec t b a s.drone)).launches) ∧
  (∀ (s : State) k l xy pc, l.code.size < pc + 2 → ∃ f, s.fetch k l xy pc = (.flt f, s) ∧ f.code = 0x04 ∧ f.detail = pc)

/-! ### Decoding, steps and the whole machine -/

/-- R27, R32, R30, R245: words that the spec writes out, and what they decode to. -/
def Obligations.DecodesSpecWords : Prop :=
  decodeTableWord 32 0xFF020469 = some (.iaddi ⟨0xFF, .v 1, .v 1, false, false⟩) ∧
  decodeTableWord 32 0x0A10183D = some (.and ⟨.v 5, .v 4, .v 3, false, false, false⟩) ∧
  decodeTableWord 32 0x0C108865 = some (.icmp ⟨.v 6, .v 4, .lt, 1, false, false⟩) ∧
  decodeTableWord 16 0x1894 = some (.faddCompact ⟨.v 6, 4⟩) ∧
  decodeTableWord 32 0x0600108D = some (.aadd ⟨.v 3, 0, 2, false⟩) ∧
  decodeTableWord 32 0x03E804BD = some (.ldc ⟨3, .vz, .v 1, false⟩) ∧
  decodeTableWord 32 0x011060C1 = some (.cadd ⟨2, 1, .v 3, .s32, false, false⟩) ∧
  decodeTableWord 32 0x00106949 = some (.modw ⟨0, 1, .v 3, .b32, false, false⟩) ∧
  decodeTableWord 32 0x00908D49 = some (.modw ⟨1, 1, .v 4, .b64, false, false⟩) ∧
  decodeTableWord 32 0x806082E9 = some (.shfl ⟨.all, .v 6, .v 4, 1, false⟩) ∧
  decodeTableWord 32 0x0000011D = some (.exit ⟨false, false⟩) ∧
  decodeTableWord 32 0x0304833D = some (.spawn ⟨3, 2, 4, true, false⟩) ∧
  decodeTableWord 32 0x00040145 = some (.prop ⟨2, false⟩) ∧
  decodeTableWord 32 0x00004539 = some (.fencex ⟨2, 1, false⟩) ∧
  decodeTableWord 32 0x003011CD = some (.chadv ⟨0, .v 3, false⟩) ∧
  decodeTableWord 32 0x05004159 = some (.mloadb ⟨true, 1, 2, false⟩) ∧
  decodeTableWord 32 0x03100008 = some (.reedLdv ⟨1, 0, 0, 8⟩) ∧
  decodeTableWord 32 0x14000001 = some (.reedCall 1) ∧
  decodeTableWord 16 0 = none

/-- A step runs what the bytes at the program counter decode to: the wave whose turn it is fetches in device memory at its
frontier; a queue runs the operation of its program, or the row of the primitive that its packet is in; an event is
executed. Every step has a free number of its own and takes the first turn of the agenda; with none, what is urgent goes
first (a bin that is due, a slot past its limit, copies of a halted launch), and then a free turn is taken. -/
def Obligations.StepsRunWhatIsThere : Prop :=
  (∀ s r k w l pc front rest i e, s.agenda = .wave r :: rest →
    let s1 := { s with agenda := rest, free := s.free + 1 }
    let xy := s.coreXY k r.core
    let va := (addrAdd l.code.text (pc : Nat)).toNat
    s.task? r.tid = some k → s.wave? r = some w → s.launch? k.lid = some l → k.st = .resident → w.canIssue = true →
    (s1.launchRuns l = true ∨ (l.haltedAt.isSome = true ∧ w.inProgress = true)) → s1.isAwake xy = true → s1.slotTakes r w l xy = true → w.frontier = some (pc, front) →
    s1.haltAt k w l pc i = .no →
    s.cached (laneViewer k.tid xy.1 xy.2) l.asid va = some e → e.attr.x = true → e.attr.target = 0 →
    s.pageTag l e.attr.buf = (0, 0) → s.tags = [] → s.badIn (e.pa va) i.len = false → va % 65536 + i.len ≤ 65536 →
    pc + i.len ≤ l.code.size → decodeBytes (s.mem.read (e.pa va) i.len) = some (.ok i) →
    step s = exec i { s1.takeSlot r w l xy with issuer := some r }) ∧
  (∀ s q rest p, s.agenda = .reed q :: rest → (s.queueD q).crWaits = [] → (s.queueD q).signalStalls = false →
    (s.queueD q).packet = some p →
    let s1 := { s with agenda := rest, free := s.free + 1 }
    (∀ ops i, p.prim = .none → p.engine = true → s.reedProg (s.qDesc q).prog = some ops → ops[p.pc]? = some i → p.ops < 512 →
      step s = exec i { s1.headRequest q i with turnQueue := some q }) ∧
    (∀ i, primRow q p.prim = some i → step s = exec i (s1.headRequest q i))) ∧
  (∀ (s : State) i rest, encode i = none →
    (s.agenda = .ev i :: rest →
      let s1 := { s with agenda := rest, free := s.free + 1 }
      (s.queueStands i = true → step s = .next s1) ∧
      (s.queueStands i = false →
        step s = exec i (match Instr.headQueue i with | some q => s1.headRequest q i | none => s1))) ∧
    ∀ stream, s.agenda = .host stream i :: rest →
      step s = exec i { s with agenda := rest, free := s.free + 1, host := { s.host with stream } }) ∧
  (∀ (s : State), s.agenda = [] → (s.urgent.isNone = true → step s = step { s with agenda := [Config.freeTurn s.free] }) ∧
    (∀ x y n, s.overfull = none → s.dueBin = some (x, y, n) → step s = exec (.binDrain x y n) { s with free := s.free + 1 }) ∧
    (∀ x y n, s.overfull = none → s.dueBin = none → s.dueWatchdog = some (x, y, n) →
      step s = exec (.watchdog x y n) { s with free := s.free + 1 }) ∧
    ∀ l, s.overfull = none → s.dueBin = none → s.dueWatchdog = none → s.dueDrain = some l →
      step s = .next ({ s with free := s.free + 1 }.drainCopies l))

/-- Encode and decode agree: a well-formed instruction that has an encoding fits its bits and decodes to itself, with
every operand at every value (R27, R30, R32, R245). -/
def Obligations.DecodeOfEncode : Prop := ∀ (i : Instr) n w, i.wf = true → encode i = some (n, w) → w < 2 ^ n ∧
  (if i.lane?.isSome then decodeBytes (leBytes (n / 8) w) = some (.ok i) else decodeReed w = some i)

/-- No step stops, in any state: every instruction, event and turn ends in a next state; and every step keeps device, host
and peer memory in their canonical form. -/
def Obligations.StepsGoOn : Prop := ∀ s : State, ∃ t, step s = .next t ∧ (s.MemOk → t.MemOk)

/-- R264, R266, R293, R304, R305: what reset leaves in the registers that a read of dv_ registers shows, the key slots apart,
and in the doorbells' pointers, with nothing listed in memory. -/
def Obligations.ResetLeaves : Prop :=
  State.reset.MemOk ∧
  ([(0x00, 0x4B330001), (0x08, 0), (0x10, 0), (0x18, 0), (0x20, 0), (0x28, 0), (0x30, 0xFFFF), (0x38, 0), (0x40, 0), (0x48, 0), (0x50, 0),
    (0x58, 2048), (0x60, 0x1F4007D003E801F4), (0x68, 0), (0x70, 0), (0x78, 0), (0x80, 0), (0x88, 0), (0x90, 0), (0x98, 0), (0xA0, 0),
    (0xA8, 0), (0xB0, 0), (0xB8, 0)].all fun p =>
      State.reset.regAt p.1 == some p.2) = true ∧
  (∀ p, p < 8 → State.reset.regAt (0xC0 + 8 * p) = some 0x04000000 ∧ State.reset.regAt (0x100 + 8 * p) = some 0) ∧
  (∀ i, i < 15 → State.reset.regAt (0x140 + 8 * i) = some 0xFFFFFFFF) ∧
  (∀ n, n < 12 → State.reset.regAt (0x600 + 8 * n) = some 0) ∧
  (∀ i, i < 64 → State.reset.regAt (0x2000 + 8 * i) = some 0) ∧
  (∀ n e, n < 192 → e < 64 → State.reset.regAt (0x10000 + 512 * n + 8 * e) = some 0) ∧
  (∀ p, p < 8 → State.reset.regAt (0x200 + 0x80 * p) = some 0 ∧
    ∀ i, i < 8 → State.reset.regAt (0x208 + 0x80 * p + 8 * i) = some 0xFFFFFFFF) ∧
  (∀ i, i < 393 → State.reset.regAt (0x3000 + 8 * i) = some 0) ∧
  (∀ q, q < 8192 → State.reset.regAt (0x40000 + 32 * q) = some 0 ∧ State.reset.regAt (0x40008 + 32 * q) = some 0 ∧
    State.reset.regAt (0x40010 + 32 * q) = some 0 ∧ State.reset.regAt (0x80000 + 8 * q) = some 0 ∧
    (State.reset.queueD q).wptr = 0)
end

