-- ==== Sys2Proof/Laws/State.lean ====
section
/-! SUPPORT. One lemma per field per update of the state: what an update leaves as it was. -/

namespace Sys2Proof.Machine

/-! ### modTask -/

@[simp] theorem State.modTask_now (s : State) (tid : Nat) (f : Task → Task) : (s.modTask tid f).now = s.now := rfl
@[simp] theorem State.modTask_dev (s : State) (tid : Nat) (f : Task → Task) : (s.modTask tid f).dev = s.dev := rfl
@[simp] theorem State.modTask_host (s : State) (tid : Nat) (f : Task → Task) : (s.modTask tid f).host = s.host := rfl
@[simp] theorem State.modTask_mem (s : State) (tid : Nat) (f : Task → Task) : (s.modTask tid f).mem = s.mem := rfl
@[simp] theorem State.modTask_hostMem (s : State) (tid : Nat) (f : Task → Task) : (s.modTask tid f).hostMem = s.hostMem := rfl
@[simp] theorem State.modTask_halves (s : State) (tid : Nat) (f : Task → Task) : (s.modTask tid f).halves = s.halves := rfl
@[simp] theorem State.modTask_peerMem (s : State) (tid : Nat) (f : Task → Task) : (s.modTask tid f).peerMem = s.peerMem := rfl
@[simp] theorem State.modTask_tags (s : State) (tid : Nat) (f : Task → Task) : (s.modTask tid f).tags = s.tags := rfl
@[simp] theorem State.modTask_cores (s : State) (tid : Nat) (f : Task → Task) : (s.modTask tid f).cores = s.cores := rfl
@[simp] theorem State.modTask_launches (s : State) (tid : Nat) (f : Task → Task) : (s.modTask tid f).launches = s.launches := rfl
@[simp] theorem State.modTask_props (s : State) (tid : Nat) (f : Task → Task) : (s.modTask tid f).props = s.props := rfl
@[simp] theorem State.modTask_cells (s : State) (tid : Nat) (f : Task → Task) : (s.modTask tid f).cells = s.cells := rfl
@[simp] theorem State.modTask_flight (s : State) (tid : Nat) (f : Task → Task) : (s.modTask tid f).flight = s.flight := rfl
@[simp] theorem State.modTask_withdrawals (s : State) (tid : Nat) (f : Task → Task) : (s.modTask tid f).withdrawals = s.withdrawals := rfl
@[simp] theorem State.modTask_tlb (s : State) (tid : Nat) (f : Task → Task) : (s.modTask tid f).tlb = s.tlb := rfl
@[simp] theorem State.modTask_walks (s : State) (tid : Nat) (f : Task → Task) : (s.modTask tid f).walks = s.walks := rfl
@[simp] theorem State.modTask_walkCache (s : State) (tid : Nat) (f : Task → Task) : (s.modTask tid f).walkCache = s.walkCache := rfl
@[simp] theorem State.modTask_faults (s : State) (tid : Nat) (f : Task → Task) : (s.modTask tid f).faults = s.faults := rfl
@[simp] theorem State.modTask_drift (s : State) (tid : Nat) (f : Task → Task) : (s.modTask tid f).drift = s.drift := rfl
@[simp] theorem State.modTask_skewed (s : State) (tid : Nat) (f : Task → Task) : (s.modTask tid f).skewed = s.skewed := rfl
@[simp] theorem State.modTask_queues (s : State) (tid : Nat) (f : Task → Task) : (s.modTask tid f).queues = s.queues := rfl
@[simp] theorem State.modTask_gangs (s : State) (tid : Nat) (f : Task → Task) : (s.modTask tid f).gangs = s.gangs := rfl
@[simp] theorem State.modTask_saved (s : State) (tid : Nat) (f : Task → Task) : (s.modTask tid f).saved = s.saved := rfl
@[simp] theorem State.modTask_plans (s : State) (tid : Nat) (f : Task → Task) : (s.modTask tid f).plans = s.plans := rfl
@[simp] theorem State.modTask_fresh (s : State) (tid : Nat) (f : Task → Task) : (s.modTask tid f).fresh = s.fresh := rfl
@[simp] theorem State.modTask_free (s : State) (tid : Nat) (f : Task → Task) : (s.modTask tid f).free = s.free := rfl
@[simp] theorem State.modTask_agenda (s : State) (tid : Nat) (f : Task → Task) : (s.modTask tid f).agenda = s.agenda := rfl
@[simp] theorem State.modTask_issuer (s : State) (tid : Nat) (f : Task → Task) : (s.modTask tid f).issuer = s.issuer := rfl
@[simp] theorem State.modTask_turnQueue (s : State) (tid : Nat) (f : Task → Task) : (s.modTask tid f).turnQueue = s.turnQueue := rfl

/-! ### modShare -/

@[simp] theorem State.modShare_now (s : State) (tid c : Nat) (f : Share → Share) : (s.modShare tid c f).now = s.now := rfl
@[simp] theorem State.modShare_dev (s : State) (tid c : Nat) (f : Share → Share) : (s.modShare tid c f).dev = s.dev := rfl
@[simp] theorem State.modShare_host (s : State) (tid c : Nat) (f : Share → Share) : (s.modShare tid c f).host = s.host := rfl
@[simp] theorem State.modShare_mem (s : State) (tid c : Nat) (f : Share → Share) : (s.modShare tid c f).mem = s.mem := rfl
@[simp] theorem State.modShare_hostMem (s : State) (tid c : Nat) (f : Share → Share) : (s.modShare tid c f).hostMem = s.hostMem := rfl
@[simp] theorem State.modShare_halves (s : State) (tid c : Nat) (f : Share → Share) : (s.modShare tid c f).halves = s.halves := rfl
@[simp] theorem State.modShare_peerMem (s : State) (tid c : Nat) (f : Share → Share) : (s.modShare tid c f).peerMem = s.peerMem := rfl
@[simp] theorem State.modShare_tags (s : State) (tid c : Nat) (f : Share → Share) : (s.modShare tid c f).tags = s.tags := rfl
@[simp] theorem State.modShare_cores (s : State) (tid c : Nat) (f : Share → Share) : (s.modShare tid c f).cores = s.cores := rfl
@[simp] theorem State.modShare_launches (s : State) (tid c : Nat) (f : Share → Share) : (s.modShare tid c f).launches = s.launches := rfl
@[simp] theorem State.modShare_props (s : State) (tid c : Nat) (f : Share → Share) : (s.modShare tid c f).props = s.props := rfl
@[simp] theorem State.modShare_cells (s : State) (tid c : Nat) (f : Share → Share) : (s.modShare tid c f).cells = s.cells := rfl
@[simp] theorem State.modShare_flight (s : State) (tid c : Nat) (f : Share → Share) : (s.modShare tid c f).flight = s.flight := rfl
@[simp] theorem State.modShare_withdrawals (s : State) (tid c : Nat) (f : Share → Share) : (s.modShare tid c f).withdrawals = s.withdrawals := rfl
@[simp] theorem State.modShare_tlb (s : State) (tid c : Nat) (f : Share → Share) : (s.modShare tid c f).tlb = s.tlb := rfl
@[simp] theorem State.modShare_walks (s : State) (tid c : Nat) (f : Share → Share) : (s.modShare tid c f).walks = s.walks := rfl
@[simp] theorem State.modShare_walkCache (s : State) (tid c : Nat) (f : Share → Share) : (s.modShare tid c f).walkCache = s.walkCache := rfl
@[simp] theorem State.modShare_faults (s : State) (tid c : Nat) (f : Share → Share) : (s.modShare tid c f).faults = s.faults := rfl
@[simp] theorem State.modShare_drift (s : State) (tid c : Nat) (f : Share → Share) : (s.modShare tid c f).drift = s.drift := rfl
@[simp] theorem State.modShare_skewed (s : State) (tid c : Nat) (f : Share → Share) : (s.modShare tid c f).skewed = s.skewed := rfl
@[simp] theorem State.modShare_queues (s : State) (tid c : Nat) (f : Share → Share) : (s.modShare tid c f).queues = s.queues := rfl
@[simp] theorem State.modShare_gangs (s : State) (tid c : Nat) (f : Share → Share) : (s.modShare tid c f).gangs = s.gangs := rfl
@[simp] theorem State.modShare_saved (s : State) (tid c : Nat) (f : Share → Share) : (s.modShare tid c f).saved = s.saved := rfl
@[simp] theorem State.modShare_plans (s : State) (tid c : Nat) (f : Share → Share) : (s.modShare tid c f).plans = s.plans := rfl
@[simp] theorem State.modShare_fresh (s : State) (tid c : Nat) (f : Share → Share) : (s.modShare tid c f).fresh = s.fresh := rfl
@[simp] theorem State.modShare_free (s : State) (tid c : Nat) (f : Share → Share) : (s.modShare tid c f).free = s.free := rfl
@[simp] theorem State.modShare_agenda (s : State) (tid c : Nat) (f : Share → Share) : (s.modShare tid c f).agenda = s.agenda := rfl
@[simp] theorem State.modShare_issuer (s : State) (tid c : Nat) (f : Share → Share) : (s.modShare tid c f).issuer = s.issuer := rfl
@[simp] theorem State.modShare_turnQueue (s : State) (tid c : Nat) (f : Share → Share) : (s.modShare tid c f).turnQueue = s.turnQueue := rfl

/-! ### modWave -/

@[simp] theorem State.modWave_now (s : State) (r : WaveRef) (f : Wave → Wave) : (s.modWave r f).now = s.now := rfl
@[simp] theorem State.modWave_dev (s : State) (r : WaveRef) (f : Wave → Wave) : (s.modWave r f).dev = s.dev := rfl
@[simp] theorem State.modWave_host (s : State) (r : WaveRef) (f : Wave → Wave) : (s.modWave r f).host = s.host := rfl
@[simp] theorem State.modWave_mem (s : State) (r : WaveRef) (f : Wave → Wave) : (s.modWave r f).mem = s.mem := rfl
@[simp] theorem State.modWave_hostMem (s : State) (r : WaveRef) (f : Wave → Wave) : (s.modWave r f).hostMem = s.hostMem := rfl
@[simp] theorem State.modWave_halves (s : State) (r : WaveRef) (f : Wave → Wave) : (s.modWave r f).halves = s.halves := rfl
@[simp] theorem State.modWave_peerMem (s : State) (r : WaveRef) (f : Wave → Wave) : (s.modWave r f).peerMem = s.peerMem := rfl
@[simp] theorem State.modWave_tags (s : State) (r : WaveRef) (f : Wave → Wave) : (s.modWave r f).tags = s.tags := rfl
@[simp] theorem State.modWave_cores (s : State) (r : WaveRef) (f : Wave → Wave) : (s.modWave r f).cores = s.cores := rfl
@[simp] theorem State.modWave_launches (s : State) (r : WaveRef) (f : Wave → Wave) : (s.modWave r f).launches = s.launches := rfl
@[simp] theorem State.modWave_props (s : State) (r : WaveRef) (f : Wave → Wave) : (s.modWave r f).props = s.props := rfl
@[simp] theorem State.modWave_cells (s : State) (r : WaveRef) (f : Wave → Wave) : (s.modWave r f).cells = s.cells := rfl
@[simp] theorem State.modWave_flight (s : State) (r : WaveRef) (f : Wave → Wave) : (s.modWave r f).flight = s.flight := rfl
@[simp] theorem State.modWave_withdrawals (s : State) (r : WaveRef) (f : Wave → Wave) : (s.modWave r f).withdrawals = s.withdrawals := rfl
@[simp] theorem State.modWave_tlb (s : State) (r : WaveRef) (f : Wave → Wave) : (s.modWave r f).tlb = s.tlb := rfl
@[simp] theorem State.modWave_walks (s : State) (r : WaveRef) (f : Wave → Wave) : (s.modWave r f).walks = s.walks := rfl
@[simp] theorem State.modWave_walkCache (s : State) (r : WaveRef) (f : Wave → Wave) : (s.modWave r f).walkCache = s.walkCache := rfl
@[simp] theorem State.modWave_faults (s : State) (r : WaveRef) (f : Wave → Wave) : (s.modWave r f).faults = s.faults := rfl
@[simp] theorem State.modWave_drift (s : State) (r : WaveRef) (f : Wave → Wave) : (s.modWave r f).drift = s.drift := rfl
@[simp] theorem State.modWave_skewed (s : State) (r : WaveRef) (f : Wave → Wave) : (s.modWave r f).skewed = s.skewed := rfl
@[simp] theorem State.modWave_queues (s : State) (r : WaveRef) (f : Wave → Wave) : (s.modWave r f).queues = s.queues := rfl
@[simp] theorem State.modWave_gangs (s : State) (r : WaveRef) (f : Wave → Wave) : (s.modWave r f).gangs = s.gangs := rfl
@[simp] theorem State.modWave_saved (s : State) (r : WaveRef) (f : Wave → Wave) : (s.modWave r f).saved = s.saved := rfl
@[simp] theorem State.modWave_plans (s : State) (r : WaveRef) (f : Wave → Wave) : (s.modWave r f).plans = s.plans := rfl
@[simp] theorem State.modWave_fresh (s : State) (r : WaveRef) (f : Wave → Wave) : (s.modWave r f).fresh = s.fresh := rfl
@[simp] theorem State.modWave_free (s : State) (r : WaveRef) (f : Wave → Wave) : (s.modWave r f).free = s.free := rfl
@[simp] theorem State.modWave_agenda (s : State) (r : WaveRef) (f : Wave → Wave) : (s.modWave r f).agenda = s.agenda := rfl
@[simp] theorem State.modWave_issuer (s : State) (r : WaveRef) (f : Wave → Wave) : (s.modWave r f).issuer = s.issuer := rfl
@[simp] theorem State.modWave_turnQueue (s : State) (r : WaveRef) (f : Wave → Wave) : (s.modWave r f).turnQueue = s.turnQueue := rfl

/-! ### modLaunch -/

@[simp] theorem State.modLaunch_now (s : State) (lid : Nat) (f : Launch → Launch) : (s.modLaunch lid f).now = s.now := rfl
@[simp] theorem State.modLaunch_dev (s : State) (lid : Nat) (f : Launch → Launch) : (s.modLaunch lid f).dev = s.dev := rfl
@[simp] theorem State.modLaunch_host (s : State) (lid : Nat) (f : Launch → Launch) : (s.modLaunch lid f).host = s.host := rfl
@[simp] theorem State.modLaunch_mem (s : State) (lid : Nat) (f : Launch → Launch) : (s.modLaunch lid f).mem = s.mem := rfl
@[simp] theorem State.modLaunch_hostMem (s : State) (lid : Nat) (f : Launch → Launch) : (s.modLaunch lid f).hostMem = s.hostMem := rfl
@[simp] theorem State.modLaunch_halves (s : State) (lid : Nat) (f : Launch → Launch) : (s.modLaunch lid f).halves = s.halves := rfl
@[simp] theorem State.modLaunch_peerMem (s : State) (lid : Nat) (f : Launch → Launch) : (s.modLaunch lid f).peerMem = s.peerMem := rfl
@[simp] theorem State.modLaunch_tags (s : State) (lid : Nat) (f : Launch → Launch) : (s.modLaunch lid f).tags = s.tags := rfl
@[simp] theorem State.modLaunch_cores (s : State) (lid : Nat) (f : Launch → Launch) : (s.modLaunch lid f).cores = s.cores := rfl
@[simp] theorem State.modLaunch_tasks (s : State) (lid : Nat) (f : Launch → Launch) : (s.modLaunch lid f).tasks = s.tasks := rfl
@[simp] theorem State.modLaunch_props (s : State) (lid : Nat) (f : Launch → Launch) : (s.modLaunch lid f).props = s.props := rfl
@[simp] theorem State.modLaunch_cells (s : State) (lid : Nat) (f : Launch → Launch) : (s.modLaunch lid f).cells = s.cells := rfl
@[simp] theorem State.modLaunch_flight (s : State) (lid : Nat) (f : Launch → Launch) : (s.modLaunch lid f).flight = s.flight := rfl
@[simp] theorem State.modLaunch_withdrawals (s : State) (lid : Nat) (f : Launch → Launch) : (s.modLaunch lid f).withdrawals = s.withdrawals := rfl
@[simp] theorem State.modLaunch_tlb (s : State) (lid : Nat) (f : Launch → Launch) : (s.modLaunch lid f).tlb = s.tlb := rfl
@[simp] theorem State.modLaunch_walks (s : State) (lid : Nat) (f : Launch → Launch) : (s.modLaunch lid f).walks = s.walks := rfl
@[simp] theorem State.modLaunch_walkCache (s : State) (lid : Nat) (f : Launch → Launch) : (s.modLaunch lid f).walkCache = s.walkCache := rfl
@[simp] theorem State.modLaunch_faults (s : State) (lid : Nat) (f : Launch → Launch) : (s.modLaunch lid f).faults = s.faults := rfl
@[simp] theorem State.modLaunch_drift (s : State) (lid : Nat) (f : Launch → Launch) : (s.modLaunch lid f).drift = s.drift := rfl
@[simp] theorem State.modLaunch_skewed (s : State) (lid : Nat) (f : Launch → Launch) : (s.modLaunch lid f).skewed = s.skewed := rfl
@[simp] theorem State.modLaunch_queues (s : State) (lid : Nat) (f : Launch → Launch) : (s.modLaunch lid f).queues = s.queues := rfl
@[simp] theorem State.modLaunch_gangs (s : State) (lid : Nat) (f : Launch → Launch) : (s.modLaunch lid f).gangs = s.gangs := rfl
@[simp] theorem State.modLaunch_saved (s : State) (lid : Nat) (f : Launch → Launch) : (s.modLaunch lid f).saved = s.saved := rfl
@[simp] theorem State.modLaunch_plans (s : State) (lid : Nat) (f : Launch → Launch) : (s.modLaunch lid f).plans = s.plans := rfl
@[simp] theorem State.modLaunch_fresh (s : State) (lid : Nat) (f : Launch → Launch) : (s.modLaunch lid f).fresh = s.fresh := rfl
@[simp] theorem State.modLaunch_free (s : State) (lid : Nat) (f : Launch → Launch) : (s.modLaunch lid f).free = s.free := rfl
@[simp] theorem State.modLaunch_agenda (s : State) (lid : Nat) (f : Launch → Launch) : (s.modLaunch lid f).agenda = s.agenda := rfl
@[simp] theorem State.modLaunch_issuer (s : State) (lid : Nat) (f : Launch → Launch) : (s.modLaunch lid f).issuer = s.issuer := rfl
@[simp] theorem State.modLaunch_turnQueue (s : State) (lid : Nat) (f : Launch → Launch) : (s.modLaunch lid f).turnQueue = s.turnQueue := rfl

/-! ### modProp -/

@[simp] theorem State.modProp_now (s : State) (pid : Nat) (f : Propag → Propag) : (s.modProp pid f).now = s.now := rfl
@[simp] theorem State.modProp_dev (s : State) (pid : Nat) (f : Propag → Propag) : (s.modProp pid f).dev = s.dev := rfl
@[simp] theorem State.modProp_host (s : State) (pid : Nat) (f : Propag → Propag) : (s.modProp pid f).host = s.host := rfl
@[simp] theorem State.modProp_mem (s : State) (pid : Nat) (f : Propag → Propag) : (s.modProp pid f).mem = s.mem := rfl
@[simp] theorem State.modProp_hostMem (s : State) (pid : Nat) (f : Propag → Propag) : (s.modProp pid f).hostMem = s.hostMem := rfl
@[simp] theorem State.modProp_halves (s : State) (pid : Nat) (f : Propag → Propag) : (s.modProp pid f).halves = s.halves := rfl
@[simp] theorem State.modProp_peerMem (s : State) (pid : Nat) (f : Propag → Propag) : (s.modProp pid f).peerMem = s.peerMem := rfl
@[simp] theorem State.modProp_tags (s : State) (pid : Nat) (f : Propag → Propag) : (s.modProp pid f).tags = s.tags := rfl
@[simp] theorem State.modProp_cores (s : State) (pid : Nat) (f : Propag → Propag) : (s.modProp pid f).cores = s.cores := rfl
@[simp] theorem State.modProp_tasks (s : State) (pid : Nat) (f : Propag → Propag) : (s.modProp pid f).tasks = s.tasks := rfl
@[simp] theorem State.modProp_launches (s : State) (pid : Nat) (f : Propag → Propag) : (s.modProp pid f).launches = s.launches := rfl
@[simp] theorem State.modProp_cells (s : State) (pid : Nat) (f : Propag → Propag) : (s.modProp pid f).cells = s.cells := rfl
@[simp] theorem State.modProp_flight (s : State) (pid : Nat) (f : Propag → Propag) : (s.modProp pid f).flight = s.flight := rfl
@[simp] theorem State.modProp_withdrawals (s : State) (pid : Nat) (f : Propag → Propag) : (s.modProp pid f).withdrawals = s.withdrawals := rfl
@[simp] theorem State.modProp_tlb (s : State) (pid : Nat) (f : Propag → Propag) : (s.modProp pid f).tlb = s.tlb := rfl
@[simp] theorem State.modProp_walks (s : State) (pid : Nat) (f : Propag → Propag) : (s.modProp pid f).walks = s.walks := rfl
@[simp] theorem State.modProp_walkCache (s : State) (pid : Nat) (f : Propag → Propag) : (s.modProp pid f).walkCache = s.walkCache := rfl
@[simp] theorem State.modProp_faults (s : State) (pid : Nat) (f : Propag → Propag) : (s.modProp pid f).faults = s.faults := rfl
@[simp] theorem State.modProp_drift (s : State) (pid : Nat) (f : Propag → Propag) : (s.modProp pid f).drift = s.drift := rfl
@[simp] theorem State.modProp_skewed (s : State) (pid : Nat) (f : Propag → Propag) : (s.modProp pid f).skewed = s.skewed := rfl
@[simp] theorem State.modProp_queues (s : State) (pid : Nat) (f : Propag → Propag) : (s.modProp pid f).queues = s.queues := rfl
@[simp] theorem State.modProp_gangs (s : State) (pid : Nat) (f : Propag → Propag) : (s.modProp pid f).gangs = s.gangs := rfl
@[simp] theorem State.modProp_saved (s : State) (pid : Nat) (f : Propag → Propag) : (s.modProp pid f).saved = s.saved := rfl
@[simp] theorem State.modProp_plans (s : State) (pid : Nat) (f : Propag → Propag) : (s.modProp pid f).plans = s.plans := rfl
@[simp] theorem State.modProp_fresh (s : State) (pid : Nat) (f : Propag → Propag) : (s.modProp pid f).fresh = s.fresh := rfl
@[simp] theorem State.modProp_free (s : State) (pid : Nat) (f : Propag → Propag) : (s.modProp pid f).free = s.free := rfl
@[simp] theorem State.modProp_agenda (s : State) (pid : Nat) (f : Propag → Propag) : (s.modProp pid f).agenda = s.agenda := rfl
@[simp] theorem State.modProp_issuer (s : State) (pid : Nat) (f : Propag → Propag) : (s.modProp pid f).issuer = s.issuer := rfl
@[simp] theorem State.modProp_turnQueue (s : State) (pid : Nat) (f : Propag → Propag) : (s.modProp pid f).turnQueue = s.turnQueue := rfl

/-! ### modDev -/

@[simp] theorem State.modDev_now (s : State) (f : Dev → Dev) : (s.modDev f).now = s.now := rfl
@[simp] theorem State.modDev_host (s : State) (f : Dev → Dev) : (s.modDev f).host = s.host := rfl
@[simp] theorem State.modDev_mem (s : State) (f : Dev → Dev) : (s.modDev f).mem = s.mem := rfl
@[simp] theorem State.modDev_hostMem (s : State) (f : Dev → Dev) : (s.modDev f).hostMem = s.hostMem := rfl
@[simp] theorem State.modDev_halves (s : State) (f : Dev → Dev) : (s.modDev f).halves = s.halves := rfl
@[simp] theorem State.modDev_peerMem (s : State) (f : Dev → Dev) : (s.modDev f).peerMem = s.peerMem := rfl
@[simp] theorem State.modDev_tags (s : State) (f : Dev → Dev) : (s.modDev f).tags = s.tags := rfl
@[simp] theorem State.modDev_cores (s : State) (f : Dev → Dev) : (s.modDev f).cores = s.cores := rfl
@[simp] theorem State.modDev_tasks (s : State) (f : Dev → Dev) : (s.modDev f).tasks = s.tasks := rfl
@[simp] theorem State.modDev_launches (s : State) (f : Dev → Dev) : (s.modDev f).launches = s.launches := rfl
@[simp] theorem State.modDev_props (s : State) (f : Dev → Dev) : (s.modDev f).props = s.props := rfl
@[simp] theorem State.modDev_cells (s : State) (f : Dev → Dev) : (s.modDev f).cells = s.cells := rfl
@[simp] theorem State.modDev_flight (s : State) (f : Dev → Dev) : (s.modDev f).flight = s.flight := rfl
@[simp] theorem State.modDev_withdrawals (s : State) (f : Dev → Dev) : (s.modDev f).withdrawals = s.withdrawals := rfl
@[simp] theorem State.modDev_tlb (s : State) (f : Dev → Dev) : (s.modDev f).tlb = s.tlb := rfl
@[simp] theorem State.modDev_walks (s : State) (f : Dev → Dev) : (s.modDev f).walks = s.walks := rfl
@[simp] theorem State.modDev_walkCache (s : State) (f : Dev → Dev) : (s.modDev f).walkCache = s.walkCache := rfl
@[simp] theorem State.modDev_faults (s : State) (f : Dev → Dev) : (s.modDev f).faults = s.faults := rfl
@[simp] theorem State.modDev_drift (s : State) (f : Dev → Dev) : (s.modDev f).drift = s.drift := rfl
@[simp] theorem State.modDev_skewed (s : State) (f : Dev → Dev) : (s.modDev f).skewed = s.skewed := rfl
@[simp] theorem State.modDev_queues (s : State) (f : Dev → Dev) : (s.modDev f).queues = s.queues := rfl
@[simp] theorem State.modDev_gangs (s : State) (f : Dev → Dev) : (s.modDev f).gangs = s.gangs := rfl
@[simp] theorem State.modDev_saved (s : State) (f : Dev → Dev) : (s.modDev f).saved = s.saved := rfl
@[simp] theorem State.modDev_plans (s : State) (f : Dev → Dev) : (s.modDev f).plans = s.plans := rfl
@[simp] theorem State.modDev_fresh (s : State) (f : Dev → Dev) : (s.modDev f).fresh = s.fresh := rfl
@[simp] theorem State.modDev_free (s : State) (f : Dev → Dev) : (s.modDev f).free = s.free := rfl
@[simp] theorem State.modDev_agenda (s : State) (f : Dev → Dev) : (s.modDev f).agenda = s.agenda := rfl
@[simp] theorem State.modDev_issuer (s : State) (f : Dev → Dev) : (s.modDev f).issuer = s.issuer := rfl
@[simp] theorem State.modDev_turnQueue (s : State) (f : Dev → Dev) : (s.modDev f).turnQueue = s.turnQueue := rfl

/-! ### transfer -/

@[simp] theorem State.transfer_now (s : State) (i n : Nat) : (s.transfer i n).now = s.now := rfl
@[simp] theorem State.transfer_host (s : State) (i n : Nat) : (s.transfer i n).host = s.host := rfl
@[simp] theorem State.transfer_mem (s : State) (i n : Nat) : (s.transfer i n).mem = s.mem := rfl
@[simp] theorem State.transfer_hostMem (s : State) (i n : Nat) : (s.transfer i n).hostMem = s.hostMem := rfl
@[simp] theorem State.transfer_halves (s : State) (i n : Nat) : (s.transfer i n).halves = s.halves := rfl
@[simp] theorem State.transfer_peerMem (s : State) (i n : Nat) : (s.transfer i n).peerMem = s.peerMem := rfl
@[simp] theorem State.transfer_tags (s : State) (i n : Nat) : (s.transfer i n).tags = s.tags := rfl
@[simp] theorem State.transfer_cores (s : State) (i n : Nat) : (s.transfer i n).cores = s.cores := rfl
@[simp] theorem State.transfer_tasks (s : State) (i n : Nat) : (s.transfer i n).tasks = s.tasks := rfl
@[simp] theorem State.transfer_launches (s : State) (i n : Nat) : (s.transfer i n).launches = s.launches := rfl
@[simp] theorem State.transfer_props (s : State) (i n : Nat) : (s.transfer i n).props = s.props := rfl
@[simp] theorem State.transfer_cells (s : State) (i n : Nat) : (s.transfer i n).cells = s.cells := rfl
@[simp] theorem State.transfer_flight (s : State) (i n : Nat) : (s.transfer i n).flight = s.flight := rfl
@[simp] theorem State.transfer_withdrawals (s : State) (i n : Nat) : (s.transfer i n).withdrawals = s.withdrawals := rfl
@[simp] theorem State.transfer_tlb (s : State) (i n : Nat) : (s.transfer i n).tlb = s.tlb := rfl
@[simp] theorem State.transfer_walks (s : State) (i n : Nat) : (s.transfer i n).walks = s.walks := rfl
@[simp] theorem State.transfer_walkCache (s : State) (i n : Nat) : (s.transfer i n).walkCache = s.walkCache := rfl
@[simp] theorem State.transfer_faults (s : State) (i n : Nat) : (s.transfer i n).faults = s.faults := rfl
@[simp] theorem State.transfer_drift (s : State) (i n : Nat) : (s.transfer i n).drift = s.drift := rfl
@[simp] theorem State.transfer_skewed (s : State) (i n : Nat) : (s.transfer i n).skewed = s.skewed := rfl
@[simp] theorem State.transfer_queues (s : State) (i n : Nat) : (s.transfer i n).queues = s.queues := rfl
@[simp] theorem State.transfer_gangs (s : State) (i n : Nat) : (s.transfer i n).gangs = s.gangs := rfl
@[simp] theorem State.transfer_saved (s : State) (i n : Nat) : (s.transfer i n).saved = s.saved := rfl
@[simp] theorem State.transfer_plans (s : State) (i n : Nat) : (s.transfer i n).plans = s.plans := rfl
@[simp] theorem State.transfer_fresh (s : State) (i n : Nat) : (s.transfer i n).fresh = s.fresh := rfl
@[simp] theorem State.transfer_free (s : State) (i n : Nat) : (s.transfer i n).free = s.free := rfl
@[simp] theorem State.transfer_agenda (s : State) (i n : Nat) : (s.transfer i n).agenda = s.agenda := rfl
@[simp] theorem State.transfer_issuer (s : State) (i n : Nat) : (s.transfer i n).issuer = s.issuer := rfl
@[simp] theorem State.transfer_turnQueue (s : State) (i n : Nat) : (s.transfer i n).turnQueue = s.turnQueue := rfl

/-! ### owe -/

@[simp] theorem State.owe_now (s : State) (i n : Nat) : (s.owe i n).now = s.now := rfl
@[simp] theorem State.owe_host (s : State) (i n : Nat) : (s.owe i n).host = s.host := rfl
@[simp] theorem State.owe_mem (s : State) (i n : Nat) : (s.owe i n).mem = s.mem := rfl
@[simp] theorem State.owe_hostMem (s : State) (i n : Nat) : (s.owe i n).hostMem = s.hostMem := rfl
@[simp] theorem State.owe_halves (s : State) (i n : Nat) : (s.owe i n).halves = s.halves := rfl
@[simp] theorem State.owe_peerMem (s : State) (i n : Nat) : (s.owe i n).peerMem = s.peerMem := rfl
@[simp] theorem State.owe_tags (s : State) (i n : Nat) : (s.owe i n).tags = s.tags := rfl
@[simp] theorem State.owe_cores (s : State) (i n : Nat) : (s.owe i n).cores = s.cores := rfl
@[simp] theorem State.owe_tasks (s : State) (i n : Nat) : (s.owe i n).tasks = s.tasks := rfl
@[simp] theorem State.owe_launches (s : State) (i n : Nat) : (s.owe i n).launches = s.launches := rfl
@[simp] theorem State.owe_props (s : State) (i n : Nat) : (s.owe i n).props = s.props := rfl
@[simp] theorem State.owe_cells (s : State) (i n : Nat) : (s.owe i n).cells = s.cells := rfl
@[simp] theorem State.owe_flight (s : State) (i n : Nat) : (s.owe i n).flight = s.flight := rfl
@[simp] theorem State.owe_withdrawals (s : State) (i n : Nat) : (s.owe i n).withdrawals = s.withdrawals := rfl
@[simp] theorem State.owe_tlb (s : State) (i n : Nat) : (s.owe i n).tlb = s.tlb := rfl
@[simp] theorem State.owe_walks (s : State) (i n : Nat) : (s.owe i n).walks = s.walks := rfl
@[simp] theorem State.owe_walkCache (s : State) (i n : Nat) : (s.owe i n).walkCache = s.walkCache := rfl
@[simp] theorem State.owe_faults (s : State) (i n : Nat) : (s.owe i n).faults = s.faults := rfl
@[simp] theorem State.owe_drift (s : State) (i n : Nat) : (s.owe i n).drift = s.drift := rfl
@[simp] theorem State.owe_skewed (s : State) (i n : Nat) : (s.owe i n).skewed = s.skewed := rfl
@[simp] theorem State.owe_queues (s : State) (i n : Nat) : (s.owe i n).queues = s.queues := rfl
@[simp] theorem State.owe_gangs (s : State) (i n : Nat) : (s.owe i n).gangs = s.gangs := rfl
@[simp] theorem State.owe_saved (s : State) (i n : Nat) : (s.owe i n).saved = s.saved := rfl
@[simp] theorem State.owe_plans (s : State) (i n : Nat) : (s.owe i n).plans = s.plans := rfl
@[simp] theorem State.owe_fresh (s : State) (i n : Nat) : (s.owe i n).fresh = s.fresh := rfl
@[simp] theorem State.owe_free (s : State) (i n : Nat) : (s.owe i n).free = s.free := rfl
@[simp] theorem State.owe_agenda (s : State) (i n : Nat) : (s.owe i n).agenda = s.agenda := rfl
@[simp] theorem State.owe_issuer (s : State) (i n : Nat) : (s.owe i n).issuer = s.issuer := rfl
@[simp] theorem State.owe_turnQueue (s : State) (i n : Nat) : (s.owe i n).turnQueue = s.turnQueue := rfl

/-! ### ask -/

@[simp] theorem State.ask_now (s : State) (i n : Nat) : (s.ask i n).now = s.now := rfl
@[simp] theorem State.ask_host (s : State) (i n : Nat) : (s.ask i n).host = s.host := rfl
@[simp] theorem State.ask_mem (s : State) (i n : Nat) : (s.ask i n).mem = s.mem := rfl
@[simp] theorem State.ask_hostMem (s : State) (i n : Nat) : (s.ask i n).hostMem = s.hostMem := rfl
@[simp] theorem State.ask_halves (s : State) (i n : Nat) : (s.ask i n).halves = s.halves := rfl
@[simp] theorem State.ask_peerMem (s : State) (i n : Nat) : (s.ask i n).peerMem = s.peerMem := rfl
@[simp] theorem State.ask_tags (s : State) (i n : Nat) : (s.ask i n).tags = s.tags := rfl
@[simp] theorem State.ask_cores (s : State) (i n : Nat) : (s.ask i n).cores = s.cores := rfl
@[simp] theorem State.ask_tasks (s : State) (i n : Nat) : (s.ask i n).tasks = s.tasks := rfl
@[simp] theorem State.ask_launches (s : State) (i n : Nat) : (s.ask i n).launches = s.launches := rfl
@[simp] theorem State.ask_props (s : State) (i n : Nat) : (s.ask i n).props = s.props := rfl
@[simp] theorem State.ask_cells (s : State) (i n : Nat) : (s.ask i n).cells = s.cells := rfl
@[simp] theorem State.ask_flight (s : State) (i n : Nat) : (s.ask i n).flight = s.flight := rfl
@[simp] theorem State.ask_withdrawals (s : State) (i n : Nat) : (s.ask i n).withdrawals = s.withdrawals := rfl
@[simp] theorem State.ask_tlb (s : State) (i n : Nat) : (s.ask i n).tlb = s.tlb := rfl
@[simp] theorem State.ask_walks (s : State) (i n : Nat) : (s.ask i n).walks = s.walks := rfl
@[simp] theorem State.ask_walkCache (s : State) (i n : Nat) : (s.ask i n).walkCache = s.walkCache := rfl
@[simp] theorem State.ask_faults (s : State) (i n : Nat) : (s.ask i n).faults = s.faults := rfl
@[simp] theorem State.ask_drift (s : State) (i n : Nat) : (s.ask i n).drift = s.drift := rfl
@[simp] theorem State.ask_skewed (s : State) (i n : Nat) : (s.ask i n).skewed = s.skewed := rfl
@[simp] theorem State.ask_queues (s : State) (i n : Nat) : (s.ask i n).queues = s.queues := rfl
@[simp] theorem State.ask_gangs (s : State) (i n : Nat) : (s.ask i n).gangs = s.gangs := rfl
@[simp] theorem State.ask_saved (s : State) (i n : Nat) : (s.ask i n).saved = s.saved := rfl
@[simp] theorem State.ask_plans (s : State) (i n : Nat) : (s.ask i n).plans = s.plans := rfl
@[simp] theorem State.ask_fresh (s : State) (i n : Nat) : (s.ask i n).fresh = s.fresh := rfl
@[simp] theorem State.ask_free (s : State) (i n : Nat) : (s.ask i n).free = s.free := rfl
@[simp] theorem State.ask_agenda (s : State) (i n : Nat) : (s.ask i n).agenda = s.agenda := rfl
@[simp] theorem State.ask_issuer (s : State) (i n : Nat) : (s.ask i n).issuer = s.issuer := rfl
@[simp] theorem State.ask_turnQueue (s : State) (i n : Nat) : (s.ask i n).turnQueue = s.turnQueue := rfl

/-! ### hbmRequest -/

@[simp] theorem State.hbmRequest_now (s : State) (cls r t : Nat) : (s.hbmRequest cls r t).now = s.now := rfl
@[simp] theorem State.hbmRequest_host (s : State) (cls r t : Nat) : (s.hbmRequest cls r t).host = s.host := rfl
@[simp] theorem State.hbmRequest_mem (s : State) (cls r t : Nat) : (s.hbmRequest cls r t).mem = s.mem := rfl
@[simp] theorem State.hbmRequest_hostMem (s : State) (cls r t : Nat) : (s.hbmRequest cls r t).hostMem = s.hostMem := rfl
@[simp] theorem State.hbmRequest_halves (s : State) (cls r t : Nat) : (s.hbmRequest cls r t).halves = s.halves := rfl
@[simp] theorem State.hbmRequest_peerMem (s : State) (cls r t : Nat) : (s.hbmRequest cls r t).peerMem = s.peerMem := rfl
@[simp] theorem State.hbmRequest_tags (s : State) (cls r t : Nat) : (s.hbmRequest cls r t).tags = s.tags := rfl
@[simp] theorem State.hbmRequest_cores (s : State) (cls r t : Nat) : (s.hbmRequest cls r t).cores = s.cores := rfl
@[simp] theorem State.hbmRequest_tasks (s : State) (cls r t : Nat) : (s.hbmRequest cls r t).tasks = s.tasks := rfl
@[simp] theorem State.hbmRequest_launches (s : State) (cls r t : Nat) : (s.hbmRequest cls r t).launches = s.launches := rfl
@[simp] theorem State.hbmRequest_props (s : State) (cls r t : Nat) : (s.hbmRequest cls r t).props = s.props := rfl
@[simp] theorem State.hbmRequest_cells (s : State) (cls r t : Nat) : (s.hbmRequest cls r t).cells = s.cells := rfl
@[simp] theorem State.hbmRequest_flight (s : State) (cls r t : Nat) : (s.hbmRequest cls r t).flight = s.flight := rfl
@[simp] theorem State.hbmRequest_withdrawals (s : State) (cls r t : Nat) : (s.hbmRequest cls r t).withdrawals = s.withdrawals := rfl
@[simp] theorem State.hbmRequest_tlb (s : State) (cls r t : Nat) : (s.hbmRequest cls r t).tlb = s.tlb := rfl
@[simp] theorem State.hbmRequest_walks (s : State) (cls r t : Nat) : (s.hbmRequest cls r t).walks = s.walks := rfl
@[simp] theorem State.hbmRequest_walkCache (s : State) (cls r t : Nat) : (s.hbmRequest cls r t).walkCache = s.walkCache := rfl
@[simp] theorem State.hbmRequest_faults (s : State) (cls r t : Nat) : (s.hbmRequest cls r t).faults = s.faults := rfl
@[simp] theorem State.hbmRequest_drift (s : State) (cls r t : Nat) : (s.hbmRequest cls r t).drift = s.drift := rfl
@[simp] theorem State.hbmRequest_skewed (s : State) (cls r t : Nat) : (s.hbmRequest cls r t).skewed = s.skewed := rfl
@[simp] theorem State.hbmRequest_queues (s : State) (cls r t : Nat) : (s.hbmRequest cls r t).queues = s.queues := rfl
@[simp] theorem State.hbmRequest_gangs (s : State) (cls r t : Nat) : (s.hbmRequest cls r t).gangs = s.gangs := rfl
@[simp] theorem State.hbmRequest_saved (s : State) (cls r t : Nat) : (s.hbmRequest cls r t).saved = s.saved := rfl
@[simp] theorem State.hbmRequest_plans (s : State) (cls r t : Nat) : (s.hbmRequest cls r t).plans = s.plans := rfl
@[simp] theorem State.hbmRequest_fresh (s : State) (cls r t : Nat) : (s.hbmRequest cls r t).fresh = s.fresh := rfl
@[simp] theorem State.hbmRequest_free (s : State) (cls r t : Nat) : (s.hbmRequest cls r t).free = s.free := rfl
@[simp] theorem State.hbmRequest_agenda (s : State) (cls r t : Nat) : (s.hbmRequest cls r t).agenda = s.agenda := rfl
@[simp] theorem State.hbmRequest_issuer (s : State) (cls r t : Nat) : (s.hbmRequest cls r t).issuer = s.issuer := rfl
@[simp] theorem State.hbmRequest_turnQueue (s : State) (cls r t : Nat) : (s.hbmRequest cls r t).turnQueue = s.turnQueue := rfl

/-! ### hbmRequests -/

@[simp] theorem State.hbmRequests_now (s : State) (cls r t n : Nat) : (s.hbmRequests cls r t n).now = s.now := rfl
@[simp] theorem State.hbmRequests_host (s : State) (cls r t n : Nat) : (s.hbmRequests cls r t n).host = s.host := rfl
@[simp] theorem State.hbmRequests_mem (s : State) (cls r t n : Nat) : (s.hbmRequests cls r t n).mem = s.mem := rfl
@[simp] theorem State.hbmRequests_hostMem (s : State) (cls r t n : Nat) : (s.hbmRequests cls r t n).hostMem = s.hostMem := rfl
@[simp] theorem State.hbmRequests_halves (s : State) (cls r t n : Nat) : (s.hbmRequests cls r t n).halves = s.halves := rfl
@[simp] theorem State.hbmRequests_peerMem (s : State) (cls r t n : Nat) : (s.hbmRequests cls r t n).peerMem = s.peerMem := rfl
@[simp] theorem State.hbmRequests_tags (s : State) (cls r t n : Nat) : (s.hbmRequests cls r t n).tags = s.tags := rfl
@[simp] theorem State.hbmRequests_cores (s : State) (cls r t n : Nat) : (s.hbmRequests cls r t n).cores = s.cores := rfl
@[simp] theorem State.hbmRequests_tasks (s : State) (cls r t n : Nat) : (s.hbmRequests cls r t n).tasks = s.tasks := rfl
@[simp] theorem State.hbmRequests_launches (s : State) (cls r t n : Nat) : (s.hbmRequests cls r t n).launches = s.launches := rfl
@[simp] theorem State.hbmRequests_props (s : State) (cls r t n : Nat) : (s.hbmRequests cls r t n).props = s.props := rfl
@[simp] theorem State.hbmRequests_cells (s : State) (cls r t n : Nat) : (s.hbmRequests cls r t n).cells = s.cells := rfl
@[simp] theorem State.hbmRequests_flight (s : State) (cls r t n : Nat) : (s.hbmRequests cls r t n).flight = s.flight := rfl
@[simp] theorem State.hbmRequests_withdrawals (s : State) (cls r t n : Nat) : (s.hbmRequests cls r t n).withdrawals = s.withdrawals := rfl
@[simp] theorem State.hbmRequests_tlb (s : State) (cls r t n : Nat) : (s.hbmRequests cls r t n).tlb = s.tlb := rfl
@[simp] theorem State.hbmRequests_walks (s : State) (cls r t n : Nat) : (s.hbmRequests cls r t n).walks = s.walks := rfl
@[simp] theorem State.hbmRequests_walkCache (s : State) (cls r t n : Nat) : (s.hbmRequests cls r t n).walkCache = s.walkCache := rfl
@[simp] theorem State.hbmRequests_faults (s : State) (cls r t n : Nat) : (s.hbmRequests cls r t n).faults = s.faults := rfl
@[simp] theorem State.hbmRequests_drift (s : State) (cls r t n : Nat) : (s.hbmRequests cls r t n).drift = s.drift := rfl
@[simp] theorem State.hbmRequests_skewed (s : State) (cls r t n : Nat) : (s.hbmRequests cls r t n).skewed = s.skewed := rfl
@[simp] theorem State.hbmRequests_queues (s : State) (cls r t n : Nat) : (s.hbmRequests cls r t n).queues = s.queues := rfl
@[simp] theorem State.hbmRequests_gangs (s : State) (cls r t n : Nat) : (s.hbmRequests cls r t n).gangs = s.gangs := rfl
@[simp] theorem State.hbmRequests_saved (s : State) (cls r t n : Nat) : (s.hbmRequests cls r t n).saved = s.saved := rfl
@[simp] theorem State.hbmRequests_plans (s : State) (cls r t n : Nat) : (s.hbmRequests cls r t n).plans = s.plans := rfl
@[simp] theorem State.hbmRequests_fresh (s : State) (cls r t n : Nat) : (s.hbmRequests cls r t n).fresh = s.fresh := rfl
@[simp] theorem State.hbmRequests_free (s : State) (cls r t n : Nat) : (s.hbmRequests cls r t n).free = s.free := rfl
@[simp] theorem State.hbmRequests_agenda (s : State) (cls r t n : Nat) : (s.hbmRequests cls r t n).agenda = s.agenda := rfl
@[simp] theorem State.hbmRequests_issuer (s : State) (cls r t n : Nat) : (s.hbmRequests cls r t n).issuer = s.issuer := rfl
@[simp] theorem State.hbmRequests_turnQueue (s : State) (cls r t n : Nat) : (s.hbmRequests cls r t n).turnQueue = s.turnQueue := rfl

/-! ### addMissed -/

@[simp] theorem State.addMissed_now (s : State) (b : Bool) (r : Nat) : (s.addMissed b r).now = s.now := rfl
@[simp] theorem State.addMissed_host (s : State) (b : Bool) (r : Nat) : (s.addMissed b r).host = s.host := rfl
@[simp] theorem State.addMissed_mem (s : State) (b : Bool) (r : Nat) : (s.addMissed b r).mem = s.mem := rfl
@[simp] theorem State.addMissed_hostMem (s : State) (b : Bool) (r : Nat) : (s.addMissed b r).hostMem = s.hostMem := rfl
@[simp] theorem State.addMissed_halves (s : State) (b : Bool) (r : Nat) : (s.addMissed b r).halves = s.halves := rfl
@[simp] theorem State.addMissed_peerMem (s : State) (b : Bool) (r : Nat) : (s.addMissed b r).peerMem = s.peerMem := rfl
@[simp] theorem State.addMissed_tags (s : State) (b : Bool) (r : Nat) : (s.addMissed b r).tags = s.tags := rfl
@[simp] theorem State.addMissed_cores (s : State) (b : Bool) (r : Nat) : (s.addMissed b r).cores = s.cores := rfl
@[simp] theorem State.addMissed_tasks (s : State) (b : Bool) (r : Nat) : (s.addMissed b r).tasks = s.tasks := rfl
@[simp] theorem State.addMissed_launches (s : State) (b : Bool) (r : Nat) : (s.addMissed b r).launches = s.launches := rfl
@[simp] theorem State.addMissed_props (s : State) (b : Bool) (r : Nat) : (s.addMissed b r).props = s.props := rfl
@[simp] theorem State.addMissed_cells (s : State) (b : Bool) (r : Nat) : (s.addMissed b r).cells = s.cells := rfl
@[simp] theorem State.addMissed_flight (s : State) (b : Bool) (r : Nat) : (s.addMissed b r).flight = s.flight := rfl
@[simp] theorem State.addMissed_withdrawals (s : State) (b : Bool) (r : Nat) : (s.addMissed b r).withdrawals = s.withdrawals := rfl
@[simp] theorem State.addMissed_tlb (s : State) (b : Bool) (r : Nat) : (s.addMissed b r).tlb = s.tlb := rfl
@[simp] theorem State.addMissed_walks (s : State) (b : Bool) (r : Nat) : (s.addMissed b r).walks = s.walks := rfl
@[simp] theorem State.addMissed_walkCache (s : State) (b : Bool) (r : Nat) : (s.addMissed b r).walkCache = s.walkCache := rfl
@[simp] theorem State.addMissed_faults (s : State) (b : Bool) (r : Nat) : (s.addMissed b r).faults = s.faults := rfl
@[simp] theorem State.addMissed_drift (s : State) (b : Bool) (r : Nat) : (s.addMissed b r).drift = s.drift := rfl
@[simp] theorem State.addMissed_skewed (s : State) (b : Bool) (r : Nat) : (s.addMissed b r).skewed = s.skewed := rfl
@[simp] theorem State.addMissed_queues (s : State) (b : Bool) (r : Nat) : (s.addMissed b r).queues = s.queues := rfl
@[simp] theorem State.addMissed_gangs (s : State) (b : Bool) (r : Nat) : (s.addMissed b r).gangs = s.gangs := rfl
@[simp] theorem State.addMissed_saved (s : State) (b : Bool) (r : Nat) : (s.addMissed b r).saved = s.saved := rfl
@[simp] theorem State.addMissed_plans (s : State) (b : Bool) (r : Nat) : (s.addMissed b r).plans = s.plans := rfl
@[simp] theorem State.addMissed_fresh (s : State) (b : Bool) (r : Nat) : (s.addMissed b r).fresh = s.fresh := rfl
@[simp] theorem State.addMissed_free (s : State) (b : Bool) (r : Nat) : (s.addMissed b r).free = s.free := rfl
@[simp] theorem State.addMissed_agenda (s : State) (b : Bool) (r : Nat) : (s.addMissed b r).agenda = s.agenda := rfl
@[simp] theorem State.addMissed_issuer (s : State) (b : Bool) (r : Nat) : (s.addMissed b r).issuer = s.issuer := rfl
@[simp] theorem State.addMissed_turnQueue (s : State) (b : Bool) (r : Nat) : (s.addMissed b r).turnQueue = s.turnQueue := rfl

/-! ### takeFresh -/

@[simp] theorem State.takeFresh_now (s : State) : (s.takeFresh.2).now = s.now := rfl
@[simp] theorem State.takeFresh_dev (s : State) : (s.takeFresh.2).dev = s.dev := rfl
@[simp] theorem State.takeFresh_host (s : State) : (s.takeFresh.2).host = s.host := rfl
@[simp] theorem State.takeFresh_mem (s : State) : (s.takeFresh.2).mem = s.mem := rfl
@[simp] theorem State.takeFresh_hostMem (s : State) : (s.takeFresh.2).hostMem = s.hostMem := rfl
@[simp] theorem State.takeFresh_halves (s : State) : (s.takeFresh.2).halves = s.halves := rfl
@[simp] theorem State.takeFresh_peerMem (s : State) : (s.takeFresh.2).peerMem = s.peerMem := rfl
@[simp] theorem State.takeFresh_tags (s : State) : (s.takeFresh.2).tags = s.tags := rfl
@[simp] theorem State.takeFresh_cores (s : State) : (s.takeFresh.2).cores = s.cores := rfl
@[simp] theorem State.takeFresh_tasks (s : State) : (s.takeFresh.2).tasks = s.tasks := rfl
@[simp] theorem State.takeFresh_launches (s : State) : (s.takeFresh.2).launches = s.launches := rfl
@[simp] theorem State.takeFresh_props (s : State) : (s.takeFresh.2).props = s.props := rfl
@[simp] theorem State.takeFresh_cells (s : State) : (s.takeFresh.2).cells = s.cells := rfl
@[simp] theorem State.takeFresh_flight (s : State) : (s.takeFresh.2).flight = s.flight := rfl
@[simp] theorem State.takeFresh_withdrawals (s : State) : (s.takeFresh.2).withdrawals = s.withdrawals := rfl
@[simp] theorem State.takeFresh_tlb (s : State) : (s.takeFresh.2).tlb = s.tlb := rfl
@[simp] theorem State.takeFresh_walks (s : State) : (s.takeFresh.2).walks = s.walks := rfl
@[simp] theorem State.takeFresh_walkCache (s : State) : (s.takeFresh.2).walkCache = s.walkCache := rfl
@[simp] theorem State.takeFresh_faults (s : State) : (s.takeFresh.2).faults = s.faults := rfl
@[simp] theorem State.takeFresh_drift (s : State) : (s.takeFresh.2).drift = s.drift := rfl
@[simp] theorem State.takeFresh_skewed (s : State) : (s.takeFresh.2).skewed = s.skewed := rfl
@[simp] theorem State.takeFresh_queues (s : State) : (s.takeFresh.2).queues = s.queues := rfl
@[simp] theorem State.takeFresh_gangs (s : State) : (s.takeFresh.2).gangs = s.gangs := rfl
@[simp] theorem State.takeFresh_saved (s : State) : (s.takeFresh.2).saved = s.saved := rfl
@[simp] theorem State.takeFresh_plans (s : State) : (s.takeFresh.2).plans = s.plans := rfl
@[simp] theorem State.takeFresh_free (s : State) : (s.takeFresh.2).free = s.free := rfl
@[simp] theorem State.takeFresh_agenda (s : State) : (s.takeFresh.2).agenda = s.agenda := rfl
@[simp] theorem State.takeFresh_issuer (s : State) : (s.takeFresh.2).issuer = s.issuer := rfl
@[simp] theorem State.takeFresh_turnQueue (s : State) : (s.takeFresh.2).turnQueue = s.turnQueue := rfl

/-! ### reply -/

@[simp] theorem State.reply_now (s : State) (n c : Nat) (d : List Byte) : (s.reply n c d).now = s.now := rfl
@[simp] theorem State.reply_dev (s : State) (n c : Nat) (d : List Byte) : (s.reply n c d).dev = s.dev := rfl
@[simp] theorem State.reply_mem (s : State) (n c : Nat) (d : List Byte) : (s.reply n c d).mem = s.mem := rfl
@[simp] theorem State.reply_hostMem (s : State) (n c : Nat) (d : List Byte) : (s.reply n c d).hostMem = s.hostMem := rfl
@[simp] theorem State.reply_halves (s : State) (n c : Nat) (d : List Byte) : (s.reply n c d).halves = s.halves := rfl
@[simp] theorem State.reply_peerMem (s : State) (n c : Nat) (d : List Byte) : (s.reply n c d).peerMem = s.peerMem := rfl
@[simp] theorem State.reply_tags (s : State) (n c : Nat) (d : List Byte) : (s.reply n c d).tags = s.tags := rfl
@[simp] theorem State.reply_cores (s : State) (n c : Nat) (d : List Byte) : (s.reply n c d).cores = s.cores := rfl
@[simp] theorem State.reply_tasks (s : State) (n c : Nat) (d : List Byte) : (s.reply n c d).tasks = s.tasks := rfl
@[simp] theorem State.reply_launches (s : State) (n c : Nat) (d : List Byte) : (s.reply n c d).launches = s.launches := rfl
@[simp] theorem State.reply_props (s : State) (n c : Nat) (d : List Byte) : (s.reply n c d).props = s.props := rfl
@[simp] theorem State.reply_cells (s : State) (n c : Nat) (d : List Byte) : (s.reply n c d).cells = s.cells := rfl
@[simp] theorem State.reply_flight (s : State) (n c : Nat) (d : List Byte) : (s.reply n c d).flight = s.flight := rfl
@[simp] theorem State.reply_withdrawals (s : State) (n c : Nat) (d : List Byte) : (s.reply n c d).withdrawals = s.withdrawals := rfl
@[simp] theorem State.reply_tlb (s : State) (n c : Nat) (d : List Byte) : (s.reply n c d).tlb = s.tlb := rfl
@[simp] theorem State.reply_walks (s : State) (n c : Nat) (d : List Byte) : (s.reply n c d).walks = s.walks := rfl
@[simp] theorem State.reply_walkCache (s : State) (n c : Nat) (d : List Byte) : (s.reply n c d).walkCache = s.walkCache := rfl
@[simp] theorem State.reply_faults (s : State) (n c : Nat) (d : List Byte) : (s.reply n c d).faults = s.faults := rfl
@[simp] theorem State.reply_drift (s : State) (n c : Nat) (d : List Byte) : (s.reply n c d).drift = s.drift := rfl
@[simp] theorem State.reply_skewed (s : State) (n c : Nat) (d : List Byte) : (s.reply n c d).skewed = s.skewed := rfl
@[simp] theorem State.reply_queues (s : State) (n c : Nat) (d : List Byte) : (s.reply n c d).queues = s.queues := rfl
@[simp] theorem State.reply_gangs (s : State) (n c : Nat) (d : List Byte) : (s.reply n c d).gangs = s.gangs := rfl
@[simp] theorem State.reply_saved (s : State) (n c : Nat) (d : List Byte) : (s.reply n c d).saved = s.saved := rfl
@[simp] theorem State.reply_plans (s : State) (n c : Nat) (d : List Byte) : (s.reply n c d).plans = s.plans := rfl
@[simp] theorem State.reply_fresh (s : State) (n c : Nat) (d : List Byte) : (s.reply n c d).fresh = s.fresh := rfl
@[simp] theorem State.reply_free (s : State) (n c : Nat) (d : List Byte) : (s.reply n c d).free = s.free := rfl
@[simp] theorem State.reply_agenda (s : State) (n c : Nat) (d : List Byte) : (s.reply n c d).agenda = s.agenda := rfl
@[simp] theorem State.reply_issuer (s : State) (n c : Nat) (d : List Byte) : (s.reply n c d).issuer = s.issuer := rfl
@[simp] theorem State.reply_turnQueue (s : State) (n c : Nat) (d : List Byte) : (s.reply n c d).turnQueue = s.turnQueue := rfl

/-! ### setReadPtr -/

@[simp] theorem State.setReadPtr_now (s : State) (q n : Nat) : (s.setReadPtr q n).now = s.now := rfl
@[simp] theorem State.setReadPtr_dev (s : State) (q n : Nat) : (s.setReadPtr q n).dev = s.dev := rfl
@[simp] theorem State.setReadPtr_host (s : State) (q n : Nat) : (s.setReadPtr q n).host = s.host := rfl
@[simp] theorem State.setReadPtr_hostMem (s : State) (q n : Nat) : (s.setReadPtr q n).hostMem = s.hostMem := rfl
@[simp] theorem State.setReadPtr_halves (s : State) (q n : Nat) : (s.setReadPtr q n).halves = s.halves := rfl
@[simp] theorem State.setReadPtr_peerMem (s : State) (q n : Nat) : (s.setReadPtr q n).peerMem = s.peerMem := rfl
@[simp] theorem State.setReadPtr_tags (s : State) (q n : Nat) : (s.setReadPtr q n).tags = s.tags := rfl
@[simp] theorem State.setReadPtr_cores (s : State) (q n : Nat) : (s.setReadPtr q n).cores = s.cores := rfl
@[simp] theorem State.setReadPtr_tasks (s : State) (q n : Nat) : (s.setReadPtr q n).tasks = s.tasks := rfl
@[simp] theorem State.setReadPtr_launches (s : State) (q n : Nat) : (s.setReadPtr q n).launches = s.launches := rfl
@[simp] theorem State.setReadPtr_props (s : State) (q n : Nat) : (s.setReadPtr q n).props = s.props := rfl
@[simp] theorem State.setReadPtr_cells (s : State) (q n : Nat) : (s.setReadPtr q n).cells = s.cells := rfl
@[simp] theorem State.setReadPtr_flight (s : State) (q n : Nat) : (s.setReadPtr q n).flight = s.flight := rfl
@[simp] theorem State.setReadPtr_withdrawals (s : State) (q n : Nat) : (s.setReadPtr q n).withdrawals = s.withdrawals := rfl
@[simp] theorem State.setReadPtr_tlb (s : State) (q n : Nat) : (s.setReadPtr q n).tlb = s.tlb := rfl
@[simp] theorem State.setReadPtr_walks (s : State) (q n : Nat) : (s.setReadPtr q n).walks = s.walks := rfl
@[simp] theorem State.setReadPtr_walkCache (s : State) (q n : Nat) : (s.setReadPtr q n).walkCache = s.walkCache := rfl
@[simp] theorem State.setReadPtr_faults (s : State) (q n : Nat) : (s.setReadPtr q n).faults = s.faults := rfl
@[simp] theorem State.setReadPtr_drift (s : State) (q n : Nat) : (s.setReadPtr q n).drift = s.drift := rfl
@[simp] theorem State.setReadPtr_skewed (s : State) (q n : Nat) : (s.setReadPtr q n).skewed = s.skewed := rfl
@[simp] theorem State.setReadPtr_queues (s : State) (q n : Nat) : (s.setReadPtr q n).queues = s.queues := rfl
@[simp] theorem State.setReadPtr_gangs (s : State) (q n : Nat) : (s.setReadPtr q n).gangs = s.gangs := rfl
@[simp] theorem State.setReadPtr_saved (s : State) (q n : Nat) : (s.setReadPtr q n).saved = s.saved := rfl
@[simp] theorem State.setReadPtr_plans (s : State) (q n : Nat) : (s.setReadPtr q n).plans = s.plans := rfl
@[simp] theorem State.setReadPtr_fresh (s : State) (q n : Nat) : (s.setReadPtr q n).fresh = s.fresh := rfl
@[simp] theorem State.setReadPtr_free (s : State) (q n : Nat) : (s.setReadPtr q n).free = s.free := rfl
@[simp] theorem State.setReadPtr_agenda (s : State) (q n : Nat) : (s.setReadPtr q n).agenda = s.agenda := rfl
@[simp] theorem State.setReadPtr_issuer (s : State) (q n : Nat) : (s.setReadPtr q n).issuer = s.issuer := rfl
@[simp] theorem State.setReadPtr_turnQueue (s : State) (q n : Nat) : (s.setReadPtr q n).turnQueue = s.turnQueue := rfl

/-! ### modCore -/

@[simp] theorem State.modCore_now (s : State) (x y : Nat) (f : Core → Core) : (s.modCore x y f).now = s.now := by unfold State.modCore; split <;> rfl
@[simp] theorem State.modCore_dev (s : State) (x y : Nat) (f : Core → Core) : (s.modCore x y f).dev = s.dev := by unfold State.modCore; split <;> rfl
@[simp] theorem State.modCore_host (s : State) (x y : Nat) (f : Core → Core) : (s.modCore x y f).host = s.host := by unfold State.modCore; split <;> rfl
@[simp] theorem State.modCore_mem (s : State) (x y : Nat) (f : Core → Core) : (s.modCore x y f).mem = s.mem := by unfold State.modCore; split <;> rfl
@[simp] theorem State.modCore_hostMem (s : State) (x y : Nat) (f : Core → Core) : (s.modCore x y f).hostMem = s.hostMem := by unfold State.modCore; split <;> rfl
@[simp] theorem State.modCore_halves (s : State) (x y : Nat) (f : Core → Core) : (s.modCore x y f).halves = s.halves := by unfold State.modCore; split <;> rfl
@[simp] theorem State.modCore_peerMem (s : State) (x y : Nat) (f : Core → Core) : (s.modCore x y f).peerMem = s.peerMem := by unfold State.modCore; split <;> rfl
@[simp] theorem State.modCore_tags (s : State) (x y : Nat) (f : Core → Core) : (s.modCore x y f).tags = s.tags := by unfold State.modCore; split <;> rfl
@[simp] theorem State.modCore_tasks (s : State) (x y : Nat) (f : Core → Core) : (s.modCore x y f).tasks = s.tasks := by unfold State.modCore; split <;> rfl
@[simp] theorem State.modCore_launches (s : State) (x y : Nat) (f : Core → Core) : (s.modCore x y f).launches = s.launches := by unfold State.modCore; split <;> rfl
@[simp] theorem State.modCore_props (s : State) (x y : Nat) (f : Core → Core) : (s.modCore x y f).props = s.props := by unfold State.modCore; split <;> rfl
@[simp] theorem State.modCore_cells (s : State) (x y : Nat) (f : Core → Core) : (s.modCore x y f).cells = s.cells := by unfold State.modCore; split <;> rfl
@[simp] theorem State.modCore_flight (s : State) (x y : Nat) (f : Core → Core) : (s.modCore x y f).flight = s.flight := by unfold State.modCore; split <;> rfl
@[simp] theorem State.modCore_withdrawals (s : State) (x y : Nat) (f : Core → Core) : (s.modCore x y f).withdrawals = s.withdrawals := by unfold State.modCore; split <;> rfl
@[simp] theorem State.modCore_tlb (s : State) (x y : Nat) (f : Core → Core) : (s.modCore x y f).tlb = s.tlb := by unfold State.modCore; split <;> rfl
@[simp] theorem State.modCore_walks (s : State) (x y : Nat) (f : Core → Core) : (s.modCore x y f).walks = s.walks := by unfold State.modCore; split <;> rfl
@[simp] theorem State.modCore_walkCache (s : State) (x y : Nat) (f : Core → Core) : (s.modCore x y f).walkCache = s.walkCache := by unfold State.modCore; split <;> rfl
@[simp] theorem State.modCore_faults (s : State) (x y : Nat) (f : Core → Core) : (s.modCore x y f).faults = s.faults := by unfold State.modCore; split <;> rfl
@[simp] theorem State.modCore_drift (s : State) (x y : Nat) (f : Core → Core) : (s.modCore x y f).drift = s.drift := by unfold State.modCore; split <;> rfl
@[simp] theorem State.modCore_skewed (s : State) (x y : Nat) (f : Core → Core) : (s.modCore x y f).skewed = s.skewed := by unfold State.modCore; split <;> rfl
@[simp] theorem State.modCore_queues (s : State) (x y : Nat) (f : Core → Core) : (s.modCore x y f).queues = s.queues := by unfold State.modCore; split <;> rfl
@[simp] theorem State.modCore_gangs (s : State) (x y : Nat) (f : Core → Core) : (s.modCore x y f).gangs = s.gangs := by unfold State.modCore; split <;> rfl
@[simp] theorem State.modCore_saved (s : State) (x y : Nat) (f : Core → Core) : (s.modCore x y f).saved = s.saved := by unfold State.modCore; split <;> rfl
@[simp] theorem State.modCore_plans (s : State) (x y : Nat) (f : Core → Core) : (s.modCore x y f).plans = s.plans := by unfold State.modCore; split <;> rfl
@[simp] theorem State.modCore_fresh (s : State) (x y : Nat) (f : Core → Core) : (s.modCore x y f).fresh = s.fresh := by unfold State.modCore; split <;> rfl
@[simp] theorem State.modCore_free (s : State) (x y : Nat) (f : Core → Core) : (s.modCore x y f).free = s.free := by unfold State.modCore; split <;> rfl
@[simp] theorem State.modCore_agenda (s : State) (x y : Nat) (f : Core → Core) : (s.modCore x y f).agenda = s.agenda := by unfold State.modCore; split <;> rfl
@[simp] theorem State.modCore_issuer (s : State) (x y : Nat) (f : Core → Core) : (s.modCore x y f).issuer = s.issuer := by unfold State.modCore; split <;> rfl
@[simp] theorem State.modCore_turnQueue (s : State) (x y : Nat) (f : Core → Core) : (s.modCore x y f).turnQueue = s.turnQueue := by unfold State.modCore; split <;> rfl

/-! ### modQueue -/

@[simp] theorem State.modQueue_now (s : State) (q : Nat) (f : Queue → Queue) : (s.modQueue q f).now = s.now := by unfold State.modQueue; split <;> rfl
@[simp] theorem State.modQueue_dev (s : State) (q : Nat) (f : Queue → Queue) : (s.modQueue q f).dev = s.dev := by unfold State.modQueue; split <;> rfl
@[simp] theorem State.modQueue_host (s : State) (q : Nat) (f : Queue → Queue) : (s.modQueue q f).host = s.host := by unfold State.modQueue; split <;> rfl
@[simp] theorem State.modQueue_mem (s : State) (q : Nat) (f : Queue → Queue) : (s.modQueue q f).mem = s.mem := by unfold State.modQueue; split <;> rfl
@[simp] theorem State.modQueue_hostMem (s : State) (q : Nat) (f : Queue → Queue) : (s.modQueue q f).hostMem = s.hostMem := by unfold State.modQueue; split <;> rfl
@[simp] theorem State.modQueue_halves (s : State) (q : Nat) (f : Queue → Queue) : (s.modQueue q f).halves = s.halves := by unfold State.modQueue; split <;> rfl
@[simp] theorem State.modQueue_peerMem (s : State) (q : Nat) (f : Queue → Queue) : (s.modQueue q f).peerMem = s.peerMem := by unfold State.modQueue; split <;> rfl
@[simp] theorem State.modQueue_tags (s : State) (q : Nat) (f : Queue → Queue) : (s.modQueue q f).tags = s.tags := by unfold State.modQueue; split <;> rfl
@[simp] theorem State.modQueue_cores (s : State) (q : Nat) (f : Queue → Queue) : (s.modQueue q f).cores = s.cores := by unfold State.modQueue; split <;> rfl
@[simp] theorem State.modQueue_tasks (s : State) (q : Nat) (f : Queue → Queue) : (s.modQueue q f).tasks = s.tasks := by unfold State.modQueue; split <;> rfl
@[simp] theorem State.modQueue_launches (s : State) (q : Nat) (f : Queue → Queue) : (s.modQueue q f).launches = s.launches := by unfold State.modQueue; split <;> rfl
@[simp] theorem State.modQueue_props (s : State) (q : Nat) (f : Queue → Queue) : (s.modQueue q f).props = s.props := by unfold State.modQueue; split <;> rfl
@[simp] theorem State.modQueue_cells (s : State) (q : Nat) (f : Queue → Queue) : (s.modQueue q f).cells = s.cells := by unfold State.modQueue; split <;> rfl
@[simp] theorem State.modQueue_flight (s : State) (q : Nat) (f : Queue → Queue) : (s.modQueue q f).flight = s.flight := by unfold State.modQueue; split <;> rfl
@[simp] theorem State.modQueue_withdrawals (s : State) (q : Nat) (f : Queue → Queue) : (s.modQueue q f).withdrawals = s.withdrawals := by unfold State.modQueue; split <;> rfl
@[simp] theorem State.modQueue_tlb (s : State) (q : Nat) (f : Queue → Queue) : (s.modQueue q f).tlb = s.tlb := by unfold State.modQueue; split <;> rfl
@[simp] theorem State.modQueue_walks (s : State) (q : Nat) (f : Queue → Queue) : (s.modQueue q f).walks = s.walks := by unfold State.modQueue; split <;> rfl
@[simp] theorem State.modQueue_walkCache (s : State) (q : Nat) (f : Queue → Queue) : (s.modQueue q f).walkCache = s.walkCache := by unfold State.modQueue; split <;> rfl
@[simp] theorem State.modQueue_faults (s : State) (q : Nat) (f : Queue → Queue) : (s.modQueue q f).faults = s.faults := by unfold State.modQueue; split <;> rfl
@[simp] theorem State.modQueue_drift (s : State) (q : Nat) (f : Queue → Queue) : (s.modQueue q f).drift = s.drift := by unfold State.modQueue; split <;> rfl
@[simp] theorem State.modQueue_skewed (s : State) (q : Nat) (f : Queue → Queue) : (s.modQueue q f).skewed = s.skewed := by unfold State.modQueue; split <;> rfl
@[simp] theorem State.modQueue_gangs (s : State) (q : Nat) (f : Queue → Queue) : (s.modQueue q f).gangs = s.gangs := by unfold State.modQueue; split <;> rfl
@[simp] theorem State.modQueue_saved (s : State) (q : Nat) (f : Queue → Queue) : (s.modQueue q f).saved = s.saved := by unfold State.modQueue; split <;> rfl
@[simp] theorem State.modQueue_plans (s : State) (q : Nat) (f : Queue → Queue) : (s.modQueue q f).plans = s.plans := by unfold State.modQueue; split <;> rfl
@[simp] theorem State.modQueue_fresh (s : State) (q : Nat) (f : Queue → Queue) : (s.modQueue q f).fresh = s.fresh := by unfold State.modQueue; split <;> rfl
@[simp] theorem State.modQueue_free (s : State) (q : Nat) (f : Queue → Queue) : (s.modQueue q f).free = s.free := by unfold State.modQueue; split <;> rfl
@[simp] theorem State.modQueue_agenda (s : State) (q : Nat) (f : Queue → Queue) : (s.modQueue q f).agenda = s.agenda := by unfold State.modQueue; split <;> rfl
@[simp] theorem State.modQueue_issuer (s : State) (q : Nat) (f : Queue → Queue) : (s.modQueue q f).issuer = s.issuer := by unfold State.modQueue; split <;> rfl
@[simp] theorem State.modQueue_turnQueue (s : State) (q : Nat) (f : Queue → Queue) : (s.modQueue q f).turnQueue = s.turnQueue := by unfold State.modQueue; split <;> rfl

/-! ### modPacket -/

@[simp] theorem State.modPacket_now (s : State) (q : Nat) (f : Packet → Packet) : (s.modPacket q f).now = s.now := by unfold State.modPacket State.modQueue; split <;> rfl
@[simp] theorem State.modPacket_dev (s : State) (q : Nat) (f : Packet → Packet) : (s.modPacket q f).dev = s.dev := by unfold State.modPacket State.modQueue; split <;> rfl
@[simp] theorem State.modPacket_host (s : State) (q : Nat) (f : Packet → Packet) : (s.modPacket q f).host = s.host := by unfold State.modPacket State.modQueue; split <;> rfl
@[simp] theorem State.modPacket_mem (s : State) (q : Nat) (f : Packet → Packet) : (s.modPacket q f).mem = s.mem := by unfold State.modPacket State.modQueue; split <;> rfl
@[simp] theorem State.modPacket_hostMem (s : State) (q : Nat) (f : Packet → Packet) : (s.modPacket q f).hostMem = s.hostMem := by unfold State.modPacket State.modQueue; split <;> rfl
@[simp] theorem State.modPacket_halves (s : State) (q : Nat) (f : Packet → Packet) : (s.modPacket q f).halves = s.halves := by unfold State.modPacket State.modQueue; split <;> rfl
@[simp] theorem State.modPacket_peerMem (s : State) (q : Nat) (f : Packet → Packet) : (s.modPacket q f).peerMem = s.peerMem := by unfold State.modPacket State.modQueue; split <;> rfl
@[simp] theorem State.modPacket_tags (s : State) (q : Nat) (f : Packet → Packet) : (s.modPacket q f).tags = s.tags := by unfold State.modPacket State.modQueue; split <;> rfl
@[simp] theorem State.modPacket_cores (s : State) (q : Nat) (f : Packet → Packet) : (s.modPacket q f).cores = s.cores := by unfold State.modPacket State.modQueue; split <;> rfl
@[simp] theorem State.modPacket_tasks (s : State) (q : Nat) (f : Packet → Packet) : (s.modPacket q f).tasks = s.tasks := by unfold State.modPacket State.modQueue; split <;> rfl
@[simp] theorem State.modPacket_launches (s : State) (q : Nat) (f : Packet → Packet) : (s.modPacket q f).launches = s.launches := by unfold State.modPacket State.modQueue; split <;> rfl
@[simp] theorem State.modPacket_props (s : State) (q : Nat) (f : Packet → Packet) : (s.modPacket q f).props = s.props := by unfold State.modPacket State.modQueue; split <;> rfl
@[simp] theorem State.modPacket_cells (s : State) (q : Nat) (f : Packet → Packet) : (s.modPacket q f).cells = s.cells := by unfold State.modPacket State.modQueue; split <;> rfl
@[simp] theorem State.modPacket_flight (s : State) (q : Nat) (f : Packet → Packet) : (s.modPacket q f).flight = s.flight := by unfold State.modPacket State.modQueue; split <;> rfl
@[simp] theorem State.modPacket_withdrawals (s : State) (q : Nat) (f : Packet → Packet) : (s.modPacket q f).withdrawals = s.withdrawals := by unfold State.modPacket State.modQueue; split <;> rfl
@[simp] theorem State.modPacket_tlb (s : State) (q : Nat) (f : Packet → Packet) : (s.modPacket q f).tlb = s.tlb := by unfold State.modPacket State.modQueue; split <;> rfl
@[simp] theorem State.modPacket_walks (s : State) (q : Nat) (f : Packet → Packet) : (s.modPacket q f).walks = s.walks := by unfold State.modPacket State.modQueue; split <;> rfl
@[simp] theorem State.modPacket_walkCache (s : State) (q : Nat) (f : Packet → Packet) : (s.modPacket q f).walkCache = s.walkCache := by unfold State.modPacket State.modQueue; split <;> rfl
@[simp] theorem State.modPacket_faults (s : State) (q : Nat) (f : Packet → Packet) : (s.modPacket q f).faults = s.faults := by unfold State.modPacket State.modQueue; split <;> rfl
@[simp] theorem State.modPacket_drift (s : State) (q : Nat) (f : Packet → Packet) : (s.modPacket q f).drift = s.drift := by unfold State.modPacket State.modQueue; split <;> rfl
@[simp] theorem State.modPacket_skewed (s : State) (q : Nat) (f : Packet → Packet) : (s.modPacket q f).skewed = s.skewed := by unfold State.modPacket State.modQueue; split <;> rfl
@[simp] theorem State.modPacket_gangs (s : State) (q : Nat) (f : Packet → Packet) : (s.modPacket q f).gangs = s.gangs := by unfold State.modPacket State.modQueue; split <;> rfl
@[simp] theorem State.modPacket_saved (s : State) (q : Nat) (f : Packet → Packet) : (s.modPacket q f).saved = s.saved := by unfold State.modPacket State.modQueue; split <;> rfl
@[simp] theorem State.modPacket_plans (s : State) (q : Nat) (f : Packet → Packet) : (s.modPacket q f).plans = s.plans := by unfold State.modPacket State.modQueue; split <;> rfl
@[simp] theorem State.modPacket_fresh (s : State) (q : Nat) (f : Packet → Packet) : (s.modPacket q f).fresh = s.fresh := by unfold State.modPacket State.modQueue; split <;> rfl
@[simp] theorem State.modPacket_free (s : State) (q : Nat) (f : Packet → Packet) : (s.modPacket q f).free = s.free := by unfold State.modPacket State.modQueue; split <;> rfl
@[simp] theorem State.modPacket_agenda (s : State) (q : Nat) (f : Packet → Packet) : (s.modPacket q f).agenda = s.agenda := by unfold State.modPacket State.modQueue; split <;> rfl
@[simp] theorem State.modPacket_issuer (s : State) (q : Nat) (f : Packet → Packet) : (s.modPacket q f).issuer = s.issuer := by unfold State.modPacket State.modQueue; split <;> rfl
@[simp] theorem State.modPacket_turnQueue (s : State) (q : Nat) (f : Packet → Packet) : (s.modPacket q f).turnQueue = s.turnQueue := by unfold State.modPacket State.modQueue; split <;> rfl

/-! ### event -/

@[simp] theorem State.event_now (s : State) (n : Nat) : (s.event n).now = s.now := by unfold State.event; simp only []; split <;> rfl
@[simp] theorem State.event_mem (s : State) (n : Nat) : (s.event n).mem = s.mem := by unfold State.event; simp only []; split <;> rfl
@[simp] theorem State.event_hostMem (s : State) (n : Nat) : (s.event n).hostMem = s.hostMem := by unfold State.event; simp only []; split <;> rfl
@[simp] theorem State.event_halves (s : State) (n : Nat) : (s.event n).halves = s.halves := by unfold State.event; simp only []; split <;> rfl
@[simp] theorem State.event_peerMem (s : State) (n : Nat) : (s.event n).peerMem = s.peerMem := by unfold State.event; simp only []; split <;> rfl
@[simp] theorem State.event_tags (s : State) (n : Nat) : (s.event n).tags = s.tags := by unfold State.event; simp only []; split <;> rfl
@[simp] theorem State.event_cores (s : State) (n : Nat) : (s.event n).cores = s.cores := by unfold State.event; simp only []; split <;> rfl
@[simp] theorem State.event_tasks (s : State) (n : Nat) : (s.event n).tasks = s.tasks := by unfold State.event; simp only []; split <;> rfl
@[simp] theorem State.event_launches (s : State) (n : Nat) : (s.event n).launches = s.launches := by unfold State.event; simp only []; split <;> rfl
@[simp] theorem State.event_props (s : State) (n : Nat) : (s.event n).props = s.props := by unfold State.event; simp only []; split <;> rfl
@[simp] theorem State.event_cells (s : State) (n : Nat) : (s.event n).cells = s.cells := by unfold State.event; simp only []; split <;> rfl
@[simp] theorem State.event_flight (s : State) (n : Nat) : (s.event n).flight = s.flight := by unfold State.event; simp only []; split <;> rfl
@[simp] theorem State.event_withdrawals (s : State) (n : Nat) : (s.event n).withdrawals = s.withdrawals := by unfold State.event; simp only []; split <;> rfl
@[simp] theorem State.event_tlb (s : State) (n : Nat) : (s.event n).tlb = s.tlb := by unfold State.event; simp only []; split <;> rfl
@[simp] theorem State.event_walks (s : State) (n : Nat) : (s.event n).walks = s.walks := by unfold State.event; simp only []; split <;> rfl
@[simp] theorem State.event_walkCache (s : State) (n : Nat) : (s.event n).walkCache = s.walkCache := by unfold State.event; simp only []; split <;> rfl
@[simp] theorem State.event_faults (s : State) (n : Nat) : (s.event n).faults = s.faults := by unfold State.event; simp only []; split <;> rfl
@[simp] theorem State.event_drift (s : State) (n : Nat) : (s.event n).drift = s.drift := by unfold State.event; simp only []; split <;> rfl
@[simp] theorem State.event_skewed (s : State) (n : Nat) : (s.event n).skewed = s.skewed := by unfold State.event; simp only []; split <;> rfl
@[simp] theorem State.event_queues (s : State) (n : Nat) : (s.event n).queues = s.queues := by unfold State.event; simp only []; split <;> rfl
@[simp] theorem State.event_gangs (s : State) (n : Nat) : (s.event n).gangs = s.gangs := by unfold State.event; simp only []; split <;> rfl
@[simp] theorem State.event_saved (s : State) (n : Nat) : (s.event n).saved = s.saved := by unfold State.event; simp only []; split <;> rfl
@[simp] theorem State.event_plans (s : State) (n : Nat) : (s.event n).plans = s.plans := by unfold State.event; simp only []; split <;> rfl
@[simp] theorem State.event_fresh (s : State) (n : Nat) : (s.event n).fresh = s.fresh := by unfold State.event; simp only []; split <;> rfl
@[simp] theorem State.event_free (s : State) (n : Nat) : (s.event n).free = s.free := by unfold State.event; simp only []; split <;> rfl
@[simp] theorem State.event_agenda (s : State) (n : Nat) : (s.event n).agenda = s.agenda := by unfold State.event; simp only []; split <;> rfl
@[simp] theorem State.event_issuer (s : State) (n : Nat) : (s.event n).issuer = s.issuer := by unfold State.event; simp only []; split <;> rfl
@[simp] theorem State.event_turnQueue (s : State) (n : Nat) : (s.event n).turnQueue = s.turnQueue := by unfold State.event; simp only []; split <;> rfl

/-! ### openSlot -/

@[simp] theorem State.openSlot_now (s : State) (r : WaveRef) : (s.openSlot r).now = s.now := by unfold State.openSlot; split <;> (try split) <;> simp
@[simp] theorem State.openSlot_dev (s : State) (r : WaveRef) : (s.openSlot r).dev = s.dev := by unfold State.openSlot; split <;> (try split) <;> simp
@[simp] theorem State.openSlot_host (s : State) (r : WaveRef) : (s.openSlot r).host = s.host := by unfold State.openSlot; split <;> (try split) <;> simp
@[simp] theorem State.openSlot_mem (s : State) (r : WaveRef) : (s.openSlot r).mem = s.mem := by unfold State.openSlot; split <;> (try split) <;> simp
@[simp] theorem State.openSlot_hostMem (s : State) (r : WaveRef) : (s.openSlot r).hostMem = s.hostMem := by unfold State.openSlot; split <;> (try split) <;> simp
@[simp] theorem State.openSlot_halves (s : State) (r : WaveRef) : (s.openSlot r).halves = s.halves := by unfold State.openSlot; split <;> (try split) <;> simp
@[simp] theorem State.openSlot_peerMem (s : State) (r : WaveRef) : (s.openSlot r).peerMem = s.peerMem := by unfold State.openSlot; split <;> (try split) <;> simp
@[simp] theorem State.openSlot_tags (s : State) (r : WaveRef) : (s.openSlot r).tags = s.tags := by unfold State.openSlot; split <;> (try split) <;> simp
@[simp] theorem State.openSlot_tasks (s : State) (r : WaveRef) : (s.openSlot r).tasks = s.tasks := by unfold State.openSlot; split <;> (try split) <;> simp
@[simp] theorem State.openSlot_launches (s : State) (r : WaveRef) : (s.openSlot r).launches = s.launches := by unfold State.openSlot; split <;> (try split) <;> simp
@[simp] theorem State.openSlot_props (s : State) (r : WaveRef) : (s.openSlot r).props = s.props := by unfold State.openSlot; split <;> (try split) <;> simp
@[simp] theorem State.openSlot_cells (s : State) (r : WaveRef) : (s.openSlot r).cells = s.cells := by unfold State.openSlot; split <;> (try split) <;> simp
@[simp] theorem State.openSlot_flight (s : State) (r : WaveRef) : (s.openSlot r).flight = s.flight := by unfold State.openSlot; split <;> (try split) <;> simp
@[simp] theorem State.openSlot_withdrawals (s : State) (r : WaveRef) : (s.openSlot r).withdrawals = s.withdrawals := by unfold State.openSlot; split <;> (try split) <;> simp
@[simp] theorem State.openSlot_tlb (s : State) (r : WaveRef) : (s.openSlot r).tlb = s.tlb := by unfold State.openSlot; split <;> (try split) <;> simp
@[simp] theorem State.openSlot_walks (s : State) (r : WaveRef) : (s.openSlot r).walks = s.walks := by unfold State.openSlot; split <;> (try split) <;> simp
@[simp] theorem State.openSlot_walkCache (s : State) (r : WaveRef) : (s.openSlot r).walkCache = s.walkCache := by unfold State.openSlot; split <;> (try split) <;> simp
@[simp] theorem State.openSlot_faults (s : State) (r : WaveRef) : (s.openSlot r).faults = s.faults := by unfold State.openSlot; split <;> (try split) <;> simp
@[simp] theorem State.openSlot_drift (s : State) (r : WaveRef) : (s.openSlot r).drift = s.drift := by unfold State.openSlot; split <;> (try split) <;> simp
@[simp] theorem State.openSlot_skewed (s : State) (r : WaveRef) : (s.openSlot r).skewed = s.skewed := by unfold State.openSlot; split <;> (try split) <;> simp
@[simp] theorem State.openSlot_queues (s : State) (r : WaveRef) : (s.openSlot r).queues = s.queues := by unfold State.openSlot; split <;> (try split) <;> simp
@[simp] theorem State.openSlot_gangs (s : State) (r : WaveRef) : (s.openSlot r).gangs = s.gangs := by unfold State.openSlot; split <;> (try split) <;> simp
@[simp] theorem State.openSlot_saved (s : State) (r : WaveRef) : (s.openSlot r).saved = s.saved := by unfold State.openSlot; split <;> (try split) <;> simp
@[simp] theorem State.openSlot_plans (s : State) (r : WaveRef) : (s.openSlot r).plans = s.plans := by unfold State.openSlot; split <;> (try split) <;> simp
@[simp] theorem State.openSlot_fresh (s : State) (r : WaveRef) : (s.openSlot r).fresh = s.fresh := by unfold State.openSlot; split <;> (try split) <;> simp
@[simp] theorem State.openSlot_free (s : State) (r : WaveRef) : (s.openSlot r).free = s.free := by unfold State.openSlot; split <;> (try split) <;> simp
@[simp] theorem State.openSlot_agenda (s : State) (r : WaveRef) : (s.openSlot r).agenda = s.agenda := by unfold State.openSlot; split <;> (try split) <;> simp
@[simp] theorem State.openSlot_issuer (s : State) (r : WaveRef) : (s.openSlot r).issuer = s.issuer := by unfold State.openSlot; split <;> (try split) <;> simp
@[simp] theorem State.openSlot_turnQueue (s : State) (r : WaveRef) : (s.openSlot r).turnQueue = s.turnQueue := by unfold State.openSlot; split <;> (try split) <;> simp

/-! ### leaveSlot -/

@[simp] theorem State.leaveSlot_now (s : State) (r : WaveRef) (b : Bool) : (s.leaveSlot r b).now = s.now := by unfold State.leaveSlot; split <;> simp
@[simp] theorem State.leaveSlot_dev (s : State) (r : WaveRef) (b : Bool) : (s.leaveSlot r b).dev = s.dev := by unfold State.leaveSlot; split <;> simp
@[simp] theorem State.leaveSlot_host (s : State) (r : WaveRef) (b : Bool) : (s.leaveSlot r b).host = s.host := by unfold State.leaveSlot; split <;> simp
@[simp] theorem State.leaveSlot_mem (s : State) (r : WaveRef) (b : Bool) : (s.leaveSlot r b).mem = s.mem := by unfold State.leaveSlot; split <;> simp
@[simp] theorem State.leaveSlot_hostMem (s : State) (r : WaveRef) (b : Bool) : (s.leaveSlot r b).hostMem = s.hostMem := by unfold State.leaveSlot; split <;> simp
@[simp] theorem State.leaveSlot_halves (s : State) (r : WaveRef) (b : Bool) : (s.leaveSlot r b).halves = s.halves := by unfold State.leaveSlot; split <;> simp
@[simp] theorem State.leaveSlot_peerMem (s : State) (r : WaveRef) (b : Bool) : (s.leaveSlot r b).peerMem = s.peerMem := by unfold State.leaveSlot; split <;> simp
@[simp] theorem State.leaveSlot_tags (s : State) (r : WaveRef) (b : Bool) : (s.leaveSlot r b).tags = s.tags := by unfold State.leaveSlot; split <;> simp
@[simp] theorem State.leaveSlot_launches (s : State) (r : WaveRef) (b : Bool) : (s.leaveSlot r b).launches = s.launches := by unfold State.leaveSlot; split <;> simp
@[simp] theorem State.leaveSlot_props (s : State) (r : WaveRef) (b : Bool) : (s.leaveSlot r b).props = s.props := by unfold State.leaveSlot; split <;> simp
@[simp] theorem State.leaveSlot_cells (s : State) (r : WaveRef) (b : Bool) : (s.leaveSlot r b).cells = s.cells := by unfold State.leaveSlot; split <;> simp
@[simp] theorem State.leaveSlot_flight (s : State) (r : WaveRef) (b : Bool) : (s.leaveSlot r b).flight = s.flight := by unfold State.leaveSlot; split <;> simp
@[simp] theorem State.leaveSlot_withdrawals (s : State) (r : WaveRef) (b : Bool) : (s.leaveSlot r b).withdrawals = s.withdrawals := by unfold State.leaveSlot; split <;> simp
@[simp] theorem State.leaveSlot_tlb (s : State) (r : WaveRef) (b : Bool) : (s.leaveSlot r b).tlb = s.tlb := by unfold State.leaveSlot; split <;> simp
@[simp] theorem State.leaveSlot_walks (s : State) (r : WaveRef) (b : Bool) : (s.leaveSlot r b).walks = s.walks := by unfold State.leaveSlot; split <;> simp
@[simp] theorem State.leaveSlot_walkCache (s : State) (r : WaveRef) (b : Bool) : (s.leaveSlot r b).walkCache = s.walkCache := by unfold State.leaveSlot; split <;> simp
@[simp] theorem State.leaveSlot_faults (s : State) (r : WaveRef) (b : Bool) : (s.leaveSlot r b).faults = s.faults := by unfold State.leaveSlot; split <;> simp
@[simp] theorem State.leaveSlot_drift (s : State) (r : WaveRef) (b : Bool) : (s.leaveSlot r b).drift = s.drift := by unfold State.leaveSlot; split <;> simp
@[simp] theorem State.leaveSlot_skewed (s : State) (r : WaveRef) (b : Bool) : (s.leaveSlot r b).skewed = s.skewed := by unfold State.leaveSlot; split <;> simp
@[simp] theorem State.leaveSlot_queues (s : State) (r : WaveRef) (b : Bool) : (s.leaveSlot r b).queues = s.queues := by unfold State.leaveSlot; split <;> simp
@[simp] theorem State.leaveSlot_gangs (s : State) (r : WaveRef) (b : Bool) : (s.leaveSlot r b).gangs = s.gangs := by unfold State.leaveSlot; split <;> simp
@[simp] theorem State.leaveSlot_saved (s : State) (r : WaveRef) (b : Bool) : (s.leaveSlot r b).saved = s.saved := by unfold State.leaveSlot; split <;> simp
@[simp] theorem State.leaveSlot_plans (s : State) (r : WaveRef) (b : Bool) : (s.leaveSlot r b).plans = s.plans := by unfold State.leaveSlot; split <;> simp
@[simp] theorem State.leaveSlot_fresh (s : State) (r : WaveRef) (b : Bool) : (s.leaveSlot r b).fresh = s.fresh := by unfold State.leaveSlot; split <;> simp
@[simp] theorem State.leaveSlot_free (s : State) (r : WaveRef) (b : Bool) : (s.leaveSlot r b).free = s.free := by unfold State.leaveSlot; split <;> simp
@[simp] theorem State.leaveSlot_agenda (s : State) (r : WaveRef) (b : Bool) : (s.leaveSlot r b).agenda = s.agenda := by unfold State.leaveSlot; split <;> simp
@[simp] theorem State.leaveSlot_issuer (s : State) (r : WaveRef) (b : Bool) : (s.leaveSlot r b).issuer = s.issuer := by unfold State.leaveSlot; split <;> simp
@[simp] theorem State.leaveSlot_turnQueue (s : State) (r : WaveRef) (b : Bool) : (s.leaveSlot r b).turnQueue = s.turnQueue := by unfold State.leaveSlot; split <;> simp

end Sys2Proof.Machine
end

