-- ==== Sys2Proof/Laws/Table.lean ====
section
/-! SUPPORT. Tables and the parts of the state: what finding, changing and replacing an element do to each other. -/

namespace Sys2Proof.Machine

open Host

/-! ### Lists as tables -/

theorem upd_find {α : Type} (p : α → Bool) (f : α → α) (hp : ∀ a, p (f a) = p a) (l : List α) :
    (upd p f l).find? p = (l.find? p).map f := by
  induction l with
  | nil => rfl
  | cons a r ih =>
    simp only [upd, List.map_cons, List.find?_cons] at *
    by_cases h : p a <;> simp [h, hp, ih]

theorem upd_find_ne {α : Type} (p q : α → Bool) (f : α → α) (hq : ∀ a, q (f a) = q a) (hd : ∀ a, q a → ¬ p a) (l : List α) :
    (upd p f l).find? q = l.find? q := by
  induction l with
  | nil => rfl
  | cons a r ih =>
    simp only [upd, List.map_cons, List.find?_cons] at *
    by_cases h : p a
    · have : ¬ q a = true := fun hqa => hd a hqa h
      simp [h, hq, this, ih]
    · by_cases h2 : q a <;> simp [h, h2, ih]

theorem nth_putAt {α : Type} (d : α) (l : List α) (n m : Nat) (v : α) :
    nth (putAt d l n v) m d = if m = n then v else nth l m d := by
  induction l generalizing n m with
  | nil =>
    induction n generalizing m with
    | zero => cases m <;> simp [putAt, nth]
    | succ n ih =>
      cases m with
      | zero => simp [putAt, nth]
      | succ m => simpa [putAt, nth] using ih m
  | cons a r ih =>
    cases n with
    | zero => cases m <;> simp [putAt, nth]
    | succ n =>
      cases m with
      | zero => simp [putAt, nth]
      | succ m => simpa [putAt, nth] using ih n m

/-! ### Tasks, shares, waves -/

theorem State.task_modTask (s : State) (tid : Nat) (f : Task → Task) (hf : ∀ t, (f t).tid = t.tid) :
    (s.modTask tid f).task? tid = (s.task? tid).map f := by
  simp only [State.task?, State.modTask]
  exact upd_find _ _ (by simp [hf]) _

theorem State.task_modTask_ne (s : State) (tid u : Nat) (f : Task → Task) (hf : ∀ t, (f t).tid = t.tid) (h : u ≠ tid) :
    (s.modTask tid f).task? u = s.task? u := by
  simp only [State.task?, State.modTask]
  exact upd_find_ne _ _ _ (by simp [hf]) (by simp; intros; omega) _

theorem Task.share_modShare (t : Task) (c : Nat) (f : Share → Share) (hf : ∀ h, (f h).c = h.c) :
    (t.modShare c f).share? c = (t.share? c).map f := by
  simp only [Task.share?, Task.modShare]
  exact upd_find _ _ (by simp [hf]) _

theorem Task.share_modShare_ne (t : Task) (c d : Nat) (f : Share → Share) (hf : ∀ h, (f h).c = h.c) (h : d ≠ c) :
    (t.modShare c f).share? d = t.share? d := by
  simp only [Task.share?, Task.modShare]
  exact upd_find_ne _ _ _ (by simp [hf]) (by simp; intros; omega) _

theorem Share.wave_modWave (h : Share) (n : Nat) (f : Wave → Wave) (hf : ∀ w, (f w).wix = w.wix) :
    (h.modWave n f).wave? n = (h.wave? n).map f := by
  simp only [Share.wave?, Share.modWave]
  exact upd_find _ _ (by simp [hf]) _

theorem Share.wave_modWave_ne (h : Share) (n m : Nat) (f : Wave → Wave) (hf : ∀ w, (f w).wix = w.wix) (hne : m ≠ n) :
    (h.modWave n f).wave? m = h.wave? m := by
  simp only [Share.wave?, Share.modWave]
  exact upd_find_ne _ _ _ (by simp [hf]) (by simp; intros; omega) _

theorem State.share_modShare (s : State) (tid c : Nat) (f : Share → Share) (hf : ∀ h, (f h).c = h.c) :
    (s.modShare tid c f).share? tid c = (s.share? tid c).map f := by
  simp only [State.share?, State.modShare]
  rw [State.task_modTask _ _ _ (by intro t; rfl)]
  cases s.task? tid <;> simp [Task.share_modShare _ _ _ hf]

theorem State.share_modShare_ne (s : State) (tid c u d : Nat) (f : Share → Share) (hf : ∀ h, (f h).c = h.c)
    (hne : u ≠ tid ∨ d ≠ c) : (s.modShare tid c f).share? u d = s.share? u d := by
  simp only [State.share?, State.modShare]
  by_cases hu : u = tid
  · subst hu
    have hd : d ≠ c := by simpa using hne
    rw [State.task_modTask _ _ _ (by intro t; rfl)]
    cases s.task? u <;> simp [Task.share_modShare_ne _ _ _ _ hf hd]
  · rw [State.task_modTask_ne _ _ _ _ (by intro t; rfl) hu]

theorem State.wave_modWave (s : State) (r : WaveRef) (f : Wave → Wave) (hf : ∀ w, (f w).wix = w.wix) :
    (s.modWave r f).wave? r = (s.wave? r).map f := by
  simp only [State.wave?, State.modWave]
  rw [State.share_modShare _ _ _ _ (by intro h; rfl)]
  cases s.share? r.tid r.core <;> simp [Share.wave_modWave _ _ _ hf]

theorem State.wave_modWave_ne (s : State) (r q : WaveRef) (f : Wave → Wave) (hf : ∀ w, (f w).wix = w.wix) (hne : q ≠ r) :
    (s.modWave r f).wave? q = s.wave? q := by
  simp only [State.wave?, State.modWave]
  by_cases h : q.tid = r.tid ∧ q.core = r.core
  · have hw : q.wix ≠ r.wix := by
      intro hw; apply hne; cases q; cases r; simp_all
    rw [h.1, h.2, State.share_modShare _ _ _ _ (by intro h; rfl)]
    cases s.share? r.tid r.core <;> simp [Share.wave_modWave_ne _ _ _ _ hf hw]
  · rw [State.share_modShare_ne _ _ _ _ _ _ (by intro h; rfl) (by
      by_cases h1 : q.tid = r.tid
      · right; intro h2; exact h ⟨h1, h2⟩
      · left; exact h1)]

/-- A wave's state depends on the tasks alone. -/
theorem State.task_congr {s t : State} (h : t.tasks = s.tasks) (n : Nat) : t.task? n = s.task? n := by simp [State.task?, h]
theorem State.share_congr {s t : State} (h : t.tasks = s.tasks) (n c : Nat) : t.share? n c = s.share? n c := by
  simp [State.share?, State.task_congr h]
theorem State.wave_congr {s t : State} (h : t.tasks = s.tasks) (r : WaveRef) : t.wave? r = s.wave? r := by
  simp [State.wave?, State.share_congr h]

/-! ### Cores -/

theorem State.core_modCore (s : State) (x y : Nat) (f : Core → Core) (hf : ∀ c, (f c).x = c.x ∧ (f c).y = c.y) :
    (s.modCore x y f).core x y = f (s.core x y) := by
  unfold State.modCore State.core
  split
  · simp only []
    rw [upd_find _ _ (by intro c; simp [hf])]
    cases h : s.cores.find? (fun c => c.x == x && c.y == y) with
    | some c => simp
    | none =>
      rename_i ha
      simp only [List.any_eq_true] at ha
      obtain ⟨c, hc, hp⟩ := ha
      simp only [List.find?_eq_none] at h
      exact absurd hp (h c hc)
  · rename_i ha
    have hn : s.cores.find? (fun c => c.x == x && c.y == y) = none := by
      simp only [List.find?_eq_none]
      intro c hc hp
      exact ha (List.any_eq_true.2 ⟨c, hc, hp⟩)
    simp only [List.find?_append, hn, Option.none_or]
    simp [hf]

theorem State.core_modCore_ne (s : State) (x y u v : Nat) (f : Core → Core) (hf : ∀ c, (f c).x = c.x ∧ (f c).y = c.y)
    (hne : u ≠ x ∨ v ≠ y) : (s.modCore x y f).core u v = s.core u v := by
  unfold State.modCore State.core
  split
  · simp only []
    rw [upd_find_ne _ _ _ (by intro c; simp [hf]) (by
      intro c h1 h2; simp only [Bool.and_eq_true, beq_iff_eq] at h1 h2; omega)]
  · have hq : ((f { x, y }).x == u && (f { x, y }).y == v) = false := by
      have := hf { x, y }
      simp only [this, Bool.and_eq_false_iff, beq_eq_false_iff_ne]; omega
    simp [List.find?_append, hq]

end Sys2Proof.Machine
end

