-- ==== Sys2Proof/Laws/Issue.lean ====
section
/-! SUPPORT. What the shared issue does: how masks, lanes and waves change, and everything that an instruction of single
threads can do. -/

namespace Sys2Proof.Machine

open Host

/-! ### Masks -/

theorem testBit_or_shift (m n k : Nat) : (m ||| (1 <<< n)).testBit k = (m.testBit k || decide (n = k)) := by
  simp [Nat.testBit_or, Nat.shiftLeft_eq, Nat.testBit_two_pow]

theorem maskOf_testBit (l : List Nat) (k : Nat) : (maskOf l).testBit k = l.contains k := by
  suffices h : ∀ (l : List Nat) (m : Nat), (l.foldl (fun m n => m ||| (1 <<< n)) m).testBit k = (m.testBit k || l.contains k) by
    simpa [maskOf] using h l 0
  intro l
  induction l with
  | nil => intro m; simp
  | cons a r ih =>
    intro m
    simp only [List.foldl_cons, ih, testBit_or_shift, List.contains_cons]
    by_cases h : a = k
    · subst h; simp
    · have : (k == a) = false := by simp; omega
      simp [h, this]

theorem lanesOf_mem (m n : Nat) : n ∈ lanesOf m ↔ n < 32 ∧ m.testBit n = true := by
  simp [lanesOf]

theorem without_testBit (a b k : Nat) : (without a b).testBit k = (a.testBit k && !b.testBit k) := by
  simp only [without, Nat.testBit_xor, Nat.testBit_and]
  cases a.testBit k <;> cases b.testBit k <;> rfl

theorem all32_testBit (n : Nat) (h : n < 32) : (0xFFFFFFFF : Nat).testBit n = true := by
  have : ∀ n : Fin 32, (0xFFFFFFFF : Nat).testBit n.val = true := by decide
  exact this ⟨n, h⟩

/-! ### Lanes -/

theorem zipIdx_getD {α : Type} (l : List α) (n k : Nat) (d : α × Nat) :
    (l.zipIdx k)[n]?.getD d = match l[n]? with | some a => (a, k + n) | none => d := by
  rw [List.getElem?_zipIdx]
  cases l[n]? <;> rfl

theorem Wave.thread_modLanes (w : Wave) (mask : Nat) (f : Nat → Thread → Thread) (n : Nat) :
    (w.modLanes mask f).thread? n = if mask.testBit n then (w.thread? n).map (f n) else w.thread? n := by
  simp only [Wave.thread?, Wave.modLanes, nth, List.getD_eq_getElem?_getD, List.getElem?_map, List.getElem?_zipIdx]
  cases h : w.lanes[n]? with
  | none => simp
  | some o => by_cases hm : mask.testBit n = true <;> simp [hm]

theorem Wave.maskWhere_testBit (w : Wave) (p : Thread → Bool) (n : Nat) :
    (w.maskWhere p).testBit n = match w.thread? n with | some th => p th | none => false := by
  simp only [Wave.maskWhere, maskOf_testBit, Wave.thread?, nth, List.getD_eq_getElem?_getD]
  rw [Bool.eq_iff_iff]
  simp only [List.contains_iff_mem, List.mem_map, List.mem_filter, List.mem_zipIdx_iff_getElem?]
  constructor
  · rintro ⟨⟨o, k⟩, ⟨h1, h2⟩, rfl⟩
    simp only [] at h1 h2
    rw [h1]
    cases o <;> simp_all
  · intro h
    cases h1 : w.lanes[n]? with
    | none => rw [h1] at h; simp at h
    | some o =>
      rw [h1] at h
      exact ⟨(o, n), ⟨h1, by cases o <;> simp_all⟩, rfl⟩

theorem Wave.maskWhere_ne (w : Wave) (p : Thread → Bool) (n : Nat) (th : Thread) (h : w.thread? n = some th) (hp : p th = true) :
    w.maskWhere p ≠ 0 := by
  intro h0
  have := w.maskWhere_testBit p n
  rw [h0, h] at this
  simp [hp] at this

/-! ### The frontier (R70) -/

/-- A lane at the frontier holds a running thread at its PC. -/
theorem Wave.frontier_lane (w : Wave) (pc front n : Nat) (h : w.frontier = some (pc, front)) (hn : front.testBit n = true) :
    ∃ th, w.thread? n = some th ∧ th.running = true ∧ th.pc = pc := by
  simp only [Wave.frontier] at h
  split at h
  · simp at h
  · simp only [Option.some.injEq, Prod.mk.injEq] at h
    obtain ⟨h1, h2⟩ := h
    rw [← h2, Wave.maskWhere_testBit] at hn
    cases hth : w.thread? n with
    | none => rw [hth] at hn; simp at hn
    | some th =>
      rw [hth] at hn
      simp only [Bool.and_eq_true, beq_iff_eq] at hn
      exact ⟨th, rfl, hn.1, by rw [hn.2, h1]⟩

theorem foldl_min_mem (l : List Nat) (a : Nat) : l.foldl min a = a ∨ l.foldl min a ∈ l := by
  induction l generalizing a with
  | nil => simp
  | cons b r ih =>
    simp only [List.foldl_cons, List.mem_cons]
    rcases ih (min a b) with h | h
    · rw [h]
      by_cases hab : a ≤ b
      · left; exact Nat.min_eq_left hab
      · right; left; exact Nat.min_eq_right (by omega)
    · right; right; exact h

/-- Some lane stands at a frontier. -/
theorem Wave.frontier_some (w : Wave) (pc front : Nat) (h : w.frontier = some (pc, front)) :
    ∃ (n : Nat) (th : Thread), w.thread? n = some th ∧ th.running = true ∧ th.pc = pc ∧ front.testBit n = true := by
  have h0 := h
  simp only [Wave.frontier] at h
  split at h
  · simp at h
  · rename_i p ps hl
    simp only [Option.some.injEq, Prod.mk.injEq] at h
    obtain ⟨h1, h2⟩ := h
    have hmem : pc ∈ p :: ps := by
      rw [← h1]
      rcases foldl_min_mem ps p with h | h
      · rw [h]; simp
      · simp [h]
    rw [← hl] at hmem
    simp only [List.mem_filterMap] at hmem
    obtain ⟨o, ho, hp⟩ := hmem
    obtain ⟨n, hn⟩ := List.getElem?_of_mem ho
    cases o with
    | none => simp at hp
    | some th =>
      have hth : w.thread? n = some th := by simp [Wave.thread?, nth, List.getD_eq_getElem?_getD, hn]
      have hrun : th.running = true := by
        by_cases hr : th.running = true
        · exact hr
        · simp [hr] at hp
      have hpc : th.pc = pc := by simpa [hrun] using hp
      refine ⟨n, th, hth, hrun, hpc, ?_⟩
      rw [← h2, Wave.maskWhere_testBit, hth]
      simp [hrun, hpc, h1]

/-- A wave with a running thread that waits for nothing is active, and so is its task (R258). -/
theorem Wave.active_of_running (w : Wave) (n : Nat) (th : Thread) (h : w.thread? n = some th) (hr : th.running = true)
    (hw : w.wait = .none) : w.active = true := by
  simp only [Wave.active, hw, Wait.switched, Bool.false_eq_true, if_false, bne_iff_ne]
  apply w.maskWhere_ne _ n th h
  simp only [Thread.running, Bool.and_eq_true, beq_iff_eq, Bool.not_eq_true'] at hr
  rw [hr.1]; simp [hr.2]

theorem Wave.blocked_of_running (w : Wave) (n : Nat) (th : Thread) (h : w.thread? n = some th) (hr : th.running = true) :
    w.blocked = false := by
  simp only [Wave.blocked, Wave.ready, beq_eq_false_iff_ne]
  exact w.maskWhere_ne _ n th h hr

theorem State.settle_active (s : State) (r : WaveRef) (w : Wave) (h : s.wave? r = some w) (ha : w.active = true) :
    s.settle r.tid = s := by
  simp only [State.wave?, State.share?] at h
  cases ht : s.task? r.tid with
  | none => rw [ht] at h; simp at h
  | some t =>
    rw [ht] at h
    simp only [Option.bind_some] at h
    cases hh : t.share? r.core with
    | none => rw [hh] at h; simp at h
    | some sh =>
      rw [hh] at h
      simp only [Option.bind_some] at h
      have h1 : sh ∈ t.shares := List.mem_of_find?_eq_some hh
      have h2 : w ∈ sh.waves := List.mem_of_find?_eq_some h
      have hact : t.active = true := by
        simp only [Task.active, List.any_eq_true]
        exact ⟨sh, h1, w, h2, ha⟩
      simp [State.settle, ht, hact]

/-! ### What only touches a wave -/

theorem WaveOnly.refl (s : State) (r : WaveRef) : WaveOnly s s r :=
  ⟨rfl, fun _ _ => rfl, fun _ _ => rfl, rfl, fun _ _ => rfl, rfl, fun _ _ => rfl⟩

theorem WaveOnly.trans {s t u : State} {r : WaveRef} (h1 : WaveOnly s t r) (h2 : WaveOnly t u r) : WaveOnly s u r := by
  obtain ⟨a1, b1, c1, d1, e1, f1, g1⟩ := h1
  obtain ⟨a2, b2, c2, d2, e2, f2, g2⟩ := h2
  refine ⟨?_, fun x y => (b2 x y).trans (b1 x y), fun n hn => (c2 n hn).trans (c1 n hn), d2.trans d1,
    fun c hc => (e2 c hc).trans (e1 c hc), f2.trans f1, fun q hq => (g2 q hq).trans (g1 q hq)⟩
  rw [a2, a1]

theorem State.modWave_only (s : State) (r : WaveRef) (f : Wave → Wave) (hf : ∀ w, (f w).wix = w.wix) : WaveOnly s (s.modWave r f) r := by
  refine ⟨rfl, fun _ _ => rfl, fun n hn => ?_, ?_, fun c hc => ?_, ?_, fun q hq => s.wave_modWave_ne r q f hf hq⟩
  · rw [State.modWave, State.modShare, State.task_modTask_ne _ _ _ _ (by intro t; rfl) hn]
  · rw [State.modWave, State.modShare, State.task_modTask _ _ _ (by intro t; rfl), Option.map_map]; rfl
  · rw [State.modWave, State.share_modShare_ne _ _ _ _ _ _ (by intro h; rfl) (Or.inr hc)]
  · rw [State.modWave, State.share_modShare _ _ _ _ (by intro h; rfl)]
    cases s.share? r.tid r.core <;> rfl

/-- A change of the tasks' slots of cores, or of nothing that WaveOnly looks at. -/
theorem State.modSlots_only (s : State) (r : WaveRef) (x y : Nat) (f : List Slot → List Slot) :
    WaveOnly s (s.modCore x y fun c => { c with slots := f c.slots }) r := by
  have ht := State.modCore_tasks s x y fun c => { c with slots := f c.slots }
  refine ⟨?_, ?_, fun n _ => State.task_congr ht n, by rw [State.task_congr ht], fun c _ => State.share_congr ht _ c,
    by rw [State.share_congr ht], fun q _ => State.wave_congr ht q⟩
  · unfold State.modCore; split <;> rfl
  · intro u v
    by_cases h : u = x ∧ v = y
    · obtain ⟨rfl, rfl⟩ := h
      rw [State.core_modCore _ _ _ _ (by intro c; exact ⟨rfl, rfl⟩)]
    · rw [State.core_modCore_ne _ _ _ _ _ _ (by intro c; exact ⟨rfl, rfl⟩) (by omega)]

theorem State.openSlot_only (s : State) (r : WaveRef) : WaveOnly s (s.openSlot r) r := by
  unfold State.openSlot
  split
  · split
    · exact WaveOnly.refl _ _
    · exact State.modSlots_only _ _ _ _ fun l => l.modify _ _
  · exact WaveOnly.refl _ _

/-! ### The checks of an issue that passes -/

theorem State.raiseAll_zero (s : State) (r : WaveRef) (f : Flt) : s.raiseAll r 0 f = s := by
  unfold State.raiseAll
  split
  · have : lanesOf 0 = [] := by decide
    simp [Wave.byTix, this, sortBy]
  · rfl

theorem without_zero (a : Nat) : without a 0 = a := by simp [without]

/-- The wave as the body of an instruction sees it. -/
def Wave.issued (w : Wave) : Wave := { w with wait := .none }

/-- What an issue comes to where the checks of R48 pass. -/
theorem issue_ready (i : Instr) (body : Iss → State → Done) (s : State) (r : WaveRef) (t : Task) (w : Wave) (pc front : Nat)
    (h : ready s r i t w pc front = true) : ∃ info, i.lane? = some info ∧
      issue i body s = .next (finish ⟨r, i, info, pc, front, i.takes w front⟩ i.isSwitch
        (body ⟨r, i, info, pc, front, i.takes w front⟩ (s.modWave r Wave.issued))) ∧
      (s.modWave r Wave.issued).wave? r = some w.issued := by
  simp only [ready, Bool.and_eq_true, beq_iff_eq, Bool.not_eq_true'] at h
  obtain ⟨⟨⟨⟨⟨⟨⟨⟨h1, h2⟩, h3⟩, h4⟩, h5⟩, h6⟩, h7⟩, h8⟩, h9⟩ := h
  obtain ⟨info, hi⟩ := Option.isSome_iff_exists.1 h5
  refine ⟨info, hi, ?_, ?_⟩
  · have hhit : (info.uses.any fun u => (Use.regs u).any (w.isPending front)) = false := by
      simpa [Instr.names, hi, List.any_flatMap] using h8
    have htake : i.takes w front = without front (if info.g then w.maskWhere fun th => !th.rp 0 else 0) := by
      simp [Instr.takes, hi]
    have hbad : (lanesOf (i.takes w front)).filter (fun ln => match w.thread? ln with
        | some th => !latchesOk w ln th info.uses
        | none => false) = [] := by
      rw [List.filter_eq_nil_iff]
      intro ln hln
      simp only [Instr.latched, hi, List.all_eq_true] at h9
      have := h9 ln hln
      cases hth : w.thread? ln with
      | none => simp
      | some th => rw [hth] at this; simpa using this
    unfold issue
    simp only [h1, hi, h2, h3, h4, h6, h7, Bool.not_true, Bool.false_eq_true, if_false, hhit, Bool.false_and]
    have hb : ∀ (l : List Nat), l = [] → maskOf l = 0 := by intro l hl; rw [hl]; rfl
    rw [← htake]
    rw [hb]
    rotate_left
    · exact hbad
    simp only [State.raiseAll_zero, without_zero, Instr.isSwitch, hi, hhit, Bool.or_false, Bool.false_and, Bool.false_eq_true,
      if_false]
    rfl
  · rw [State.wave_modWave _ _ _ (by intro w; rfl), h3]
    rfl

/-! ### The end of an instruction -/

theorem Code.enterRegion_eq (c : Code) (th : Thread) : ∃ e, c.enterRegion th = { th with entry := e } := by
  unfold Code.enterRegion
  split
  · split
    · split
      · exact ⟨th.entry, rfl⟩
      · exact ⟨_, rfl⟩
    · exact ⟨_, rfl⟩
  · exact ⟨none, rfl⟩

theorem Wave.still_testBit (w : Wave) (m n : Nat) : (w.still m).testBit n =
    (decide (n < 32) && m.testBit n && match w.thread? n with | some th => th.park == .runs | none => false) := by
  simp only [Wave.still, maskOf_testBit]
  rw [Bool.eq_iff_iff]
  simp only [List.contains_iff_mem, List.mem_filter, lanesOf_mem, Bool.and_eq_true, decide_eq_true_eq]
  all_goals rfl

theorem Wave.completed_base (c : Code) (adv pc : Nat) (sw : Bool) (w : Wave) :
    (w.completed c adv pc true sw).base = w.base := by
  cases sw <;> rfl

theorem Wave.completed_wix (c : Code) (adv pc : Nat) (co sw : Bool) (w : Wave) :
    (w.completed c adv pc co sw).wix = w.wix := by
  cases co <;> cases sw <;> rfl

theorem Wave.completed_wait (c : Code) (adv pc : Nat) (co sw : Bool) (w : Wave) :
    (w.completed c adv pc co sw).wait = w.wait := by
  cases co <;> cases sw <;> rfl

theorem Wave.advanced_thread (c : Code) (adv pc : Nat) (w : Wave) (n : Nat) (th : Thread) (h : w.thread? n = some th) :
    ∃ th', ((w.modLanes (w.still adv) fun _ th => { th with pc, replays := 0 }).modLanes 0xFFFFFFFF fun _ th => c.enterRegion th).thread? n =
        some th' ∧ th'.base = th.base ∧ th'.latch = th.latch ∧
      (n < 32 → th'.pc = if adv.testBit n = true ∧ th.park = .runs then pc else th.pc) := by
  have hs := w.still_testBit adv n
  rw [h] at hs
  rw [Wave.thread_modLanes, Wave.thread_modLanes, h]
  by_cases hb : (w.still adv).testBit n = true
  · have h2 : n < 32 ∧ adv.testBit n = true ∧ th.park = .runs := by
      rw [hb] at hs
      have h2 := hs.symm
      simp only [Bool.and_eq_true, beq_iff_eq, decide_eq_true_eq] at h2
      exact ⟨h2.1.1, h2.1.2, h2.2⟩
    obtain ⟨e, he⟩ := Code.enterRegion_eq c { th with pc, replays := 0 }
    simp only [hb, if_true, Option.map_some, all32_testBit n h2.1, he, Option.some.injEq, exists_eq_left']
    exact ⟨rfl, trivial, fun _ => by simp [h2.2]⟩
  · simp only [hb, if_false, Bool.false_eq_true]
    have h3 : n < 32 → ¬ (adv.testBit n = true ∧ th.park = .runs) := by
      rintro h1 ⟨h3, h4⟩
      apply hb
      simp [hs, h1, h3, h4]
    obtain ⟨e, he⟩ := Code.enterRegion_eq c th
    by_cases hm : (0xFFFFFFFF : Nat).testBit n = true
    · simp only [hm, if_true, Option.map_some, he, Option.some.injEq, exists_eq_left']
      exact ⟨rfl, trivial, fun h1 => by rw [if_neg (h3 h1)]⟩
    · simp only [hm, if_false, Bool.false_eq_true, Option.some.injEq, exists_eq_left']
      exact ⟨trivial, trivial, fun h1 => by rw [if_neg (h3 h1)]⟩

theorem Wave.completed_thread (c : Code) (adv pc : Nat) (sw : Bool) (w : Wave) (n : Nat) (th : Thread) (h : w.thread? n = some th) :
    ∃ th', (w.completed c adv pc true sw).thread? n = some th' ∧ th'.base = th.base ∧
      (n < 32 → th'.latch = latchesAfter sw th.latch ∧
        th'.pc = if adv.testBit n = true ∧ th.park = .runs then pc else th.pc) := by
  obtain ⟨th1, h1, h2, h3, h4⟩ := w.advanced_thread c adv pc n th h
  cases sw with
  | false => exact ⟨th1, h1, h2, fun hn => ⟨h3, h4 hn⟩⟩
  | true =>
    simp only [Wave.completed, if_true, Bool.and_self]
    rw [Wave.thread_modLanes]
    have h1' : Wave.thread? { ((w.modLanes (w.still adv) fun _ th => { th with pc, replays := 0 }).modLanes 0xFFFFFFFF fun _ th =>
        c.enterRegion th) with pass := false } n = some th1 := h1
    rw [h1']
    by_cases hm : (0xFFFFFFFF : Nat).testBit n = true
    · simp only [hm, if_true, Option.map_some, Option.some.injEq, exists_eq_left']
      exact ⟨h2, fun hn => ⟨rfl, h4 hn⟩⟩
    · simp only [hm, if_false, Bool.false_eq_true, Option.some.injEq, exists_eq_left']
      exact ⟨h2, fun hn => absurd (all32_testBit n hn) hm⟩

theorem Thread.base_running {a b : Thread} (h : a.base = b.base) : a.running = b.running ∧ a.park = b.park ∧ a.atBar = b.atBar ∧ a.tix = b.tix := by
  have h1 : a.base.park = b.base.park := by rw [h]
  have h2 : a.base.atBar = b.base.atBar := by rw [h]
  have h3 : a.base.tix = b.base.tix := by rw [h]
  refine ⟨?_, h1, h2, h3⟩
  have h1' : a.park = b.park := h1
  have h2' : a.atBar = b.atBar := h2
  simp [Thread.running, h1', h2']

/-- Where the wave goes on, only the slot can change after an instruction that completes. -/
theorem afterIssue_going (iss : Iss) (sw : Bool) (s : State) (w : Wave) (hsw : switches iss.i = (false, false))
    (hw : s.wave? iss.r = some w) (hb : w.blocked = false) (hwait : w.wait = .none) (ha : w.active = true) :
    afterIssue iss sw true s = if sw then s.openSlot iss.r else s := by
  have hh : s.held iss.r = false := by simp [State.held, hw, hb, hwait, Wait.switched]
  have h2 : (if sw then s.openSlot iss.r else s).wave? iss.r = some w := by
    split
    · rw [State.wave_congr (State.openSlot_tasks s iss.r), hw]
    · exact hw
  unfold afterIssue
  simp only [hh, hsw, Bool.or_self, Bool.and_false, Bool.false_eq_true, if_false, Bool.true_and, Bool.false_and]
  exact State.settle_active _ iss.r w h2 ha

/-- The end of an instruction that completes while some thread of its wave still runs. -/
theorem finish_complete (iss : Iss) (sw : Bool) (d : Done) (w : Wave) (hc : d.complete = true) (hw : d.s.wave? iss.r = some w)
    (hwait : w.wait = .none) (hsw : switches iss.i = (false, false)) (n : Nat) (th : Thread) (hth : w.thread? n = some th)
    (hrun : th.running = true) : ∃ c, (finish iss sw d).wave? iss.r = some (w.completed c d.adv (iss.pc + iss.info.len) true sw) ∧
      WaveOnly d.s (finish iss sw d) iss.r := by
  have h3 := State.wave_modWave d.s iss.r
    (fun w => w.completed (d.s.codeOf iss.r.tid) d.adv (iss.pc + iss.info.len) true sw) (fun w => Wave.completed_wix _ _ _ _ _ w)
  rw [hw] at h3
  obtain ⟨th', ht1, ht2, -⟩ := w.completed_thread (d.s.codeOf iss.r.tid) d.adv (iss.pc + iss.info.len) sw n th hth
  have hrun' : th'.running = true := by rw [(Thread.base_running ht2).1, hrun]
  have hwait' : (w.completed (d.s.codeOf iss.r.tid) d.adv (iss.pc + iss.info.len) true sw).wait = .none := by
    rw [Wave.completed_wait, hwait]
  have hfin := afterIssue_going iss sw _ _ hsw h3 (Wave.blocked_of_running _ n th' ht1 hrun') hwait'
    (Wave.active_of_running _ n th' ht1 hrun' hwait')
  refine ⟨d.s.codeOf iss.r.tid, ?_, ?_⟩ <;> unfold finish <;> rw [hc, hfin]
  · split
    · rw [State.wave_congr (State.openSlot_tasks _ iss.r), h3]; rfl
    · exact h3
  · refine (State.modWave_only d.s iss.r (fun w => w.completed (d.s.codeOf iss.r.tid) d.adv (iss.pc + iss.info.len) true sw)
      (fun w => Wave.completed_wix _ _ _ _ _ w)).trans ?_
    split
    · exact State.openSlot_only _ _
    · exact WaveOnly.refl _ _

/-! ### Instructions of single threads -/

/-- EVERYTHING THAT AN INSTRUCTION OF SINGLE THREADS CAN DO where its wave stands ready: each executing thread changes by
f, and nothing else changes but PCs, latches at a switch point, and the slot. -/
theorem perThread_ran (i : Instr) (f : Wave → Nat → Thread → Thread)
    (hf : ∀ w ln th, (f w ln th).park = th.park ∧ (f w ln th).atBar = th.atBar) (hsw : switches i = (false, false))
    (s : State) (r : WaveRef) (t : Task) (w : Wave) (pc front : Nat) (h : ready s r i t w pc front = true) :
    ∃ t', perThread i f s = .next t' ∧ Ran s t' r w i front fun ln th th' =>
      th'.base = (f w.issued ln th).base ∧ th'.latch = latchesAfter i.isSwitch (f w.issued ln th).latch := by
  obtain ⟨info, hi, hiss, hw1⟩ := issue_ready i (fun iss s => iss.done (iss.map s f)) s r t w pc front h
  have hfr : w.frontier = some (pc, front) := by
    simp only [ready, Bool.and_eq_true, beq_iff_eq] at h
    exact h.1.1.1.1.1.2
  have hlen : i.len = info.len := by simp [Instr.len, hi]
  have hsub : ∀ n, (i.takes w front).testBit n = true → front.testBit n = true := by
    intro n hn
    simp only [Instr.takes, hi, without_testBit, Bool.and_eq_true] at hn
    exact hn.1
  let iss : Iss := ⟨r, i, info, pc, front, i.takes w front⟩
  let w2 : Wave := w.issued.modLanes (i.takes w front) (f w.issued)
  let s2 := (s.modWave r Wave.issued).modWave r fun w0 => w0.modLanes (i.takes w front) (f w0)
  have hw2 : s2.wave? r = some w2 := by
    show ((s.modWave r Wave.issued).modWave r fun w0 => w0.modLanes (i.takes w front) (f w0)).wave? r = some w2
    rw [State.wave_modWave _ _ _ (by intro w; rfl), hw1]; rfl
  have hth2 : ∀ n th, w.thread? n = some th → w2.thread? n =
      some (if (i.takes w front).testBit n then f w.issued n th else th) := by
    intro n th hn
    show (w.issued.modLanes _ _).thread? n = _
    rw [Wave.thread_modLanes]
    have : w.issued.thread? n = some th := hn
    rw [this]
    split <;> rfl
  obtain ⟨n, th, hn1, hn2, hn3, hn4⟩ := w.frontier_some pc front hfr
  have hrun : (if (i.takes w front).testBit n then f w.issued n th else th).running = true := by
    split
    · have := hf w.issued n th
      simp only [Thread.running, this.1, this.2]
      exact hn2
    · exact hn2
  obtain ⟨c, hc1, hc2⟩ := finish_complete iss i.isSwitch (iss.done s2) w2 rfl hw2 rfl hsw n _ (hth2 n th hn1) hrun
  refine ⟨finish iss i.isSwitch (iss.done s2), hiss, w2.completed c front (pc + info.len) true i.isSwitch, hc1, ?_, ?_, ?_⟩
  · rw [Wave.completed_base]; rfl
  · exact ((State.modWave_only _ _ _ (by intro w; rfl)).trans (State.modWave_only _ _ _ (by intro w; rfl))).trans hc2
  · intro ln th hln hth
    obtain ⟨th', h1, h2, h3⟩ := w2.completed_thread c front (pc + info.len) i.isSwitch ln _ (hth2 ln th hth)
    obtain ⟨h4, h5⟩ := h3 hln
    refine ⟨th', h1, ?_⟩
    have hfl : front.testBit ln = true → th.running = true ∧ th.pc = pc := by
      intro hb
      obtain ⟨th0, ha, hb, hc⟩ := w.frontier_lane pc front ln hfr hb
      rw [hth] at ha
      simp only [Option.some.injEq] at ha
      subst ha
      exact ⟨hb, hc⟩
    have hpark : front.testBit ln = true → th.park = .runs := by
      intro hb
      have := (hfl hb).1
      simp only [Thread.running, Bool.and_eq_true, beq_iff_eq] at this
      exact this.1
    by_cases htk : (i.takes w front).testBit ln = true
    · simp only [htk, if_true] at h2 h4 h5 ⊢
      refine ⟨⟨h2, h4⟩, ?_⟩
      have hfb := hsub ln htk
      rw [h5, if_pos ⟨hfb, by rw [(hf w.issued ln th).1]; exact hpark hfb⟩, (hfl hfb).2, hlen]
    · simp only [htk, if_false, Bool.false_eq_true] at h2 h4 h5 ⊢
      refine ⟨h2, h4, ?_⟩
      by_cases hfb : front.testBit ln = true
      · rw [h5, if_pos ⟨hfb, hpark hfb⟩, if_pos hfb, (hfl hfb).2, hlen]
      · rw [h5, if_neg (fun hh => hfb hh.1), if_neg hfb]

/-! ### Instructions that complete -/

/-- Where the body completes with its wave going on, the whole instruction answers a next state, in which only that wave
and the slots differ from what the body left. -/
theorem issue_completes (i : Instr) (body : Iss → State → Done) (s : State) (r : WaveRef) (t : Task) (w : Wave) (pc front : Nat)
    (h : ready s r i t w pc front = true) (hsw : switches i = (false, false)) (u : State) (w2 : Wave)
    (hb : ∀ info, i.lane? = some info → body ⟨r, i, info, pc, front, i.takes w front⟩ (s.modWave r Wave.issued) =
      Iss.done ⟨r, i, info, pc, front, i.takes w front⟩ u)
    (hw2 : u.wave? r = some w2) (hwait : w2.wait = .none) (n : Nat) (th : Thread) (hth : w2.thread? n = some th)
    (hrun : th.running = true) : ∃ t' c, issue i body s = .next t' ∧
      t'.wave? r = some (w2.completed c front (pc + i.len) true i.isSwitch) ∧ WaveOnly u t' r := by
  obtain ⟨info, hi, hiss, -⟩ := issue_ready i body s r t w pc front h
  rw [hb info hi] at hiss
  have hlen : i.len = info.len := by simp [Instr.len, hi]
  obtain ⟨c, h1, h2⟩ := finish_complete ⟨r, i, info, pc, front, i.takes w front⟩ i.isSwitch
    (Iss.done ⟨r, i, info, pc, front, i.takes w front⟩ u) w2 rfl hw2 hwait hsw n th hth hrun
  exact ⟨_, c, hiss, by rw [h1, hlen]; rfl, h2⟩

/-- From what the end of an instruction does to the lanes of its wave to where they stand. -/
theorem advanced_completed (i : Instr) (w w2 : Wave) (c : Code) (pc front : Nat) (hf : w.frontier = some (pc, front))
    (take : Nat) (hsub : ∀ n, take.testBit n = true → front.testBit n = true) (eff : Nat → Thread → Thread → Prop)
    (h : ∀ ln th, ln < 32 → w.thread? ln = some th → ∃ th2, w2.thread? ln = some th2 ∧
      (if take.testBit ln then th2.park = .runs ∧ ∀ th', th'.base = th2.base → th'.latch = latchesAfter i.isSwitch th2.latch →
        eff ln th th' else th2 = th)) :
    Advanced w (w2.completed c front (pc + i.len) true i.isSwitch) i front take eff := by
  intro ln th hln hth
  obtain ⟨th2, h1, h2⟩ := h ln th hln hth
  obtain ⟨th', h3, h4, h5⟩ := w2.completed_thread c front (pc + i.len) i.isSwitch ln th2 h1
  obtain ⟨h6, h7⟩ := h5 hln
  refine ⟨th', h3, ?_⟩
  have hfl : front.testBit ln = true → th.park = .runs ∧ th.pc = pc := by
    intro hb
    obtain ⟨th0, ha, hb, hc⟩ := w.frontier_lane pc front ln hf hb
    rw [hth] at ha
    simp only [Option.some.injEq] at ha
    subst ha
    simp only [Thread.running, Bool.and_eq_true, beq_iff_eq] at hb
    exact ⟨hb.1, hc⟩
  by_cases htk : take.testBit ln = true
  · simp only [htk, if_true] at h2 ⊢
    have hfb := hsub ln htk
    exact ⟨h2.2 th' h4 h6, by rw [h7, if_pos ⟨hfb, h2.1⟩, (hfl hfb).2]⟩
  · simp only [htk, if_false, Bool.false_eq_true] at h2 ⊢
    subst h2
    refine ⟨h4, h6, ?_⟩
    by_cases hfb : front.testBit ln = true
    · rw [h7, if_pos ⟨hfb, (hfl hfb).1⟩, if_pos hfb, (hfl hfb).2]
    · rw [h7, if_neg (fun hh => hfb hh.1), if_neg hfb]

/-- Only lanes at the frontier execute. -/
theorem takes_front (i : Instr) (w : Wave) (front n : Nat) (h : (i.takes w front).testBit n = true) : front.testBit n = true := by
  unfold Instr.takes at h
  split at h
  · rw [without_testBit] at h
    simp only [Bool.and_eq_true] at h
    exact h.1
  · simp at h

theorem ready_frontier {s : State} {r : WaveRef} {i : Instr} {t : Task} {w : Wave} {pc front : Nat}
    (h : ready s r i t w pc front = true) : w.frontier = some (pc, front) ∧ s.wave? r = some w ∧ s.task? r.tid = some t := by
  simp only [ready, Bool.and_eq_true, beq_iff_eq] at h
  exact ⟨h.1.1.1.1.1.2, h.1.1.1.1.1.1.2, h.1.1.1.1.1.1.1.2⟩

end Sys2Proof.Machine
end

