-- ==== Sys2Proof/Laws/Results.lean ====
section
/-! SUPPORT. From what a result does to a thread to what its instruction does: the lemmas between the shared issue and
the statements about results. -/

namespace Sys2Proof.Machine

open Host

/-! ### Reading operands -/

@[simp] theorem readOp_issued (w : Wave) (ln : Nat) (th : Thread) (n : Nat) (o : Opnd) : readOp w.issued ln th n o = readOp w ln th n o := by
  cases o <;> rfl

@[simp] theorem src_issued (w : Wave) (ln : Nat) (th : Thread) (n : Nat) (o : Opnd) : src w.issued ln th n o = src w ln th n o := by
  simp [src]

@[simp] theorem src32_issued (w : Wave) (ln : Nat) (th : Thread) (o : Opnd) : src32 w.issued ln th o = src32 w ln th o := by
  simp [src32]

@[simp] theorem src64_issued (w : Wave) (ln : Nat) (th : Thread) (o : Opnd) : src64 w.issued ln th o = src64 w ln th o := by
  simp [src64]

@[simp] theorem rs_issued (w : Wave) (n : Nat) : w.issued.rs n = w.rs n := rfl
@[simp] theorem rfmt_issued (w : Wave) (n : Nat) : w.issued.rfmt n = w.rfmt n := rfl

/-! ### Writing a register -/

theorem Thread.rv_setV (th : Thread) (n k : Nat) (x : Word) : (th.setV n x).rv k = if k = n then x else th.rv k := by
  simp only [Thread.rv, Thread.setV]
  rw [nth_putAt]

theorem Thread.rp_setP (th : Thread) (n k : Nat) (x : Bool) : (th.setP n x).rp k = if k = n then x else th.rp k := by
  simp only [Thread.rp, Thread.setP]
  rw [nth_putAt]

theorem Thread.ra_setA (th : Thread) (n k : Nat) (x : Addr) : (th.setA n x).ra k = if k = n then x else th.ra k := by
  simp only [Thread.ra, Thread.setA]
  rw [nth_putAt]

theorem Thread.rv_setVs (th : Thread) (n k : Nat) (ws : List Word) : (th.setVs n ws).rv k =
    (((ws.zipIdx.map fun p => (n + p.2, p.1)).find? (·.1 == k)).map (·.2)).getD (th.rv k) := by
  suffices h : ∀ (ws : List Word) (th : Thread) (n : Nat), (th.setVs n ws).rv k =
      if k < n then th.rv k else ((ws[k - n]?).getD (th.rv k)) by
    rw [h]
    have h2 : ∀ (ws : List Word) (i : Nat), (((ws.zipIdx i).map fun p => (n + p.2, p.1)).find? (·.1 == k)).map (·.2) =
        if k < n + i then none else ws[k - (n + i)]? := by
      intro ws
      induction ws with
      | nil => intro i; simp
      | cons x r ih =>
        intro i
        simp only [List.zipIdx_cons, List.map_cons, List.find?_cons]
        by_cases h1 : n + i = k
        · subst h1; simp
        · have h3 : (n + i == k) = false := by simp [h1]
          simp only [h3]
          rw [ih]
          by_cases h4 : k < n + i
          · rw [if_pos (by omega), if_pos h4]
          · rw [if_neg (by omega), if_neg h4]
            have : k - (n + i) = k - (n + (i + 1)) + 1 := by omega
            rw [this]
            simp
    rw [h2 ws 0, Nat.add_zero]
    split <;> simp
  intro ws
  induction ws with
  | nil => intro th n; simp [Thread.setVs]
  | cons x r ih =>
    intro th n
    simp only [Thread.setVs]
    rw [ih, Thread.rv_setV]
    by_cases h : k = n
    · subst h; simp
    · simp only [h, if_false]
      by_cases h2 : k < n
      · rw [if_pos (by omega), if_pos h2]
      · rw [if_neg (by omega), if_neg h2]
        have : k - n = k - (n + 1) + 1 := by omega
        rw [this]
        simp

theorem Thread.setV_rest (th : Thread) (n : Nat) (x : Word) : { th.setV n x with v := [] } = { th with v := [] } := rfl

theorem Thread.setVs_rest (th : Thread) (n : Nat) (ws : List Word) : { th.setVs n ws with v := [] } = { th with v := [] } := by
  induction ws generalizing th n with
  | nil => rfl
  | cons x r ih => simp only [Thread.setVs]; rw [ih, Thread.setV_rest]

/-- A register write changes only the registers of a thread. -/
theorem Thread.setVs_fields (th : Thread) (n : Nat) (ws : List Word) : ∃ v, th.setVs n ws = { th with v } := by
  induction ws generalizing th n with
  | nil => exact ⟨th.v, rfl⟩
  | cons x r ih =>
    obtain ⟨v, hv⟩ := ih (th.setV n x) (n + 1)
    exact ⟨v, by rw [Thread.setVs, hv]; rfl⟩

/-! ### Results -/

/-- What writing the registers of a destination does. -/
theorem Thread.rv_dst (th : Thread) (d : Opnd) (nw : Bool) (ws : List Word) (k : Nat) :
    (match d with | .v n => if nw then th else th.setVs n ws | _ => th).rv k =
      (((dstRegs d nw ws).find? (·.1 == k)).map (·.2)).getD (th.rv k) := by
  cases d with
  | v n =>
    cases nw with
    | true => simp [dstRegs]
    | false => simp only [dstRegs, Bool.false_eq_true, if_false]; exact th.rv_setVs n k ws
  | _ => simp [dstRegs]

/-- The thread after a result has reached its destination. -/
def Thread.toDst (th : Thread) (d : Opnd) (nw : Bool) (ws : List Word) : Thread :=
  match d with | .v n => if nw then th else th.setVs n ws | _ => th

theorem Thread.toDst_fields (th : Thread) (d : Opnd) (nw : Bool) (ws : List Word) : ∃ v, th.toDst d nw ws = { th with v } := by
  unfold Thread.toDst
  split
  · split
    · exact ⟨th.v, rfl⟩
    · exact th.setVs_fields _ _
  · exact ⟨th.v, rfl⟩

theorem Thread.put32_toDst (th : Thread) (d : Opnd) (nw : Bool) (x : Word) :
    th.put32 d nw x = (th.toDst d nw [x]).enter false (x.setWidth 64) := by
  cases d <;> rfl

theorem Thread.put64_toDst (th : Thread) (d : Opnd) (nw : Bool) (x : DWord) :
    th.put64 d nw x = (th.toDst d nw (words 2 x.toNat)).enter true x := by
  cases d <;> rfl

/-- A thread that holds what a result makes of it has been written as the result says. -/
theorem Thread.wrote_of (th th' : Thread) (sw : Bool) (d : Opnd) (nw : Bool) (ws : List Word) (wide : Bool) (x : DWord)
    (fl : Flags) (hb : th'.base = (((th.toDst d nw ws).enter wide x).flag fl).base)
    (hl : th'.latch = latchesAfter sw (((th.toDst d nw ws).enter wide x).flag fl).latch) :
    th.Wrote th' sw (dstRegs d nw ws) (some ⟨x, wide⟩) fl := by
  obtain ⟨v, hv⟩ := th.toDst_fields d nw ws
  refine ⟨fun n => ?_, ?_, ?_, ?_⟩
  · have h1 : th'.rv n = th'.base.rv n := rfl
    rw [h1, hb, ← th.rv_dst d nw ws n]
    rfl
  · rw [hl, hv]; rfl
  · have h1 : th'.flags = th'.base.flags := rfl
    rw [h1, hb, hv]; rfl
  · rw [hb, hv]; rfl

theorem Thread.flag_zero (th : Thread) : th.flag 0 = th := by
  cases th; simp [Thread.flag]

/-- An instruction of single threads runs wherever its wave stands ready. -/
theorem runs_perThread (i : Instr) (f : Wave → Nat → Thread → Thread) (he : ∀ s, exec i s = perThread i f s)
    (hf : ∀ w ln th, (f w ln th).park = th.park ∧ (f w ln th).atBar = th.atBar) (hsw : switches i = (false, false))
    (eff : Wave → Nat → Thread → Thread → Prop)
    (h : ∀ w ln th th', th'.base = (f w.issued ln th).base → th'.latch = latchesAfter i.isSwitch (f w.issued ln th).latch →
      eff w ln th th') : Runs i eff := by
  intro s r t w pc front hr
  obtain ⟨t', h1, w', h2, h3, h4, h5⟩ := perThread_ran i f hf hsw s r t w pc front hr
  refine ⟨t', by rw [he, h1], w', h2, h3, h4, fun ln th hln hth => ?_⟩
  obtain ⟨th', h6, h7⟩ := h5 ln th hln hth
  refine ⟨th', h6, ?_⟩
  split at h7
  · rename_i hc
    rw [if_pos hc]
    exact ⟨h w ln th th' h7.1.1 h7.1.2, h7.2⟩
  · rename_i hc
    rw [if_neg hc]
    exact h7

/-- A 32-bit result with flags. -/
theorem gives32_of (i : Instr) (d : Opnd) (nw : Bool) (val : Wave → Nat → Thread → Word) (fl : Wave → Nat → Thread → Flags)
    (f : Wave → Nat → Thread → Thread) (he : ∀ s, exec i s = perThread i f s) (hsw : switches i = (false, false))
    (hf : ∀ w ln th, f w.issued ln th = (th.put32 d nw (val w ln th)).flag (fl w ln th))
    (hp : ∀ w ln th, (f w ln th).park = th.park ∧ (f w ln th).atBar = th.atBar) : Gives32 i d nw val fl := by
  apply runs_perThread i f he hp hsw
  intro w ln th th' hb hl
  rw [hf, Thread.put32_toDst] at hb hl
  exact th.wrote_of th' _ d nw _ false _ _ hb hl

theorem Thread.put32_park (th : Thread) (d : Opnd) (nw : Bool) (x : Word) (fl : Flags) :
    ((th.put32 d nw x).flag fl).park = th.park ∧ ((th.put32 d nw x).flag fl).atBar = th.atBar := by
  rw [Thread.put32_toDst]
  obtain ⟨v, hv⟩ := th.toDst_fields d nw [x]
  rw [hv]
  exact ⟨rfl, rfl⟩

theorem Thread.put64_park (th : Thread) (d : Opnd) (nw : Bool) (x : DWord) (fl : Flags) :
    ((th.put64 d nw x).flag fl).park = th.park ∧ ((th.put64 d nw x).flag fl).atBar = th.atBar := by
  rw [Thread.put64_toDst]
  obtain ⟨v, hv⟩ := th.toDst_fields d nw (words 2 x.toNat)
  rw [hv]
  exact ⟨rfl, rfl⟩

end Sys2Proof.Machine
end

