-- ==== Sys2Proof/Laws/Leaves.lean ====
section
/-! SUPPORT. Following a state part by part: how each operation changes what is expected of it, and from there to what an
instruction leaves. -/

namespace Sys2Proof.Machine

open Host

/-- A state that is as expected, the wave with its lanes included. -/
structure At (s u : State) (r : WaveRef) (e : Expect) : Prop where
  rest : { u with tasks := [], cores := [] } = { e.rest with tasks := [], cores := [] }
  core : ∀ x y, { u.core x y with slots := [] } = { e.core x y with slots := [] }
  tasks : ∀ n, n ≠ r.tid → u.task? n = s.task? n
  task : (u.task? r.tid).map (fun k => { k with shares := [] }) = some { e.task with shares := [] }
  shares : ∀ c, c ≠ r.core → u.share? r.tid c = s.share? r.tid c
  share : (u.share? r.tid r.core).map (fun h => { h with waves := [] }) = some { e.share with waves := [] }
  waves : ∀ q, q ≠ r → u.wave? q = s.wave? q
  wave : u.wave? r = some e.wave

theorem At.refl (s : State) (r : WaveRef) (k : Task) (h : Share) (w : Wave) (hk : s.task? r.tid = some k)
    (hh : s.share? r.tid r.core = some h) (hw : s.wave? r = some w) : At s s r (Expect.same s k h w) :=
  ⟨rfl, fun _ _ => rfl, fun _ _ => rfl, by rw [hk]; rfl, fun _ _ => rfl, by rw [hh]; rfl, fun _ _ => rfl, hw⟩

theorem At.modWave {s u : State} {r : WaveRef} {e : Expect} (h : At s u r e) (f : Wave → Wave) (hf : ∀ w, (f w).wix = w.wix) :
    At s (u.modWave r f) r { e with wave := f e.wave } := by
  have h1 := State.modWave_only u r f hf
  refine ⟨?_, h.core, fun n hn => ?_, ?_, fun c hc => ?_, ?_, fun q hq => ?_, ?_⟩
  · exact h.rest
  · rw [State.modWave, State.modShare, State.task_modTask_ne _ _ _ _ (by intro t; rfl) hn, h.tasks n hn]
  · rw [State.modWave, State.modShare, State.task_modTask _ _ _ (by intro t; rfl), Option.map_map]
    exact h.task
  · rw [State.modWave, State.share_modShare_ne _ _ _ _ _ _ (by intro h; rfl) (Or.inr hc), h.shares c hc]
  · rw [h1.2.2.2.2.2.1, h.share]
  · rw [State.wave_modWave_ne _ _ _ _ hf hq, h.waves q hq]
  · rw [State.wave_modWave _ _ _ hf, h.wave]; rfl

theorem At.modTask {s u : State} {r : WaveRef} {e : Expect} (h : At s u r e) (f : Task → Task) (hf : ∀ k, (f k).tid = k.tid)
    (hs : ∀ k sh, f { k with shares := sh } = { f k with shares := sh }) : At s (u.modTask r.tid f) r { e with task := f e.task } := by
  have hsh : ∀ k, (f k).shares = k.shares := by
    intro k
    have := congrArg Task.shares (hs k k.shares)
    exact this
  have hshare : ∀ n c, (u.modTask r.tid f).share? n c = u.share? n c := by
    intro n c
    simp only [State.share?]
    by_cases hn : n = r.tid
    · subst hn
      rw [State.task_modTask _ _ _ hf]
      cases u.task? r.tid with
      | none => rfl
      | some k => simp [Task.share?, hsh]
    · rw [State.task_modTask_ne _ _ _ _ hf hn]
  have hwave : ∀ q, (u.modTask r.tid f).wave? q = u.wave? q := by
    intro q; simp only [State.wave?, hshare]
  refine ⟨h.rest, h.core, fun n hn => ?_, ?_, fun c hc => ?_, ?_, fun q hq => ?_, ?_⟩
  · rw [State.task_modTask_ne _ _ _ _ hf hn, h.tasks n hn]
  · rw [State.task_modTask _ _ _ hf]
    have := h.task
    cases hk : u.task? r.tid with
    | none => rw [hk] at this; simp at this
    | some k =>
      rw [hk] at this
      simp only [Option.map_some, Option.some.injEq] at this ⊢
      rw [← hs, this, hs]
  · rw [hshare, h.shares c hc]
  · rw [hshare, h.share]
  · rw [hwave, h.waves q hq]
  · rw [hwave, h.wave]

theorem At.modShare {s u : State} {r : WaveRef} {e : Expect} (h : At s u r e) (f : Share → Share) (hf : ∀ k, (f k).c = k.c)
    (hs : ∀ k ws, f { k with waves := ws } = { f k with waves := ws }) :
    At s (u.modShare r.tid r.core f) r { e with share := f e.share } := by
  have hw : ∀ k, (f k).waves = k.waves := by
    intro k
    have := congrArg Share.waves (hs k k.waves)
    exact this
  refine ⟨h.rest, h.core, fun n hn => ?_, ?_, fun c hc => ?_, ?_, fun q hq => ?_, ?_⟩
  · rw [State.modShare, State.task_modTask_ne _ _ _ _ (by intro t; rfl) hn, h.tasks n hn]
  · rw [State.modShare, State.task_modTask _ _ _ (by intro t; rfl), Option.map_map]
    exact h.task
  · rw [State.share_modShare_ne _ _ _ _ _ _ hf (Or.inr hc), h.shares c hc]
  · rw [State.share_modShare _ _ _ _ hf]
    have := h.share
    cases hk : u.share? r.tid r.core with
    | none => rw [hk] at this; simp at this
    | some k =>
      rw [hk] at this
      simp only [Option.map_some, Option.some.injEq] at this ⊢
      rw [← hs, this, hs]
  · have : (u.modShare r.tid r.core f).wave? q = u.wave? q := by
      simp only [State.wave?]
      by_cases hq2 : q.tid = r.tid ∧ q.core = r.core
      · rw [hq2.1, hq2.2, State.share_modShare _ _ _ _ hf]
        cases u.share? r.tid r.core with
        | none => rfl
        | some k => simp [Share.wave?, hw]
      · rw [State.share_modShare_ne _ _ _ _ _ _ hf (by
          by_cases h1 : q.tid = r.tid
          · right; intro h2; exact hq2 ⟨h1, h2⟩
          · left; exact h1)]
    rw [this, h.waves q hq]
  · have : (u.modShare r.tid r.core f).wave? r = u.wave? r := by
      simp only [State.wave?]
      rw [State.share_modShare _ _ _ _ hf]
      cases u.share? r.tid r.core with
      | none => rfl
      | some k => simp [Share.wave?, hw]
    rw [this, h.wave]

/-- A change of the state outside tasks and cores. -/
theorem At.outside {s u : State} {r : WaveRef} {e : Expect} (h : At s u r e) (u' rest' : State) (ht : u'.tasks = u.tasks)
    (hc : u'.cores = u.cores) (hr : { u' with tasks := [], cores := [] } = { rest' with tasks := [], cores := [] }) :
    At s u' r { e with rest := rest' } := by
  refine ⟨hr, fun x y => ?_, fun n hn => ?_, ?_, fun c hc => ?_, ?_, fun q hq => ?_, ?_⟩
  · have : u'.core x y = u.core x y := by simp [State.core, hc]
    rw [this, h.core]
  · rw [State.task_congr ht, h.tasks n hn]
  · rw [State.task_congr ht]; exact h.task
  · rw [State.share_congr ht, h.shares c hc]
  · rw [State.share_congr ht]; exact h.share
  · rw [State.wave_congr ht, h.waves q hq]
  · rw [State.wave_congr ht, h.wave]

theorem State.modCore_rest (s : State) (x y : Nat) (f : Core → Core) :
    { s.modCore x y f with tasks := [], cores := [] } = ({ s with tasks := [], cores := [] } : State) := by
  unfold State.modCore; split <;> rfl

theorem At.modCore {s u : State} {r : WaveRef} {e : Expect} (h : At s u r e) (x y : Nat) (f : Core → Core)
    (hf : ∀ c, (f c).x = c.x ∧ (f c).y = c.y) (hs : ∀ c sl, { f { c with slots := sl } with slots := [] } = { f c with slots := [] }) :
    At s (u.modCore x y f) r { e with core := fun a b => if (a, b) = (x, y) then f (e.core a b) else e.core a b } := by
  have ht := State.modCore_tasks u x y f
  refine ⟨by rw [State.modCore_rest]; exact h.rest, fun a b => ?_, fun n hn => ?_, ?_, fun c hc => ?_, ?_, fun q hq => ?_, ?_⟩
  · simp only []
    by_cases hab : (a, b) = (x, y)
    · rw [if_pos hab]
      simp only [Prod.mk.injEq] at hab
      obtain ⟨rfl, rfl⟩ := hab
      rw [State.core_modCore _ _ _ _ hf, ← hs (u.core a b) [], h.core a b, hs]
    · rw [if_neg hab, State.core_modCore_ne _ _ _ _ _ _ hf (by
        simp only [Prod.mk.injEq, not_and] at hab
        by_cases h1 : a = x
        · right; exact hab h1
        · left; exact h1)]
      exact h.core a b
  · rw [State.task_congr ht, h.tasks n hn]
  · rw [State.task_congr ht]; exact h.task
  · rw [State.share_congr ht, h.shares c hc]
  · rw [State.share_congr ht]; exact h.share
  · rw [State.wave_congr ht, h.waves q hq]
  · rw [State.wave_congr ht, h.wave]

/-- What a state is expected to be, and an end of the instruction that touches the wave alone. -/
theorem At.leaves {s u t : State} {r : WaveRef} {e : Expect} (h : At s u r e) (w' : Wave) (lanes : Wave → Prop)
    (ho : WaveOnly u t r) (hw : t.wave? r = some w') (hb : w'.base = e.wave.base) (hl : lanes w') : LeavesWith s t r e lanes := by
  obtain ⟨o1, o2, o3, o4, o5, o6, o7⟩ := ho
  refine ⟨?_, fun x y => ?_, fun n hn => ?_, ?_, fun c hc => ?_, ?_, fun q hq => ?_, w', hw, hb, hl⟩
  · rw [o1]; exact h.rest
  · rw [o2]; exact h.core x y
  · rw [o3 n hn, h.tasks n hn]
  · rw [o4, h.task]
  · rw [o5 c hc, h.shares c hc]
  · rw [o6, h.share]
  · rw [o7 q hq, h.waves q hq]

/-! ### Lane after lane -/

/-- Lane after lane: where each executing lane takes one expectation to the next, all of them do. -/
theorem each_at {s : State} {r : WaveRef} (iss : Iss) (hr : iss.r = r) (f : State → Wave → Nat → Thread → State)
    (E : List (Nat × Thread) → Expect) (w : Wave)
    (hth : ∀ P n, (E P).wave.thread? n = w.thread? n)
    (hstep : ∀ u P p, At s u r (E P) → p ∈ w.acting iss.take → At s (f u (E P).wave p.1 p.2) r (E (P ++ [p])))
    (u : State) (h0 : At s u r (E [])) (hby : (E []).wave.byTix iss.take = w.byTix iss.take) :
    At s (iss.each u f) r (E (w.acting iss.take)) := by
  have key : ∀ (l : List Nat) (u : State) (P : List (Nat × Thread)), At s u r (E P) →
      (∀ n ∈ l, ∀ th, w.thread? n = some th → (n, th) ∈ w.acting iss.take) →
      At s (l.foldl (iss.inLane f) u) r (E (P ++ l.filterMap fun ln => (w.thread? ln).map fun th => (ln, th))) := by
    intro l
    induction l with
    | nil => intro u P h _; simpa using h
    | cons n l ih =>
      intro u P h hm
      simp only [List.foldl_cons, List.filterMap_cons]
      have hl : iss.inLane f u n = match w.thread? n with | some th => f u (E P).wave n th | none => u := by
        simp only [Iss.inLane, hr, h.wave, hth]
        all_goals (cases w.thread? n <;> rfl)
      rw [hl]
      cases hn : w.thread? n with
      | none =>
        simp only [Option.map_none]
        exact ih u P h (fun m hm' th hth' => hm m (List.mem_cons_of_mem _ hm') th hth')
      | some th =>
        simp only [Option.map_some]
        have h1 := hstep u P (n, th) h (hm n List.mem_cons_self th hn)
        have := ih _ (P ++ [(n, th)]) h1 (fun m hm' th hth' => hm m (List.mem_cons_of_mem _ hm') th hth')
        simpa using this
  have h1 : iss.each u f = (w.byTix iss.take).foldl (iss.inLane f) u := by
    simp only [Iss.each, hr, h0.wave, hby]
  rw [h1]
  have := key (w.byTix iss.take) u [] h0 (by
    intro n hn th hth'
    simp only [Wave.acting, List.mem_filterMap]
    exact ⟨n, hn, by simp [hth']⟩)
  simpa [Wave.acting] using this

end Sys2Proof.Machine
end

