-- ==== Sys2Proof/Laws/Memory.lean ====
section
/-! SUPPORT. Every operation on a memory keeps its canonical form: on the lists themselves, and on device, host and peer
memory of a state. -/

namespace Sys2Proof.Machine

open Host

/-! ### On lists -/

theorem Mem.wfFrom_mono {m : Mem} {a b : Nat} (h : b ≤ a) (hm : Mem.wfFrom a m = true) : Mem.wfFrom b m = true := by
  cases m with
  | nil => rfl
  | cons c r =>
    simp only [Mem.wfFrom, Bool.and_eq_true, decide_eq_true_eq] at hm ⊢
    exact ⟨⟨h.trans hm.1.1, hm.1.2⟩, hm.2⟩

theorem Mem.wfFrom_set {m : Mem} {n a : Nat} (b : Byte) (hm : Mem.wfFrom n m = true) (ha : n ≤ a) :
    Mem.wfFrom n (Mem.set m a b) = true := by
  induction m generalizing n with
  | nil =>
    by_cases hb : b = blank <;> simp [Mem.set, hb, Mem.wfFrom, ha]
  | cons c r ih =>
    obtain ⟨k, c⟩ := c
    simp only [Mem.wfFrom, Bool.and_eq_true, decide_eq_true_eq, bne_iff_ne, ne_eq] at hm
    obtain ⟨⟨hk, hc⟩, hr⟩ := hm
    simp only [Mem.set]
    by_cases h1 : a < k
    · by_cases hb : b = blank
      · simp [h1, hb, Mem.wfFrom, hk, hc, hr]
      · have : Mem.wfFrom (a + 1) ((k, c) :: r) = true := by
          simp only [Mem.wfFrom, Bool.and_eq_true, decide_eq_true_eq, bne_iff_ne, ne_eq]
          exact ⟨⟨h1, hc⟩, hr⟩
        simp only [h1, hb, if_true, if_false, Mem.wfFrom, Bool.and_eq_true, decide_eq_true_eq, bne_iff_ne, ne_eq]
        exact ⟨⟨ha, not_false⟩, ⟨h1, hc⟩, hr⟩
    · by_cases h2 : a = k
      · by_cases hb : b = blank
        · simp only [h2, hb, if_true, if_false, lt_irrefl]
          exact Mem.wfFrom_mono (hk.trans (Nat.le_succ k)) hr
        · simp only [h2, hb, if_true, if_false, lt_irrefl, Mem.wfFrom, Bool.and_eq_true, decide_eq_true_eq, bne_iff_ne, ne_eq]
          exact ⟨⟨hk, not_false⟩, hr⟩
      · simp only [h1, h2, if_false, Mem.wfFrom, Bool.and_eq_true, decide_eq_true_eq, bne_iff_ne, ne_eq]
        exact ⟨⟨hk, hc⟩, ih hr (by omega)⟩

theorem Mem.wf_set {m : Mem} (a : Nat) (b : Byte) (hm : m.wf = true) : (m.set a b).wf = true :=
  Mem.wfFrom_set b hm (Nat.zero_le a)

theorem Mem.wf_write {m : Mem} (a : Nat) (bs : List Byte) (hm : m.wf = true) : (m.write a bs).wf = true := by
  induction bs generalizing m a with
  | nil => exact hm
  | cons b bs ih => exact ih (a + 1) (Mem.wf_set a b hm)

theorem Mem.wfFrom_filter {m : Mem} {n : Nat} (p : Cell → Bool) (hm : Mem.wfFrom n m = true) :
    Mem.wfFrom n (List.filter p m) = true := by
  induction m generalizing n with
  | nil => rfl
  | cons c r ih =>
    simp only [Mem.wfFrom, Bool.and_eq_true, decide_eq_true_eq] at hm
    by_cases hp : p c = true
    · rw [List.filter_cons_of_pos hp]
      simp only [Mem.wfFrom, Bool.and_eq_true, decide_eq_true_eq]
      exact ⟨hm.1, ih hm.2⟩
    · rw [List.filter_cons_of_neg hp]
      exact Mem.wfFrom_mono (hm.1.1.trans (Nat.le_succ c.1)) (ih hm.2)

theorem Mem.wf_filter {m : Mem} (p : Cell → Bool) (hm : m.wf = true) : Mem.wf (List.filter p m) = true :=
  Mem.wfFrom_filter p hm

/-! ### On the memories of a state -/

/-- Memory as State.reset has it is in its canonical form. -/
theorem State.memOk_reset : State.reset.MemOk := by unfold State.MemOk; decide

theorem State.memOk_of_eq {s t : State} (h : t.mem = s.mem ∧ t.hostMem = s.hostMem ∧ t.peerMem = s.peerMem) (hs : s.MemOk) :
    t.MemOk := by
  unfold State.MemOk at *
  rw [h.1, h.2.1, h.2.2]
  exact hs

theorem State.memOk_mem {s : State} {m : Mem} (hm : m.wf = true) (hs : s.MemOk) : ({ s with mem := m } : State).MemOk :=
  ⟨hm, hs.2⟩

theorem State.memOk_hostMem {s : State} {m : Mem} (hm : m.wf = true) (hs : s.MemOk) : ({ s with hostMem := m } : State).MemOk :=
  ⟨hs.1, hm, hs.2.2⟩

theorem State.memOk_peerMem {s : State} {m : Mem} (hm : m.wf = true) (hs : s.MemOk) : ({ s with peerMem := m } : State).MemOk :=
  ⟨hs.1, hs.2.1, hm⟩

theorem State.memOk_clearBad {s : State} (pa n : Nat) (hs : s.MemOk) : (s.clearBad pa n).MemOk := hs

theorem State.memOk_transfer {s : State} (i n : Nat) (hs : s.MemOk) : (s.transfer i n).MemOk := hs

theorem State.memOk_owe {s : State} (i n : Nat) (hs : s.MemOk) : (s.owe i n).MemOk := hs

theorem State.memOk_hbmRequest {s : State} (cls r t : Nat) (hs : s.MemOk) : (s.hbmRequest cls r t).MemOk := hs

theorem State.memOk_hbmRequests {s : State} (cls r t n : Nat) (hs : s.MemOk) : (s.hbmRequests cls r t n).MemOk := hs

theorem State.memOk_addMissed {s : State} (late : Bool) (r : Nat) (hs : s.MemOk) : (s.addMissed late r).MemOk := hs

theorem State.memOk_ask {s : State} (i n : Nat) (hs : s.MemOk) : (s.ask i n).MemOk := hs

/-- Work on a budget keeps the memories' form where the work does. -/
theorem State.memOk_budgeted {s : State} (i : Nat) (work : State → State) (hw : (work s).MemOk) (hs : s.MemOk) :
    (s.budgeted i work).2.MemOk := by
  unfold State.budgeted
  dsimp only
  split
  · exact hw
  · exact hs

theorem State.memOk_maintains {s : State} (on : Bool) (work : State → State) (hw : (work s).MemOk) (hs : s.MemOk) :
    (s.maintains on work).2.MemOk := by
  unfold State.maintains
  split
  · exact State.memOk_budgeted 10 work hw hs
  · exact hw

theorem State.memOk_ageTasks {s : State} (path pa : Nat) (olds : List Byte) (hs : s.MemOk) : (s.ageTasks path pa olds).MemOk := hs

theorem State.memOk_event {s : State} (n : Nat) (hs : s.MemOk) : (s.event n).MemOk := by
  unfold State.event
  dsimp only
  split <;> exact hs

theorem State.memOk_setTag {s : State} (line : Nat) (tag : Nat × Nat) (hs : s.MemOk) : (s.setTag line tag).MemOk := hs

theorem State.memOk_retag {s : State} (tag : Nat × Nat) (pa : Nat) (hs : s.MemOk) : (s.retag tag pa).MemOk := by
  unfold State.retag
  split
  · exact hs
  · exact State.memOk_setTag _ _ (State.memOk_mem (Mem.wf_write _ _ hs.1) hs)

theorem State.memOk_plainWrite {s : State} (tag : Nat × Nat) (pa : Nat) (bs : List Byte) (hs : s.MemOk) :
    (s.plainWrite tag pa bs).MemOk := by
  induction bs generalizing s pa with
  | nil => exact hs
  | cons b bs ih =>
    have h := State.memOk_retag tag pa hs
    exact ih (pa + 1) ⟨Mem.wf_set _ _ h.1, h.2⟩

theorem State.memOk_hostByte {s : State} (tag : Nat × Nat) (pa : Nat) (b : Byte) (hs : s.MemOk) : (s.hostByte tag pa b).MemOk :=
  State.memOk_plainWrite _ _ _ (State.memOk_ageTasks _ _ _ hs)

theorem State.memOk_putHost {s : State} (who : Option WaveRef) (pa : Nat) (bs : List Byte) (hs : s.MemOk) : (s.putHost who pa bs).MemOk :=
  ⟨hs.1, Mem.wf_write _ _ hs.2.1, hs.2.2⟩

/-- Landing pieces keeps the memories' form. -/
theorem State.memOk_landWhere {s : State} (p : HostHalf → Bool) (hs : s.MemOk) : (s.landWhere p).MemOk := by
  have h : ∀ (l : List HostHalf) (u : State), u.MemOk → (l.foldl (fun u h => u.putHost (some h.r) h.pa h.bs) u).MemOk := fun l => by
    induction l with
    | nil => exact fun _ hu => hu
    | cons b l ih => exact fun u hu => ih _ (State.memOk_putHost _ _ _ hu)
  exact h _ _ hs

theorem State.memOk_writeRaw {s : State} (a : Attr) (pa : Nat) (bs : List Byte) (hs : s.MemOk) : (writeRaw s a pa bs).MemOk := by
  unfold writeRaw
  split
  · exact State.memOk_clearBad _ _ (State.memOk_mem (Mem.wf_write _ _ hs.1) hs)
  · exact State.memOk_putHost _ _ _ hs
  · exact State.memOk_peerMem (Mem.wf_write _ _ hs.2.2) hs

theorem State.memOk_hostPut {s : State} (tag : Nat × Nat) (pa : Nat) (mask : BitVec 64) (data : BitVec 512) (hs : s.MemOk) :
    (s.hostPut tag pa mask data).MemOk := by
  have h : ∀ (l : List (Nat × Byte)) (u : State), u.MemOk →
      (l.foldl (fun s b => s.hostByte tag b.1 b.2) u).MemOk := fun l => by
    induction l with
    | nil => exact fun _ hu => hu
    | cons b l ih => exact fun u hu => ih _ (State.memOk_hostByte tag b.1 b.2 hu)
  unfold State.hostPut
  dsimp only
  split
  · exact State.memOk_clearBad _ _ (h _ _ hs)
  · exact h _ _ hs

theorem State.memOk_setReadPtr {s : State} (q n : Nat) (hs : s.MemOk) : (s.setReadPtr q n).MemOk :=
  State.memOk_mem (Mem.wf_write _ _ hs.1) hs

theorem State.memOk_poke {s : State} (peer : Bool) (a : Nat) (b : Byte) (hs : s.MemOk) : (s.poke peer a b).MemOk := by
  unfold State.poke
  split
  · exact State.memOk_peerMem (Mem.wf_set _ _ hs.2.2) hs
  · exact State.memOk_putHost _ _ _ hs

theorem State.memOk_takePage {s t : State} {n pa : Nat} (h : s.takePage n = some (pa, t)) (hs : s.MemOk) : t.MemOk := by
  unfold State.takePage at h
  dsimp only at h
  split at h
  · exact absurd h (by simp)
  · injection h with h
    injection h with _ h
    subst h
    exact ⟨Mem.wf_filter _ (Mem.wf_write _ _ hs.1), hs.2⟩

theorem State.memOk_mapPath {s : State} (p : Pool) (va : Nat) (k at' : Nat) (hs : s.MemOk) : (s.mapPath p va k at').1.MemOk := by
  induction k generalizing s at' with
  | zero =>
    unfold State.mapPath
    split
    · exact hs
    · rename_i h
      have := State.memOk_takePage h hs
      exact ⟨Mem.wf_write _ _ this.1, this.2⟩
  | succ k ih =>
    unfold State.mapPath
    split
    · exact hs
    · rename_i h
      have := State.memOk_takePage h hs
      exact ih _ ⟨Mem.wf_write _ _ this.1, this.2⟩

theorem State.memOk_queueFault {s : State} (f : PageFault) (hs : s.MemOk) : (s.queueFault f).MemOk := by
  unfold State.queueFault
  dsimp only
  split
  · exact hs
  · refine State.memOk_event _ ?_
    have h := State.memOk_mem (Mem.wf_write (s.dev.hfqbase + s.dev.hfqhead) f.bytes hs.1) hs
    exact State.memOk_of_eq ⟨rfl, rfl, rfl⟩ h

end Sys2Proof.Machine
end

