-- ==== Sys2Proof/Tests/Slice0.lean ====
section
/-! SUPPORT. Tests of the model: ill-formed terms that WellFormed refuses, words written out from the encoding tables,
small single steps with results from the spec, and for each statement states and operands that meet its hypotheses
(test_<statement>_met…). -/

namespace Sys2Proof.Tests

open Machine Host

/-! ### WellFormed: one ill-formed term for each check -/

theorem test_wf_shapes : (Instr.bar ⟨9, none, 0, .core, false⟩).wf = false ∧ (Instr.bara ⟨9, 0, .wave, false⟩).wf = false ∧
    (Instr.barw ⟨9, none, 0, .launch, false⟩).wf = false ∧ (Instr.bar ⟨0x30, none, 0, .polder, false⟩).wf = false ∧
    (Instr.bar ⟨9, none, 0, .stage, false⟩).wf = false ∧ (Instr.copym ⟨false, 0, .v 4, 0x07, false⟩).wf = false := by decide

theorem test_wf_selectors : (Instr.fencex ⟨0, 1, false⟩).wf = false ∧ (Instr.fencex ⟨1, 0, false⟩).wf = false ∧
    (Instr.spawn ⟨0, 0, 0, false, false⟩).wf = false ∧ (Instr.trace ⟨.suspend, 1, false, false⟩).wf = false ∧
    (Instr.trace ⟨.resume, 1, false, false⟩).wf = false ∧ (Instr.setp ⟨.not, 1, 0, 0, false⟩).wf = false ∧
    (Instr.setp ⟨.one, 0, 1, 0, false⟩).wf = false ∧ (Instr.setp ⟨.zero, 1, 0, 0, false⟩).wf = false ∧
    (Instr.movCompact ⟨.v 0, 0⟩).wf = false := by decide

theorem test_wf_reed : (Instr.reedBeq ⟨1, 2, 0⟩).wf = false ∧ (Instr.reedBne ⟨1, 2, 1024⟩).wf = false ∧
    (Instr.reedBltu ⟨1, 2, 0⟩).wf = false ∧ (Instr.reedEnd 32).wf = false ∧ (Instr.reedEnd 320).wf = false := by decide

theorem test_wf_operands : (Instr.dadd ⟨.v 2, .v 4, .v 5, false, false, false⟩).wf = false ∧
    (Instr.dadd ⟨.s 3, .v 4, .v 6, false, false, false⟩).wf = false ∧
    (Instr.dadd ⟨.v 2, .lane, .v 6, false, false, false⟩).wf = false ∧
    (Instr.iadd ⟨.v 2, .v 4, .s 5, false, false, false⟩).wf = false ∧
    (Instr.iadd ⟨.v 2, .v 4, .tix, false, false, false⟩).wf = false ∧
    (Instr.stg ⟨0, 0, .s 4, .b128, false, false⟩).wf = false ∧ (Instr.ldg ⟨0, 0, .v 6, .b128, false, false⟩).wf = false ∧
    (Instr.shfl ⟨.all, .v 6, .vz, 1, false⟩).wf = false ∧ (Instr.wsort ⟨.all, .vz, .v 4, .ascS32, false⟩).wf = false ∧
    (Instr.wred ⟨.all, .v 4, .lane, .addS32, false⟩).wf = false ∧ (Instr.sread ⟨0x27, .v 4, false, false⟩).wf = false ∧
    (Instr.iaddCompact ⟨.v 32, 4⟩).wf = false ∧ (Instr.iaddCompact ⟨.lane, 4⟩).wf = false ∧
    (Instr.iaddCompact ⟨.tix, 4⟩).wf = false ∧ (Instr.iaddCompact ⟨.wix, 4⟩).wf = false := by decide

/-- R36: a register beyond a stage's budget. -/
theorem test_wf_budget : (Instr.mov ⟨.v 16, .v 1, false, false, false⟩).opOk 16 = false ∧
    (Instr.mov ⟨.v 15, .v 1, false, false, false⟩).opOk 16 = true := by decide

/-! ### Decoding: words written out from the encoding tables (R27, R30, R32, R245) -/

def decodesAll (nbits : Nat) (l : List (Nat × Instr)) : Bool := l.all fun p => decodeTableWord nbits p.1 == some p.2

def reedsAll (l : List (Nat × Instr)) : Bool := l.all fun p => decodeReed p.1 == some p.2

theorem test_decode_integer : decodesAll 32 [
    (0b1110101_0000101_0000111_0_0_0000001_1_1, .iadd ⟨.lane, .v 5, .v 7, false, false, true⟩),
    (0b1110110_1100011_1011110_1_0_0000010_0_1, .isub ⟨.tix, .s 3, .v 94, true, false, false⟩),
    (0b1110111_1110001_1110100_0_1_0000011_0_1, .imul ⟨.wix, .l 1, .vz, false, true, false⟩),
    (0b1011111_1110100_0000111_1_1_0000100_1_1, .imulh ⟨.v 95, .vz, .v 7, true, true, true⟩),
    (0b1101111_1110101_1011110_0_0_0000101_0_1, .imulhu ⟨.s 15, .lane, .v 94, false, false, false⟩),
    (0b0000101_1110110_1110100_1_0_0000110_0_1, .imad ⟨.v 5, .tix, .vz, true, false, false⟩),
    (0b1100011_1110111_0000111_0_1_0000111_1_1, .idiv ⟨.s 3, .wix, .v 7, false, true, true⟩),
    (0b1110001_1011111_1011110_1_1_0001000_0_1, .idivu ⟨.l 1, .v 95, .v 94, true, true, false⟩),
    (0b1110100_1101111_1110100_0_0_0001001_0_1, .irem ⟨.vz, .s 15, .vz, false, false, false⟩),
    (0b1110101_0000101_0000111_1_0_0001010_1_1, .iremu ⟨.lane, .v 5, .v 7, true, false, true⟩)] = true := by decide

theorem test_decode_integer2 : decodesAll 32 [
    (0b1110110_1100011_1011110_0_1_0001011_0_1, .imin ⟨.tix, .s 3, .v 94, false, true, false⟩),
    (0b1110111_1110001_1110100_1_1_0001100_0_1, .imax ⟨.wix, .l 1, .vz, true, true, false⟩),
    (0b1011111_1110100_0000111_0_0_0001101_1_1, .umin ⟨.v 95, .vz, .v 7, false, false, true⟩),
    (0b1101111_1110101_1011110_1_0_0001110_0_1, .umax ⟨.s 15, .lane, .v 94, true, false, false⟩)] = true := by decide

theorem test_decode_logic : decodesAll 32 [
    (0b1110101_0000101_0000111_0_0_0001111_1_1, .and ⟨.lane, .v 5, .v 7, false, false, true⟩),
    (0b1110110_1100011_1011110_1_0_0010000_0_1, .or ⟨.tix, .s 3, .v 94, true, false, false⟩),
    (0b1110111_1110001_1110100_0_1_0010001_0_1, .xor ⟨.wix, .l 1, .vz, false, true, false⟩),
    (0b1011111_1110100_0000111_1_1_0010010_1_1, .andn ⟨.v 95, .vz, .v 7, true, true, true⟩),
    (0b1101111_1110101_1011110_0_0_0010011_0_1, .shl ⟨.s 15, .lane, .v 94, false, false, false⟩),
    (0b0000101_1110110_1110100_1_0_0010100_0_1, .shru ⟨.v 5, .tix, .vz, true, false, false⟩),
    (0b1100011_1110111_0000111_0_1_0010101_1_1, .shrs ⟨.s 3, .wix, .v 7, false, true, true⟩),
    (0b1110001_1011111_1011110_1_1_0010110_0_1, .bfx ⟨.l 1, .v 95, .v 94, true, true, false⟩),
    (0b1110100_1101111_1110100_0_0_0010111_0_1, .bfi ⟨.vz, .s 15, .vz, false, false, false⟩),
    (0b1110101_0000101_0000111_1_0_0011000_1_1, .sel ⟨.lane, .v 5, .v 7, true, false, true⟩)] = true := by decide

theorem test_decode_binary32 : decodesAll 32 [
    (0b1110101_0000101_0000111_0_0_1011000_1_1, .fadd ⟨.lane, .v 5, .v 7, false, false, true⟩),
    (0b1110110_1100011_1011110_1_0_1011001_0_1, .fsub ⟨.tix, .s 3, .v 94, true, false, false⟩),
    (0b1110111_1110001_1110100_0_1_1011010_0_1, .fmul ⟨.wix, .l 1, .vz, false, true, false⟩),
    (0b1011111_1110100_0000111_1_1_1011011_1_1, .fma ⟨.v 95, .vz, .v 7, true, true, true⟩),
    (0b1101111_1110101_1011110_0_0_1011100_0_1, .fmin ⟨.s 15, .lane, .v 94, false, false, false⟩),
    (0b0000101_1110110_1110100_1_0_1011101_0_1, .fmax ⟨.v 5, .tix, .vz, true, false, false⟩),
    (0b1100011_1110111_0000111_0_1_1100110_1_1, .badd2 ⟨.s 3, .wix, .v 7, false, true, true⟩),
    (0b1110001_1011111_1011110_1_1_1100111_0_1, .bmul2 ⟨.l 1, .v 95, .v 94, true, true, false⟩),
    (0b1110100_1101111_1110100_0_0_1101000_0_1, .bfma2 ⟨.vz, .s 15, .vz, false, false, false⟩)] = true := by decide

theorem test_decode_binary64 : decodesAll 32 [
    (0b1011110_0000110_0001000_0_0_1011111_1_1, .dadd ⟨.v 94, .v 6, .v 8, false, false, true⟩),
    (0b1101110_1100100_1110100_1_0_1100000_0_1, .dsub ⟨.s 14, .s 4, .vz, true, false, false⟩),
    (0b1110000_1110010_0001000_0_1_1100001_0_1, .dmul ⟨.l 0, .l 2, .v 8, false, true, false⟩),
    (0b1011110_1110100_1110100_1_1_1100010_1_1, .dfma ⟨.v 94, .vz, .vz, true, true, true⟩),
    (0b1101110_0000110_0001000_0_0_1100011_0_1, .dmin ⟨.s 14, .v 6, .v 8, false, false, false⟩),
    (0b1110000_1100100_1110100_1_0_1100100_0_1, .dmax ⟨.l 0, .s 4, .vz, true, false, false⟩)] = true := by decide

theorem test_decode_immediate : decodesAll 32 [
    (0b10000001_0000101_0000001_0_0011010_0_1, .iaddi ⟨129, .v 5, .v 1, false, false⟩),
    (0b10000010_1100011_0000010_1_0011011_0_1, .andi ⟨130, .s 3, .v 2, true, false⟩),
    (0b10000011_1110001_0000011_0_0011100_1_1, .ori ⟨131, .l 1, .v 3, false, true⟩),
    (0b10000100_1110100_0000100_1_0011101_1_1, .xori ⟨132, .vz, .v 4, true, true⟩),
    (0b10000101_1110101_0000101_0_0011110_0_1, .shli ⟨133, .lane, .v 5, false, false⟩),
    (0b10000110_1110110_0000110_1_0011111_0_1, .shrui ⟨134, .tix, .v 6, true, false⟩),
    (0b10000111_1110111_0000111_0_0100000_1_1, .shrsi ⟨135, .wix, .v 7, false, true⟩),
    (0b00000010_0001001_0000100_0_1101001_1_1, .fsgn ⟨.nabs, .v 9, .v 4, false, true⟩),
    (0b00000011_0001001_0000100_1_1101110_1_1, .bcnt ⟨.rev, .v 9, .v 4, true, true⟩),
    (0b1000000000000001_0000011_0100001_1_1, .movi ⟨0x8001, .v 3, true⟩)] = true := by decide

theorem test_decode_immediate2 : decodesAll 32 [
    (0b0001001000110100_1110100_0100010_0_1, .movhi ⟨0x1234, .vz, false⟩),
    (0b1110100_1110010_0000001_0_1_1101010_0_1, .mov ⟨.l 2, .v 1, false, true, false⟩),
    (0b1101110_1110110_0000010_1_0_1101100_1_1, .rng ⟨7, .tix, .v 2, true, false, true⟩)] = true := by decide

theorem test_decode_address : decodesAll 32 [
    (0b1101111_0000_011_0000_101_00_0100011_1_1, .aadd ⟨.s 15, 3, 5, true⟩),
    (0b1111111111111110_0_111_001_0100100_0_1, .aaddi ⟨0xFFFE, 7, 1, false⟩),
    (0b00000010_1000000_0000_110_0_0100101_1_1, .aput ⟨.hi, .v 64, 6, true⟩),
    (0b00000001_0000_100_0100001_1_0100110_0_1, .aget ⟨.mid, 4, .v 33, true, false⟩)] = true := by decide

theorem test_decode_predicate : decodesAll 32 [
    (0b0001000_1100001_1001_110_0_1_0011001_0_1, .icmp ⟨.v 8, .s 1, .hs, 6, true, false⟩),
    (0b11111111_0001000_0110_011_0_1101111_1_1, .icmpi ⟨0xFF, .v 8, .lo, 3, true⟩),
    (0b1110011_0001000_0110_101_0_0_1011110_1_1, .fcmp ⟨.l 3, .v 8, .uo, 5, false, true⟩),
    (0b0000010_0001000_0111_001_0_1_1100101_0_1, .dcmp ⟨.v 2, .v 8, .or, 1, true, false⟩),
    (0b00_010_101_0000_110_0000_111_0_1110000_1_1, .setp ⟨.xor, 5, 6, 7, true⟩)] = true := by decide

theorem test_decode_memory : decodesAll 32 [
    (0b111111111_101_0001001_010_1_0100111_0_1, .ldg ⟨0x1FF, 5, .v 9, .b32, true, false⟩),
    (0b011111111_110_1100100_011_0_0101000_1_1, .stg ⟨0x0FF, 6, .s 4, .b64, false, true⟩),
    (0b00_0010001_001_0010100_100_1_0101001_1_1, .ldgx ⟨.v 17, 1, .v 20, .b128, true, true⟩),
    (0b00_1110101_010_0010101_000_0_0101010_0_1, .stgx ⟨.lane, 2, .v 21, .b8, false, false⟩),
    (0b11111_0000011_0000100_001_1_0101011_0_1, .lds ⟨31, .v 3, .v 4, .b16, true, false⟩),
    (0b10000_1100010_1110000_010_0_0101100_1_1, .sts ⟨16, .s 2, .l 0, .b32, false, true⟩),
    (0b111_10_0000001_0000010_011_1_0101101_1_1, .ldb ⟨7, .wbuf, .v 1, .v 2, .b64, true, true⟩),
    (0b100_01_0000001_0000100_100_0_0101110_0_1, .stb ⟨4, .cbuf, .v 1, .v 4, .b128, false, false⟩),
    (0b10010000_1110100_1011010_0_0101111_1_1, .ldc ⟨0x90, .vz, .v 90, true⟩),
    (0b11110_0000011_0000100_100_1_0111001_0_1, .satom ⟨30, .v 3, .v 4, .maxZ32, true, false⟩)] = true := by decide

theorem test_decode_cells : decodesAll 32 [
    (0b100000000_001_0000010_011_1_0110000_0_1, .cadd ⟨0x100, 1, .v 2, .f64, true, false⟩),
    (0b000000001_010_0000100_01_1_0_0110001_1_1, .ctwo ⟨1, 2, .v 4, .f64, false, true⟩),
    (0b000000010_011_0000110_100_1_0110010_1_1, .cmin ⟨2, 3, .v 6, .z32, true, true⟩),
    (0b000000011_100_0001000_010_0_0110011_0_1, .cmax ⟨3, 4, .v 8, .f32, false, false⟩),
    (0b000000100_101_0001000_100_1_0110100_0_1, .cord ⟨4, 5, .v 8, .b128, true, false⟩),
    (0b000000101_110_0001010_01_0_0_0110101_1_1, .caff ⟨5, 6, .v 10, .f32, false, true⟩),
    (0b000000110_111_0001100_110_1_0110110_1_1, .cbit ⟨6, 7, .v 12, .xor64, true, true⟩),
    (0b000000111_000_0001110_001_0_0110111_0_1, .ldct ⟨7, 0, .v 14, .b64, false, false⟩),
    (0b000001000_001_0010000_000_1_0111000_0_1, .ldcs ⟨8, 1, .v 16, .b32, true, false⟩),
    (0b111111110_010_0010010_01_1_0_1010010_1_1, .modw ⟨0x1FE, 2, .v 18, .b64, false, true⟩)] = true := by decide

theorem test_decode_crossLane : decodesAll 32 [
    (0b01111_0000011_0000100_1100_0111010_1_1, .shfl ⟨.sreg 15, .v 3, .v 4, 12, true⟩),
    (0b10000_0000_101_1100110_0010_0111011_0_1, .vote ⟨.all, 5, .s 6, .all, false⟩),
    (0b00010_0000011_1100100_1001_0111100_1_1, .wred ⟨.sreg 2, .v 3, .s 4, .xor, true⟩),
    (0b10000_0000011_0000100_0101_0111101_0_1, .wscan ⟨.all, .v 3, .v 4, .inclMaxS32, false⟩),
    (0b00001_0000110_0001000_0011_1101101_1_1, .wsort ⟨.sreg 1, .v 6, .v 8, .descS32, true⟩),
    (0b00011111_0000110_1101001_1_1101011_0_1, .rdlane ⟨31, .v 6, 9, true, false⟩)] = true := by decide

theorem test_decode_system : decodesAll 32 [
    (0b00001010_0000000_0000101_1_0111110_0_1, .sread ⟨0x0A, .v 5, true, false⟩),
    (0b00100001_1100110_00000000_0111111_1_1, .swrite ⟨0x21, .s 6, true⟩)] = true := by decide

theorem test_decode_control : decodesAll 32 [
    (0b1111111111111111111_1_110_1000000_0_1, .br ⟨0x7FFFF, true, 6, false⟩),
    (0b10000000000000000000001_1000001_1_1, .jmp ⟨0x400001, true⟩),
    (0b00000000000000000010000_1000010_0_1, .call ⟨0x000010, false⟩),
    (0b0000000000000000000000_1_1000011_0_1, .ret ⟨true, false⟩),
    (0b000000000000_101_00000000_1000100_1_1, .jmpi ⟨5, true⟩),
    (0b0000000000000000000000_0_1000101_1_1, .reform ⟨false, true⟩),
    (0b0000000000000000000000_1_1000110_1_1, .yield ⟨true, true⟩),
    (0b0000000000000000000000_0_1000111_0_1, .exit ⟨false, false⟩),
    (0b10100101_00000000000000_1_1001011_0_1, .trap ⟨0xA5, true, false⟩),
    (0b0000000000000000000000_1_1001100_0_1, .bkpt ⟨true, false⟩)] = true := by decide

theorem test_decode_barrier : decodesAll 32 [
    (0b00010010_1100111_1001_011_0_1001000_1_1, .bar ⟨0x12, some 7, 9, .polder, true⟩),
    (0b00000000_0000000_0011_100_0_1001001_0_1, .bara ⟨0, 3, .launch, false⟩),
    (0b00000000_1110100_0101_001_0_1001010_1_1, .barw ⟨0, none, 5, .stage, true⟩),
    (0b0000000000000000000_100_1_1001101_0_1, .fence ⟨.sys, true, false⟩),
    (0b0000000000000_10001_00110_1001110_1_1, .fencex ⟨0b00110, 0b10001, true⟩)] = true := by decide

theorem test_decode_task : decodesAll 32 [
    (0b01000100_0000_011_1110_000_1_1001111_0_1, .spawn ⟨0x44, 3, 14, true, false⟩),
    (0b0000000000000000000000_1_1010000_0_1, .join ⟨true, false⟩),
    (0b000000000000_110_00000000_1010001_1_1, .prop ⟨6, true⟩),
    (0b000000000000_101_0000_010_1_1010011_0_1, .trace ⟨.note, 5, true, false⟩)] = true := by decide

theorem test_decode_matrix : decodesAll 32 [
    (0b000000000000_100_00000000_1010100_1_1, .mres ⟨4, true⟩),
    (0b00000000000000000000000_1010101_1_1, .mrel ⟨true⟩),
    (0b00000_1_10_0000000_1011_0000_1010110_0_1, .mloadb ⟨true, 2, 11, false⟩),
    (0b0000000000000000000_1001_1010111_1_1, .sca ⟨.n4, .i8, true⟩),
    (0b1_1100_00000000000000_0111_1110100_0_1, .mmul ⟨true, 12, .i8, .n8, false⟩)] = true := by decide

theorem test_decode_conversion : decodesAll 32 [
    (0b00_000_0000000_0000100_0000_1110001_0_1, .cvtF32D ⟨.rne, .v 0, .v 4, false⟩),
    (0b00_000_0000100_0001000_0001_1110001_1_1, .cvtDF32 ⟨.rne, .v 4, .v 8, true⟩),
    (0b00_010_0001000_0001100_0010_1110001_0_1, .cvtB16F32 ⟨.rd, .v 8, .v 12, false⟩),
    (0b00_011_0001100_0010000_0100_1110001_1_1, .cvtH16F32 ⟨.ru, .v 12, .v 16, true⟩),
    (0b00_100_0010000_0010100_0110_1110001_0_1, .cvtS32F32 ⟨.rs, .v 16, .v 20, false⟩),
    (0b00_111_0010100_0011000_0111_1110001_1_1, .cvtF32S32 ⟨.rk, .v 20, .v 24, true⟩),
    (0b00_000_0011000_0011100_1000_1110001_0_1, .cvtZ32F32 ⟨.rne, .v 24, .v 28, false⟩),
    (0b00_001_0011100_0100000_1001_1110001_1_1, .cvtF32Z32 ⟨.rz, .v 28, .v 32, true⟩),
    (0b00_010_0100000_0100100_1010_1110001_0_1, .cvtS64D ⟨.rd, .v 32, .v 36, false⟩),
    (0b00_011_0100100_0101000_1011_1110001_1_1, .cvtDS64 ⟨.ru, .v 36, .v 40, true⟩)] = true := by decide

theorem test_decode_conversion2 : decodesAll 32 [
    (0b00_100_0101000_0101100_1110_1110001_0_1, .cvtQ8F32 ⟨.rs, .v 40, .v 44, false⟩),
    (0b00_000_0101100_0110000_1111_1110001_1_1, .cvtF32Q8 ⟨.rne, .v 44, .v 48, true⟩),
    (0b0_1_000_0000101_0000110_0011_1110001_1_1, .cvtF32B16 ⟨true, .rne, .v 5, .v 6, true⟩),
    (0b0_0_000_0000101_0000110_0101_1110001_1_1, .cvtF32H16 ⟨false, .rne, .v 5, .v 6, true⟩),
    (0b10_100_0001000_0000110_1100_1110001_1_1, .cvtN8F32 ⟨2, .rs, .v 8, .v 6, true⟩),
    (0b11_000_0001000_0000110_1101_1110001_0_1, .cvtF32N8 ⟨3, .rne, .v 8, .v 6, false⟩)] = true := by decide

theorem test_decode_special : decodesAll 32 [
    (0b00000_0000000_0000010_0000_1110010_0_1, .rsqa ⟨.v 0, .v 2, false⟩),
    (0b00000_0000010_0000100_0001_1110010_1_1, .rcpa ⟨.v 2, .v 4, true⟩),
    (0b00000_0000100_0000110_0010_1110010_0_1, .ex2a ⟨.v 4, .v 6, false⟩),
    (0b00000_0000110_0001000_0011_1110010_1_1, .lg2a ⟨.v 6, .v 8, true⟩),
    (0b00000_0001000_0001010_0100_1110010_0_1, .sina ⟨.v 8, .v 10, false⟩),
    (0b00000_0001010_0001100_0101_1110010_1_1, .cosa ⟨.v 10, .v 12, true⟩),
    (0b00000_0001100_0001110_0110_1110010_0_1, .tanha ⟨.v 12, .v 14, false⟩),
    (0b00000_0001110_0010000_0111_1110010_1_1, .fsqrt ⟨.v 14, .v 16, true⟩),
    (0b00000_0010000_0010010_1001_1110010_0_1, .fex2 ⟨.v 16, .v 18, false⟩),
    (0b00000_0010010_0010100_1010_1110010_1_1, .flg2 ⟨.v 18, .v 20, true⟩)] = true := by decide

theorem test_decode_special2 : decodesAll 32 [
    (0b00000_0010100_0010110_1100_1110010_0_1, .dsqrt ⟨.v 20, .v 22, false⟩),
    (0b00000_0010110_0011000_1110_1110010_1_1, .drsq ⟨.v 22, .v 24, true⟩),
    (0b11111_0000011_0000100_1000_1110010_1_1, .fdiv ⟨31, .v 3, .v 4, true⟩),
    (0b11110_0000100_0000110_1101_1110010_0_1, .ddiv ⟨30, .v 4, .v 6, false⟩),
    (0b00011_0000011_0000100_1011_1110010_1_1, .frnd ⟨.ru, .v 3, .v 4, true⟩),
    (0b00010_0000110_0000100_1111_1110010_0_1, .drnd ⟨.rd, .v 6, .v 4, false⟩)] = true := by decide

theorem test_decode_copy : decodesAll 32 [
    (0b0_1001_0000_101_0000110_0000_1110011_1_1, .copy ⟨9, 5, .v 6, true⟩),
    (0b1_1010_0000111_00000000001_1110011_0_1, .copyt ⟨true, 10, .v 7, false⟩),
    (0b0_1011_0001000_0_101001_0010_1110011_1_1, .copym ⟨false, 11, .v 8, 0b101001, true⟩),
    (0b1_1100_0000_010_0001001_0011_1110011_0_1, .copyo ⟨true, 12, 2, .v 9, false⟩),
    (0b00000_1100001_00000000100_1110011_1_1, .copyw ⟨.s 1, true⟩),
    (0b00000_0000010_00000000101_1110011_0_1, .copyx ⟨.v 2, false⟩),
    (0b0_1101_0000000000_10_01_0110_1110011_1_1, .chinit ⟨13, .matrix, .copy, true⟩),
    (0b1_1110_0000011_00000000111_1110011_0_1, .chwait ⟨true, 14, .v 3, false⟩),
    (0b0_1111_0000100_00000001000_1110011_1_1, .chadv ⟨15, .v 4, true⟩),
    (0b0_0001_0000101_00000001001_1110011_0_1, .chpub ⟨1, .v 5, false⟩)] = true := by decide

theorem test_decode_copy2 : decodesAll 32 [
    (0b0_0010_0000000_0000110_1010_1110011_1_1, .chqry ⟨2, .v 6, true⟩),
    (0b0_0011_000000000000001011_1110011_0_1, .chfree ⟨3, false⟩),
    (0b000000000_110_0000111_1100_1110011_1_1, .pref ⟨6, .v 7, true⟩),
    (0b000000000_111_0001000_1101_1110011_0_1, .drop ⟨7, .v 8, false⟩),
    (0b0000_1_0000_101_00000001110_1110011_1_1, .tdesc ⟨true, 5, true⟩),
    (0b00010_0000000_0001001_1111_1110011_0_1, .cpstat ⟨2, .v 9, false⟩)] = true := by decide

theorem test_decode_compact : decodesAll 16 [
    (0b000101_11111_0000_0, .movCompact ⟨.v 5, 31⟩),
    (0b100011_11110_0001_0, .iaddCompact ⟨.s 3, 30⟩),
    (0b110001_11101_0010_0, .isubCompact ⟨.l 1, 29⟩),
    (0b110100_11100_0011_0, .imulCompact ⟨.vz, 28⟩),
    (0b000101_11011_0100_0, .andCompact ⟨.v 5, 27⟩),
    (0b100011_11010_0101_0, .orCompact ⟨.s 3, 26⟩),
    (0b110001_11001_0110_0, .xorCompact ⟨.l 1, 25⟩),
    (0b110100_11000_0111_0, .shlCompact ⟨.vz, 24⟩),
    (0b000101_10111_1000_0, .shruCompact ⟨.v 5, 23⟩),
    (0b100011_10110_1001_0, .shrsCompact ⟨.s 3, 22⟩)] = true := by decide

theorem test_decode_compact2 : decodesAll 16 [
    (0b110001_10101_1010_0, .faddCompact ⟨.l 1, 21⟩),
    (0b110100_10100_1011_0, .fsubCompact ⟨.vz, 20⟩),
    (0b000101_10011_1100_0, .fmulCompact ⟨.v 5, 19⟩),
    (0b100011_10010_1101_0, .fminCompact ⟨.s 3, 18⟩),
    (0b110001_10001_1110_0, .fmaxCompact ⟨.l 1, 17⟩),
    (0b110100_10000_1111_0, .selCompact ⟨.vz, 16⟩)] = true := by decide

theorem test_decode_reed : reedsAll [
    (0b00000001_0001_1111_00_10000000000000, .reedLdw ⟨1, 15, 0, 8192⟩),
    (0b00000010_0010_1110_01_10000000000001, .reedLdd ⟨2, 14, 1, 8193⟩),
    (0b00000011_0011_1101_10_10000000000010, .reedLdv ⟨3, 13, 2, 8194⟩),
    (0b00000100_0100_1100_11_10000000000011, .reedStw ⟨4, 12, 3, 8195⟩),
    (0b00000101_0101_1011_00_10000000000100, .reedStd ⟨5, 11, 0, 8196⟩),
    (0b00000110_0110_1010_01_10000000000101, .reedStv ⟨6, 10, 1, 8197⟩),
    (0b00000111_0010_0000_1000000000000001, .reedLi ⟨2, 32769⟩),
    (0b00001000_0011_0000_0001001000110100, .reedLis ⟨3, 4660⟩),
    (0b00001010_0100_0000_1111111111111111, .reedAddi ⟨4, 65535⟩),
    (0b00001110_0101_0000_0000000000011111, .reedShli ⟨5, 31⟩)] = true := by decide

theorem test_decode_reed2 : reedsAll [
    (0b00001111_0110_0000_0000000000000111, .reedShri ⟨6, 7⟩),
    (0b00001001_0011_1001_0000000000000000, .reedAdd ⟨3, 9⟩),
    (0b00001011_0100_1010_0000000000000000, .reedSub ⟨4, 10⟩),
    (0b00001100_0101_1011_0000000000000000, .reedAnd ⟨5, 11⟩),
    (0b00001101_0110_1100_0000000000000000, .reedOr ⟨6, 12⟩),
    (0b00010000_0100_1000_0000000000000001, .reedBeq ⟨4, 8, 1⟩),
    (0b00010001_0101_1001_0000000000000010, .reedBne ⟨5, 9, 2⟩),
    (0b00010010_0110_1010_0000000000000011, .reedBltu ⟨6, 10, 3⟩),
    (0b00010011_0110_0000_1111111111110000, .reedLoop ⟨6, 0xFFF0⟩),
    (0b00010100_00000000_0000000000000101, .reedCall 5)] = true := by decide

theorem test_decode_reed3 : reedsAll [
    (0b00010101_00000000_0000000001000000, .reedEnd 64),
    (0b00010110_00000000_1000000000000011, .reedFail 0x8003)] = true := by decide


/-! ### A small machine: one wave of a task on core (2, 1), its lanes 0 and 2 at the frontier, lane 3 behind -/

def r0 : WaveRef := ⟨3, 0, 0⟩

def thr (n pc : Nat) : Thread :=
  { tix := n, pc, v := (List.range 16).map fun j => BitVec.ofNat 32 (100 * j + n), a := [BitVec.ofNat 72 (0x1000 + 32 * n), 0x1020, 0x2000]
    p := [true, false, true], latch := [⟨7, true⟩, ⟨8, true⟩, ⟨9, true⟩, ⟨10, true⟩] }

def wv : Wave :=
  { wix := 0, stage := 0, slot := 0, lanes := [some (thr 0 4), none, some (thr 2 4), some (thr 3 8)], s := [5, 6, 7, 8] }

def cd : Code :=
  { size := 64, kernels := [⟨0, 2, 1, 0, 16, 0, 0, true⟩], stages := [⟨0, 3, 96, 1⟩, ⟨8, 3, 96, 1⟩], nodes := [0]
    safes := [(0, 5), (8, 1)], regions := [(0, 16)] }

/-- Regions of 256 bytes in scratch and the typed buffers, their channels not valid. -/
def sh : Share :=
  { c := 0, waves := [wv], scratch := [(3, 4)], wbuf := [(8, 9)]
    chans := (List.range 4).map fun n => { space := n, base := 0, size := 256, elem := 32 } }

def tk : Machine.Task := { tid := 3, lid := 5, key := 0x100000000, kernel := 0, st := .resident, x := 2, y := 1, block := 0x1000, shares := [sh, { c := 1 }] }

def la : Launch := { lid := 5, queue := 0, asid := 1, cr := 0, code := cd, rounds := [0, 0], admitted := 1 }

def st : State := { now := 123456, tasks := [tk], launches := [la], fresh := 100, issuer := some r0 }

/-- The wave stands ready, and a condition on its task, share, launch, wave, PC and frontier holds. -/
def met (s : State) (i : Instr) (f : Machine.Task → Share → Launch → Wave → Nat → Nat → Bool := fun _ _ _ _ _ _ => true) : Bool :=
  match s.task? 3, s.share? 3 0, s.launchOf? 3, s.wave? r0 with
  | some k, some h, some l, some w => match w.frontier with
    | some (pc, front) => ready s r0 i k w pc front && f k h l w pc front
    | none => false
  | _, _, _, _ => false

/-- The command's wave stands ready, some lane executes, the role allows it, and a condition holds. -/
def cmd (s : State) (i : Instr) (f : Cmd → Bool := fun _ => true) : Bool :=
  met s i fun k h _ w _ front => match (w.acting (i.takes w front)).head? with
    | some (ln, th) => roleAllows (s.stageOf k w.stage).role i && f ⟨s, r0, k, h, w, i.takes w front, ln, th⟩
    | none => false

/-- The state after an instruction. -/
def after (i : Instr) (s : State) : State := match exec i s with | .next t => t | _ => {}

/-- A lane of the wave after an instruction that goes on. -/
def laneAfter (s : State) (i : Instr) (ln : Nat) : Option Thread := ((after i s).wave? r0).bind (·.thread? ln)

/-- v-register n of lane 0 after the instruction. -/
def v0 (s : State) (i : Instr) (n : Nat) : Option Word := (laneAfter s i 0).map (·.rv n)

/-- Lane 0 holds words in v4, v5, … before the instruction. -/
def holding (ws : List Word) : State :=
  st.modWave r0 fun w => w.modLane 0 fun th => ws.zipIdx.foldl (fun th p => th.setV (4 + p.2) p.1) th

def t3 : TOp := ⟨.v 5, .v 4, .v 3, false, false, false⟩

def t64 : TOp := ⟨.v 6, .v 4, .v 8, false, false, false⟩

/-! ### Results of lane arithmetic -/

theorem test_integerResults_met : ([.iadd t3, .isub t3, .imul t3, .imad t3, .imulh t3, .imulhu t3, .idiv t3, .idivu t3, .irem t3,
    .iremu t3, .imin t3, .imax t3, .umin t3, .umax t3, .and t3, .or t3, .xor t3, .andn t3, .shl t3, .shru t3, .shrs t3, .bfx t3,
    .bfi t3, .sel t3, .iadd ⟨.l 3, .tix, .vz, true, true, true⟩] : List Instr).all (met st) = true := by decide

/-- R349's example operands. -/
theorem test_integers : v0 (holding [0xFFFFFFF9, 2]) (.idiv t3) 3 = some 0xFFFFFFFD ∧ v0 (holding [0xFFFFFFF9, 2]) (.irem t3) 3 = some 0xFFFFFFFF ∧
    v0 (holding [0xFFFFFFF9, 2]) (.idivu t3) 3 = some 0x7FFFFFFC ∧ v0 (holding [0xFFFFFFF9, 2]) (.iremu t3) 3 = some 1 ∧
    v0 (holding [0xFFFFFFF9, 2]) (.imulh t3) 3 = some 0xFFFFFFFF ∧ v0 (holding [0xFFFFFFF9, 2]) (.imulhu t3) 3 = some 1 := by decide

theorem test_division_corners : v0 (holding [0x80000000, 0xFFFFFFFF]) (.idiv t3) 3 = some 0x80000000 ∧
    v0 (holding [0x80000000, 0xFFFFFFFF]) (.irem t3) 3 = some 0 ∧ v0 (holding [5, 0]) (.idiv t3) 3 = some 0xFFFFFFFF ∧
    v0 (holding [5, 0]) (.irem t3) 3 = some 5 ∧ v0 (holding [5, 0]) (.idivu t3) 3 = some 0xFFFFFFFF ∧ v0 (holding [5, 0]) (.iremu t3) 3 = some 5 := by decide

/-- R316's and R391's examples; R349: the sum wraps. -/
theorem test_bit_fields : v0 (holding [0xABCD1234, 0x0810]) (.bfx t3) 3 = some 0xCD ∧
    v0 (st.modWave r0 fun w => w.modLane 0 fun th => ((th.setV 3 0xFFFFFFFF).setV 4 0x12).setV 5 0x0408) (.bfi t3) 3 = some 0xFFFFF2FF ∧
    v0 (holding [0xFFFFFFFF, 1]) (.umin t3) 3 = some 1 ∧ v0 (holding [0xFFFFFFFF, 1]) (.imin t3) 3 = some 0xFFFFFFFF ∧
    v0 (holding [0xFFFFFFFF, 1]) (.iadd t3) 3 = some 0 := by decide

/-- R37, R38: a guarded-off lane and a lane behind keep their registers, and every lane of the frontier goes on. -/
theorem test_guard : (laneAfter (st.modWave r0 fun w => w.modLane 0 fun th => th.setP 0 false) (.iadd ⟨.v 5, .v 4, .v 3, false, true, false⟩) 0).map
    (fun th => (th.rv 3, th.pc)) = some (300, 8) ∧ (laneAfter st (.iadd t3) 3).map (fun th => (th.rv 3, th.pc)) = some (303, 8) ∧
    (laneAfter st (.iadd ⟨.v 5, .v 4, .v 3, false, true, false⟩) 2).map (fun th => (th.rv 3, th.pc)) = some (904, 8) := by decide

theorem test_immediateResults_met : ([.iaddi ⟨0xFF, .v 1, .v 1, false, false⟩, .andi ⟨0xFF, .v 1, .v 1, false, false⟩,
    .ori ⟨0xFF, .v 1, .v 1, false, false⟩, .xori ⟨0xFF, .v 1, .v 1, false, false⟩, .shli ⟨0xFF, .v 1, .v 1, false, false⟩,
    .shrui ⟨0xFF, .v 1, .v 1, true, false⟩, .shrsi ⟨0xFF, .v 1, .vz, false, true⟩, .movi ⟨0x8000, .v 1, false⟩,
    .movhi ⟨0x8000, .v 1, false⟩, .mov ⟨.lane, .v 1, false, true, false⟩, .rng ⟨7, .v 2, .v 1, false, true, false⟩,
    .fsgn ⟨.nabs, .v 2, .v 1, false, false⟩, .bcnt ⟨.rev, .v 2, .v 1, false, false⟩] : List Instr).all (met st) = true := by decide

/-- R348's example; sign extension of immediates. -/
theorem test_immediates : v0 (holding [0xFFC00001]) (.fsgn ⟨.abs, .v 4, .v 3, false, false⟩) 3 = some 0x7FC00001 ∧
    v0 (holding [0]) (.iaddi ⟨0xFF, .v 4, .v 3, false, false⟩) 3 = some 0xFFFFFFFF ∧ v0 st (.movi ⟨0x8000, .v 3, false⟩) 3 = some 0xFFFF8000 ∧
    v0 (holding [0]) (.bcnt ⟨.clz, .v 4, .v 3, false, false⟩) 3 = some 32 ∧ v0 (holding [0x80000001]) (.bcnt ⟨.rev, .v 4, .v 3, false, false⟩) 3 = some 0x80000001 := by decide

theorem test_rejects_met : (0x030001A5 : BitVec 32) &&& 0x1FD = 0x1A5 ∧ 3 ≤ (0x030001A5 : BitVec 32).toNat / 2 ^ 24 ∧
    (0x0000808D : BitVec 32) &&& 0x01E3C7FD ≠ 0x8D ∧ decodeBytes (leBytes 4 0x030001A5) = some (.error .illegal) ∧
    decodeBytes (leBytes 4 0x0000808D) = some (.error .illegal) := by decide

theorem test_addressResults_met : ([.aadd ⟨.v 3, 0, 2, false⟩, .aaddi ⟨64, 1, 1, false⟩, .aput ⟨.hi, .v 1, 0, false⟩, .aput ⟨.lo, .v 1, 0, false⟩,
    .aget ⟨.mid, 0, .v 1, false, false⟩] : List Instr).all (met st) = true := by decide

/-- R308: the sum wraps at 2^72; R309: −1 is sign-extended. -/
theorem test_addresses : (laneAfter (st.modWave r0 fun w => w.modLane 0 fun th => th.setA 0 0xFFFFFFFFFFFFFFFFFF) (.aadd ⟨.v 1, 0, 2, false⟩) 0).map (·.ra 2) =
    some 99 ∧ (laneAfter st (.aaddi ⟨0xFFFF, 0, 1, false⟩) 0).map (·.ra 1) = some 0xFFF := by decide

theorem test_predicateResults_met : ([.icmp ⟨.v 6, .v 4, .lt, 1, false, false⟩, .icmpi ⟨0xFF, .v 5, .hs, 3, false⟩,
    .setp ⟨.andn, 3, 1, 2, false⟩, .setp ⟨.not, 0, 1, 0, false⟩] : List Instr).all (met st) = true := by decide

/-- R351: `icmpi.hs p3, v4, -1` tests v4 = 0xFFFFFFFF. -/
theorem test_predicates : (laneAfter (holding [0xFFFFFFFF]) (.icmpi ⟨0xFF, .v 4, .hs, 3, false⟩) 0).map (·.rp 3) = some true ∧
    (laneAfter (holding [0xFFFFFFFE]) (.icmpi ⟨0xFF, .v 4, .hs, 3, false⟩) 0).map (·.rp 3) = some false ∧
    (laneAfter (holding [0xFFFFFFFE]) (.icmpi ⟨0xFF, .v 4, .lt, 3, false⟩) 0).map (·.rp 3) = some true := by decide

theorem test_comparesAndMinima_met : ([.fcmp ⟨.v 6, .v 4, .uo, 1, false, false⟩, .dcmp ⟨.v 6, .v 4, .ge, 2, false, false⟩, .fmin t3, .fmax t3,
    .dmin t64, .dmax t64] : List Instr).all (met st) = true ∧
    (Fmt.f32.unpack 0x7FC00000).isNaN = true ∧ (Fmt.f32.unpack 0x7F800001).isSig = true ∧ (Fmt.f32.unpack 0x3F800000).isNaN = false ∧
    (Fmt.f32.cmp .lt 0x3F800000 0x40000000).1 = true := by decide

/-- R92: NaN operands and signed zeros. -/
theorem test_minima : Fmt.f32.minmax false 0x7FC00001 0x3F800000 = (0x3F800000, 0) ∧ Fmt.f32.minmax true 0x7F800001 0x3F800000 = (0x3F800000, fNV) ∧
    Fmt.f32.minmax false 0x7FC00001 0x7FC00002 = (0x7FC00000, 0) ∧ Fmt.f32.minmax false 0 0x80000000 = (0x80000000, 0) := by decide

theorem test_floatResults_met : ([.fadd t3, .fsub t3, .fmul t3, .fma t3, .badd2 t3, .bmul2 t3, .bfma2 t3, .dadd t64, .dsub t64, .dmul t64,
    .dfma t64] : List Instr).all (met st) = true := by decide

/-- 1.5 + 2.25 = 3.75; the pair of a binary64 sum; d is read first (1 × 2 + 3 = 5). -/
theorem test_floats : v0 (holding [0x3FC00000, 0x40100000]) (.fadd t3) 3 = some 0x40700000 ∧
    v0 (holding [0, 0x3FF00000, 0, 0x40000000]) (.dadd t64) 9 = some 0x40080000 ∧
    v0 (st.modWave r0 fun w => w.modLane 0 fun th => ((th.setV 3 0x40400000).setV 4 0x3F800000).setV 5 0x40000000) (.fma t3) 3 = some 0x40A00000 := by decide

theorem test_specialResults_met : ([.rsqa ⟨.v 4, .v 3, false⟩, .rcpa ⟨.v 4, .v 3, false⟩, .ex2a ⟨.v 4, .v 3, false⟩, .lg2a ⟨.v 4, .v 3, false⟩,
    .sina ⟨.v 4, .v 3, false⟩, .cosa ⟨.v 4, .v 3, false⟩, .tanha ⟨.v 4, .v 3, false⟩, .fsqrt ⟨.v 4, .v 3, false⟩, .fex2 ⟨.v 4, .v 3, false⟩,
    .flg2 ⟨.v 4, .v 3, false⟩, .dsqrt ⟨.v 4, .v 2, false⟩, .drsq ⟨.v 4, .v 2, true⟩, .fdiv ⟨31, .v 4, .v 3, false⟩, .ddiv ⟨30, .v 4, .v 2, false⟩,
    .frnd ⟨.rd, .v 4, .v 3, false⟩, .drnd ⟨.ru, .v 4, .v 2, false⟩] : List Instr).all (met st) = true := by decide

/-- √4 = 2; 1 / 4 = 0.25; 2^3 = 8; log2 8 = 3. -/
theorem test_special : v0 (holding [0x40800000]) (.fsqrt ⟨.v 4, .v 3, false⟩) 3 = some 0x40000000 ∧
    v0 (holding [0x3F800000, 0x40800000]) (.fdiv ⟨5, .v 4, .v 3, false⟩) 3 = some 0x3E800000 ∧
    v0 (holding [0x40400000]) (.fex2 ⟨.v 4, .v 3, false⟩) 3 = some 0x41000000 ∧ v0 (holding [0x41000000]) (.flg2 ⟨.v 4, .v 3, false⟩) 3 = some 0x40400000 := by decide +kernel

theorem test_compactResults_met : ([.movCompact ⟨.v 6, 4⟩, .iaddCompact ⟨.v 6, 4⟩, .isubCompact ⟨.v 6, 4⟩, .imulCompact ⟨.v 6, 4⟩, .andCompact ⟨.v 6, 4⟩,
    .orCompact ⟨.v 6, 4⟩, .xorCompact ⟨.v 6, 4⟩, .shlCompact ⟨.v 6, 4⟩, .shruCompact ⟨.v 6, 4⟩, .shrsCompact ⟨.v 6, 4⟩, .faddCompact ⟨.v 6, 4⟩,
    .fsubCompact ⟨.v 6, 4⟩, .fmulCompact ⟨.v 6, 4⟩, .fminCompact ⟨.v 6, 4⟩, .fmaxCompact ⟨.s 6, 4⟩, .selCompact ⟨.l 3, 31⟩] : List Instr).all
      (met st) = true := by decide

/-- R31: d is both operand and destination, and the PC moves by 2. -/
theorem test_compact : (laneAfter st (.isubCompact ⟨.v 6, 4⟩) 2).map (fun th => (th.rv 4, th.pc)) = some (0xFFFFFF38, 6) := by decide

theorem test_conversionResults_met : ([.cvtF32D ⟨.rne, .v 4, .v 2, false⟩, .cvtDF32 ⟨.rne, .v 4, .v 2, false⟩, .cvtB16F32 ⟨.rz, .v 4, .v 2, false⟩,
    .cvtH16F32 ⟨.rs, .v 4, .v 2, false⟩, .cvtS32F32 ⟨.rd, .v 4, .v 2, false⟩, .cvtZ32F32 ⟨.ru, .v 4, .v 2, false⟩, .cvtF32S32 ⟨.rne, .v 4, .v 2, false⟩,
    .cvtF32Z32 ⟨.rne, .v 4, .v 2, false⟩, .cvtS64D ⟨.rne, .v 4, .v 2, false⟩, .cvtDS64 ⟨.rne, .v 4, .v 2, false⟩, .cvtF32B16 ⟨true, .rne, .v 4, .v 2, false⟩,
    .cvtF32H16 ⟨false, .rne, .v 4, .v 2, false⟩] : List Instr).all (met st) = true ∧
    ([.cvtN8F32 ⟨1, .rne, .v 4, .v 2, false⟩, .cvtF32N8 ⟨1, .rne, .v 4, .v 2, false⟩, .cvtQ8F32 ⟨.rne, .v 4, .v 2, false⟩,
    .cvtF32Q8 ⟨.rne, .v 4, .v 8, false⟩] : List Instr).all (fun i => met (st.modWave r0 fun w => { w with fmt := [0, 0x9075C] }) i fun _ _ _ w _ _ =>
      nfmtOk 2 (w.rfmt (1 : Fin 4)) && (w.rs 12).extractLsb' 16 16 == 0) = true := by decide

/-- 3.0 in binary64 converts to 3 and to binary32; −1.5 converts to −2 downward. -/
theorem test_conversions : v0 (holding [0, 0x40080000]) (.cvtF32D ⟨.rne, .v 4, .v 3, false⟩) 3 = some 0x40400000 ∧
    v0 (holding [0, 0x40080000]) (.cvtS64D ⟨.rne, .v 4, .v 2, false⟩) 2 = some 3 ∧
    v0 (holding [0xBFC00000]) (.cvtS32F32 ⟨.rd, .v 4, .v 3, false⟩) 3 = some 0xFFFFFFFE := by decide

/-! ### Floating point against exact values -/

theorem test_roundsToNearestEven_met : Fmt.f32.round .rne false 16777217 0 = (0x4B800000, fNX) ∧ (16777217 : Nat) ≠ 0 ∧
    Fmt.f32.round .rne true 3 127 = (0xFF800000, fOF ||| fNX) := by decide

theorem test_arithmeticRoundsOnce_met : (∃ m e, Fmt.f32.unpack 0x3F800000 = .fin false m e) ∧ (∃ m e, Fmt.f32.unpack 0xBF800000 = .fin true m e) ∧
    (FV.fin false 1 0).toRat + (FV.fin false 1 1).toRat ≠ 0 ∧ (FV.fin false 1 0).toRat + (FV.fin true 1 0).toRat = 0 := by
  refine ⟨⟨_, _, rfl⟩, ⟨_, _, rfl⟩, ?_, ?_⟩ <;> norm_num [FV.toRat]

theorem test_naNsAreCanonical_met : (Fmt.f32.unpack (Fmt.f32.add 0x7F800000 0xFF800000).1).isNaN = true ∧
    (Fmt.f32.unpack (cvtNarrow .f64 .f32 .rne 0x7FF8000000000001).1).isNaN = true ∧ Fmt.f32.add 0x7F800000 0xFF800000 = (0x7FC00000, fNV) := by decide

/-! ### Core-local memory -/

theorem test_localLoads_met :
    (let f : SOp := ⟨1, .s 0, .v 4, .b128, false, false⟩
     let st := st.modWave r0 fun w => { w with s := [224] }
     met st (.lds f) fun k h _ w _ front => st.unsampled (st.coreXY k 0) &&
       (w.acting ((Instr.lds f).takes w front)).all (localOk st k h w r0 0 16 false false (offS f w))) = true ∧
    (let f : QOp := ⟨7, .wbuf, .vz, .v 4, .b32, false, false⟩
     met st (.ldb f) fun k h _ w _ front => st.unsampled (st.coreXY k 0) &&
       (w.acting ((Instr.ldb f).takes w front)).all (localOk st k h w r0 3 4 false false (offQ f w))) = true := by decide

/-- R137: bytes are read lowest address first; the destination is pending and the load under way. -/
theorem test_lds : (((after (.lds ⟨0, .vz, .v 4, .b32, false, false⟩) st).wave? r0).map fun w => (w.pend, w.loads.map (·.words))) =
    some ([⟨4, 5, 0⟩], [[0x04000000], [0x04000000]]) := by decide

theorem test_localStores_met :
    (let f : SOp := ⟨0, .tix, .v 4, .b8, false, false⟩
     met st (.sts f) fun k h _ w _ front => st.unsampled (st.coreXY k 0) &&
       (w.acting ((Instr.sts f).takes w front)).all (localOk st k h w r0 0 1 true false (offS f w))) = true ∧
    (let f : QOp := ⟨7, .cbuf, .vz, .v 4, .b64, true, false⟩
     met st (.stb f) fun k h _ w _ front => st.unsampled (st.coreXY k 0) &&
       (w.acting ((Instr.stb f).takes w front)).all (localOk st k h w r0 2 8 true false (offQ f w))) = true ∧
    (let f : SatomOp := ⟨31, .vz, .v 4, .addS32, false, false⟩
     met st (.satom f) fun k h _ w _ front => st.unsampled (st.coreXY k 0) &&
       (w.acting ((Instr.satom f).takes w front)).all (localOk st k h w r0 0 4 true true (offSatom f w))) = true := by decide

/-- R387: a byte store writes the low byte at each lane's offset; R376: each lane adds in turn. -/
theorem test_local_stores : (((after (.sts ⟨0, .tix, .v 2, .b8, false, false⟩) st).share? 3 0).map (·.scratch)) =
      some [(0, 200), (2, 202), (3, 4)] ∧
    (((after (.satom ⟨0, .vz, .wix, .addS32, false, false⟩) (st.modWave r0 fun w => w)).share? 3 0).map (·.scratch)) = some [(3, 4)] ∧
    (((after (.satom ⟨2, .vz, .v 1, .addS32, false, false⟩) st).share? 3 0).map (·.scratch)) = some [(3, 4), (8, 202)] := by decide

theorem test_readAfterWrite_met : Mem.wf [(3, 4)] = true ∧ Mem.write [(3, 4)] 2 [1, 0, 5] = [(2, 1), (4, 5)] ∧
    Mem.read [(2, 1), (4, 5)] 2 3 = [1, 0, 5] := by decide

/-! ### Device memory -/

def rwx (cell : Bool) : Attr := ⟨true, true, true, 0, 0, cell, false, false, 0⟩

def entry (ag : Agent) (attr : Attr) : TlbEntry := { ag, asid := 1, group := 0, base := 0x100000, mask := 0xFFFF, attr, expiry := 1000000 }

/-- The L1 of the core translates VA 0x0–0xFFFFF to PA 0x100000, and holds the lines of VA 0x1000–0x107F. -/
def stG (cell : Bool) : State :=
  { st with tlb := [entry (.l1 2 1) (rwx cell), entry (.copyEngine 2 1) (rwx false), entry .headworks (rwx false)]
            cores := [{ x := 2, y := 1, l1 := [⟨3, 0x4040, (List.range 64).map (BitVec.ofNat 8)⟩, ⟨3, 0x4041, List.replicate 64 7⟩] }] }

theorem test_globalLoads_met :
    (let f : MOp := ⟨1, 0, .v 4, .b64, false, false⟩
     met (stG false) (.ldg f) fun k _ l w _ front => (stG false).unsampled (2, 1) && (stG false).mayTransfer l.part && !l.checked &&
       (w.acting ((Instr.ldg f).takes w front)).all (deviceOk (stG false) k l w r0 8 false true fun _ th => areaM f th)) = true ∧
    (let f : NOp := ⟨.tix, 1, .v 4, .b8, true, false⟩
     met (stG false) (.ldgx f) fun k _ l w _ front => (stG false).noEarlier k &&
       (w.acting ((Instr.ldgx f).takes w front)).all (deviceOk (stG false) k l w r0 1 false true fun ln th => areaN f w ln th)) = true ∧
    (let f : LdcOp := ⟨3, .vz, .v 4, false⟩
     met (stG false) (.ldc f) fun k _ l w _ front => (w.acting ((Instr.ldc f).takes w front)).all fun p =>
       deviceOk (stG false) k l w r0 4 false false (fun ln th => (k.block.toNat + ldcOff f w ln th) % 2 ^ 72) p &&
       ldcOff f w p.1 p.2 % 4 == 0 && ldcOff f w p.1 p.2 + 4 ≤ ((stG false).kernelOf k).argBytes) = true := by decide

/-- R355: lane 2's load at 0x1040 + 8 of a line of sevens, lane 0's at 0x1008. -/
theorem test_ldg : (((after (.ldg ⟨1, 0, .v 4, .b64, false, false⟩) (stG false)).wave? r0).map fun w => w.loads.map (·.words)) =
    some [[0x0B0A0908, 0x0F0E0D0C], [0x07070707, 0x07070707]] := by decide

theorem test_globalStores_met :
    (let f : MOp := ⟨1, 0, .v 4, .b64, false, false⟩
     met (stG false) (.stg f) fun k _ l w _ front => !(stG false).tasks.any (fun u => u.parent == some k.tid && !u.joined) &&
       (w.acting ((Instr.stg f).takes w front)).all fun p =>
         deviceOk (stG false) k l w r0 8 true true (fun _ th => areaM f th) p && !k.exclusive (areaM f p.2)) = true ∧
    (let f : NOp := ⟨.tix, 1, .v 4, .b8, true, false⟩
     met (stG false) (.stgx f) fun k _ l w _ front => (w.acting ((Instr.stgx f).takes w front)).all fun p =>
         deviceOk (stG false) k l w r0 1 true true (fun ln th => areaN f w ln th) p && !k.exclusive (areaN f w p.1 p.2)) = true := by decide

/-- Stores of 8 and of 16 bytes to host memory; a byte under a local store that another path may still see. -/
theorem test_hostStores_met : (st.hostMem.wf && st.halves.isEmpty && [8, 16].all fun n => (List.replicate n (5 : Byte)).length == n) = true ∧
    (sh.inChannel 0 4 2 = false ∧ oldBytes 1 0 5 sh.older = [] ∧ 4 ≤ 5 ∧ 5 < 4 + 2) := by decide

/-- R123: the later half of a 16-byte store to the host lands. R151: another path may see the byte under a local store. -/
theorem test_host_store : (let t := { (st.hostWrite r0 0x20 [5, 6]) with halves := [⟨r0, 1, 0x22, [7]⟩] }
    (t.hostMem, (t.landWhere fun _ => true).hostMem)) = ([(0x20, 5), (0x21, 6)], [(0x20, 5), (0x21, 6), (0x22, 7)]) ∧
    oldBytes 1 0 5 (sh.put 0 (0, 0) 0 4 [7, 8]).older = [0] ∧ oldBytes 0 0 5 (sh.put 0 (0, 0) 0 4 [7, 8]).older = [] := by decide +kernel

/-- R141: the bytes stand in the task's shadow lines, not in device memory. -/
theorem test_stg : (let t := after (.stg ⟨0, 0, .v 1, .b8, false, false⟩) (stG false)
    (t.mem, (t.task? 3).map (·.shadow))) = ([], some [(0x101000, 100), (0x101040, 102)]) := by decide

/-! ### Cells -/

theorem test_cellOperationsSent_met :
    ([.cadd ⟨1, 0, .v 4, .f64, false, false⟩, .ctwo ⟨1, 0, .v 4, .f32, false, false⟩, .cmin ⟨1, 0, .v 4, .z32, false, false⟩,
      .cmax ⟨1, 0, .v 4, .f32, true, false⟩, .cord ⟨1, 0, .v 4, .b128, false, false⟩, .caff ⟨1, 0, .v 4, .f64, false, false⟩,
      .cbit ⟨1, 0, .v 4, .xor64, false, false⟩] : List Instr).all (fun i => met (stG true) i fun k _ l w _ front =>
        (stG true).unsampled (2, 1) && (stG true).mayTransfer l.part && !(w.ascending (i.takes w front)).isEmpty &&
        (w.ascending (i.takes w front)).all fun p =>
          cellOk (stG true) k l r0 8 true (fun _ th => (addrAdd (th.ra 0) 32).toNat) p && p.2.cseq != 0xFFFFFFFF) = true := by decide

/-- R162, R163: two operations in lane order, with their stamps. -/
theorem test_cadd : ((after (.cadd ⟨0, 0, .v 1, .s32, false, false⟩) (stG true)).flight.map fun o => (o.key, o.tix, o.cseq, o.pa, o.operand)) =
    [(0x100000000, 0, 0, 0x101000, 100), (0x100000000, 2, 0, 0x101040, 102)] := by decide

theorem test_cellLoads_met : ([0, 1].all fun m =>
    let s := (stG true).modLaunch 5 fun l => { l with admitted := m }
    let f : EOp BitTy := ⟨1, 0, .v 4, .b64, false, false⟩
    met s (.ldct f) (fun k _ l w _ front => s.unsampled (2, 1) && s.mayTransfer l.part && !l.checked &&
      (w.acting ((Instr.ldct f).takes w front)).all (cellOk s k l r0 8 false fun _ th => areaE f th)) &&
    met s (.ldcs f) (fun k _ l w _ front => decide (k.key.toNat % 2 ^ 32 = 0) && !k.hasFatal &&
      (w.acting ((Instr.ldcs f).takes w front)).all (cellOk s k l r0 8 false fun _ th => areaE f th))) = true ∧
    (tk.key.toNat ≤ (stG true).watermark 5) ∧
    (((stG true).modLaunch 5 fun l => { l with admitted := 0 }).watermark 5 < tk.key.toNat) := by decide

theorem test_directWrites_met :
    (let f : EOp ModwTy := ⟨0, 0, .v 4, .b64, false, false⟩
     met (stG false) (.modw f) fun k _ l w _ front => l.arena == 0 && (stG false).mayTransfer l.part &&
       (w.acting ((Instr.modw f).takes w front)).all fun p =>
         deviceOk (stG false) k l w r0 8 true false (fun _ th => areaE f th) p && !l.checked &&
         (stG false).tagAt ((entryOf (stG false) k l r0 (areaE f p.2)).pa (areaE f p.2) / 64) ==
           (stG false).pageTag l (entryOf (stG false) k l r0 (areaE f p.2)).attr.buf) = true := by decide

/-- R144: MODW's bytes stand in device memory. -/
theorem test_modw : (after (.modw ⟨0, 0, .v 1, .b32, false, false⟩) (stG false)).mem = [(0x101000, 100), (0x101040, 102)] := by decide

/-! ### Cross-lane instructions and system registers -/

theorem test_crossLaneMoves_met :
    (let f : WOp (BitVec 4) := ⟨.sreg 0, .v 4, .v 3, 1, false⟩
     met st (.shfl f) fun _ _ _ w _ front => w.memberMask f.m ((Instr.shfl f).takes w front)) = true ∧
    (let f : WOp (BitVec 4) := ⟨.all, .v 4, .v 3, 0, false⟩
     met st (.shfl f) fun _ _ _ w _ front => w.memberMask f.m ((Instr.shfl f).takes w front)) = true ∧
    ([true, false].all fun b => let f : RdlaneOp := ⟨2, .v 4, 15, b, false⟩
     met st (.rdlane f) fun _ _ _ w _ _ => (w.thread? f.ln).isSome) = true ∧
    ([WsortFn.ascF32, .descS32].all fun fn => let f : WOp WsortFn := ⟨.sreg 0, .v 4, .v 6, fn, false⟩
     met st (.wsort f) fun _ _ _ w _ front => w.memberMask f.m ((Instr.wsort f).takes w front) &&
       without (w.members f.m) ((Instr.wsort f).takes w front) == 0) = true := by decide

/-- R380: lane 0 reads lane 2's operand through its d operand's number. -/
theorem test_shfl : v0 (holding [0, 0]) (.shfl ⟨.sreg 0, .v 4, .v 3, 2, false⟩) 3 = some 402 ∧
    ((after (.rdlane ⟨2, .v 4, 15, false, false⟩) st).wave? r0).map (·.rs 15) = some 402 := by decide

theorem test_crossLaneReductions_met :
    ([Opnd.v 4, .s 4, .vz].all fun d => let f : VoteOp := ⟨.sreg 0, 0, d, .ballot, false⟩
     met st (.vote f) fun _ _ _ w _ front => w.memberMask f.m ((Instr.vote f).takes w front)) = true ∧
    ([Opnd.v 4, .s 4, .vz].all fun d => let f : WOp WredFn := ⟨.sreg 0, .v 4, d, .addF64, false⟩
     met st (.wred f) fun _ _ _ w _ front => w.memberMask f.m ((Instr.wred f).takes w front)) = true ∧
    (let f : WOp WscanFn := ⟨.sreg 0, .v 4, .v 6, .exclAddS32, false⟩
     met st (.wscan f) fun _ _ _ w _ front => w.memberMask f.m ((Instr.wscan f).takes w front)) = true := by decide

/-- R115, R116: sums over the members of lanes 0 and 2: 400 + 402. -/
theorem test_wred : v0 st (.wred ⟨.sreg 0, .v 4, .v 6, .addS32, false⟩) 6 = some 802 ∧
    v0 st (.wscan ⟨.sreg 0, .v 4, .v 6, .exclAddS32, false⟩) 6 = some 0 ∧ v0 st (.wscan ⟨.sreg 0, .v 4, .v 6, .inclAddS32, false⟩) 6 = some 400 ∧
    v0 st (.vote ⟨.sreg 0, 0, .v 6, .ballot, false⟩) 6 = some 5 := by decide

/-- A valid channel 1 of elements of 32 bytes: 70 bytes published, 64 consumed. -/
def stC : State :=
  (st.modShare 3 0 fun h => h.modChan 1 fun c => { c with valid := true, p := 70, q := 64 }).modWave r0 fun w =>
    { w with obs := [(1, 140, 64)], lastTag := 9, s := [5, 0, 128, 1, 8, 64] }

theorem test_systemRegisters_met : ([0x00, 0x06, 0x0C, 0x26, 0x31, 0x3F].all fun n => met stC (.sread ⟨n, .v 4, false, false⟩)) = true ∧
    ([0x0C, 0x0D, 0x0E, 0x10, 0x1F, 0x26].all fun n => met stC (.swrite ⟨n, .v 4, true⟩)) = true := by decide

/-- R385: k.lane, k.tix and k.wix of lane 2; a mode above 4 counts as 0; k.fault is written in parts. -/
theorem test_system_registers : (laneAfter st (.sread ⟨0x01, .v 4, false, false⟩) 2).map (·.rv 4) = some 2 ∧
    (laneAfter st (.swrite ⟨0x0D, .wix, false⟩) 2).map (·.rmode) = some 0 ∧
    (laneAfter (holding [0x1234]) (.swrite ⟨0x26, .v 4, false⟩) 0).map (fun th => (th.faults, th.lastFault)) = some (0x12, 0x34) ∧
    ((after (.swrite ⟨0x10, .v 1, false⟩) st).wave? r0).map (·.rfmt 0) = some 100 := by decide

/-! ### Control -/

/-- Targets 40 in a2 and a7 of lane 0, and an odd, too large or wide one in lane 2. -/
def stJ (x : Addr) : State := st.modWave r0 fun w => w.modLanes 5 fun ln th => (th.setA 2 (if ln = 0 then 40 else x)).setA 7 (if ln = 0 then 62 else x)

theorem test_transfers_met : ([.br ⟨10, false, 0, false⟩, .br ⟨500, true, 1, true⟩, .jmp ⟨-2, false⟩, .jmp ⟨0, true⟩, .call ⟨29, false⟩, .ret ⟨true, false⟩,
    .jmpi ⟨2, false⟩] : List Instr).all (fun i => met (stJ 40) i fun k _ l w _ front =>
      !l.haltFatal && k.prop == none && k.goesOn r0 w (i.takes w front)) = true ∧
    [(41 : Addr), 64, 0x10000000000000028].all (fun x => met (stJ x) (.jmpi ⟨2, false⟩) fun k _ l w _ front => badTarget l.code.size x.toNat &&
      !badTarget l.code.size 40 && !l.haltFatal && k.prop == none && k.goesOn r0 w ((Instr.jmpi ⟨2, false⟩).takes w front)) = true ∧
    badTarget 64 (-2) = true ∧ badTarget 64 64 = true ∧ badTarget 64 62 = false := by decide

/-- R28: lane 0 moves, lane 2 takes FETCH and keeps its PC. -/
theorem test_jmpi : [(41 : Addr), 64, 0x10000000000000028].all (fun x =>
      (laneAfter (stJ x) (.jmpi ⟨2, false⟩) 0).map (fun th => (th.pc, th.park)) == some (40, .runs) &&
      (laneAfter (stJ x) (.jmpi ⟨2, false⟩) 2).map (fun th => (th.pc, th.park)) == some (4, .fatal)) = true ∧
    (laneAfter st (.call ⟨16, false⟩) 0).map (fun th => (th.pc, th.ra 7)) = some (36, 8) := by decide

theorem test_threadsLeave_met : met st (.yield ⟨false, false⟩) = true ∧
    (met st (.exit ⟨false, false⟩) fun k _ _ _ _ _ => st.noBarWaits k.lid && !st.fatalIn k) = true ∧
    (met st (.reform ⟨false, false⟩) fun k _ _ w pc front => w.loads.isEmpty && !st.fatalIn k &&
      ((w.acting ((Instr.reform ⟨false, false⟩).takes w front)).foldlM (fun bs p => fileBin bs 3 0 w.stage (pc + 4) st.now
        (st.filedAs r0 k pc p.2)) (st.core 2 1).bins).isSome) = true := by decide

/-- R343, R373: lanes 0 and 2 leave the wave; REFORM files them in one bin. -/
theorem test_exit : (laneAfter st (.exit ⟨false, false⟩) 0) = none ∧ (laneAfter st (.exit ⟨false, false⟩) 3).isSome = true ∧
    (((after (.reform ⟨false, false⟩) st).core 2 1).bins.map fun b => (b.pc, b.entries.map (·.th.tix))) = [(8, [0, 2])] := by decide

/-- The launch runs in a partition under a debugger, and PC 4 is a safe point. -/
def stD (pass : Bool) : State :=
  { st.modWave r0 (fun w => { w with pass }) with
    dev := { st.dev with debug := [{ p := 0, enable := true }] }, launches := [{ la with code := { cd with safes := [(4, 4)] } }] }

theorem test_trapsAndBreakpoints_met :
    (met st (.trap ⟨7, false, false⟩) fun k _ l w _ front => !l.haltFatal && k.prop == none && k.goesOn r0 w ((Instr.trap ⟨7, false, false⟩).takes w front)) = true ∧
    (met st (.bkpt ⟨false, true⟩) fun k _ l w pc front => !((st.debug l.part).enable && true && (safeAt l.code pc).isSome) && !l.haltFatal &&
      k.prop == none && k.goesOn r0 w ((Instr.bkpt ⟨false, true⟩).takes w front)) = true ∧
    ([true, false].all fun p => met (stD p) (.bkpt ⟨false, true⟩) fun _ _ l w pc _ =>
      ((stD p).debug l.part).enable && (safeAt l.code pc).isSome && w.pass == p) = true := by decide

/-- R262, R264: the record of TRAP 7; a resumed BKPT is counted. -/
theorem test_trap : ((after (.trap ⟨7, false, false⟩) st).launches.map fun l => l.records.map fun x => (x.code, x.lane, x.va, x.fatal)) =
      [[(0x0F, 0, 7, true), (0x0F, 2, 7, true)]] ∧
    (laneAfter (stD true) (.bkpt ⟨false, true⟩) 0).map (fun th => (th.faults, th.lastFault, th.pc)) = some (1, 0x10, 8) ∧
    ((after (.bkpt ⟨false, true⟩) (stD false)).launches.map (·.stopReq)) = [true] := by decide

/-! ### Barriers and fences -/

/-- Stages of one wave on two cores, every lane holding a thread. -/
def full (w pc : Nat) : List (Option Thread) := (List.range 32).map fun l => some { tix := w * 32 + l, pc }

def stB : State :=
  let wave := fun (wix n pc : Nat) => ({ wix, stage := wix, slot := 0, lanes := full n pc, s := [5, 6, 7, 8] } : Wave)
  let bar : Bar := { lvl := .core, n := 3, key := 0, phase := 7, who := [32], arrived := [(1, 1)], flags := 3 }
  { st with tasks := [{ tk with shares := [{ sh with waves := [wave 0 0 4, wave 1 1 8], bars := [bar] }, { c := 1, waves := [wave 0 2 4, wave 1 3 8] }] }] }

/-- As stB; for a wave barrier lane 5 is inside a page fault, and a stage has two waves. -/
def stB' (l : Level) : State :=
  match l with
  | .wave => stB.modWave r0 fun w => w.modLane 5 fun th => { th with park := .fault 1 2 3 }
  | .stage => { stB with launches := [{ la with code := { cd with stages := [⟨0, 3, 96, 2⟩, ⟨8, 3, 96, 1⟩] } }] }
  | .core => stB
  | .polder => stB
  | .launch => stB

def late (u : State) (k : Machine.Task) (b : BarName) : Bool :=
  ((u.group k 0 b).any fun p => !(u.missing p b).isEmpty || (u.share? p.1 p.2).isNone) && u.noneDead k.lid

theorem test_barrierArrivals_met : ([Level.wave, .stage, .core, .polder, .launch].all fun l =>
    let s := stB' l
    met s (.bara ⟨0, 3, l, false⟩) (fun k h _ w pc front =>
      let b : BarName := ⟨l, 3, 0, barKey l w⟩
      (Instr.bara ⟨0, 3, l, false⟩).takes w front != 0 && (s.barFault k h w pc b true).isNone && w.fenced (arriveScope l) &&
      late (s.arrive r0 ((Instr.bara ⟨0, 3, l, false⟩).takes w front) b) k b) &&
    met s (.bar ⟨0, some 4, 3, l, true⟩) (fun k h _ w pc front =>
      let b : BarName := ⟨l, 3, 0, barKey l w⟩
      let m := (Instr.bar ⟨0, some 4, 3, l, true⟩).takes w front
      m != 0 && (s.barFault k h w pc b true).isNone && w.fenced (arriveScope l) && !s.fatalIn k &&
      late ((s.arrive r0 m b).barWait r0 m pc (h.bar b).phase b (some 4)) k b)) = true := by decide +kernel

/-- R79: the arrival of wave 0 joins that of wave 1 in phase 7, its threads wait. -/
theorem test_bar : (let t := after (.bar ⟨0, some 4, 3, .core, false⟩) stB
    ((t.share? 3 0).map fun h => h.bars.map fun b => (b.phase, b.who.length, b.flags), (t.wave? r0).map fun w => (w.barWaits.map (·.phase), w.recs.map (·.phase)))) =
    (some [(7, 33, 3)], some ([7], [7])) := by decide +kernel

def stW (d : Option (BitVec 5)) (l : Level) : State :=
  stB.modWave r0 fun w => { w with recs := [{ lvl := l, n := 3, shape := 0, phase := 9, done := d, clock := [((1, 1), 5)] }] }

theorem test_barrierWaits_met : ([Level.wave, .stage, .core, .polder, .launch].all fun l => [some (3 : BitVec 5), none].all fun d =>
    let s := stW d l
    met s (.barw ⟨0, some 4, 3, l, false⟩) (fun k h _ w pc front =>
      let b : BarName := ⟨l, 3, 0, barKey l w⟩
      let m := (Instr.barw ⟨0, some 4, 3, l, false⟩).takes w front
      m != 0 && (s.barFault k h w pc b false).isNone && !s.fatalIn k &&
      match w.recs.find? fun y => y.lvl == l && y.n == 3 with
      | some x => x.shape == 0 && x.done == d && (d.isSome || (s.barWait r0 m pc x.phase b (some 4)).noneDead k.lid)
      | none => false)) = true := by decide +kernel

theorem test_barw : ((after (.barw ⟨0, some 2, 3, .core, false⟩) (stW (some 3) .core)).wave? r0).map (·.rs 2) = some 3 := by decide +kernel

/-- Every thread has arrived at the barrier; two waves wait in its phase. -/
def stBD (l : Level) : State :=
  stB.modShare 3 0 fun h => { h with
    bars := [{ lvl := l, n := 3, key := 0, phase := 0xFFFFFFFF, who := List.range 64, members := [1, 2], arrived := [(1, 1)], flags := 3 }]
    waves := h.waves.map fun w => { w with barWaits := [{ lvl := l, n := 3, shape := 0, phase := 0xFFFFFFFF, dest := some 2, mask := 0xF, pc := 4 + 4 * w.wix }] } }

theorem test_barrierCompletion_met : ([Level.wave, .stage, .core].all fun l =>
    (stBD l).missing (3, 0) ⟨l, 3, 0, 0⟩ == [] && ((stBD l).task? 3).any (fun k => k.races.isEmpty) &&
    ((stBD l).share? 3 0).any (fun h => decide (h.waves.map (·.wix)).Nodup)) = true := by decide +kernel

/-- R79: the phase wraps modulo 2^32, and both waves go on with the flags. -/
theorem test_completion : (let t := (stBD .core).tryComplete 3 0 ⟨.core, 3, 0, 0⟩
    ((t.share? 3 0).map (fun h => h.bars.map fun b => (b.phase, b.who)), (t.wave? r0).map fun w => (w.barWaits.length, w.rs 2, (w.thread? 0).map (·.pc), (w.thread? 4).map (·.pc)))) =
    (some [(0, [])], some (0, 3, some 8, some 4)) := by decide +kernel

/-- Stores that are not yet performed, at the core and at a slice. -/
def stF (f : Wave → Wave) : State := st.modWave r0 fun w => f { w with stores := [(3, .core, 0), (4, .slice, 500)] }

theorem test_fences_met : ([Scope.wave, .core, .task, .dev, .sys].all fun c =>
      met (stF id) (.fence ⟨c, false, true⟩) (fun _ _ _ w _ front => (Instr.fence ⟨c, false, true⟩).takes w front != 0 && (w.fenced c == (c == .wave))) &&
      met st (.fence ⟨c, false, false⟩) (fun _ _ _ w _ _ => w.fenced c)) = true ∧
    met (stF id) (.fencex ⟨1, 2, false⟩) (fun _ _ _ w _ _ => !w.stores.isEmpty) = true ∧
    met (stF id) (.fencex ⟨2, 1, false⟩) = true ∧ met st (.fencex ⟨1, 1, false⟩) (fun _ _ _ w _ _ => w.stores.isEmpty) = true ∧
    (st.modWave r0 fun w => { w with wait := .fence 5 .sys true }).wave? r0 = some { wv with wait := .fence 5 .sys true } ∧
    wv.fenced .sys = true ∧ st.fatalIn tk = false ∧
    met (st.modWave r0 fun w => w.modLanes 5 fun _ th => th.setP 0 false) (.fence ⟨.sys, true, false⟩) (fun _ _ _ w _ front =>
      (Instr.fence ⟨.sys, true, false⟩).takes w front == 0) = true := by decide

/-- R152: a FENCEX from lanes to copies shows copies the wave's store, and no other path. -/
theorem test_fencex_shows : (let es := (sh.put 0 (0, 0) 0 4 [7, 8]).older
    es.all (fun e => e.seenBy.contains (0, 0) && Nat.testBit 1 e.path) ∧ oldBytes 1 0 5 (showOlder 1 2 (0, 0) es) = [] ∧
    oldBytes 2 0 5 (showOlder 1 2 (0, 0) es) = [0] ∧ oldBytes 1 0 5 (showOlder 1 2 (0, 1) es) = [0]) := by decide

/-- Stores to a slice under way, which a fence of core scope does not wait for; the waiting forms. -/
theorem test_comparesMinimaAndFencesComplete_met :
    ([.fcmp ⟨.v 6, .v 4, .uo, 1, false, false⟩, .dcmp ⟨.v 6, .v 4, .ge, 2, false, false⟩, .fmin t3, .fmax t3, .dmin t64, .dmax t64] : List Instr).all (met st) = true ∧
    ([(Scope.core, StoreKind.slice), (.task, .peer), (.dev, .host)].all fun (c, k) =>
      met (st.modWave r0 fun w => { w with stores := [(4, k, 500)] }) (.fence ⟨c, false, true⟩) fun _ _ _ w _ _ => w.stores.all fun p => !fenceHeld c p.2.1) = true ∧
    met (stF id) (.fencex ⟨2, 1, false⟩) (fun _ _ _ _ _ _ => !(2 : BitVec 2).getLsbD 0) = true ∧ met st (.fencex ⟨1, 1, false⟩) (fun _ _ _ w _ _ => w.stores.isEmpty) = true ∧
    st.fatalIn tk = false ∧ fenceHeld .sys .host = true ∧
    ([Wait.fence 5 .sys true, .fencex 5 1 2 false].all fun x =>
      (st.modWave r0 fun w => { w with wait := x }).wave? r0 == some { wv with wait := x } && wv.stores.isEmpty) = true := by decide

theorem test_fence_waits : ((after (.fence ⟨.sys, false, false⟩) (stF id)).wave? r0).map (fun w => (w.wait, (w.thread? 0).map (·.pc))) =
      some (.fence 5 .sys false, some 4) ∧
    ((after (.fenceCompletion r0) (st.modWave r0 fun w => { w with wait := .fence 5 .sys false })).wave? r0).map
      (fun w => (w.wait, (w.thread? 0).map fun th => (th.pc, th.latch.length))) = some (.none, some (8, 4)) := by decide

/-! ### Channels and copies -/

theorem test_channelCommands_met :
    cmd (stC.modShare 3 0 fun h => h.modChan 1 fun c => { c with valid := false }) (.chinit ⟨1, .copy, .lanes, false⟩) (fun x => x.declared 1 &&
      !(x.chan 1).valid && mayProduce .copy (x.chan 1).space && mayConsume .lanes (x.chan 1).space && x.unseen 1) = true ∧
    ([Opnd.s 1, .s 3].all fun n => let f : ChnOp := ⟨1, n, false⟩
      cmd stC (.chadv f) (fun x => x.declared 1 && (x.chan 1).valid && (x.chan 1).cons == .lanes && !x.w.loadsFrom (x.chan 1) &&
        decide ((x.chan 1).q + x.arg f.n * (x.chan 1).elem ≤ (x.w.seen 1).1)) &&
      cmd stC (.chpub f) (fun x => (x.chan 1).prod == .lanes && decide ((x.chan 1).p + x.arg f.n * (x.chan 1).elem ≤ (x.w.seen 1).2 + (x.chan 1).size))) = true ∧
    ([(0 : Fin 16), 1].all fun ch => cmd stC (.chqry ⟨ch, .v 4, false⟩) fun x => x.declared ch) = true ∧
    cmd stC (.chfree ⟨1, true⟩) (fun x => x.declared 1 && (x.chan 1).valid && !x.s.engineNames x.k 0 1 && x.unseen 1) = true := by decide

/-- R127, R130: CHADV by one element of 32 bytes; CHFREE empties. -/
theorem test_chadv : ((after (.chadv ⟨1, .s 3, false⟩) stC).share? 3 0).map (fun h => (h.chans.map fun c => (c.valid, c.p, c.q))) =
      some [(false, 0, 0), (true, 70, 96), (false, 0, 0), (false, 0, 0)] ∧
    ((after (.chfree ⟨1, false⟩) stC).share? 3 0).map (fun h => (h.chans.map fun c => (c.valid, c.p, c.q))) =
      some [(false, 0, 0), (false, 0, 0), (false, 0, 0), (false, 0, 0)] := by decide

def cp (tag : Nat) : CopyCmd :=
  { tid := 3, core := 0, wix := 0, tag, kind := .lin, ch := 1, va := 0x1000, cnt := 128, dests := [(0, 1)] }

/-- As stC, with copies 8 and 9 of the wave under way. -/
def stQ : State := stC.modCore 2 1 fun c => { c with copies := c.copies.modify 0 fun _ => [cp 8, cp 9] }

theorem test_channelWaits_met :
    ([(true, Opnd.s 1, true), (false, .s 1, true), (true, .s 3, true), (true, .s 4, false), (false, .s 3, false)].all fun (fr, n, now) => let f : ChwaitOp := ⟨fr, 1, n, false⟩
      cmd stC (.chwait f) fun x =>
        let b := x.arg f.n * (x.chan 1).elem
        x.declared 1 && (x.chan 1).valid && decide (b ≤ (x.chan 1).size) && x.w.held.isEmpty && !x.s.fatalIn x.k &&
        (now == if fr then decide (b + (x.chan 1).p ≤ (x.chan 1).q + (x.chan 1).size) else decide ((x.chan 1).q + b ≤ (x.chan 1).p))) = true ∧
    cmd stQ (.chfree ⟨1, false⟩) (fun x => x.s.engineNames x.k 0 1) = true ∧ stC.engineNames tk 0 1 = false ∧
    ([(Opnd.s 0, true), (.s 4, false)].all fun (n, now) => cmd stQ (.copyw ⟨n, false⟩) fun x =>
      decide (x.arg n ≤ x.w.lastTag) && x.w.held.isEmpty && x.s.copiesDone r0 (x.arg n) == now) = true ∧
    ((stC.share? 3 0).any fun h => (h.chans[1]?).any fun c => c.valid && decide (6 + c.p ≤ c.q + c.size) && decide (c.q + 6 ≤ c.p)) = true ∧
    stC.copiesDone r0 9 = true := by decide

theorem test_channel_returns : [Wait.chwait 5 1 6 false, .chwait 5 1 6 true].all (fun v =>
      ((after (.chwaitReturn r0) (stC.modWave r0 fun w => { w with wait := v })).wave? r0).map (fun w => (w.wait, w.obs)) == some (.none, [(1, 70, 64)])) = true ∧
    ((after (.copywReturn r0) (stC.modWave r0 fun w => { w with wait := .copyw 5 9 })).wave? r0).map (·.wait) = some .none ∧
    ((after (.copywReturn r0) (stQ.modWave r0 fun w => { w with wait := .copyw 5 9 })).wave? r0).map (·.wait) = some (.copyw 5 9) ∧
    ((after (.chfreeReturn r0) (stC.modWave r0 fun w => { w with wait := .chfree 5 1 })).wave? r0).map (·.wait) = some .none := by decide

/-- A descriptor of an 8 × 8 box, 512 bytes (R214). -/
def desc : List Byte :=
  let d : List Byte := [0, 0, 0, 0x10, 0, 0, 0, 0, 0] ++ [0, 2, 0] ++ [64, 0, 0, 0] ++ List.replicate 16 0 ++ [8, 0, 0, 0, 8, 0, 0, 0, 0, 0, 0, 0, 8, 0] ++
    [8, 0, 0, 0, 64, 0, 0, 0, 0, 0, 0, 0, 8, 0]
  d ++ List.replicate (256 - d.length) 0

/-- Channel 0 is fed by the copy engine on both cores, channel 1 drained by it, and a descriptor is captured in slot 0. -/
def stP : State :=
  ((stQ.modShare 3 0 fun h => (h.modChan 0 fun c => { c with valid := true, prod := .copy, cons := .copy }).modChan 1 fun c => { c with space := 0 }).modShare
    3 1 fun h => { h with chans := [{ space := 0, base := 0, size := 256, elem := 32, valid := true, prod := .copy }] }).modWave r0 fun w =>
      { w with tdesc := [some desc, none] }

theorem test_copiesQueued_met :
    cmd stP (.copy ⟨0, 2, .s 2, true⟩) (fun x => x.declared 0 && (x.chan 0).valid && (x.chan 0).prod == .copy && x.arg (.s 2) != 0 &&
      x.arg (.s 2) % 64 == 0 && x.w.lastTag != 0xFFFFFFFF) = true ∧
    cmd stP (.copyt ⟨false, 0, .v 4, true⟩) (fun x => (x.chan 0).valid && (x.desc false).isSome && x.w.lastTag != 0xFFFFFFFF) = true ∧
    ([0, 0b001001, 0b001010].all fun sp => cmd stP (.copym ⟨false, 0, .v 4, sp, true⟩) fun x =>
      let dims := shapeDims (x.s.kernelOf x.k) sp.toNat
      decide (dims.1 ≤ (x.s.kernelOf x.k).polW) && decide (dims.2 ≤ (x.s.kernelOf x.k).polH) && (x.desc false).isSome &&
      (subCores (x.s.kernelOf x.k) sp.toNat 0).all fun c => match (x.s.share? 3 c).bind (·.chans[0]?) with
        | some ch => ch.valid && ch.prod == .copy
        | none => false) = true ∧
    (let f : CopyoOp := ⟨true, 1, 2, .s 2, true⟩
     cmd (stP.modShare 3 0 fun h => h.modChan 1 fun c => { c with valid := false }) (.copyo f) fun x => !(x.chan 1).valid && (x.chan 1).space == 0 &&
      decide (x.arg f.cnt ≤ (x.chan 1).size)) = true ∧
    (let f : CopyoOp := ⟨false, 0, 2, .s 2, true⟩
     cmd stP (.copyo f) fun x => (x.chan 0).valid && (x.chan 0).cons == .copy && x.arg f.cnt % 64 == 0 && decide (x.arg f.cnt ≤ (x.chan 0).size)) = true := by
  decide +kernel

/-- R235: tag 10, behind copies 8 and 9. -/
theorem test_copy : (((after (.copy ⟨0, 2, .s 2, true⟩) stP).core 2 1).copies.map fun q => q.map fun c => (c.tag, c.va, c.cnt)) =
    [[(8, 0x1000, 128), (9, 0x1000, 128), (10, 0x2000, 128)], [], [], [], [], [], [], []] := by decide +kernel

/-- An exclusive range of the task, and a descriptor in device memory. -/
def stX : State :=
  { ((stC.modTask 3 fun t => { t with extents := [(0x2000, 0x1000, true)] }).modWave r0 fun w => w.modLanes 5 fun _ th => th.setA 2 0x2040) with
    tlb := (stG false).tlb, mem := Mem.write [(0x102000, 9)] 0x102040 desc }

theorem test_copyControl_met :
    ([Opnd.s 3, .s 4].all fun n => cmd stQ (.copyx ⟨n, false⟩) fun x => decide (x.arg n ≤ x.w.lastTag)) = true ∧
    ([(0 : Fin 3), 1, 2].all fun sel => cmd stQ (.cpstat ⟨sel, .v 4, false⟩) fun x => x.w.held.isEmpty) = true ∧
    (cmd stX (.pref ⟨2, .s 2, false⟩) fun x => x.arg (.s 2) != 0 && x.arg (.s 2) % 64 == 0 && x.s.launchOf? x.r.tid == some la &&
      decide ((x.th.ra 2).toNat % 65536 + x.arg (.s 2) ≤ 65536) &&
      x.s.cached (copyViewer 2 1) 1 ((x.th.ra 2).toNat / 64 * 64) == some (entry (.copyEngine 2 1) (rwx false)) && (entry (.copyEngine 2 1) (rwx false)).attr.r) = true ∧
    (let e := entry (.copyEngine 2 1) (rwx false)
     cmd stX (.tdesc ⟨true, 2, false⟩) fun x =>
      let va := (x.th.ra 2).toNat
      va % 64 == 0 && decide (va % 65536 + 256 ≤ 65536) && x.s.cached (copyViewer 2 1) 1 va == some e && e.attr.r && e.attr.target == 0 && !e.attr.mod &&
      !x.s.outside x.k va 256 && !x.s.badIn (e.pa va) 256 && !la.checked && descOk (x.s.view x.k (x.s.pageTag la e.attr.buf) e.attr.cell (e.pa va) va 256)) = true ∧
    (let e := entry (.l1 2 1) (rwx false)
     cmd stX (.drop ⟨2, .s 2, false⟩) fun x =>
      let va := (x.th.ra 2).toNat
      let n := x.arg (.s 2)
      n != 0 && n % 64 == 0 && va % 64 == 0 && decide (va % 65536 + n ≤ 65536) && x.k.isGraph && covered (x.k.extents.filter (·.2.2)) va n &&
      x.w.fenced .task && x.s.cached (laneViewer 3 2 1) 1 va == some e && e.attr.w && e.attr.target == 0 && e.pa va % 64 == 0 &&
      (racesOf x.k (x.s.accessOf x.k x.r x.w x.ln x.th 4 (e.pa va) va n true false)).1.isNone) = true ∧
    stX.mem.wf = true := by decide +kernel

/-- R237: COPYX 9 leaves tag 8; CPSTAT.0 gives 7, the last complete tag. -/
theorem test_copyx : (((after (.copyx ⟨.s 1, false⟩) (stQ.modWave r0 fun w => { w with s := [5, 9] })).core 2 1).copies.map fun q => q.map (·.tag)) =
      [[8], [], [], [], [], [], [], []] ∧
    (((after (.cpstat ⟨0, .v 4, false⟩) stQ).wave? r0).map fun w => w.loads.map (·.words)) = some [[7], [7]] ∧
    (((after (.cpstat ⟨2, .v 4, false⟩) stQ).wave? r0).map fun w => w.loads.map (·.words)) = some [[64], [64]] := by decide +kernel

/-- The copy engine translates; channel 0 is fed, channel 1 drained: 128 bytes published there. -/
def stU (kind : CopyKind) (fired : Bool) (done : Nat) (got : List Byte) : State :=
  { stP with tlb := [entry (.copyEngine 2 1) (rwx false)], mem := [(0x101040, 77)] }.modCore 2 1 (fun c =>
    let k : CopyCmd := { cp 8 with kind, fired, ch := if kind == CopyKind.out then 1 else 0, cnt := 128, dests := [(0, done)] }
    { c with copies := c.copies.modify 0 fun _ => [k.hold 0 got] })
    |>.modShare 3 0 fun h => h.modChan 1 fun c => { c with cons := .copy, p := 192 }

theorem test_copyUnits_met :
    ([([], 32), (List.replicate 32 5, 64)].all fun half =>
     let s := stU .lin false 1 half.1
     match nth (s.core 2 1).copies 0 [], s.task? 3, s.launchOf? 3, ((s.share? 3 0).bind fun h => h.chans[0]?) with
     | k :: _, some t, some l, some c => k.fault.isNone && t.st == .resident && k.dests[0]? == some (0, 1) && decide (64 * 1 < k.cnt) && s.mayTransfer 8 && c.valid &&
       decide (c.p + 64 ≤ c.q + c.size) && match s.unitPiece 2 1 t l k 1 half.1.length with
         | (.ok bs, _) => (k.held 0 ++ bs).length == half.2 && bs == (if half.1.isEmpty then 77 else 0) :: List.replicate 31 0
         | _ => false
     | _, _, _, _ => false) = true ∧
    (let s := stU .out false 0 []
     match nth (s.core 2 1).copies 0 [], ((s.share? 3 0).bind fun h => h.chans[1]?) with
     | k :: _, some c => k.kind == CopyKind.out && c.valid && decide (c.q + k.cnt ≤ c.p) && !s.consuming 2 1 k.tid k.core k.ch
     | _, _ => false) = true ∧
    ([([], 0x1040), (List.replicate 32 5, 0x1060)].all fun half =>
     let s := stU .out true 1 half.1
     match nth (s.core 2 1).copies 0 [], s.task? 3 with
     | k :: _, some t => k.fired && s.mayTransfer 8 && k.va.toNat % 64 == 0 && !s.outside t half.2 32 &&
       s.cached (copyViewer 2 1) 1 half.2 == some (entry (.copyEngine 2 1) (rwx false)) && (k.va.toNat + 64 + (if half.1.isEmpty then 0 else 32)) % 2 ^ 72 == half.2
     | _, _ => false) = true := by decide +kernel

/-- R123, R235, R236: the first piece publishes nothing; with the second the unit's bytes lie in scratch at the published
pointer; the last piece of a COPYO consumes the count. -/
theorem test_copy_unit :
    ([[], 77 :: List.replicate 31 0].map fun half =>
      ((after (.copyUnitDelivery 2 1 0 0) (stU .lin false 1 half)).share? 3 0).map fun h => (h.scratch, (h.chans.map (·.p)).take 2)) =
      [some ([(3, 4)], [0, 192]), some ([(0, 77)], [64, 192])] ∧
    ([[], List.replicate 32 5].map fun half => ((after (.copyUnitDelivery 2 1 0 0) (stU .out true 1 half)).share? 3 0).map fun h =>
      (h.chans.map (·.q)).take 2) = [some [0, 64], some [0, 192]] := by decide +kernel

/-! ### The matrix engine -/

def big (n space base : Nat) (prod cons : ChPath) : Chan :=
  { space, base, size := 131072, elem := 1, valid := true, prod, cons, p := n }

/-- Task 3 holds the engine; its channels of tiles, B scales, records, A rows and A scales. -/
def stM (f : Matrix → Matrix) : State :=
  ((st.modCore 2 1 fun c => { c with matrix := f { holder := some 3 } }).modShare 3 0 fun h => { h with
      chans := [big 131072 3 0 .copy .matrix, big 131072 3 131072 .copy .matrix, big 0 2 0 .matrix .lanes, big 131072 1 0 .copy .matrix,
        big 131072 1 131072 .copy .matrix] }).modWave r0 fun w => { w with mc := [0x21043, 0x00014002, 0x40, 0x100, 1] }

/-- Task 4, of a higher order key, has taken the engine in this cycle. -/
def stG3 : State :=
  let s := stM fun m => { m with holder := some 4, grants := [{ time := 123456, r := ⟨4, 0, 0⟩, take := 1, p := 0, pc := 0 }] }
  { s with tasks := s.tasks ++ [{ tk with tid := 4, key := 0x200000000 }] }

theorem test_matrixCommands_met :
    ([none, some 3, some 4].all fun hold => cmd (stM fun m => { m with holder := hold }) (.mres ⟨3, true⟩) fun x => x.matrix.holder == hold && !x.s.contends x.k x.matrix) = true ∧
    cmd stG3 (.mres ⟨3, true⟩) (fun x => x.s.contends x.k x.matrix && x.matrix.grants.all fun g => g.r != x.r) = true ∧
    ([true, false].all fun fr => cmd (stM id) (.mloadb ⟨fr, 1, 0, true⟩) fun x => x.matrix.holder == some 3 && mcClean x.w 0 && mcClean x.w 2 &&
      decide (x.matrix.queue.length < 4) && (classOf (x.mc 2 6 2)).isInt &&
      (x.h.engineChan 0 3 none (some .matrix)).any (fun c => decide (tileBytes (classOf (x.mc 2 6 2)) ≤ c.size)) &&
      (x.h.engineChan (x.mc 0 12 4) 3 none (some .matrix)).any fun b => decide (1024 ≤ b.size)) = true ∧
    ([true, false].all fun sw => cmd (stM fun m => { m with bank0 := some ⟨.i8, 1, []⟩, bank1 := some ⟨.i8, 1, []⟩ }) (.mmul ⟨sw, 2, .i8, .i8, true⟩) fun x =>
      mcClean x.w 0 && mcClean x.w 1 && mcClean x.w 2 && x.mc 1 0 12 != 0 && decide (x.matrix.queue.length < 4) &&
      x.matrix.plan.bank (if sw then !x.matrix.plan.front else x.matrix.plan.front) == some (.i8, x.mc 1 14 2) &&
      (x.h.engineChan 2 2 (some .matrix) none).any (fun p => decide (8192 ≤ p.size)) &&
      (x.h.engineChan (x.mc 0 0 4) 1 none (some .matrix)).any (fun a => decide (x.mc 1 0 12 * rowBytes .i8 (x.mc 1 14 2) ≤ a.size)) &&
      (x.h.engineChan (x.mc 0 4 4) 1 none (some .matrix)).any fun b => decide (x.mc 1 0 12 * 2 * 2 ^ x.mc 1 14 2 ≤ b.size)) = true ∧
    cmd (stM id) (.mrel ⟨true⟩) (fun x => x.matrix.holder == some 3 && x.matrix.metas.isEmpty && x.matrix.queue.isEmpty) = true ∧
    cmd (stM fun m => { m with queue := [.load 0 0 0 0 true .i8 0] }) (.mrel ⟨false⟩) (fun x => x.matrix.holder == some 3 && x.matrix.metas.isEmpty &&
      !x.matrix.queue.isEmpty && !x.s.fatalIn x.k) = true := by decide +kernel

theorem test_mres : ((after (.mres ⟨3, true⟩) (stM fun m => { m with holder := none })).core 2 1).matrix.holder = some 3 ∧
    (laneAfter (stM fun m => { m with holder := some 4 }) (.mres ⟨0, true⟩) 0).map (·.rp 0) = some false ∧
    ((after (.mrel ⟨true⟩) (stM id)).core 2 1).matrix.holder = none ∧
    ((after (.mrelReturn r0) ((stM id).modWave r0 fun w => { w with wait := .mrel 5 })).wave? r0).map (·.wait) = some .none := by decide +kernel

/-- One row of records of i8 windows in channel 2, 256 columns of two windows, its records zero. -/
def stS : State :=
  ((stM fun m => { m with metas := [⟨2, 0, .i8, .i8, 1, [0x3F80, 0x4000], false, List.replicate 256 [(0x3F80, 5), (0x3F80, 7)], true⟩] }).modShare 3 0 fun h =>
      { h with cbuf := [(17, 3)], chans := h.chans.set 2 (big 8192 2 131072 .matrix .lanes) }).modWave r0 fun w => { w with obs := [(2, 8192, 0)] }

theorem test_matrixAccumulates_met : cmd stS (.sca ⟨.i8, .i8, true⟩) (fun x =>
    let srows := x.mc 1 16 12
    let cols := 512 / 2 ^ x.mc 1 14 2
    let base := x.mc 3 0 18
    [0, 1, 3, 4].all (mcClean x.w) && srows != 0 && base % 4 == 0 && match x.h.engineChan (x.mc 0 16 4) 2 (some .matrix) (some .lanes) with
      | some c =>
        let rows := x.matrix.metas.filter fun m => m.ch == x.mc 0 16 4 && decide (c.q ≤ m.pos) && decide (m.pos < c.q + 8192 * srows)
        decide (c.q + 8192 * srows ≤ (x.w.seen (x.mc 0 16 4)).1) && rows.length == srows && rows.all (fun m => m.ca == .i8 && m.cb == .i8 && m.arr == x.mc 1 14 2) &&
        decide (base + 4 * srows * cols ≤ x.h.size 2) && x.h.chans.all fun d => d.space != 2 || !d.valid || decide (base + 4 * srows * cols ≤ d.base) ||
          decide (d.base + d.size ≤ base)
      | none => false) = true := by decide +kernel

theorem test_matrixEngineSteps_met :
    ([true, false].all fun fr => let s := stM fun m => { m with queue := [.load 0 0 1 1 fr .i8 0], front := true, bank0 := some ⟨.i8, 0, []⟩, bank1 := some ⟨.i8, 0, []⟩ }
      let m := (s.core 2 1).matrix
      match s.engineShare 2 1 with
      | some (t, h) => t.st == .resident && m.loading.isNone && !m.inUse (if fr then m.front else !m.front) && match h.chans[0]?, h.chans[1]? with
        | some c, some b => c.valid && b.valid && decide (c.q + tileBytes .i8 ≤ c.p) && decide (b.q + 1024 ≤ b.p)
        | _, _ => false
      | none => false) = true ∧
    ([none, some 0, some 1].all fun row => [true, false].all fun sw =>
      let s := stM fun m => { m with queue := [.mul 0 2 3 4 2 1 sw .i8 .i8 0], row, bank0 := some ⟨.i8, 1, []⟩, bank1 := some ⟨.i8, 1, []⟩ }
      let m := (s.core 2 1).matrix
      match s.engineShare 2 1 with
      | some (_, h) => m.row == row && (m.bank m.front).isSome && (m.bank (!m.front)).isSome && m.loading.isNone && match h.chans[2]?, h.chans[3]?, h.chans[4]? with
        | some p, some a, some b => a.valid && b.valid && p.valid && decide (a.q + 2 * rowBytes .i8 1 ≤ a.p) && decide (b.q + 2 * 2 * 2 ^ 1 ≤ b.p) &&
          decide (p.p + p.part + 8192 ≤ p.q + p.size)
        | _, _, _ => false
      | none => false) = true ∧
    (let s := stM fun m => { m with queue := [.mul 0 2 3 4 2 1 false .i8 .i8 0], row := some 0, out := [1, 2, 3] }
     let m := (s.core 2 1).matrix
     m.row == some 0 && m.out != [] && (s.engineShare 2 1).any fun p => p.1.st == .resident && (p.2.chans[2]?).any fun c => c.elem != 0) = true ∧
    (let s := stM fun m => { m with queue := [.load 0 0 0 1 true .n4 0] }
     (s.engineShare 2 1).any fun p => (p.2.chans[0]?).any fun c => c.valid && decide (c.q + tileBytes .n4 + 1024 ≤ c.p)) = true := by decide +kernel

theorem test_mmul_fires : (let t := after (.mmulRow 2 1) (stM fun m => { m with queue := [.mul 0 2 3 4 2 1 true .i8 .i8 0], bank0 := some ⟨.i8, 1, []⟩, bank1 := some ⟨.i8, 1, []⟩ })
    ((t.core 2 1).matrix.row, (t.core 2 1).matrix.front)) = (some 0, true) ∧
    ((after (.mloadbCompletion 2 1) (stM fun m => { m with queue := [.load 0 0 1 1 true .i8 0], loading := some (true, ⟨.i8, 1, []⟩, 100) })).core 2 1).matrix.bank1 =
      some ⟨.i8, 1, []⟩ := by decide +kernel

/-! ### Tasks, traces and propagation -/

/-- Only lane 2 executes, in a partition of 4 × 4 cores. -/
def stN : State :=
  { st.modWave r0 (fun w => { w with lanes := [none, none, some (thr 2 4)] }) with
    dev := { st.dev with parts := [{ p := 0, x0 := 0, y0 := 0, w := 4, h := 4, key := 0, valid := true }] } }

theorem test_tasksSpawned_met : [(1 : BitVec 8), 255].all (fun slot => let f : SpawnOp := ⟨slot, 0, 0, false, true⟩
    met stN (.spawn f) fun k _ l w _ front => (w.acting ((Instr.spawn f).takes w front)).length == 1 && w.fenced .task && !l.records? && k.prop.isNone &&
      (childKey k.key.toNat slot.toNat).isSome && decide (f.kern.val < l.code.kernels.length) && !k.slots.contains slot.toNat &&
      (w.acting ((Instr.spawn f).takes w front)).all (fun p => (p.2.ra f.ar).toNat % 4 == 0) &&
      (stN.part? l.part).any (fun p => decide ((l.kernel f.kern).polW ≤ p.w) && decide ((l.kernel f.kern).polH ≤ p.h)) && decide (stN.liveTasks < 65536) && k.record.isNone && !stN.owes 10) = true := by
  decide +kernel

/-- R161: the child's key of slot 3 under key 0x100000000, its round, block and parent. -/
theorem test_spawn : ((after (.spawn ⟨3, 0, 0, false, true⟩) stN).tasks.map fun k => (k.tid, k.key, k.parent, k.block, k.slots)) =
    [(3, 0x100000000, none, 0x1000, [3]), (100, 0x103000000, some 3, 0x1040, [])] := by decide +kernel

def kid (tid slot : Nat) (shadow : Mem) (st : TaskSt) : Machine.Task :=
  { tid, lid := 5, key := BitVec.ofNat 48 (2 ^ 32 + slot * 2 ^ 24), kernel := 0, st, parent := some 3, slot, spawner := some (0, 0), shadow }

def stK (x : TaskSt) : State :=
  { st with tasks := st.tasks ++ [kid 6 2 [(3, 4), (70, 5)] .retired, kid 7 1 [(4, 9), (64, 1)] x] }

theorem test_tasksJoined_met :
    met (stK .retired) (.join ⟨false, true⟩) (fun _ _ _ w _ front => let s := stK .retired
      let kids := s.kidsOfWave r0
      let m := (Instr.join ⟨false, true⟩).takes w front
      let u := s.mergeKids 3 (some (r0, m)) kids
      m != 0 && kids.length == 2 && kids.all (fun c => c.tid != 3) && kids.all Task.over && (u.task? 3).isSome && (u.share? 3 0).isSome && (u.wave? r0).isSome && !s.owes 10) = true ∧
    met (stK .resident) (.join ⟨false, true⟩) (fun k _ _ _ _ _ => !((stK .resident).kidsOfWave r0).all Task.over && !(stK .resident).fatalIn k) = true ∧
    (let s := (stK .stopped).modWave r0 fun w => { w with wait := .join 5 }
     let u := s.mergeKids 3 (some (r0, 5)) (s.kidsOfWave r0)
     (s.kidsOfWave r0).all Task.over && (u.task? 3).isSome && (u.share? 3 0).isSome && (u.wave? r0).isSome && (s.task? 3).any s.taskRuns && !s.fatalIn tk) = true ∧
    clash (kid 7 1 [(4, 9), (64, 1)] .retired) (kid 6 2 [(3, 4), (70, 5)] .retired) = none ∧
    clashAfter tk (kid 7 1 [(4, 9), (64, 1)] .retired) = none ∧ clashAfter tk (kid 6 2 [(3, 4), (70, 5)] .retired) = none ∧ tk.extents = [] ∧
    tk.parent = none := by decide +kernel

/-- R143: the children's bytes stand in the parent's shadow. -/
theorem test_join : ((after (.join ⟨false, true⟩) (stK .retired)).task? 3).map (·.shadow) = some [(3, 4), (4, 9), (64, 1), (70, 5)] ∧
    ((after (.joinMerge r0) ((stK .retired).modWave r0 fun w => { w with wait := .join 5 })).wave? r0).map (·.wait) = some .none ∧
    ((after (.join ⟨false, true⟩) (stK .resident)).wave? r0).map (·.wait) = some (.join 5) := by decide +kernel

def put (m : Mem) (a n x : Nat) : Mem := m.write a (bytes n x)

/-- An arena at VA 0x1000 in a state and of a generation, with tables of reads, writes and edges. -/
def arena (state gen : Nat) : Mem :=
  put (put (put (put (put (put (put (put [] 0x101006 1 state) 0x101008 4 gen) 0x101020 8 0x100) 0x101028 4 8) 0x101030 8 0x400) 0x101038 4 16) 0x101060 8 0x800)
    0x101068 4 32

def stA (state gen : Nat) (f : Launch → Launch := id) : State :=
  { (st.modLaunch 5 fun l => f { l with arena := 0x1000 }).modWave r0 fun w => w.modLanes 5 fun _ th => th.setA 2 0x1000 with
    tlb := (stG false).tlb, mem := arena state gen }

theorem test_tracesRecord_met : ([TraceFn.suspend, .resume].all fun fn => met st (.trace ⟨fn, 0, false, true⟩)) = true ∧
    (met st (.trace ⟨.note, 2, false, true⟩) fun _ _ l _ _ _ => !l.records?) = true ∧
    (let s := stA 2 3 fun l => { l with lrec := 1 }
     met s (.trace ⟨.note, 2, false, true⟩) fun _ _ l w _ front =>
      let n := (w.acting ((Instr.trace ⟨.note, 2, false, true⟩).takes w front)).length
      l.records? && decide ((s.arenaTable l.asid l.arena.toNat 1).2.2 + l.pending.1 + n ≤ (s.arenaTable l.asid l.arena.toNat 1).2.1) &&
      decide (8 * ((s.arenaTable l.asid l.arena.toNat 4).2.2 + l.pending.1 + n) ≤ 7 * (s.arenaTable l.asid l.arena.toNat 4).2.1)) = true := by decide +kernel

/-- R186: both lanes note sector 0x1000 / 32, once. -/
theorem test_trace : (let t := after (.trace ⟨.note, 2, false, true⟩) (stA 2 3 fun l => { l with lrec := 1 })
    ((t.task? 3).map (·.trec.reads), t.launches.map (·.pending))) = (some [0x80], [(1, 0)]) ∧
    (laneAfter st (.trace ⟨.suspend, 0, false, true⟩) 0).map (·.recording) = some false := by decide +kernel

def prop9 : Propag := { pid := 9, runAs := 77, asid := 1, arena := 0x1000, lid := some 5, wave := some r0, queue := none, st := 2, re := 3, sp := 4, di := 5 }

theorem test_propagations_met : ([(2, 3), (1, 3), (2, 0x1FFFFFFF)].all fun (a, g) => let s := stA a g
     met s (.prop ⟨2, true⟩) fun k _ _ w _ front => s.props.isEmpty && !s.fatalIn k && k.prop.isNone &&
      s.cached (laneViewer 3 2 1) 1 0x1000 == some (entry (.l1 2 1) (rwx false)) &&
      ((w.acting ((Instr.prop ⟨2, true⟩).takes w front)).head?).any (fun p => p.2.ra 2 == 0x1000) &&
      s.arState ⟨1, 0x1000⟩ == a && s.arGeneration ⟨1, 0x1000⟩ == g) = true ∧
    (let s := { (stA 2 3).modWave r0 fun w => { w with wait := .prop 5 9 } with props := [prop9] }
     s.prop? 9 == some prop9 && s.withdrawals.isEmpty && (s.task? 3).any (fun k => s.taskRuns k && !s.fatalIn k && k.lid != prop9.runAs) && (s.wave? r0).any fun w => w.wait == .prop 5 9) = true := by decide +kernel

/-- R190: the three counts return in s13 to s15; R189: a wrong state returns 0xFFFFFFFF. -/
theorem test_prop : ((after (.propReturn 9) { (stA 2 3).modWave r0 fun w => { w with wait := .prop 5 9 } with props := [prop9] }).wave? r0).map
      (fun w => (w.rs 13, w.rs 14, w.rs 15, w.wait)) = some (3, 4, 5, .none) ∧
    ((after (.prop ⟨2, true⟩) (stA 1 3)).wave? r0).map (fun w => (w.rs 13, w.rs 15, w.wait)) = some (0xFFFFFFFF, 0xFFFFFFFF, .none) ∧
    ((after (.prop ⟨2, true⟩) (stA 2 3)).wave? r0).map (·.wait) = some (.prop 5 100) := by decide +kernel

/-! ### Reed engines and the Headworks: queue 3 of ASID 1, whose Headworks translates VA 0x0–0xFFFFF to PA 0x1000000 -/

/-- The queue's descriptor (R242): ring of 4 KiB at 0x1000, program 7, 64 bytes read, windows 2 and 3. -/
def qdesc : List Byte :=
  bytes 9 0x1000 ++ bytes 1 12 ++ bytes 2 1 ++ bytes 4 7 ++ bytes 8 64 ++ bytes 8 0 ++ bytes 9 0x6000 ++ bytes 3 0 ++ bytes 4 256 ++ bytes 9 0x7000 ++ bytes 3 0 ++ bytes 4 512

/-- A launch descriptor (R248): code at 0x3000, partition 2, two arguments blocks of 16 bytes at 0x5000. -/
def ldesc : List Byte :=
  bytes 9 0x3000 ++ bytes 1 0 ++ bytes 2 1 ++ bytes 4 16 ++ bytes 9 0x5000 ++ bytes 1 4 ++ bytes 2 1 ++ bytes 4 0 ++ bytes 9 0x5800 ++ bytes 7 0 ++ bytes 9 0 ++
    bytes 7 0 ++ bytes 9 0x8000 ++ bytes 3 0 ++ bytes 4 1 ++ bytes 9 0 ++ bytes 3 0 ++ bytes 4 0 ++ bytes 9 0x4000 ++ bytes 23 0

def sec (a b c : Nat) : List Byte := bytes 4 a ++ bytes 4 b ++ bytes 4 c ++ bytes 4 0

/-- A code object (R51–R57) of one EXIT, one kernel, one stage and two nodes. -/
def codeObj : List Byte :=
  bytes 4 0x334F434B ++ bytes 2 3 ++ bytes 2 0 ++ bytes 4 256 ++ bytes 4 320 ++ bytes 16 0 ++ bytes 16 77 ++ bytes 16 0 ++ sec 256 4 0 ++ sec 272 16 1 ++
    sec 288 16 1 ++ sec 0 0 0 ++ sec 0 0 0 ++ sec 0 0 0 ++ sec 304 16 2 ++ sec 0 0 0 ++ sec 0 0 0 ++ sec 0 0 0 ++ sec 0 0 0 ++ sec 0 0 0 ++ bytes 4 0x11D ++
    bytes 12 0 ++ (bytes 2 0 ++ bytes 1 1 ++ bytes 1 0x10 ++ bytes 12 0) ++ (bytes 4 0 ++ bytes 1 3 ++ bytes 1 16 ++ bytes 1 1 ++ bytes 9 0) ++ bytes 8 0 ++ bytes 8 0

def pa0 : Nat := 0x1000000

/-- An arena header in state 2 (R179) at VA 0xA000. -/
def arHdr : List Byte :=
  bytes 4 0x4352544B ++ bytes 2 1 ++ bytes 1 2 ++ bytes 1 0 ++ bytes 4 5 ++ bytes 4 0 ++ bytes 8 0x2000 ++ bytes 8 0 ++
    (List.range 5).flatMap (fun i => bytes 8 (256 + 1024 * i) ++ bytes 4 (if i = 4 then 64 else 16) ++ bytes 4 0) ++ bytes 24 0 ++ bytes 9 0x3000 ++ bytes 111 0

/-- Bytes from an address on, as a memory lists them. -/
def cells (a : Nat) (bs : List Byte) : Mem := (bs.zipIdx.filter (·.1 != 0)).map fun p => (a + p.2, p.1)

/-- The queue's descriptor, and bytes of its ring. -/
def mem0 : Mem := cells (64 * 3) qdesc ++ cells (pa0 + 0x1000) [0, 7, 14, 21, 28, 35, 42, 49, 56, 63, 70, 77] ++
  cells (pa0 + 0x105C) [0x84, 0x8B, 0x92, 0x99, 0xA0]

/-- With a launch descriptor, a code object and a buffer record. -/
def memL : Mem := cells (64 * 3) qdesc ++ cells (pa0 + 0x2000) ldesc ++ cells (pa0 + 0x3000) codeObj ++
  cells (pa0 + 0x5800) (bytes 2 9 ++ bytes 1 1 ++ bytes 1 0 ++ bytes 4 6 ++ bytes 9 0x9000 ++ bytes 7 0 ++ bytes 8 4096)

def part2 : Part := { p := 2, x0 := 0, y0 := 0, w := 4, h := 4, key := 0, valid := true }

def reed7 : List Nat := [0x03100008, 0x07200000, 0x14000001, 0x15000040]

def pk (x : List Addr) (prim : Prim := .none) : Packet := { x, pc := 2, ops := 5, prim, mem := [(4, 9)] }

def q3 (p : Option Packet) : Queue := { q := 3, state := 1, mask := 0x3FFF, wptr := 64 + 192, packet := p }

def sys (p : Option Packet) (m : Mem := mem0) : State :=
  { now := 1000000
    dev := { stage := 4, qbase := 0, parts := [part2], reeds := [(7, reed7, [])], harvest := List.replicate 4 (-1 : BitVec 104) }
    mem := m, tlb := [{ entry .headworks ⟨true, true, false, 0, 0, false, false, false, 0⟩ with base := pa0, expiry := 1000000000 }]
    queues := [q3 p, { q := 4, state := 1 }], fresh := 50, turnQueue := some 3 }

/-- Small registers: x1 to x8. -/
def xs : List Addr := [99, 0x2000, 0x123456789012345678, 7, 0x100, 5, 6, 0x18, 8]

def reedMet (s : State) (f : Packet → Bool := fun _ => true) : Bool :=
  match (s.queueD 3).packet with
  | some p => s.turnQueue == some 3 && s.stall p == .no && p.prim == .none && decide (p.ops < 512) && f p
  | none => false

/-- Register n of the queue's packet after an operation. -/
def x0 (i : Instr) (n : Fin 16) : Option Addr := (((after i (sys (some (pk xs)))).queueD 3).packet).map (·.rx n)

theorem test_reed_met : reedMet (sys (some (pk xs))) = true ∧ reedMet (sys (some { pk xs with ops := 511 })) = true := by decide +kernel

/-- R245: 72 bits; x0 stays 0; li extends its sign. -/
theorem test_reedResults : x0 (.reedLi ⟨5, 0xFFFF⟩) 5 = some 0xFFFFFFFFFFFFFFFFFF ∧ x0 (.reedLi ⟨0, 0xFFFF⟩) 0 = some 0 ∧
    x0 (.reedLis ⟨3, 0xABCD⟩) 3 = some 0x7ABCD ∧ x0 (.reedAdd ⟨5, 8⟩) 5 = some 13 ∧ x0 (.reedSub ⟨5, 8⟩) 5 = some 0xFFFFFFFFFFFFFFFFFD ∧
    x0 (.reedShli ⟨2, 68⟩) 2 = some 0x800000000000000000 ∧ x0 (.reedShri ⟨2, 68⟩) 2 = some 1 := by decide +kernel

theorem test_reedResults2 : x0 (.reedAddi ⟨5, 0xFFFF⟩) 5 = some 4 ∧ x0 (.reedAnd ⟨5, 6⟩) 5 = some 4 ∧ x0 (.reedOr ⟨5, 6⟩) 5 = some 7 := by decide +kernel

theorem test_reedControl_met : (let l : ReedLoop := ⟨3, 9, 2⟩
     let p := { pk xs with loops := [l] }
     p.goTo 8 = { p with pc := 8 } ∧ p.goTo 9 = { p with pc := 3, loops := [{ l with left := 1 }] }) ∧
    (let s := sys (some { pk xs with ops := 512 })
     (s.queueD 3).packet.any fun p => decide (512 ≤ p.ops) && p.prim == .none) = true ∧ (pk xs).rx 5 ≠ (pk xs).rx 6 ∧ (pk xs).rx 0 = 0 := by decide +kernel

theorem test_reedControl : ((((after (.reedBne ⟨5, 6, 3⟩) (sys (some (pk xs)))).queueD 3).packet).map (·.pc)) = some 6 ∧
    ((((after (.reedBeq ⟨5, 6, 3⟩) (sys (some (pk xs)))).queueD 3).packet).map (·.pc)) = some 3 ∧
    ((((after (.reedBltu ⟨5, 6, 1⟩) (sys (some (pk xs)))).queueD 3).packet).map (·.pc)) = some 4 ∧
    ((((after (.reedLoop ⟨5, 0x0203⟩) (sys (some (pk xs)))).queueD 3).packet).map fun p => (p.pc, p.loops)) = some (3, [⟨3, 5, 2⟩]) ∧
    ((((after (.reedCall 9) (sys (some (pk xs)))).queueD 3).packet).map (·.prim)) = some (.called 9) ∧
    (after (.reedEnd 64) (sys (some (pk xs)))).mem.read (64 * 3 + 16) 8 = bytes 8 128 := by decide +kernel

theorem test_reedFail : (let k := (after (.reedFail 0x1234) (sys (some (pk xs)))).queueD 3; (k.state, k.fail, k.packet)) = (3, 0x34, none) ∧
    (let k := (after (.operationLimit 3) (sys (some { pk xs with ops := 512 }))).queueD 3; (k.state, k.fail)) = (3, 0xFE) := by decide +kernel

/-- Every window, at its last word and beyond, and an address that is not 4-aligned. -/
theorem test_reedWindows_met : (let s := sys (some (pk [0, 0, 0, 0, 0, 0, 0, 252, 508, 2]))
    reedMet s && decide (252 + 4 ≤ windowSize (s.qDesc 3) 2) && decide (windowSize (s.qDesc 3) 2 < 256 + 4) && decide (508 + 4 ≤ windowSize (s.qDesc 3) 3) &&
    decide (4 + 9 ≤ windowSize (s.qDesc 3) 1) && decide ((s.qDesc 3).read + 4 + 8 ≤ (s.queueD 3).wptr) &&
    (match (s.ringRead (s.qDesc 3) 2 ((s.qDesc 3).read + 4)).1 with | .ok bs => bs.length == 8 | .error _ => false) &&
    (match (s.vaRead headViewer (s.qDesc 3).asid ((s.qDesc 3).win2.1 + 252) 4).1 with | .ok bs => bs.length == 4 | .error _ => false) &&
    (match (s.vaWrite headViewer (s.qDesc 3).asid ((s.qDesc 3).win3.1 + 508) [1, 2, 3, 4]).1 with | .ok _ => true | .error _ => false)) = true := by decide +kernel

/-- R245: x7 = 0x18, so the ring is read at 64 + 0x18 + 4. -/
theorem test_reedWindows : x0 (.reedLdw ⟨5, 7, 0, 4⟩) 5 = some (BitVec.ofNat 72 (num [0x84, 0x8B, 0x92, 0x99])) ∧
    x0 (.reedLdd ⟨5, 0, 1, 4⟩) 5 = some 9 ∧ x0 (.reedLdv ⟨5, 0, 2, 4⟩) 5 = some 0 ∧
    ((((after (.reedStw ⟨8, 0, 1, 4⟩) (sys (some (pk xs)))).queueD 3).packet).map (·.mem)) = some [(4, 8)] ∧
    (after (.reedStd ⟨5, 0, 3, 4⟩) (sys (some (pk xs)))).mem.get (pa0 + 0x7004) = 5 ∧
    ((after (.reedStv ⟨5, 0, 0, 4⟩) (sys (some (pk xs)))).queueD 3).fail = 0xFF ∧ ((after (.reedLdw ⟨5, 0, 2, 2⟩) (sys (some (pk xs)))).queueD 3).state = 3 := by
  decide +kernel

def ok {α : Type} (e : Except VaErr α × State) : Bool := match e.1 with | .ok _ => true | .error _ => false

/-- Queue 3 has called primitive n with the registers x0 to x8. -/
def calls (n : Nat) (x : List Addr) (m : Mem := mem0) : State := sys (some (pk x (.called n))) m

def called (s : State) (n : Nat) (f : Packet → Bool := fun _ => true) : Bool :=
  match (s.queueD 3).packet with
  | some p => s.stall p == .no && p.prim == .called n && p.fault.isNone && f p
  | none => false

/-- x7 that the packet has been given, and its primitive. -/
def x7 (i : Instr) (s : State) : Option (Addr × Prim) := ((after i s).queueD 3).packet.map fun p => (p.rx 7, p.prim)

def laG : Launch := { la with lid := 7, handle := 1, st := .staged, cr := 0x4000, queue := 4, part := 4 }

/-- Gang 1 of partitions 4 and 5, not yet committed, with a staged launch. -/
def gang (s : State) : State := { s with gangs := [{ handle := 1, mask := 0x30 }], launches := [laG] }

theorem test_launchesStart_met :
    (let s := sys none
     let k := s.queueD 3
     s.dev.stage == 4 && (s.qDesc 3).read == 64 && (s.qDesc 3).size == 4096 && k.state == 1 && k.packet.isNone && decide ((s.qDesc 3).read < k.wptr) &&
     !s.dev.split.getLsbD 1 && !s.regWaits && !k.signalStalls && decide (s.enginesOf 3 < 2) && s.fetchNext 3 &&
     match s.reedProg (s.qDesc 3).prog with | some ops => reedBindOk ops (s.qDesc 3) k.mask | none => false) = true ∧
    (let s := calls 1 [0, 0x2000, 0] memL
     called s 1 (fun p => p.rx 2 == 0) && match (s.modPacket 3 fun p => { p with fault := none }).vaRead headViewer 1 0x2000 128 with
      | (.ok d, u1) => BitVec.ofNat 12 (fieldAt d 10 2) == 1 && maskPart (fieldAt d 0x19 1) == some 2 && u1.part? 2 == some part2 && descFieldsOk d && u1.gangs.isEmpty &&
        !(fieldAt d 9 1).testBit 1 && match u1.vaRead headViewer 1 (fieldAt d 0x20 9) (32 * fieldAt d 0x1A 2) with
          | (.ok table, u2) => match u2.readCode 1 (fieldAt d 0 9) with
            | (.ok (some code), u3) => code.features.toNat &&& (2 ^ 128 - 1 - u3.feat0.toNat) == 0 && u3.planError
                { lid := u3.fresh, queue := 3, asid := 1, cr := BitVec.ofNat 72 (fieldAt d 0x60 9), part := 2, code, argBase := BitVec.ofNat 72 (fieldAt d 0x10 9)
                  buffers := (recordsOf 32 (fieldAt d 0x1A 2) table).map parseBuffer, rounds := code.rounds, st := .running } part2 == 0
            | _ => false
          | _ => false
      | _ => false) = true ∧
    (let s := { sys none with launches := [{ la with admitted := 0, code := { cd with nodes := [0, 0] } }] }
     decide (s.liveTasks + 2 + 4096 ≤ 65536)) = true := by decide +kernel

/-- R242: a doorbell behind the read pointer is an error; R246: a fetched packet has zero registers; R249: two tasks. -/
theorem test_launch : ((after (.dvDoorbell 3 0x1040) (sys none)).queueD 3).wptr = 0x1040 ∧ ((after (.dvDoorbell 3 63) (sys none)).queueD 3).state = 3 ∧
    ((after (.dvDoorbell 3 0x1041) (sys none)).queueD 3).state = 3 ∧ ((after (.packetFetch 3) (sys none)).queueD 3).packet = some { since := 100000 } ∧
    ((after (.launch 3) (calls 1 [0, 0x2000, 0] memL)).tasks.map fun k => (k.key, k.block)) = [(0, 0x5000), (0x100000000, 0x5010)] := by decide +kernel

theorem test_gangs_met : called (calls 2 [0, 9]) 2 = true ∧ called (gang (calls 2 [0, 0x11])) 2 (fun p => (gang (calls 2 [0, 0x11])).gangs.any fun g =>
      g.mask &&& (p.rx 1).setWidth 8 != 0) = true ∧
    called (gang (calls 3 [0, 1, 1000])) 3 = true ∧
    (let s := (gang (calls 3 [0, 1, 1000])).gangFails 1
     (s.gangs.any (·.failed)) && ((s.abortGang 1).queueD 3).packet == (s.queueD 3).packet && called s 3) = true ∧
    (let s := gang (calls 4 [0, 1])
     called s 4 && ((s.abortGang 1).queueD 3).packet == (s.queueD 3).packet && s.gangs.any (fun g => g.handle == 1 && g.start.isNone)) = true ∧
    called (gang (calls 4 [0, 2])) 4 = true := by decide +kernel

/-- R251: handles count from 1; a start time at least 2,048 ns ahead, in steps of 64; x7 of each. -/
theorem test_gangs : x7 (.gangreserve 3) (calls 2 [0, 9]) = some (1, .none) ∧ x7 (.gangreserve 3) (gang (calls 2 [0, 9])) = some (2, .none) ∧
    x7 (.gangreserve 3) (gang (calls 2 [0, 0x11])) = some (0, .none) ∧ x7 (.gangabort 3) (gang (calls 4 [0, 2])) = some (0xFFFF, .none) ∧
    ((after (.gangcommit 3) (gang (calls 3 [0, 1, 0]))).gangs.map (·.start)) = [some 102080] ∧
    ((after (.gangStart 1) { after (.gangcommit 3) (gang (calls 3 [0, 1, 0])) with now := 1031040 }).launches.map (·.st)) = [.running] := by decide +kernel

/-- The budgets of the period are used up. -/
def spent (s : State) : State := { s with dev := { s.dev with budget := List.replicate 15 4, used := List.replicate 15 4, period := s.drone / 8192 } }

def sig (n : Nat) : SignalReq := { n, va := 0x9008, value := 0x1234 }

theorem test_primitives_met :
    (let s := calls 5 [0, 0x1000, 0x9000, 256]
     called s 5 (fun p => (p.rx 3).toNat % 64 == 0) && s.mayTransfer 8 && [0, 192].all fun done =>
       let v := s.renewAt 1 (0x1000 + done) (done == 0)
       let u := s.renewAt 1 (0x9000 + done) (done == 0)
       ok (v.vaRead headViewer 1 (0x1000 + done) (v.headPiece 1 (0x1000 + done) 64 (·.r)).1) && !(u.headPiece 1 (0x9000 + done) 64 (·.w)).2 &&
         ok (u.vaWrite headViewer 1 (0x9000 + done) ((bytes 64 1).take (u.headPiece 1 (0x9000 + done) 64 (·.w)).1))) = true ∧
    ((sys (some (pk [0, 0x1000, 0x9000, 256] (.copying 192 (bytes 64 1) true)))).stall (pk [0, 0x1000, 0x9000, 256] (.copying 192 (bytes 64 1) true)) = .no ∧
     (spent (calls 5 [0, 0x1000, 0x9000, 256])).mayTransfer 8 = false) ∧
    called (calls 6 [0, 0x9000, 77]) 6 = true ∧ (let s := { (sys none).modQueue 3 fun k => { k with signals := [sig 7] } with launches := [{ la with lid := 8, queue := 3 }] }
     ok (s.vaWrite headViewer 1 0x9008 (bytes 8 0x1234)) && (s.queueD 3).crWaits.isEmpty && s.launches.all fun l => l.queue != 3 || decide (7 ≤ l.lid)) = true ∧
    [0, 1].all (fun c => called (calls 7 [0, 0x1000, 5, c]) 7 && ok ((calls 7 [0, 0x1000, 5, c]).vaRead headViewer 1 0x1000 8)) = true ∧
    (let p := pk [0, 0x1000, 5, 1] (.waitval 98976); let s := sys (some p); s.stall p == .no && decide (98976 + 1024 ≤ s.drone)) = true ∧
    called (calls 8 [0, 63]) 8 (fun p => decide ((p.rx 1).toNat < 64)) = true ∧
    [(4 : Addr), 8].all (fun n => let s := calls 9 [0, 0x9000, 0x1008, 0x1122, n]
      called s 9 (fun p => (p.rx 2).toNat % (p.rx 4).toNat == 0) && match s.vaRead headViewer 1 0x9000 256 with
        | (.ok _, u) => match u.translate headViewer 1 0x1008 (·.w) with
          | (.ok a _, _) => a.target == 0 && !a.cell
          | _ => false
        | _ => false) = true ∧
    called (calls 11 [0, 100, 0x21, 6]) 11 (fun p => decide (1 ≤ (p.rx 3).toNat) && decide ((p.rx 3).toNat ≤ 6)) = true ∧
    (let p := pk [0] (.reclaim 100000); decide (100000 ≤ (sys (some p)).drone)) = true := by decide +kernel

/-- R123, R247: pieces of 32 bytes, read and written; R253: 2 leases of 256 and 512 ns, 2,016 ns each; R252: signals and interrupts. -/
theorem test_primitives : ((x7 (.headworksCopy 3) (calls 5 [0, 0x1000, 0x9000, 256])).map fun p => match p.2 with | .copying d u o => (d, u.length, o) | _ => (9, 9, true)) = some (0, 32, false) ∧
    x7 (.headworksCopy 3) (sys (some (pk [0, 0x1000, 0x9000, 256] (.copying 64 (bytes 32 7) true)))) = some (0, .copying 128 [] false) ∧
    x7 (.headworksCopy 3) (sys (some (pk [0, 0x1000, 0x9000, 64] (.copying 0 (bytes 32 7) true)))) = some (0, .none) ∧
    x7 (.reclaim 3) (calls 11 [0, 100, 0x21, 2]) = some (0, .reclaim 4900) ∧
    x7 (.reclaimReturn 3) (sys (some (pk [0] (.reclaim 100000)))) = some (0, .none) ∧
    (after (.interrupt 3) (calls 8 [0, 63])).host.interrupts = [63] ∧
    (after (.signalWrite 3) ((sys none).modQueue 3 fun k => { k with signals := [sig 7] })).mem.read (pa0 + 0x9008) 8 = bytes 8 0x1234 ∧
    x7 (.waitval 3) (calls 7 [0, 0x1000, 0x312A231C150E0700, 0]) = some (0, .none) ∧
    x7 (.waitvalReread 3) (sys (some (pk [0, 0x1000, 0x312A231C150E0701, 1] (.waitval 98976)))) = some (0, .waitval 100000) := by decide +kernel

theorem test_signal_modwrite : ((after (.signal 3) (calls 6 [0, 0x9000, 77])).queueD 3).signals = [{ n := 50, va := 0x9000, value := 77 }] ∧
    (after (.modwrite 3) (calls 9 [0, 0x9000, 0x1008, 0x1122, 4])).mem.read (pa0 + 0x1008) 5 = [0x22, 0x11, 0, 0, 0] := by decide +kernel

def memA : Mem := cells (64 * 3) qdesc ++ cells (pa0 + 0xA000) arHdr

def g44 : Propag := { pid := 44, runAs := 60, asid := 1, arena := 0xA000, lid := none, wave := none, queue := some 3, st := 2, re := 4, sp := 5, di := 6 }

/-- Three resident tasks of partition 2, inside an idempotent region. -/
def sysP (s : State) : State :=
  let k := fun (tid x y : Nat) => ({ tk with tid, x, y, shares := [{ sh with waves := [{ wv with lanes := [some (thr 0 4)] }] }, { c := 1 }] } : Machine.Task)
  { s with tasks := [k 20 0 0, k 21 2 0, k 22 0 1], launches := [{ la with part := 2, queue := 4, cr := 0x4000 }] }

def area : Preempt := { since := 0, left := part2.maskCores 0x3333, before := none, queue := some 3, area := 0x9000, size := 100 }

def flt (va : Nat) (hostMode : Bool) : PageFault :=
  { fid := 33, asid := 1, page := va / 65536, level := 0, access := 0, va := BitVec.ofNat 72 va, refault := false, xy := 0, time := 5, hostMode }

/-- A pre-emption whose chosen task 21 stands outside its idempotent region, 900 µs later. -/
def sysL : State :=
  let s := sysP (sys (some (pk [0, 2, 0x3333, 0x9000, 0x80] .preempting)))
  { s with
    now := 10000000
    tasks := s.tasks.map fun k => if k.tid = 21 then { k with shares := [{ sh with waves := [{ wv with lanes := [some (thr 0 20)] }] }, { c := 1 }] } else k
    dev := { s.dev with parts := [{ part2 with preempt := some area, cores := some area.left }] } }

theorem test_primitives2_met :
    (let s := calls 10 [0, 0xA000, 2, 0x9000, 0x8000, 1] memA
     called s 10 (fun p => (p.rx 3).toNat % 16 == 0 && (p.rx 1).toNat % 64 == 0) && (s.part? 2).isSome && match s.vaRead headViewer 1 0xA000 256 with
      | (.ok _, u) => u.props.isEmpty && u.arState ⟨1, 0xA000⟩ == 2 && u.arGeneration ⟨1, 0xA000⟩ != 0x1FFFFFFF
      | _ => false) = true ∧
    (let s := { sys (some (pk [0, 0xA000, 2, 0x9000, 0x8000, 1] (.propagating 44))) memA with props := [g44] }
     s.prop? 44 == some g44 && ok (s.vaWrite headViewer 1 0x9000 (propResult 4 5 6 none))) = true ∧
    (let s := sysP (calls 12 [0, 2, 0x3333, 0x9000, 0x80])
     let left := part2.maskCores 0x3333
     called s 12 && s.part? 2 == some part2 && part2.maskOk 0x3333 && !s.gangHolds 2 && part2.preempt.isNone && left.all part2.present.contains &&
     (part2.present.any fun c => !left.contains c) && (s.chosen 2 left).length == 1 && (s.chosen 2 left).all fun k => s.idempotent k && s.evictable k) = true ∧
    (part2.maskOk 0xFFFF && part2.present.all (part2.maskCores 0xFFFF).contains && (part2.maskCores 0xFFFF).all part2.present.contains) = true ∧
    (let s := sysL
     match s.preemptOf 3 with | some (_, e) => decide (e.since + 1048576 * Config.coreCycle ≤ s.now) && !e.stood | none => false) = true ∧
    [(0 : Addr), 1].all (fun how => let s := { sysP (calls 13 [0, 33, how]) with faults := [flt 0x200000 true] }
      called s 13 && s.faults.any fun f => f.fid == 33 && !f.failed) = true ∧
    (let s := sysP (calls 14 [0, 0x4000, 0x9000, 512])
     called s 14 && s.launches.any fun l => l.prop.isNone && l.cr == 0x4000 && l.asid == (s.qDesc 3).asid && l.st == .running && !l.stopReq) = true := by
  decide +kernel

/-- R247, R254: x7 of each. -/
theorem test_primitives2 : x7 (.propagate 3) (calls 10 [0, 0xA000, 2, 0x9000, 0x8000, 1] memA) = some (0, .propagating 50) ∧
    x7 (.propagate 3) { sys (some (pk [0, 0xA000, 2, 0x9000, 0x8000, 1] (.propagating 44))) memA with props := [g44] } = some (0, .none) ∧
    x7 (.preempt 3) (sysP (calls 12 [0, 2, 0x3333, 0x9000, 0x80])) = some (1, .none) ∧ x7 (.preempt 3) (sysP (calls 12 [0, 2, 0xFFFF, 0x9000, 0x80])) = some (0, .none) ∧
    x7 (.preemptTimeout 3) sysL =
       some (0xFFFD, .none) ∧
    x7 (.replay 3) { sysP (calls 13 [0, 33, 1]) with faults := [flt 0x200000 true] } = some (0, .none) ∧
    x7 (.dumpto 3) (sysP (calls 14 [0, 0x4000, 0x9000, 512])) = some (0, .none) ∧
    ((after (.dumpto 3) (sysP (calls 14 [0, 0x4000, 0x9000, 512]))).launches.map (·.st)) = [.halting 1000000 2 0x9000 512] := by decide +kernel

/-! ### Tasks and rounds -/

/-- Three nodes in rounds 0, 0 and 1 on 2 × 1 polders with two channels. -/
def cdN : Code :=
  { size := 64, kernels := [⟨0, 2, 1, 0, 16, 0, 2, true⟩], chans := [⟨1, 10, 32⟩, ⟨0, 12, 64⟩], stages := [⟨0, 3, 16, 2⟩, ⟨8, 1, 32, 1⟩]
    nodes := [0, 0, 0], safes := [(0, 5), (8, 1)], regions := [(0, 16)] }

def laN : Launch := { lid := 5, queue := 0, asid := 1, cr := 0x4000, part := 2, code := cdN, rounds := [0, 0, 1], admitted := 2 }

def tkN (tid : Nat) : Machine.Task := { tid, lid := 5, key := 0x100000000, kernel := 0, st := .waits }

def sysN (ts : List Machine.Task) : State := { sys none with tasks := ts, launches := [laN] }

/-- Task 21 on core (2, 0), its threads over. -/
def tkR : Machine.Task :=
  { tkN 21 with st := .resident, x := 2, y := 0, shadow := [(5, 6)], shares := [{ c := 0, waves := [{ wix := 0, stage := 0, slot := 0, lanes := List.replicate 32 none }] }, { c := 1 }] }

/-- Two retired tasks of the round, each with a byte. -/
def done (tid : Nat) (key : BitVec 48) (a : Nat) : Machine.Task :=
  { tkN tid with key, st := .retired, shadow := [(a, 6)], lines := [⟨a / 64, a / 64 * 64, (0, 0), false⟩] }

theorem test_tasksAndRounds_met :
    (let s := sysN [tkN 20, tkN 21]
     s.launchRuns laN && !laN.stopReq && (tkN 21).round == laN.round && !s.badExtents laN 0 && s.fits laN 0 2 1) = true ∧
    (let s := sysN [tkN 20, tkR]
     s.canRetire tkR && s.taskRuns tkR && tkR.record.isNone && tkR.races.isEmpty && tkR.prop.isNone && tkR.shares.all (fun h => h.waves.all (·.held.isEmpty)) &&
      s.tasks.all fun c => c.parent != some 21) = true ∧
    ((sysN []).owes 10 = false ∧ laN.fatal = false ∧ laN.lrec = 0) ∧
    (sys none).tags = [] ∧ (sys none).mem.wf = true ∧ (tkR.shadow.map (·.1)).Pairwise (· < ·) ∧ tkR.lines = [] ∧
    (let roots := [done 21 0 5, done 22 0x100000000 70]
     roots.all Task.over && (clashes roots).isEmpty && laN.rounds.any (laN.round < ·) &&
     (List.range 3).all fun i => nth laN.rounds i 0 != 0 || decide (i < laN.admitted)) = true := by decide +kernel

/-- R66, R61, R142: dispatch, retirement, and a round's merge into device memory. -/
theorem test_rounds : ((after (.taskDispatch 21 2 1) (sysN [tkN 20, tkN 21])).task? 21).map (fun k => (k.st, k.x, k.y, k.shares.map fun h => h.waves.map (·.wix))) =
      some (.resident, 2, 1, [[0, 1, 2], [0, 1, 2]]) ∧
    ((after (.taskRetire 21) (sysN [tkN 20, tkR])).task? 21).map (fun k => (k.st, k.shares.map (·.waves.length), k.shadow)) = some (.retired, [0, 0], [(5, 6)]) ∧
    (let t := after (.roundMerge (.launch 5)) (sysN [done 21 0 5, done 22 0x100000000 70])
     (t.launches.map (·.round), t.mem.get 5, t.mem.get 70)) = ([1], 6, 6) := by decide +kernel

def bin1 : Bin := { tid := 21, c := 0, stage := 0, pc := 8, filed := 0, entries := [⟨{ tix := 40, pc := 8 }, []⟩, ⟨{ tix := 33, pc := 8 }, []⟩] }

def stBin : State :=
  let h : Share := { c := 0, waves := [{ wix := 0, stage := 0, slot := 0, lanes := [some { tix := 0, pc := 4 }, none] ++ List.replicate 30 (some { tix := 9, pc := 4 }) },
    { wix := 1, stage := 0, slot := 1, lanes := List.replicate 32 none }] }
  { sysN [tkN 20, { tkR with shares := [h, { c := 1 }] }] with cores := [{ x := 2, y := 0, bins := [{ bin1 with pc := 12, filed := 5 }, bin1] }] }

/-- A slot over its limit; copies of the launch that would wait and that would not. -/
def stWd (x : LaunchSt) : State :=
  { st with
    now := 1000000
    launches := [{ la with st := x }]
    cores := [{ x := 2, y := 1, slots := [{ running := some r0, count := 50, limit := 50 }, {}, {}, {}], copies := [[{ cp 1 with kind := .out }, { cp 2 with kind := .out, fired := true }]] }] }

/-- Partition 2 with a launch of queue 4, and a packet of greater priority in queue 5. -/
def stFw : State := { sysP (sys none) with queues := [q3 none, { q := 4, state := 1 }, { q := 5, state := 1, prio := 3, packet := some {} }] }

/-- An arena in state 2 of which the fifth table is over three quarters full. -/
def stCompact : State :=
  { sys none (cells (64 * 3) qdesc ++ cells (pa0 + 0xA000) (arHdr.take (32 + 16 * 4 + 12) ++ bytes 4 63 ++ arHdr.drop (32 + 16 * 5))) with launches := [] }

theorem test_tasksManaged_met :
    (let s := stBin
     s.dueBins 2 0 == [bin1, { bin1 with pc := 12, filed := 5 }] && (s.core 2 0).bins[1]? == some bin1 && (s.share? 21 0).any fun h => decide (2 ≤ (h.freeLanes 0 (s.copiesFly tk 0)).length) && decide (h.waves.map (·.wix)).Nodup && h.waves.all fun w => w.lanes.length == 32) = true ∧
    (((stWd .running).core 2 1).slots.head?.any (fun sl => sl.running == some r0 && sl.limit != 0 && decide (sl.limit ≤ sl.count)) &&
      ((stWd .running).task? 3).any (stWd .running).taskRuns) = true ∧
    (wv.frontier).isSome = true ∧ (sysN []).copiesOfLaunch 5 = [] ∧
    (let s := stFw
     let left := part2.maskCores 0x3333
     s.part? 2 == some part2 && s.dev.parts == [part2] && part2.preempt.isNone && !s.dev.split.getLsbD 2 && s.higherWaits 2 && !s.gangHolds 2 && part2.maskOk 0x3333 && (s.chosen 2 left).length == 1 &&
     (s.chosen 2 left).all fun k => s.idempotent k && s.evictable k) = true ∧
    (let s := stCompact
     let a : ArenaAt := ⟨1, 0xA000⟩
     !s.dev.split.getLsbD 5 && !s.owes 10 && s.launches.isEmpty && s.props.isEmpty && s.arNum a 0 4 == 0x4352544B && s.arState a == 2 && decide (3 * (s.arTable a 4).2.1 < 4 * (s.arTable a 4).2.2)) = true := by decide +kernel

/-- R73: a free context takes a bin's threads in ascending k.tix; R85, R268: WATCHDOG in the frontier; the waiting copy is cancelled. -/
theorem test_managed : ((after (.binDrain 2 0 1) stBin).wave? ⟨21, 0, 1⟩).map (fun w => ((w.thread? 0).map (·.tix), (w.thread? 1).map (·.tix))) =
      some (some 33, some 40) ∧
    ((after (.watchdog 2 1 0) (stWd .running)).launches.map fun l => l.records.map fun x => (x.code, x.lane)) = [[(0x0E, 0), (0x0E, 2)]] ∧
    ((after (.copyDrain 5) (stWd (.halted 999000))).core 2 1).copies.flatten.map (·.tag) = [2] ∧
    ((after (.dump 5) { sysN [] with launches := [{ laN with st := .halting 900000 1 0x9000 512 }] }).launch? 5) = none := by decide +kernel

theorem test_preemptionDecision : ((after (.preemptionDecision 2 0x3333) stFw).tasks.map fun k => (k.tid, k.st)) =
    [(20, .resident), (21, .evicted true), (22, .resident)] := by decide +kernel

/-! ### Loads, cells and translation -/

def stL : State := st.modWave r0 fun w =>
  { w with pend := [⟨4, 4, 0⟩, ⟨5, 4, 0⟩], loads := [{ id := 70, tix := 2, reg := some 4, words := [11, 12] }, { id := 71, tix := 0, reg := some 4, words := [13], due := some 100000 }] }

def op1 : CellOp :=
  { id := 9, lid := 5, scope := 10, tid := 3, core := 0, wix := 0, lane := 0, key := 0x100000000, tix := 0, cseq := 0, pa := 0x101000, va := 0x1000, major := 0x30, ty := 0, operand := 7 }

theorem test_cellsAndLoads_met :
    (stL.wave? r0).any (fun w => (w.loads.find? (·.id == 70)).any (·.due.isNone) && (w.loads.find? (·.id == 71)).any fun d => d.due.any (stL.drone ≤ ·)) = true ∧
    ([70, 71].all fun n => let s := { stL with now := 100000000 }
      s.wave? r0 == stL.wave? r0 && (s.wave? r0).any fun w => (w.loads.find? (·.id == n)).any fun d => d.due.any (· < s.drone) == (n == 71)) = true ∧
    (stL.core 2 1).samples = [] ∧
    (let s := { stG true with flight := [op1] }
     (match s.answer op1 with | .accepted _ => true | _ => false) && s.cores.all (fun c => c.retry.all (·.id != 9)) && !la.records? && s.mayTransfer 11 && s.task? 3 == some tk) = true ∧
    (([⟨op1, 0⟩] : List CellEntry).map (·.op.stamp)).Pairwise (· < ·) ∧
    (let s := { st with withdrawals := [(8, 10, 0x101000, 5, 6, 7)] }
     s.withdrawals.find? (·.1 == 8) == some (8, 10, 0x101000, 5, 6, 7)) = true ∧
    (let s := (stG true).modWave r0 fun w => { w with wait := .ldcs 5 [] }
     let u := (s.giveCells r0 []).sampleLoads tk r0 s.fresh
     decide (tk.key.toNat ≤ s.watermark 5) && (s.task? 3).any (fun k => s.taskRuns k && !s.fatalIn k) && (u.task? 3).isSome && (u.share? 3 0).isSome && (u.wave? r0).isSome) = true := by decide +kernel

/-- R42: both words of lane 2's load arrive; R162: the operation is held. -/
theorem test_loadReturn : ((after (.loadReturn r0 70) stL).wave? r0).map (fun w => ((w.thread? 2).map fun th => (th.rv 4, th.rv 5), (w.thread? 0).map (·.rv 4), w.loads.length)) =
      some (some (11, 12), some 400, 1) ∧
    ((after (.cellArrival 9) { stG true with flight := [op1] }).cells.map fun c => (c.pa, c.entries.map (·.op.operand))) = [(0x101000, [7])] ∧
    ((after (.ldcsReturn r0) ((stG true).modWave r0 fun w => { w with wait := .ldcs 5 [] })).wave? r0).map (·.wait) = some .none ∧
    (after (.cellWithdrawal 8) { st with withdrawals := [(8, 10, 0x101000, 5, 6, 7)] }).withdrawals = [] := by decide +kernel

def pte (a v : Nat) : Mem := cells a (bytes 16 v)

/-- A walk from the ASID table at 0x100000 to a leaf of PA page 0x33 for VA page 2, and a pool of ASID 1 (R199–R205, R219). -/
def stWalk (pool : Bool) : State :=
  let node := fun pg => 1 + 3 * 65536 + pg * 2 ^ 24
  { sysN [tkN 20] with
    mem := pte 0x100010 (node 17) ++ pte 0x110000 (node 18) ++ pte 0x120000 (node 19) ++ pte 0x130000 (node 20) ++ pte 0x140000 (node 21) ++
      pte 0x150020 (0x1F + 2 * 65536 + 0x33 * 2 ^ 24) ++ (if pool then cells 0x400000 (bytes 2 1 ++ bytes 6 0x8007 ++ bytes 16 0x40000 ++ bytes 8 0x100000 ++ bytes 8 0x500000 ++
        bytes 4 1) ++ cells 0x500000 (bytes 8 0x770000) else [])
    dev := { (sys none).dev with asbase := 0x100000, hfqbase := 0x300000, poolbase := 0x400000 } }

theorem test_translationEvents_met :
    (match (stWalk false).walk (some (Agent.die (.l1 2 3))) 1 0x2ABCD with | (.leaf _, _) => true | _ => false) = true ∧
    (stWalk false).freeWalker (Agent.die (.l1 2 3)) = some 0 ∧
    (let w := fun n => ({ ag := .l1 2 3, walker := n, asid := 1, va := BitVec.ofNat 72 (n * 65536), pte := 0, fills := [], readAt := 0 } : Walk)
     { stWalk false with walks := (List.range 127).map w }.freeWalker (Agent.die (.l1 2 3)) == some 127 &&
      ({ stWalk false with walks := (List.range 128).map w }.freeWalker (Agent.die (.l1 2 3))).isNone) = true ∧
    (let s := { stWalk false with walks := [{ ag := .l1 2 3, walker := 0, fills := [], asid := 1, va := 0x2ABCD, pte := BitVec.ofNat 128 (0x1F + 2 * 65536 + 0x33 * 2 ^ 24), readAt := 99000 }] }
     decide (s.droneAt (.walker (Agent.die (.l1 2 3)) 0) ≤ 99000 + 2000) && leafPa (0x1F + 2 * 65536 + 0x33 * 2 ^ 24) == 0x330000 && leaseOf (0x1F + 2 * 65536 + 0x33 * 2 ^ 24) != 0 && !s.isSkewed (.l1 2 3)) = true ∧
    ((stG false).tlb[0]?.any fun e => !decide (e.expiry ≤ (stG false).droneAt e.ag)) = true ∧
    (let s := { stG false with now := 20000000 }
     s.tlb[0]?.any fun e => decide (e.expiry ≤ s.droneAt e.ag)) = true ∧
    80 < (-81 : Int).natAbs ∧ (20 : Int).natAbs ≤ 20 ∧ (sys none).dev.split.getLsbD 7 = false ∧
    (let s := { stG false with skewed := [(.l1 2 1, true)] }
     s.isSkewed (.l1 2 1) && !s.dev.event.getLsbD 0) = true ∧
    (let e : WalkEntry := { die := 0, asid := 1, level := 3, index := 0, next := 0x110000, expiry := 5 }
     let s := { stG false with walkCache := [e] }
     s.walkCache[0]? == some e && decide (e.expiry ≤ s.droneAt (.walkCache 0))) = true ∧
    ((stWalk false).dev.hfqhead + 32) % hfqSize (stWalk false).dev ≠ (stWalk false).dev.hfqtail ∧
    (let s := stWalk false
     let root := s.pteAt (s.dev.asbase + 16)
     root % 2 == 1 && (s.holeAt 0x2ABCD 4 (leafPa root)).isNone && (s.holeAt 0x5ABCD 4 (leafPa root)).isSome && (s.poolOf 1 0x5ABCD).isNone) = true ∧
    (let s := stWalk true
     let root := s.pteAt (s.dev.asbase + 16)
     match s.holeAt 0x5ABCD 4 (leafPa root), s.poolOf 1 0x5ABCD with
     | some (k, at'), some p => (s.mapPath p 0x5ABCD k at').2
     | _, _ => false) = true ∧
    ((stG false).core 2 1).l1[1]?.isSome = true := by decide +kernel

/-- R208–R213: an entry of PA page 0x33 for its lease at most; R210: it goes when its lease is over; R218: the fault queue. -/
theorem test_translation : (let s := after (.pageWalk (.l1 2 3) 1 0x2ABCD) (after (.pageWalk (.l1 2 3) 1 0x2ABCD) (stWalk false))
     (s.tlbHit (.l1 2 3) 1 0x2ABCD).map fun e => e.pa 0x2ABCD) = some 0x33ABCD ∧
    (after (.leaseExpiry 0) (stG false)).tlb.length = 3 ∧ (after (.leaseExpiry 0) { stG false with now := 20000000 }).tlb.length = 2 ∧
    (after (.droneBeacon (.l1 2 1) 81) (stG false)).tlb.map (·.ag) = [.copyEngine 2 1, .headworks] ∧
    (let t := after (.translationFaultService 33) { stWalk false with faults := [flt 0x2ABCD true] }
     (t.dev.hfqhead, t.dev.event.getLsbD 5, t.mem.get 0x300008 != 0 || t.mem.get 0x300000 != 0)) = (32, true, true) ∧
    ((after (.l1LineReplacement 2 1 0) (stG false)).core 2 1).l1.map (·.line) = [0x4041] := by decide +kernel

/-! ### The device and the host -/

/-- The partition register's value for number p (R305). -/
def dvWord (x0 y0 w h : Nat) : BitVec 64 := BitVec.ofNat 64 (x0 + 2 ^ 8 * y0 + 2 ^ 16 * w + 2 ^ 24 * h + 2 ^ 63)

def sysH : State := { sys none with launches := [{ la with part := 2 }] }

theorem test_hostWrites_met : sysH.dev.stage = 4 ∧ (sysH.part? 2).isSome = true ∧ sysH.launches.any (·.part == 2) = true ∧ (sys none).launches = [] ∧
    (partOf 3 (dvWord 20 0 5 4)).w = 5 ∧ (partOf 3 (dvWord 20 0 5 4)).x0 = 20 ∧ (partOf 3 (dvWord 20 0 5 4)).valid = true ∧ (partOf 3 (dvWord 3 3 4 4)).overlaps part2 = true ∧
    (partOf 3 (dvWord 4 0 4 4)).overlaps part2 = false ∧ sysH.dev.keyvalid.getLsbD 63 = false ∧ sysH.dev.attreq = none ∧
    (∃ p, ({ sysH.dev with attreq := some 0x5000 } : Dev).attreq = some p ∧ p + 4096 ≤ Config.deviceBytes) ∧
    (sysH.launchesIn 2).map (·.lid) = [5] ∧ ({ sysH.debug 2 with enable := true } : Debug).enable = true ∧ (sysH.regAt 0x40).isSome = true ∧
    (sysH.regAt 0x60).isSome = true ∧ State.reset.dev.stage = 0 ∧ (0 : Nat) ≠ 4 ∧
    ([1, 2, 3].map fun n => ({ sysH.dev with stage := n } : Dev).stage) = [1, 2, 3] ∧
    ({ sysH.dev with split := 0x18 } : Dev).scrubsOnRequest = true ∧ ({ sysH.dev with split := 0x18 } : Dev).split.getLsbD 3 = true ∧
    sysH.regWaits = false ∧ sysH.streamWaits 9 = false ∧ (sysH.regAt 0x1000).isSome = true ∧ (sysH.regAt (0x1004 / 8 * 8)).isSome = true := by
  refine ⟨?_, ?_, ?_, ?_, ?_, ?_, ?_, ?_, ?_, ?_, ?_, ⟨0x5000, ?_⟩, ?_⟩ <;> decide +kernel

/-- R305: a free partition is taken; one out of the grid or overlapping raises event 3; thresholds at the ends of their range. -/
theorem test_hostWrites : ((after (.dvPart 3 (dvWord 4 0 4 4)) sysH).dev.parts.map (·.p)) = [2, 3] ∧
    [dvWord 21 0 4 4, dvWord 3 3 4 4, dvWord 4 0 0 4].all (fun v => (after (.dvPart 3 v) sysH).dev.event.getLsbD 3 &&
      (after (.dvPart 3 v) sysH).dev.parts.length == 1) = true ∧
    [(256 : BitVec 64), 16384].all (fun v => (after (.dvRhthresh v) sysH).dev.rhthresh == v.toNat) = true ∧
    [(255 : BitVec 64), 16385].all (fun v => (after (.dvRhthresh v) sysH).dev.event.getLsbD 3) = true ∧
    (after (.dvAttreq 0x5FFF) sysH).dev.attreq = some 0x5000 ∧ (after (.dvEvmask 0x7F) { sysH with dev := { sysH.dev with event := 3 } }).host.interrupts.length = 2 := by
  decide +kernel

/-- R304: the stages in order, and the failures of training and harvest. -/
theorem test_bringUp : (let at' := fun n r => (after (.bringUp r) { State.reset with dev := { State.reset.dev with stage := n } }).dev
    ((at' 0 .trainingFails).stage, (at' 2 (.ok [])).stage, (at' 2 .trainingFails).failCode, (at' 3 (.ok [])).failCode,
      (at' 3 (.ok (List.replicate 4 (-1 : BitVec 104)))).stage)) = (1, 3, 2, 3, 4) := by decide +kernel

theorem test_hostWrites2 : ((after (.registerWrite 0x40 8 0x12345678FF) sysH).regAt 0x40) = some 0x12345678C0 ∧
    (after (.registerWrite 0x100 8 1) State.reset).host.replies = [(0, 3, [])] ∧
    (after (.dbgctlHalt 2) { sysH with dev := { sysH.dev with debug := [{ p := 2, enable := true }] } }).launches.map (·.stopReq) = [true] ∧
    (after (.dbgctlResume 2) { sysH with launches := [{ la with part := 2, stopReq := true }] }).launches.map (·.stopReq) = [false] ∧
    ((after (.refctlRepair 11) { sysH with dev := { sysH.dev with split := 0x18 } }).stack 11).repairReq = true ∧
    ((after (.refctlScrub 0) { sysH with dev := { sysH.dev with split := 0x18 } }).stack 0).scrubReq = 1 ∧
    ((after (.refctlHandback 0) (sysH.modStack 0 fun k => { k with owner := true })).stack 0).handback = true := by decide +kernel

def sysV : State := { sys none with dev := { (sys none).dev with peers := [(5, 0x10001)] } }

theorem test_deviceEvents_met : sysV.mayTransfer 9 = true ∧ sysV.streamWaits 7 = false ∧ sysV.owes 12 = false ∧ sysV.dev.broken = [] ∧
    (let s := { sysV with dev := { sysV.dev with split := 0x18, hbm := [] } }.modStack 3 fun k => { k with scrubReq := 2 }
     s.dev.scrubsOnRequest && (s.stack 3).scrubReq != 0) = true ∧ (sysV.stack 11).scrubDays ≤ sysV.drone / 86400000000000 ∧
    (sysV.drone - 1) / 32000000 ≤ sysV.dev.clears ∧
    [99999, 100000, 300000, 300001].map (fun x => ({ sysV with now := 10 * x }.drone - (sysV.stack 4).lastBeat - 1) / 100000) = [0, 0, 2, 3] ∧ (0xC0 : Nat) % 64 = 0 ∧ 0xC0 < Config.deviceBytes ∧ sysV.badLine 0xC0 = false ∧
    sysV.tags = [] ∧ sysV.slotKey 0 = 0 ∧ sysV.unsettledLine 3 = false ∧ sysV.mem.wf = true ∧ sysV.launches = [] ∧ sysV.peerOk 5 = true ∧
    sysV.peerDown 5 0xC0 = false ∧ (sysV.dev.split.getLsbD 3 = false) ∧
    (trackRow 256 9 [(9, 255)]).2 = true ∧ ({ sysV with now := 320000000 }).dev.clears < (({ sysV with now := 320000010 } : State).drone - 1) / 32000000 ∧
    sysV.dev.scrubsOnRequest = false ∧ ({ sysV with now := 36000000000000 } : State).dev.eolHour < ({ sysV with now := 36000000000000 } : State).drone / 3600000000000 ∧
    sysV.dev.period < sysV.drone / 8192 := by decide +kernel

/-- R147: a masked write of the line; R294: three misses give the controller refresh; R295: neighbours of a hammered row. -/
theorem test_deviceEvents : (after (.deviceMemoryRead 7 0xC0 0 0) sysV).host.replies.map (fun r => (r.1, r.2.1, r.2.2.take 3)) = [(7, 0, [0, 0x10, 0])] ∧
    (after (.deviceMemoryWrite 7 0x400 0 0 5 0x332211) sysV).mem.read 0x400 3 = [0x11, 0, 0x33] ∧
    (after (.peerAccess 5 0xC0 none 0) sysV).host.peerReplies.map (fun r => (r.1, r.2.1, r.2.2.length)) = [(5, 0, 32)] ∧
    (after (.peerAccess 5 0x400 (some 0x44) 1) sysV).mem.read 0x400 2 = [0x44, 0] ∧
    (after (.linkTrainingLoss 3) sysV).dev.lostPorts = [3] ∧ (after (.linkTraining 3) (after (.linkTrainingLoss 3) sysV)).dev.lostPorts = [] := by decide +kernel

theorem test_deviceEvents2 : (let t := after (.heartbeatMiss 4) ({ sysV with now := 4000000 }.modStack 4 fun k => { k with misses := 2 })
      ((t.stack 4).misses, (t.stack 4).owner, t.dev.event.getLsbD 1)) = (3, true, true) ∧
    ((after (.heartbeat 4) (sysV.modStack 4 fun k => { k with misses := 2, owner := true, handback := true })).stack 4).owner = false ∧
    ((after (.rowActivation 1 2 3 9) ({ sysV with dev := { sysV.dev with rhthresh := 256 } }.modStack 1 fun k => { k with trackers := [((2, 3), [(9, 255)])] })).stack 1).directed =
      [(2, 3, 10), (2, 3, 11), (2, 3, 8), (2, 3, 7)] ∧
    (after .trackerClear { sysV with now := 320000010 }).dev.clears = 1 ∧ (after .budgetPeriod { sysV with now := 1000000 }).dev.period = 12 := by decide +kernel

theorem test_deviceEvents3 : ((after (.scrubPass 3 []) sysV).stack 3).scrubs = 1 ∧ (after (.eolUpdate 6 2) { sysV with now := 36000000000000 }).dev.eolMonths = 6 ∧
    ((after (.shareReassign 2 1) stC).core 2 1).smallest = (((after (.shareReassign 2 1) stC).core 2 1).smallest.filter fun p => p.1 == 3) := by decide +kernel

/-! ### Faults -/

theorem test_faultsTaken_met : [true, false].all (fun h => let s := { st with launches := [{ la with haltFatal := h }] }
      (s.wave? r0).any (fun w => (w.thread? 0).isSome) && s.launches.any fun l => l.haltFatal == h && l.st == .running && l.records.isEmpty) = true ∧
    tk.prop = none ∧ st.dev.split.getLsbD 6 = false ∧
    ({ tk with shares := [{ sh with waves := [{ wv with lanes := [some { thr 0 4 with park := .fatal }] }] }] } : Machine.Task).hasFatal = true ∧
    ({ tk with shares := [{ sh with waves := [{ wv with lanes := [some { thr 0 4 with park := .fatal }] }] }] } : Machine.Task).active = false ∧
    (Instr.spawn ⟨0, 0, 0, false, false⟩).selOk = false ∧ (Instr.dadd ⟨.v 3, .v 4, .v 6, false, false, false⟩).opOk 96 = false ∧
    (wv.frontier = some (4, 5)) ∧ wv.pend = [] ∧ cd.size < 63 + 2 ∧
    (let k : Machine.Task := { tk with shares := [{ sh with waves := [{ wv with lanes := [some { thr 0 4 with park := .fatal }] }] }] }
     let s := { st with tasks := [k] }
     s.task? 3 == some k && s.taskRuns k && s.fatalIn k && !k.active) = true ∧
    100 / Config.coreCycle < 104 / Config.coreCycle ∧
    (let x : FaultRec := { code := 1, lane := 0, tix := 0, ordinal := 0, offset := 0, access := 0, va := 0, key := 0, time := 0 }
     decide ((la.records.map FaultRec.size).sum + x.size ≤ 256)) = true := by decide +kernel

/-- R46, R47: the record carries the instruction word; R40: an invalid latch faults its thread alone; R258, R261. -/
theorem test_faults : ((after (.spawn ⟨0, 0, 0, false, false⟩) st).launches.map fun l => l.records.map fun x => (x.code, x.lane, x.ordinal, x.offset, x.time)) =
      [[(1, 0, 0, 4, 12345), (1, 2, 0, 4, 12345)]] ∧
    ((after (.dadd ⟨.v 3, .v 4, .v 6, false, false, false⟩) st).launches.map fun l => l.records.map fun x => (x.code, x.fatal)) = [[(2, true), (2, true)]] ∧
    (let t := after (.mov ⟨.l 2, .v 4, false, false, false⟩) (st.modWave r0 fun w => w.modLane 2 fun th => { th with latch := [⟨1, false⟩] })
     (t.launches.map fun l => l.records.map fun x => (x.code, x.lane), (t.wave? r0).map fun w => ((w.thread? 0).map (·.pc), (w.thread? 2).map (·.pc)))) =
      ([[(3, 2)]], some (some 8, some 4)) ∧
    ((st.raise r0 0 { code := 0x0F }).task? 3).map (·.hasFatal) = some true ∧
    (({ st with launches := [{ la with haltFatal := true }] } : State).raise r0 0 { code := 0x0F }).launches.map (·.st) = [.halting 123456 1 0 0] := by decide +kernel

/-! ### Steps -/

/-- The L1 translates, and the text at VA 0 holds `exit`. -/
def stStep (t : Turn) : State :=
  { stG false with mem := cells 0x100004 (leBytes 4 0x0000011D), agenda := [t], cores := [{ x := 2, y := 1, slots := [{}, {}, {}, {}] }] }

theorem test_stepsRunWhatIsThere_met :
    (let s := stStep (.wave r0)
     let s1 := { s with agenda := [], free := 1 }
     tk.st == .resident && wv.canIssue && s1.launchRuns la && s1.slotTakes r0 wv la (2, 1) && wv.frontier == some (4, 5) && (s.haltAt tk wv la 4 (.exit ⟨false, false⟩) == .no) && s1.isAwake (2, 1) &&
     s.cached (laneViewer 3 2 1) 1 4 == some (entry (.l1 2 1) (rwx false)) && s.pageTag la 0 == (0, 0) && s.tags.isEmpty && !s.badIn 0x100004 4 &&
     decodeBytes (s.mem.read 0x100004 4) == some (.ok (.exit ⟨false, false⟩))) = true ∧
    (let s := { sys (some (pk xs)) with agenda := [.reed 3] }
     (s.queueD 3).crWaits.isEmpty && !(s.queueD 3).signalStalls && (s.queueD 3).packet.any (·.engine) && match s.reedProg (s.qDesc 3).prog with | some ops => ops[2]? == some (.reedCall 1) | none => false) = true ∧
    primRow 3 (.called 6) = some (.signal 3) ∧ encode (.budgetPeriod) = none ∧ (sys none).agenda = [] ∧ (sys none).urgent = none ∧
    stBin.overfull = none ∧ stBin.dueBin = some (2, 0, 1) := by decide +kernel

/-- The fetched EXIT ends lanes 0 and 2; the operation at x2 calls primitive 1. -/
theorem test_step : (match step (stStep (.wave r0)) with
      | .next t => ((t.wave? r0).map fun w => ((w.thread? 0).isSome, (w.thread? 3).isSome), t.free, t.agenda.length) == (some (false, true), 1, 0)
      | _ => false) = true ∧
    (match step { sys (some (pk xs)) with agenda := [.reed 3] } with
      | .next t => ((t.queueD 3).packet.map (·.prim)) == some (.called 1)
      | _ => false) = true ∧
    (match step { sysV with agenda := [.ev .budgetPeriod] } with
      | .next t => t.dev.period == 12
      | _ => false) = true := by decide +kernel

theorem test_decodeOfEncode_met : (Instr.cadd ⟨2, 1, .v 3, .s32, false, false⟩).wf = true ∧ encode (.cadd ⟨2, 1, .v 3, .s32, false, false⟩) = some (32, 0x011060C1) ∧
    (Instr.reedLdv ⟨1, 0, 0, 8⟩).wf = true ∧ encode (.reedLdv ⟨1, 0, 0, 8⟩) = some (32, 0x03100008) ∧ encode (.faddCompact ⟨.v 6, 4⟩) = some (16, 0x1894) := by decide

theorem test_stepsGoOn_met : (sys none).mem.wf = true ∧ (sys none).hostMem.wf = true ∧ (sys none).peerMem.wf = true := by decide

/-- withFetchWord: the very next step runs the word (LAWS: one lane word, one reed word). -/
theorem test_withFetchWord : (match step (State.reset.withFetchWord 32 0x0000011D) with | .next _ => true | _ => false) = true ∧
    decodeTableWord 32 0x0000011D = some (.exit ⟨false, false⟩) := by decide +kernel

/-! ### Further clauses of the statements -/

theorem test_specialResults_met2 : Fmt.f32.unpack 0x43000000 = .fin false 8388608 (-16) ∧ (FV.fin false 8388608 (-16)).toRat = 2 ^ 7 ∧
    Fmt.f32.unpack 0x3F000000 = .fin false 8388608 (-24) ∧ (FV.fin false 8388608 (-24)).toRat = 0 + 1 / 2 ∧
    Fmt.f32.unpack 0xC3200000 = .fin true 10485760 (-16) ∧ (FV.fin true 10485760 (-16)).toRat = -160 ∧
    Fmt.f32.unpack 0x80000000 = .fin true 0 (-149) ∧ Fmt.f32.unpack 0xFF800000 = .inf true ∧
    (Fmt.f32.unpack 0x7F800001).isNaN = true ∧ (Fmt.f64.unpack 0x7FF8000000000000).isNaN = true := by
  refine ⟨by decide, ?_, by decide, ?_, by decide, ?_, by decide, by decide, by decide, by decide⟩ <;> norm_num [FV.toRat]

/-- One k.fmt of each special mode, a signed and an unsigned format; codes that stand for a number and for none. -/
theorem test_conversionResults_met2 : ([0x8075C, 0x9075C, 0xA075C, 0x9071C] : List Word).map (fun w => (nfmtOk 2 w, (NFmt.of w).special, (NFmt.of w).sgn)) =
      [(true, 0, 1), (true, 1, 1), (true, 2, 1), (true, 1, 0)] ∧
    ([0x9075C, 0xA075C] : List Word).map NFmt.of = [⟨2, 1, 7, 1, 3, 4⟩, ⟨2, 2, 7, 1, 3, 4⟩] ∧
    NFmt.number ⟨2, 1, 7, 1, 3, 4⟩ 0x38 = some 1 ∧ NFmt.number ⟨2, 1, 7, 1, 3, 4⟩ 0x7F = none ∧ NFmt.number ⟨2, 2, 7, 1, 3, 4⟩ 0x78 = none ∧
    scaleOf 0x78 = 1 ∧ scaleOf 0 = 0 ∧ Fmt.f16.unpack 0x3C00 = .fin false 1024 (-10) ∧ Fmt.bf16.unpack 0x7F80 = .inf false := by
  refine ⟨by decide, by decide, ?_, ?_, ?_, ?_, ?_, by decide, by decide⟩ <;> norm_num [NFmt.number, scaleOf]

theorem test_naNsAreCanonical_met2 : Fmt.f32.unpack 0x7F800000 = .inf false ∧ Fmt.f32.unpack 0xFF800000 = .inf true ∧
    Fmt.f32.unpack 0x80000000 = .fin true 0 (-149) ∧ Fmt.f32.unpack 0xBF800000 = .fin true 8388608 (-23) ∧
    mulV (.inf true) (.fin true 8388608 (-23)) = some (.inf false) ∧ (Fmt.f32.unpack 0x7FC00000).isNaN = true := by decide

/-- Lane 0 alone, its address outside the lines of the L1, on a page of a target. -/
def stFar (target : BitVec 2) : State :=
  { (stG false).modWave r0 (fun w => { w with lanes := [some ((thr 0 4).setA 0 0x2008)] }) with
    tlb := [entry (.l1 2 1) { rwx false with target }] }

theorem test_farAccesses_met : ([0, 1, 2] : List (BitVec 2)).all (fun g =>
    let f : MOp := ⟨1, 0, .v 4, .b64, false, false⟩
    met (stFar g) (.ldg f) (fun k _ l w _ front => (stFar g).unsampled (2, 1) && !l.checked && (stFar g).affords l w 1 &&
      decide (((stFar g).core 2 1).l1.length < 2048) && (stFar g).hostQuiet &&
      (w.acting ((Instr.ldg f).takes w front)).map (·.1) == [0] &&
      (w.acting ((Instr.ldg f).takes w front)).all (farOk (stFar g) k l w r0 8 g.toNat false true fun _ th => areaM f th)) &&
    met (stFar g) (.stg f) fun k _ l w _ front => !((stFar g).tasks.any fun u => u.parent == some k.tid && !u.joined) &&
      (w.acting ((Instr.stg f).takes w front)).map (·.1) == [0] &&
      (w.acting ((Instr.stg f).takes w front)).all fun p => !k.exclusive (areaM f p.2) &&
        farOk (stFar g) k l w r0 8 g.toNat true true (fun _ th => areaM f th) p) = true := by decide +kernel

/-- R388, R355: the shadow line, and the line that the load brings into the L1. -/
theorem test_farAccesses : ((after (.stg ⟨1, 0, .v 4, .b8, false, false⟩) (stFar 0)).task? 3).map (·.shadow) = some [(0x102009, 144)] ∧
    ((after (.ldg ⟨1, 0, .v 4, .b64, false, false⟩) (stFar 0)).core 2 1).l1.map (·.line) = [0x4080, 0x4040, 0x4041] ∧
    (after (.stg ⟨1, 0, .v 4, .b8, false, false⟩) (stFar 1)).hostMem = [(0x102009, 144)] := by decide +kernel

/-- A mask that names a lane without a thread; latches that hold nothing. -/
theorem test_crossLaneFaults_met :
    (let f : WOp (BitVec 4) := ⟨.sreg 1, .v 4, .v 3, 1, false⟩
     met st (.shfl f) fun k _ l w _ front => let m := (Instr.shfl f).takes w front
       !l.haltFatal && k.prop.isNone && m != 0 && k.goesOn r0 w m && w.unreadEach m f == 0 && !w.memberMask f.m m) = true ∧
    (let s := st.modWave r0 fun w => w.modLanes 15 fun _ th => { th with latch := [] }
     let f : WOp (BitVec 4) := ⟨.sreg 0, .l 1, .v 3, 0, false⟩
     let g : WOp WredFn := ⟨.sreg 0, .l 1, .v 4, .addS32, false⟩
     let h : WOp WscanFn := ⟨.sreg 0, .l 1, .v 4, .inclAddS32, false⟩
     met s (.shfl f) (fun k _ _ w _ front => let m := (Instr.shfl f).takes w front; k.goesOn r0 w m && w.unreadEach m f == m) &&
     met s (.wred g) (fun _ _ _ w _ front => let m := (Instr.wred g).takes w front; w.unreadAll m (w.members g.m) 32 g.a == m) &&
     met s (.wscan h) fun _ _ _ w _ front => let m := (Instr.wscan h).takes w front; w.unreadAll m (w.members h.m) 32 h.a == m) = true := by decide

/-- R40, R265: LATCH and MEMBER of both executing lanes. -/
theorem test_crossLaneFaults :
    ((after (.shfl ⟨.sreg 1, .v 4, .v 3, 1, false⟩) st).launches.map fun l => l.records.map fun x => (x.code, x.lane, x.va)) =
      [[(0x0B, 0, 1), (0x0B, 2, 1)]] ∧
    ((after (.wred ⟨.sreg 0, .l 1, .v 4, .addS32, false⟩) (st.modWave r0 fun w => w.modLanes 15 fun _ th => { th with latch := [] })).launches.map
      fun l => l.records.map fun x => (x.code, x.lane)) = [[(0x03, 0), (0x03, 2)]] := by decide +kernel

/-- Every thread but those of wave 0 has arrived. -/
def stLast (l : Level) : State :=
  let bar := fun (who : List Nat) => ({ lvl := l, n := 3, key := 0, phase := 7, who, arrived := [(1, 1)], flags := 3 } : Bar)
  (stB.modShare 3 0 fun h => { h with bars := [bar (List.range' 32 32)] }).modShare 3 1 fun h => { h with bars := [bar (List.range' 64 64)] }

def lastMet (l : Level) (i : Instr) (after : State → Nat → Nat → BarName → State) : Bool :=
  let s := if l == .wave || l == .stage then stB else stLast l
  met s i fun k h _ w pc front =>
    let b : BarName := ⟨l, 3, 0, barKey l w⟩
    let m := i.takes w front
    let u := after s m pc b
    let g := u.group k 0 b
    w.barWaits.isEmpty && s.tasks.all (fun t => t.races.isEmpty) && m != 0 && (s.barFault k h w pc b true).isNone && w.fenced (arriveScope l) &&
      decide g.Nodup && u.allAdmitted k.lid && g.all (fun p => (u.missing p b).isEmpty && (u.share? p.1 p.2).any fun x => decide (x.waves.map (·.wix)).Nodup) &&
      (u.tryComplete 3 0 b).noneDead k.lid && !s.fatalIn k

theorem test_barrierCompletion_met2 : ([Level.wave, .stage, .core, .polder, .launch].all fun l =>
    lastMet l (.bara ⟨0, 3, l, false⟩) (fun s m _ b => s.arrive r0 m b) &&
    lastMet l (.bar ⟨0, some 4, 3, l, true⟩) fun s m pc b => (s.arrive r0 m b).barWait r0 m pc 7 b (some 4)) = true := by decide +kernel

/-- Threads apart, for every level; a shape beyond the polder; a launch barrier of a kernel that has none. -/
theorem test_barrierFaults_met : ([Level.wave, .stage, .core, .polder, .launch].all fun l =>
      met st (.bara ⟨0, 3, l, false⟩) fun k h la w pc front => let m := (Instr.bara ⟨0, 3, l, false⟩).takes w front
        !la.haltFatal && m != 0 && k.goesOn r0 w m && st.barFault k h w pc ⟨l, 3, 0, barKey l w⟩ true == some 0x0C) = true ∧
    (met st (.bar ⟨13, none, 3, .polder, false⟩) fun k h _ w pc _ => st.barFault k h w pc ⟨.polder, 3, 13, barKey .polder w⟩ true == some 0x0B) = true ∧
    (let s := { st with launches := [{ la with code := { cd with kernels := [⟨0, 2, 1, 0, 16, 0, 0, false⟩] } }] }
     met s (.barw ⟨0, none, 3, .launch, false⟩) fun k h _ w pc _ => s.barFault k h w pc ⟨.launch, 3, 0, barKey .launch w⟩ false == some 0x0B) = true ∧
    ([Level.core, .wave].all fun l => met stB (.barw ⟨0, some 4, 3, l, false⟩) fun k h la w pc front =>
      let m := (Instr.barw ⟨0, some 4, 3, l, false⟩).takes w front
      (stB.barFault k h w pc ⟨l, 3, 0, barKey l w⟩ false).isNone && w.recs.isEmpty && m != 0 && k.goesOn r0 w m && !la.haltFatal) = true := by decide +kernel

/-- R81: wave 1 waits for a thread of wave 0 that has left. -/
def stGone : State :=
  (stB.modShare 3 0 fun h => { h with bars := [{ lvl := .core, n := 3, key := 0, phase := 7, who := List.range' 32 32 }] }).modShare 3 0 fun h => { h with
    waves := h.waves.map fun w => if w.wix = 0 then { w with lanes := none :: w.lanes.drop 1 }
      else { w with barWaits := [{ lvl := .core, n := 3, shape := 0, phase := 7, dest := none, mask := 0xF, pc := 8 }] } }

theorem test_threadsLeave_met2 :
    (let s := { st with launches := [{ la with det := true }] }
     met s (.reform ⟨false, false⟩) fun k h _ w _ front => (Instr.reform ⟨false, false⟩).takes w front != 0 && s.mayFile k h w) = true ∧
    ((((after (.exit ⟨false, false⟩) st).barExits 5).task? 3).any Task.active) = true ∧
    (let s := stGone
     let q : WaveRef := ⟨3, 0, 1⟩
     let b : BarName := ⟨.core, 3, 0, 0⟩
     match s.task? 3, s.share? 3 0, s.wave? q with
     | some k, some h, some v => k.st == .resident && k.prop.isNone && v.barWaits.length == 1 && decide (s.tasks.map (·.tid)).Nodup &&
       decide (k.shares.map (·.c)).Nodup && decide (h.waves.map (·.wix)).Nodup &&
       (s.tasks.all fun t => t.lid != k.lid || t.shares.all fun g => g.waves.all fun u => u.barWaits.isEmpty || (t.tid == 3 && g.c == 0 && u.wix == 1)) &&
       (s.wave? r0).any Wave.active && (s.group k 0 b).any fun p => (s.task? p.1).any (fun u => u.st != .waits) && (s.missing p b).any fun n => !s.liveTix p.1 n
     | _, _, _ => false) = true := by decide +kernel

/-- R81: BAREXIT in its four waiting threads. -/
theorem test_barexit : ((stGone.barExits 5).launches.map fun l => l.records.map fun x => (x.code, x.lane)) = [[(0x0D, 0), (0x0D, 1), (0x0D, 2), (0x0D, 3)]] := by decide +kernel

theorem test_channelCommands_met2 : (let s := stC.modShare 3 0 fun h => h.modChan 1 fun c => { c with pub := some (30864, 2) }
    cmd s (.chpub ⟨1, .s 3, false⟩) fun x => x.declared 1 && (x.chan 1).pubLater x.s.now x.r.wix) = true ∧ (stC.now / 4 = 30864) := by decide

/-- A linear copy, a box, a copy out of a channel and a plain one, on a page of a target. -/
def stT (target : BitVec 2) (kind : CopyKind) : State :=
  let s := stU kind (kind == .out) 1 []
  { s with tlb := [entry (.copyEngine 2 1) { rwx false with target }] }.modCore 2 1 fun c =>
    { c with copies := c.copies.modify 0 fun q => q.map fun (k : CopyCmd) => { k with desc := desc } }

theorem test_copyUnits_met2 : ([0, 1, 2] : List (BitVec 2)).all (fun g =>
    ([CopyKind.lin, .box, .mcast].all fun kind => let s := stT g kind
      match nth (s.core 2 1).copies 0 [], s.task? 3, s.launchOf? 3 with
      | k :: _, some t, some l =>
        let n := 2 ^ descLog k.desc
        let i := 1 * (64 / n)
        let va := if kind == .lin then (k.va.toNat + 64) % 2 ^ 72 else (boxPos (dimsOf k.desc (descRank k.desc)) i).elim 0 fun d => k.boxVa d
        decide (n ≤ 16) && (kind == .lin || (boxPos (dimsOf k.desc (descRank k.desc)) i).isSome) && k.va.toNat % 64 == 0 &&
          match s.cached (copyViewer 2 1) 1 va with
          | some e => e.attr.r && e.attr.target == g && !e.attr.mod && !s.outside t va 32 && !s.dataErr e.attr (e.pa va) 32 && !l.checked
          | none => false
      | _, _, _ => false) &&
    ([CopyKind.out, .plain].all fun kind => let s := stT g kind
      match nth (s.core 2 1).copies 0 [], s.task? 3, (s.share? 3 0).bind fun h => h.chans[if kind == .out then 1 else 0]? with
      | k :: _, some t, some _ => (k.kind == .plain || k.fired) && k.dests[0]? == some (0, 1) && decide (64 < k.cnt) && s.mayTransfer 8 &&
          match s.cached (copyViewer 2 1) 1 0x1040 with
          | some e => e.attr.w && !e.attr.cell && !e.attr.mod && e.attr.target == g && !s.outside t 0x1040 (granule e.attr) &&
            (g == 0 || !s.dataErr e.attr (e.pa 0x1040) (granule e.attr))
          | none => false
      | _, _, _ => false)) = true ∧
    (dimsOf desc (descRank desc)).all (fun m => decide (1 ≤ m.box)) = true := by decide +kernel

/-- R123, R234: 8 bytes to host memory, 32 to device memory; the plain form takes them from its base. -/
theorem test_copy_targets : (after (.copyUnitDelivery 2 1 0 0) (stT 1 .out)).hostMem = [] ∧
    ((after (.copyUnitDelivery 2 1 0 0) (stT 0 .plain)).core 2 1).copies.flatten.map (fun k => (k.held 0).length) = [32] ∧
    ((after (.copyUnitDelivery 2 1 0 0) (stT 1 .plain)).core 2 1).copies.flatten.map (fun k => (k.held 0).length) = [56] := by decide +kernel

/-- An access of a thread to bytes 4 to 7. -/
def acc (space wix tix : Nat) (write : Bool) : Access :=
  { space, core := 0, addr := 4, len := 4, va := 4, write, satom := false, wix, epoch := 1, lane := 0, tix, ordinal := 2, offset := 4, time := 77 }

/-- A task with a race of two of its accesses. -/
def tkRace : Machine.Task := { tkR with races := [(acc 4 0 3 true, acc 4 1 4 false)] }

theorem test_tasksAndRounds_met2 :
    (let s := sysN [tkN 20, tkRace]
     s.task? 21 == some tkRace && s.canRetire tkRace && s.taskRuns tkRace && tkRace.record.isNone && tkRace.prop.isNone && !laN.haltFatal &&
       decide (s.tasks.map (·.tid)).Nodup && tkRace.shares.all (fun h => h.waves.all (·.held.isEmpty)) && s.tasks.all fun c => c.parent != some 21) = true ∧
    (let a := done 21 0 5
     let b := done 22 0x100000000 5
     let s := sysN [a, b]
     clash a b == some 5 && s.task? 21 == some a && s.task? 22 == some b && s.tags.isEmpty && s.mem.wf && decide ((a.shadow.map (·.1)).Pairwise (· < ·)) &&
       a.lines.all (fun i => i.tag == (0, 0)) && !(clashes [a, b]).isEmpty && [a, b].all Task.over && a.prop.isNone && b.prop.isNone && laN.lrec == 0 &&
       (List.range 3).all fun i => nth laN.rounds i 0 != 0 || decide (i < laN.admitted)) = true ∧
    nth (sysN []).dev.budget 10 0 = 0xFFFFFFFF := by decide +kernel

/-- R138, R142: both records of the race; MERGE ends the launch. -/
theorem test_races : ((after (.taskRetire 21) (sysN [tkN 20, tkRace])).launches.map fun l => l.records.map fun x => (x.code, x.tix)) = [[(0x08, 3), (0x08, 4)]] ∧
    ((after (.roundMerge (.launch 5)) (sysN [done 21 0 5, done 22 0x100000000 5])).launch? 5) = none ∧
    ((sysN [done 21 0 5, done 22 0x100000000 5]).mergeTasks [done 21 0 5, done 22 0x100000000 5]).mem.get 5 = 6 := by decide +kernel

theorem test_faultsTaken_met2 :
    (let k : Machine.Task := { tk with accesses := [acc 0 1 9 true, acc 4 1 9 true, { acc 4 2 8 true with core := 1 }] }
     let s := { st with tasks := [k] }
     match s.share? 3 0, s.wave? r0 with
     | some h, some w => (localFault h w 0 4 4 false).isNone && (localFault h w 0 4 4 true).isNone &&
       (racesOf k (s.accessOf k r0 w 0 (thr 0 4) 0 4 4 4 false false)).1 == some (acc 0 1 9 true) &&
       (racesOf k (acc 4 0 0 true)) == (some (acc 4 1 9 true), [{ acc 4 2 8 true with core := 1 }])
     | _, _ => false) = true ∧
    (let a := acc 4 0 0 true
     let b := acc 4 0 2 false
     let k : Machine.Task := { tk with races := [(a, b)] }
     let s := { st with tasks := [k] }
     let c : Clock := [((0, 0), 5)]
     decide (k.shares.map (·.c)).Nodup && k.shares.all (fun h => decide (h.waves.map (·.wix)).Nodup) && decide (a.epoch ≤ Clock.get c a.ctx) &&
       s.findTix 3 0 == some (r0, 0) && s.findTix 3 2 == some (r0, 2)) = true := by decide +kernel

theorem test_tasksManaged_met2 :
    ((stBin.modCore 2 0 fun c => { c with copies := [[{ cp 1 with tid := 21, wix := 1 }]] }).copiesFly tkR 0 1 && !stBin.copiesFly tkR 0 1) = true ∧
    ((sh.freeLanes 0 fun _ => false).contains (0, 1) && (sh.freeLanes 0 fun _ => true).contains (0, 31)) = true ∧
    ([Wait.fence 5 .task false, .fencex 5 1 2 false, .cells 5, .retry 0 false].all fun v =>
      let s := { st.modWave r0 (fun w => { w with wait := v }) with launches := [{ la with st := .halting 900000 1 0x9000 512 }] }
      s.progresses 5) = true ∧ (sysN []).progresses 5 = false ∧
    ((stWd (.halted 999000)).copiesOfLaunch 5).all (fun k => k.kind != .out || k.got.isEmpty) = true ∧
    (stCompact.maintains true fun s => s.ask 10 4).1 = true ∧
    (({ stCompact with dev := { stCompact.dev with budget := List.replicate 15 3 } } : State).maintains true fun s => s.ask 10 4).1 = false := by decide +kernel

/-- R256, R268: work beyond the budget waits with what this period allows; the dump waits for a FENCE. -/
theorem test_budget_waits :
    (let s := (({ stCompact with dev := { stCompact.dev with budget := List.replicate 15 3 } } : State).maintains true fun s => s.ask 10 4).2
     (nth s.dev.credit 10 0, nth s.dev.used 10 0, nth s.dev.asked 10 0)) = (3, 3, 0) ∧
    (let s := { st.modWave r0 (fun w => { w with wait := .fence 5 .task false }) with launches := [{ la with st := .halting 900000 1 0x9000 512 }] }
     ((after (.dump 5) s).launch? 5).isSome) = true := by decide +kernel

/-- A queued operation that was refused at watermark w. -/
def stRetry (w : Nat) : State :=
  (stG true).modCore 2 1 fun c => { c with retry := [{ op1 with tried := some w }] }

/-- A history of two entries; 8 is the scope of an untraced launch of a lower number, whose mark lies above both. -/
def hist : CellHist := { pa := 0x101000, scope := 8, traced := false, entries := [⟨{ op1 with key := 5, scope := 8 }, 0⟩, ⟨{ op1 with key := 6, scope := 8, operand := 9 }, 1⟩] }

theorem test_cellsAndLoads_met2 :
    (stL.wave? r0).any (fun w => (w.loads.find? fun e => e.cell == false).any (·.id == 70)) = true ∧
    ((stRetry (2 ^ 48)).flight ++ (stRetry (2 ^ 48)).cores.flatMap (·.retry)).find? (·.id == 9) = some { op1 with tried := some (2 ^ 48) } ∧
    (stRetry (2 ^ 48)).watermark 5 ≤ 2 ^ 48 ∧
    (let s := { stG true with cells := [hist] }
     s.hist? 0x101000 8 == some hist && s.tags.isEmpty && hist.entries.any fun e => decide (e.op.key.toNat < s.scopeMark 8)) = true ∧
    (({ op1 with key := 5 } : CellOp).stamp ≠ ({ op1 with key := 6 } : CellOp).stamp) := by decide +kernel

/-- R153: the later load waits for the earlier; R171: no rise of W, no second try; R168: 7 and 9 settle in the base value. -/
theorem test_cells_settle : ((after (.loadReturn r0 71) stL).wave? r0).map (·.loads.length) = some 2 ∧
    ((after (.cellArrival 9) (stRetry (2 ^ 48))).core 2 1).retry.length = 1 ∧
    (let t := ({ stG true with cells := [hist] } : State).foldCells
     (t.mem, t.cells)) = ([(0x101000, 16)], []) := by decide +kernel

/-- An arena of state 4 with two records, the first of them stale; its propagation runs. -/
def stRun : State :=
  let hdr := arHdr.take 6 ++ [4] ++ (arHdr.drop 7).take 0x25 ++ bytes 4 2 ++ arHdr.drop 0x30
  let rec_ := fun (key st : Nat) => TaskRec.bytes { key, st, slot := 0, parent := noRecord, site := noRecord, entry := 0, block := 0x1234 }
  { sys none (cells (64 * 3) qdesc ++ cells (pa0 + 0xA000) hdr ++ cells (pa0 + 0xA100) (rec_ 7 1 ++ rec_ 8 0)) with
    props := [{ pid := 44, runAs := 60, asid := 1, arena := 0xA000, lid := none, wave := none, queue := some 3, st := 1 }] }

theorem test_propagations_met2 :
    (match stRun.prop? 44 with
      | some p => !p.failed && stRun.arState p.arenaAt == 4 && (stRun.toRun p.arenaAt p.last).map (·.1) == [0] && decide (stRun.liveTasks < 65536) &&
        stRun.toRun p.arenaAt (some 7) == [] && (p.oldOf 0).isEmpty && p.pid == 44
      | none => false) = true ∧
    (stRun.taskRec ⟨1, 0xA000⟩ 0).st = 1 ∧ (stRun.taskRec ⟨1, 0xA000⟩ 1).st = 0 ∧ 7 < (stRun.taskRec ⟨1, 0xA000⟩ 1).key := by decide +kernel

/-- R190: the stale record's task runs again; R187: a reader that is marked counts as stale. -/
theorem test_rerun : ((stRun.nextRerun 44).tasks.map fun k => (k.key, k.record, k.block)) = [(7, some 0, 0x1234)] ∧
    (let t := stRun.markRec ⟨1, 0xA000⟩ (some 7) 1
     ((t.taskRec ⟨1, 0xA000⟩ 1).st, t.arStale ⟨1, 0xA000⟩)) = (1, 1) ∧
    (let t := stRun.finishRerun { tkN 60 with prop := some 44, record := some 0, key := 7 }
     (t.prop? 44).map fun p => (p.re, p.sp, p.di)) = some (0, 0, 0) := by decide +kernel

/-- A WATCHDOG is due; copies of a halted launch are due; a queue that a SIGNAL stalls. -/
theorem test_stepsRunWhatIsThere_met2 :
    (let s := { (stWd .running).modCore 2 1 (fun c => { c with slots := c.slots.map fun sl => if sl.limit = 0 then sl else { sl with count := 51 } }) with agenda := [] }
     s.overfull.isNone && s.dueBin.isNone && s.dueWatchdog == some (2, 1, 0)) = true ∧
    (let s := stWd (.halted 999000)
     s.overfull.isNone && s.dueBin.isNone && s.dueWatchdog.isNone && s.dueDrain == some { la with st := .halted 999000 }) = true ∧
    (let s := (sys none).modQueue 3 fun k => { k with signals := [{ sig 7 with fault := some 1 }] }
     s.queueStands (.waitval 3) && !(sys none).queueStands (.waitval 3)) = true ∧
    (({ la with st := .halted 5 } : Launch).haltedAt.isSome && ({ wv with wait := .retry 0 false } : Wave).inProgress) = true := by decide +kernel

/-- A COPY whose target page holds cells. -/
def cellPage (s : State) : State := { s with tlb := s.tlb.map fun e => { e with attr := { e.attr with cell := true } } }

theorem test_primitives_met3 :
    (let s := cellPage (sys (some (pk [0, 0x1000, 0x9000, 256] (.copying 0 (bytes 64 1) true))))
     ((s.renewAt 1 0x9000 true).headPiece 1 0x9000 64 (·.w)).2) = true ∧
    x7 (.headworksCopy 3) (cellPage (sys (some (pk [0, 0x1000, 0x9000, 256] (.copying 0 (bytes 64 1) true))))) = some (0xFFFF, .none) ∧
    (stK .retired).maintains (((stK .retired).kidsOfWave r0).any (·.record.isSome)) (fun s => s) = (true, stK .retired) ∧
    (let s := calls 9 [0, 0xA000, 0x1008, 0x1122, 4] memA
     called s 9 && (s.maintains true fun s => s).1) = true := by decide +kernel

end Sys2Proof.Tests
end

section
/-! SUPPORT. The order of floating numbers (R92) against their exact values. -/

namespace Sys2Proof.Machine

open Host

/-! ### The exact sum -/

/-- The sign and magnitude of an integer c stand for c × 2^e, whatever sign a zero takes. -/
theorem FV.toRat_ofInt (z : Bool) (c e : Int) :
    let r : Bool × Nat × Int := if c = 0 then (z, 0, e) else (decide (c < 0), c.natAbs, e)
    (FV.fin r.1 r.2.1 r.2.2).toRat = (c : ℚ) * 2 ^ e := by
  by_cases h0 : c = 0
  · simp [h0, FV.toRat]
  · by_cases h : c < 0
    · simp [h0, h, FV.toRat, Nat.cast_natAbs, abs_of_neg h]
    · simp [h0, h, FV.toRat, Nat.cast_natAbs, abs_of_nonneg (not_lt.1 h)]

/-- A finite value at a smaller exponent. -/
theorem FV.toRat_at (s : Bool) (m : Nat) (e g : Int) (h : g ≤ e) :
    (FV.fin s m e).toRat = ((if s then -((m * 2 ^ (e - g).toNat : Nat) : Int) else (m * 2 ^ (e - g).toNat : Nat) : Int) : ℚ) * 2 ^ g := by
  have hp : (2 : ℚ) ^ e = 2 ^ (e - g).toNat * 2 ^ g := by
    rw [← zpow_natCast, ← zpow_add₀ two_ne_zero]; congr 1; omega
  cases s <;> simp [FV.toRat, hp] <;> ring

theorem addFin_toRat (s1 : Bool) (m1 : Nat) (e1 : Int) (s2 : Bool) (m2 : Nat) (e2 : Int) :
    (FV.fin (addFin s1 m1 e1 s2 m2 e2).1 (addFin s1 m1 e1 s2 m2 e2).2.1 (addFin s1 m1 e1 s2 m2 e2).2.2).toRat =
      (FV.fin s1 m1 e1).toRat + (FV.fin s2 m2 e2).toRat := by
  have he1 : (if e1 ≤ e2 then e1 else e2) ≤ e1 := by split <;> omega
  have he2 : (if e1 ≤ e2 then e1 else e2) ≤ e2 := by split <;> omega
  rw [FV.toRat_at s1 m1 e1 _ he1, FV.toRat_at s2 m2 e2 _ he2, ← add_mul, ← Int.cast_add]
  exact FV.toRat_ofInt (s1 && s2) _ _

theorem FV.toRat_neg_iff (s : Bool) (m : Nat) (e : Int) : (s && m != 0) = true ↔ (FV.fin s m e).toRat < 0 := by
  have hp : (0 : ℚ) < 2 ^ e := by positivity
  have hm : (0 : ℚ) ≤ m * 2 ^ e := by positivity
  cases s with
  | false => simp [FV.toRat, hm]
  | true => simp [FV.toRat, hp, mul_pos_iff_of_pos_right, Nat.pos_iff_ne_zero]

theorem FV.toRat_flip (s : Bool) (m : Nat) (e : Int) : (FV.fin (!s) m e).toRat = -(FV.fin s m e).toRat := by
  cases s <;> simp [FV.toRat]

theorem FV.toRat_zero (s : Bool) (e : Int) : (FV.fin s 0 e).toRat = 0 := by simp [FV.toRat]

/-! ### The order of R92 -/

theorem ltV_fin (s1 : Bool) (m1 : Nat) (e1 : Int) (s2 : Bool) (m2 : Nat) (e2 : Int) (h : ¬(m1 = 0 ∧ m2 = 0)) :
    ltV (.fin s1 m1 e1) (.fin s2 m2 e2) = true ↔ (FV.fin s1 m1 e1).toRat < (FV.fin s2 m2 e2).toRat := by
  rw [ltV, if_neg h, FV.toRat_neg_iff _ _ (addFin s1 m1 e1 (!s2) m2 e2).2.2, addFin_toRat, FV.toRat_flip]
  rw [← sub_eq_add_neg, sub_neg]

/-- Two zeros: the one pair whose order R92 does not take from the values. -/
def FV.zeros : FV → FV → Bool
  | .fin _ m _, .fin _ n _ => m == 0 && n == 0
  | _, _ => false

theorem FV.zeros_comm (a b : FV) : FV.zeros a b = FV.zeros b a := by
  cases a <;> cases b <;> simp [FV.zeros, Bool.and_comm]

theorem FV.value_of_zeros {a b : FV} (h : FV.zeros a b = true) : a.value = b.value := by
  cases a <;> cases b <;> simp [FV.zeros] at h
  obtain ⟨rfl, rfl⟩ := h
  simp [FV.value, FV.toRat_zero]

theorem eqV_eq (a b : FV) : eqV a b = (FV.zeros a b || (!ltV a b && !ltV b a && !a.isNaN && !b.isNaN)) := by
  unfold eqV
  split
  · simp [FV.zeros]
  · rename_i h
    have hz : FV.zeros a b = false := by
      cases a <;> cases b <;> simp only [FV.zeros, Bool.and_eq_false_iff, beq_eq_false_iff_ne]
      rename_i s m e t n g
      by_contra hc
      simp only [not_or, not_not] at hc
      exact h s e t g (by rw [hc.1]) (by rw [hc.2])
    rw [hz, Bool.false_or]

/-- Two zeros apart, the order of R92 on numbers is that of their values. -/
theorem ltV_iff {a b : FV} (ha : a.isNaN = false) (hb : b.isNaN = false) (hz : FV.zeros a b = false) :
    ltV a b = true ↔ a.value < b.value := by
  cases a with
  | nan _ => simp [FV.isNaN] at ha
  | inf s =>
    cases b with
    | nan _ => simp [FV.isNaN] at hb
    | inf t => cases s <;> cases t <;> simp [ltV, FV.value]
    | fin t n g => cases s <;> simp [ltV, FV.value]
  | fin s m e =>
    cases b with
    | nan _ => simp [FV.isNaN] at hb
    | inf t =>
      cases t with
      | true => simp [ltV, FV.value]
      | false => exact iff_of_true rfl (WithBot.coe_lt_coe.2 (WithTop.coe_lt_top _))
    | fin t n g =>
      rw [ltV_fin _ _ _ _ _ _ (by simpa [FV.zeros] using hz)]
      simp [FV.value]

/-- Equality of R92 and R337 is equality of the values. -/
theorem eqV_iff {a b : FV} (ha : a.isNaN = false) (hb : b.isNaN = false) : eqV a b = true ↔ a.value = b.value := by
  rw [eqV_eq]
  cases hz : FV.zeros a b with
  | true => simp [FV.value_of_zeros hz]
  | false =>
    have h1 := ltV_iff ha hb hz
    have h2 := ltV_iff hb ha (by rw [FV.zeros_comm, hz])
    simp only [ha, hb, Bool.false_or, Bool.not_false, Bool.and_true, Bool.and_eq_true, Bool.not_eq_true', ← Bool.not_eq_true, h1, h2, not_lt]
    exact ⟨fun h => le_antisymm h.2 h.1, fun h => ⟨h.ge, h.le⟩⟩

/-- What a compare tests with its zeros equal: the lesser value. -/
theorem ltV_not_eqV_iff {a b : FV} (ha : a.isNaN = false) (hb : b.isNaN = false) :
    (ltV a b && !eqV a b) = true ↔ a.value < b.value := by
  rw [Bool.and_eq_true, Bool.not_eq_true', ← Bool.not_eq_true, eqV_iff ha hb]
  cases hz : FV.zeros a b with
  | true => simp [FV.value_of_zeros hz]
  | false =>
    rw [ltV_iff ha hb hz]
    exact ⟨fun h => h.1, fun h => ⟨h, h.ne⟩⟩

theorem eqV_comm (a b : FV) : eqV a b = eqV b a := by
  rw [eqV_eq, eqV_eq, FV.zeros_comm]
  cases ltV a b <;> cases ltV b a <;> cases a.isNaN <;> cases b.isNaN <;> rfl

/-! ### Compares (R92, R337) -/

section

variable (f : Fmt) (x y : Nat)

theorem Fmt.cmp_ne : (f.cmp .ne x y).1 = !(f.cmp .eq x y).1 := by simp [Fmt.cmp]

theorem Fmt.cmp_gt : (f.cmp .gt x y).1 = (f.cmp .lt y x).1 := by
  simp only [Fmt.cmp, eqV_comm (f.unpack y), Bool.or_comm (f.unpack y).isNaN]

theorem Fmt.cmp_le : (f.cmp .le x y).1 = ((f.cmp .lt x y).1 || (f.cmp .eq x y).1) := Bool.and_or_distrib_left ..

theorem Fmt.cmp_ge : (f.cmp .ge x y).1 = ((f.cmp .gt x y).1 || (f.cmp .eq x y).1) := Bool.and_or_distrib_left ..

variable {f x y}

/-- With a NaN operand every ordered condition is false. -/
theorem Fmt.cmp_nan (h : ((f.unpack x).isNaN || (f.unpack y).isNaN) = true) : (f.cmp .eq x y).1 = false ∧
    (f.cmp .lt x y).1 = false ∧ (f.cmp .le x y).1 = false ∧ (f.cmp .gt x y).1 = false ∧ (f.cmp .ge x y).1 = false := by
  simp only [Fmt.cmp, h, Bool.not_true, Bool.false_and, and_self]

/-- On numbers the conditions are those of the values. -/
theorem Fmt.cmp_eq_iff (hx : (f.unpack x).isNaN = false) (hy : (f.unpack y).isNaN = false) :
    (f.cmp .eq x y).1 = true ↔ (f.unpack x).value = (f.unpack y).value := by
  simp only [Fmt.cmp, hx, hy, Bool.or_false, Bool.not_false, Bool.true_and, eqV_iff hx hy]

theorem Fmt.cmp_lt_iff (hx : (f.unpack x).isNaN = false) (hy : (f.unpack y).isNaN = false) :
    (f.cmp .lt x y).1 = true ↔ (f.unpack x).value < (f.unpack y).value := by
  simp only [Fmt.cmp, hx, hy, Bool.or_false, Bool.not_false, Bool.true_and, ltV_not_eqV_iff hx hy]

theorem Fmt.cmp_le_iff (hx : (f.unpack x).isNaN = false) (hy : (f.unpack y).isNaN = false) :
    (f.cmp .le x y).1 = true ↔ (f.unpack x).value ≤ (f.unpack y).value := by
  rw [Fmt.cmp_le, Bool.or_eq_true, Fmt.cmp_lt_iff hx hy, Fmt.cmp_eq_iff hx hy, le_iff_lt_or_eq]

theorem Fmt.cmp_gt_iff (hx : (f.unpack x).isNaN = false) (hy : (f.unpack y).isNaN = false) :
    (f.cmp .gt x y).1 = true ↔ (f.unpack y).value < (f.unpack x).value := by
  rw [Fmt.cmp_gt, Fmt.cmp_lt_iff hy hx]

theorem Fmt.cmp_ge_iff (hx : (f.unpack x).isNaN = false) (hy : (f.unpack y).isNaN = false) :
    (f.cmp .ge x y).1 = true ↔ (f.unpack y).value ≤ (f.unpack x).value := by
  rw [Fmt.cmp_ge, Bool.or_eq_true, Fmt.cmp_gt_iff hx hy, Fmt.cmp_eq_iff hx hy, le_iff_lt_or_eq, eq_comm]

theorem Fmt.cmp_le_not_gt (hx : (f.unpack x).isNaN = false) (hy : (f.unpack y).isNaN = false) :
    (f.cmp .le x y).1 = !(f.cmp .gt x y).1 := by
  rw [Bool.eq_iff_iff, Fmt.cmp_le_iff hx hy, Bool.not_eq_true', ← Bool.not_eq_true, Fmt.cmp_gt_iff hx hy, not_lt]

theorem Fmt.cmp_ge_not_lt (hx : (f.unpack x).isNaN = false) (hy : (f.unpack y).isNaN = false) :
    (f.cmp .ge x y).1 = !(f.cmp .lt x y).1 := by
  rw [Bool.eq_iff_iff, Fmt.cmp_ge_iff hx hy, Bool.not_eq_true', ← Bool.not_eq_true, Fmt.cmp_lt_iff hx hy, not_lt]

/-- Where a compare finds x below y, both are numbers and R92 orders them the same way and no other. -/
theorem Fmt.ltV_of_cmp_lt (h : (f.cmp .lt x y).1 = true) : (f.unpack x).isNaN = false ∧ (f.unpack y).isNaN = false ∧
    ltV (f.unpack x) (f.unpack y) = true ∧ ltV (f.unpack y) (f.unpack x) = false := by
  have hn : ((f.unpack x).isNaN || (f.unpack y).isNaN) = false := by
    by_contra hc
    rw [(Fmt.cmp_nan (Bool.not_eq_false _ ▸ hc)).2.1] at h
    exact Bool.false_ne_true h
  obtain ⟨hx, hy⟩ := Bool.or_eq_false_iff.1 hn
  have hlt := (Fmt.cmp_lt_iff hx hy).1 h
  have hz : FV.zeros (f.unpack x) (f.unpack y) = false := by
    by_contra hc
    exact hlt.ne (FV.value_of_zeros (Bool.not_eq_false _ ▸ hc))
  refine ⟨hx, hy, (ltV_iff hx hy hz).2 hlt, ?_⟩
  rw [← Bool.not_eq_true, ltV_iff hy hx (FV.zeros_comm _ _ ▸ hz), not_lt]
  exact hlt.le

/-! ### Minimum and maximum (R92) -/

/-- Only a NaN signals. -/
theorem FV.isSig_of_number {a : FV} (h : a.isNaN = false) : a.isSig = false := by
  cases a with
  | nan _ => exact absurd h.symm Bool.false_ne_true
  | inf _ => rfl
  | fin _ _ _ => rfl

variable (f x y) in
theorem Fmt.minmax_flags (g : Bool) : (f.minmax g x y).2 = if (f.unpack x).isSig || (f.unpack y).isSig then fNV else 0 := by
  cases hx : (f.unpack x).isNaN with
  | true => cases hy : (f.unpack y).isNaN <;> simp [Fmt.minmax, hx, hy]
  | false =>
    cases hy : (f.unpack y).isNaN with
    | true => simp [Fmt.minmax, hx, hy]
    | false => cases g <;> simp [Fmt.minmax, hx, hy, FV.isSig_of_number hx, FV.isSig_of_number hy]

theorem Fmt.minmax_nan_nan (g : Bool) (hx : (f.unpack x).isNaN = true) (hy : (f.unpack y).isNaN = true) :
    (f.minmax g x y).1 = f.nan := by
  simp [Fmt.minmax, hx, hy]

theorem Fmt.minmax_nan_left (g : Bool) (hx : (f.unpack x).isNaN = true) (hy : (f.unpack y).isNaN = false) :
    (f.minmax g x y).1 = y := by
  simp [Fmt.minmax, hx, hy]

theorem Fmt.minmax_nan_right (g : Bool) (hx : (f.unpack x).isNaN = false) (hy : (f.unpack y).isNaN = true) :
    (f.minmax g x y).1 = x := by
  simp [Fmt.minmax, hx, hy]

theorem Fmt.minmax_numbers (g : Bool) (hx : (f.unpack x).isNaN = false) (hy : (f.unpack y).isNaN = false) :
    (f.minmax g x y).1 = if (if g then ltV (f.unpack x) (f.unpack y) else ltV (f.unpack y) (f.unpack x)) then y else x := by
  cases g <;> simp [Fmt.minmax, hx, hy]

theorem Fmt.minmax_mem (g : Bool) (hx : (f.unpack x).isNaN = false) (hy : (f.unpack y).isNaN = false) :
    (f.minmax g x y).1 = x ∨ (f.minmax g x y).1 = y := by
  rw [Fmt.minmax_numbers g hx hy]
  exact (ite_eq_or_eq _ _ _).symm

theorem Fmt.minmax_of_lt (g : Bool) (h : (f.cmp .lt x y).1 = true) : (f.minmax g x y).1 = if g then y else x := by
  obtain ⟨hx, hy, h1, h2⟩ := Fmt.ltV_of_cmp_lt h
  rw [Fmt.minmax_numbers g hx hy, h1, h2]
  cases g <;> rfl

theorem Fmt.minmax_of_gt (g : Bool) (h : (f.cmp .lt y x).1 = true) : (f.minmax g x y).1 = if g then x else y := by
  obtain ⟨hy, hx, h1, h2⟩ := Fmt.ltV_of_cmp_lt h
  rw [Fmt.minmax_numbers g hx hy, h1, h2]
  cases g <;> rfl

end

/-! ### Instructions that deliver float results (R336, R337, R345) -/

/-- An instruction that writes one predicate. -/
theorem givesP_of (i : Instr) (p : Fin 8) (f : Wave → Nat → Thread → Bool × Flags) (he : ∀ s, exec i s = setPred i p f s)
    (hsw : switches i = (false, false)) (hf : ∀ w ln th, f w.issued ln th = f w ln th) :
    GivesP i p (fun w ln th => (f w ln th).1) fun w ln th => (f w ln th).2 := by
  apply runs_perThread i _ he (fun _ _ _ => ⟨rfl, rfl⟩) hsw
  intro w ln th th' hb hl
  simp only [hf] at hb hl
  refine ⟨fun n => ?_, hl, ?_, ?_⟩
  · rw [show th'.rp n = th'.base.rp n from rfl, hb]
    exact th.rp_setP _ _ _
  · rw [show th'.flags = th'.base.flags from rfl, hb]; rfl
  · rw [hb]; rfl

/-- A 64-bit result with flags. -/
theorem gives64_of (i : Instr) (d : Opnd) (nw : Bool) (val : Wave → Nat → Thread → DWord) (fl : Wave → Nat → Thread → Flags)
    (f : Wave → Nat → Thread → Thread) (he : ∀ s, exec i s = perThread i f s) (hsw : switches i = (false, false))
    (hf : ∀ w ln th, f w.issued ln th = (th.put64 d nw (val w ln th)).flag (fl w ln th))
    (hp : ∀ w ln th, (f w ln th).park = th.park ∧ (f w ln th).atBar = th.atBar) : Gives64 i d nw val fl := by
  apply runs_perThread i f he hp hsw
  intro w ln th th' hb hl
  rw [hf, Thread.put64_toDst] at hb hl
  have hw : [(val w ln th).setWidth 32, (val w ln th >>> 32).setWidth 32] = words 2 (val w ln th).toNat := by
    simp only [words, List.cons.injEq, and_true]
    constructor
    · exact BitVec.eq_of_toNat_eq (by simp)
    · exact BitVec.eq_of_toNat_eq (by simp [Nat.shiftRight_eq_div_pow])
  rw [hw]
  exact th.wrote_of th' _ d nw _ true _ _ hb hl

theorem fpu3_gives32 (i : Instr) (f : TOp) (op : Nat → Nat → Nat → Nat × Flags) (he : ∀ s, exec i s = fpu3 i f op s)
    (hsw : switches i = (false, false)) : Gives32 i f.d f.w
      (fun w ln th => BitVec.ofNat 32 (op (src w ln th 32 f.a) (src w ln th 32 f.b) (src w ln th 32 f.d)).1)
      fun w ln th => (op (src w ln th 32 f.a) (src w ln th 32 f.b) (src w ln th 32 f.d)).2 :=
  gives32_of i f.d f.w _ _ _ he hsw (fun w ln th => by simp only [src_issued]; rfl) fun _ _ th => th.put32_park ..

theorem dpu3_gives64 (i : Instr) (f : TOp) (op : Nat → Nat → Nat → Nat × Flags) (he : ∀ s, exec i s = dpu3 i f op s)
    (hsw : switches i = (false, false)) : Gives64 i f.d f.w
      (fun w ln th => BitVec.ofNat 64 (op (src w ln th 64 f.a) (src w ln th 64 f.b) (src w ln th 64 f.d)).1)
      fun w ln th => (op (src w ln th 64 f.a) (src w ln th 64 f.b) (src w ln th 64 f.d)).2 :=
  gives64_of i f.d f.w _ _ _ he hsw (fun w ln th => by simp only [src_issued]; rfl) fun _ _ th => th.put64_park ..

/-- R92: in binary32 and binary64 the two zeros compare equal, and a minimum or maximum of them takes −0 below +0. -/
theorem Fmt.cmp_minmax_zeros : ∀ f ∈ [Fmt.f32, Fmt.f64], (f.cmp .eq 0 (f.signBit true)).1 = true ∧
    (f.minmax false 0 (f.signBit true)).1 = f.signBit true ∧ (f.minmax true 0 (f.signBit true)).1 = 0 ∧
    (f.minmax false (f.signBit true) 0).1 = f.signBit true ∧ (f.minmax true (f.signBit true) 0).1 = 0 := by
  decide

end Sys2Proof.Machine

open Sys2Proof Sys2Proof.Machine Host

/-- Settles O5: the instructions are their shared shapes at `Fmt.cmp` and `Fmt.minmax`, whose conditions on numbers are those
of the values (`ltV_iff`, `eqV_iff`). -/
theorem comparesAndMinima : Obligations.ComparesAndMinima := by
  unfold Obligations.ComparesAndMinima
  refine ⟨fun f => givesP_of (.fcmp f) f.p (fun w ln th => Fmt.f32.cmp f.c (src w ln th 32 f.a) (src w ln th 32 f.b))
      (fun _ => rfl) rfl fun w ln th => by simp only [src_issued],
    fun f => givesP_of (.dcmp f) f.p (fun w ln th => Fmt.f64.cmp f.c (src w ln th 64 f.a) (src w ln th 64 f.b))
      (fun _ => rfl) rfl fun w ln th => by simp only [src_issued],
    fun f => ⟨fpu3_gives32 (.fmin f) f (fun a b _ => Fmt.f32.minmax false a b) (fun _ => rfl) rfl,
      fpu3_gives32 (.fmax f) f (fun a b _ => Fmt.f32.minmax true a b) (fun _ => rfl) rfl,
      dpu3_gives64 (.dmin f) f (fun a b _ => Fmt.f64.minmax false a b) (fun _ => rfl) rfl,
      dpu3_gives64 (.dmax f) f (fun a b _ => Fmt.f64.minmax true a b) (fun _ => rfl) rfl⟩, fun f hf x y => ?_⟩
  intro nan sig
  obtain ⟨z1, z2, z3, z4, z5⟩ := Fmt.cmp_minmax_zeros f hf
  have num : nan = false → (f.unpack x).isNaN = false ∧ (f.unpack y).isNaN = false := Bool.or_eq_false_iff.1
  refine ⟨fun c => by cases c <;> rfl, rfl, rfl, Fmt.cmp_ne f x y, Fmt.cmp_nan, fun h => ?_, z1, z2, z3, z4, z5, fun h => ?_,
    fun g => ⟨Fmt.minmax_flags f x y g, Fmt.minmax_nan_nan g, Fmt.minmax_nan_left g, Fmt.minmax_nan_right g,
      fun h => Fmt.minmax_mem g (num h).1 (num h).2, Fmt.minmax_of_lt g, Fmt.minmax_of_gt g⟩⟩
  · obtain ⟨hx, hy⟩ := num h
    exact ⟨Fmt.cmp_le_not_gt hx hy, Fmt.cmp_ge_not_lt hx hy, Fmt.cmp_le f x y, Fmt.cmp_gt f x y⟩
  · obtain ⟨hx, hy⟩ := num h
    exact ⟨Fmt.cmp_lt_iff hx hy, Fmt.cmp_eq_iff hx hy⟩

end

section
/-! SUPPORT. What an issue that completes leaves, and the cross-lane instructions of format W among them (R265, R393). -/

namespace Sys2Proof.Machine

open Host

theorem ready_lane {s : State} {r : WaveRef} {i : Instr} {t : Task} {w : Wave} {pc front : Nat}
    (h : ready s r i t w pc front = true) : ∃ info, i.lane? = some info := by
  simp only [ready, Bool.and_eq_true] at h
  exact Option.isSome_iff_exists.1 h.1.1.1.1.2

/-- Of the wave that is expected only what its end does not change counts. -/
theorem LeavesWith.of_base {s t : State} {r : WaveRef} {e : Expect} {w2 : Wave} {lanes : Wave → Prop}
    (h : LeavesWith s t r { e with wave := w2 } lanes) (hb : w2.base = e.wave.base) : LeavesWith s t r e lanes := by
  obtain ⟨l1, l2, l3, l4, l5, l6, l7, w', l8, l9, l10⟩ := h
  exact ⟨l1, l2, l3, l4, l5, l6, l7, w', l8, l9.trans hb, l10⟩

/-- Where an instruction completes, what its body leaves with each executing lane changed by f is what it leaves. -/
theorem issue_leaves {i : Instr} {body : Iss → State → Done} {s : State} {r : WaveRef} {k : Task} {w : Wave} {pc front : Nat}
    (h : ready s r i k w pc front = true) (hsw : switches i = (false, false)) (u : State) (e : Expect) (w2 : Wave)
    (f : Nat → Thread → Thread) (eff : Nat → Thread → Thread → Prop)
    (hb : ∀ info, i.lane? = some info → body ⟨r, i, info, pc, front, i.takes w front⟩ (s.modWave r Wave.issued) =
      Iss.done ⟨r, i, info, pc, front, i.takes w front⟩ u)
    (hat : At s u r { e with wave := w2 }) (hbase : w2.base = e.wave.base) (hwait : w2.wait = .none)
    (hth : ∀ ln th, w.thread? ln = some th → w2.thread? ln = some (if (i.takes w front).testBit ln then f ln th else th))
    (hf : ∀ ln th, (f ln th).park = th.park ∧ (f ln th).atBar = th.atBar)
    (heff : ∀ ln th th', ln < 32 → th'.base = (f ln th).base → th'.latch = latchesAfter i.isSwitch (f ln th).latch → eff ln th th') :
    ∃ t, issue i body s = .next t ∧ Leaves s t r w i front e eff := by
  obtain ⟨hfr, -, -⟩ := ready_frontier h
  obtain ⟨n, th, hn, hrun, -, -⟩ := w.frontier_some pc front hfr
  have hrun2 : (if (i.takes w front).testBit n then f n th else th).running = true := by
    split
    · rw [Thread.running, (hf n th).1, (hf n th).2]; exact hrun
    · exact hrun
  obtain ⟨t, c, h1, h2, h3⟩ := issue_completes i body s r k w pc front h hsw u w2 hb hat.wave hwait n _
    (hth n th hn) hrun2
  refine ⟨t, h1, (hat.leaves _ _ h3 h2 (Wave.completed_base _ _ _ _ _) ?_).of_base hbase⟩
  · refine advanced_completed i w w2 c pc front hfr _ (fun m hm => takes_front i w front m hm) eff fun ln th0 hln hth0 =>
      ⟨_, hth ln th0 hth0, ?_⟩
    by_cases htk : (i.takes w front).testBit ln = true
    · rw [if_pos htk, if_pos htk]
      refine ⟨?_, fun th' => heff ln th0 th' hln⟩
      obtain ⟨th1, ha, hb1, -⟩ := w.frontier_lane pc front ln hfr (takes_front i w front ln htk)
      obtain rfl : th0 = th1 := Option.some.inj (hth0.symm.trans ha)
      simp only [Thread.running, Bool.and_eq_true, beq_iff_eq] at hb1
      rw [(hf ln th0).1, hb1.1]
    · rw [if_neg htk, if_neg htk]

/-- An instruction that leaves everything but its wave's lanes has run. -/
theorem Leaves.ran {s t : State} {r : WaveRef} {k : Task} {h : Share} {w : Wave} {i : Instr} {front : Nat}
    {eff : Nat → Thread → Thread → Prop} (hl : Leaves s t r w i front (Expect.same s k h w) eff) (hk : s.task? r.tid = some k)
    (hh : s.share? r.tid r.core = some h) : Ran s t r w i front eff := by
  obtain ⟨l1, l2, l3, l4, l5, l6, l7, w', l8, l9, l10⟩ := hl
  refine ⟨w', l8, l9, ⟨?_, l2, l3, by rw [l4, hk]; rfl, l5, by rw [l6, hh]; rfl, l7⟩, l10⟩
  calc t = { ({ t with tasks := [], cores := [] } : State) with tasks := t.tasks, cores := t.cores } := rfl
    _ = { s with tasks := t.tasks, cores := t.cores } := by rw [l1]; rfl

/-- A wave that is there belongs to a share. -/
theorem State.share_of_wave {s : State} {r : WaveRef} {w : Wave} (h : s.wave? r = some w) : ∃ sh, s.share? r.tid r.core = some sh := by
  cases hs : s.share? r.tid r.core with
  | some sh => exact ⟨sh, rfl⟩
  | none => simp [State.wave?, hs] at h

/-! ### The scalar registers of a wave -/

/-- Writing s-registers changes only the s-registers. -/
theorem Wave.setSs_fields (n : Nat) (ws : List Word) : ∃ g : List Word → List Word, ∀ w : Wave, w.setSs n ws = { w with s := g w.s } := by
  induction ws generalizing n with
  | nil => exact ⟨id, fun _ => rfl⟩
  | cons x l ih =>
    obtain ⟨g, hg⟩ := ih (n + 1)
    exact ⟨fun y => g (putAt 0 y n x), fun w => by rw [Wave.setSs, hg]; rfl⟩

theorem Wave.took_fields (take : Nat) (d : Opnd) (ws : List Word) :
    ∃ g : List Word → List Word, ∀ w : Wave, w.took take d ws = { w with s := g w.s } := by
  cases d with
  | s n =>
    by_cases h0 : take = 0
    · exact ⟨id, fun w => by simp [Wave.took, h0]⟩
    · obtain ⟨g, hg⟩ := Wave.setSs_fields n ws
      exact ⟨g, fun w => by simp only [Wave.took, h0, if_false, hg]⟩
  | _ => exact ⟨id, fun _ => rfl⟩

theorem Wave.took_zero (w : Wave) (d : Opnd) (ws : List Word) : w.took 0 d ws = w := by cases d <;> rfl

theorem Wave.modLanes_zero (w : Wave) (f : Nat → Thread → Thread) : w.modLanes 0 f = w := by
  simp [Wave.modLanes]

/-! ### Format W -/

@[simp] theorem Wave.unread_issued (w : Wave) (mask width : Nat) (o : Opnd) : w.issued.unread mask width o = w.unread mask width o := by
  simp only [Wave.unread, readOp_issued]; rfl

@[simp] theorem memberVal_issued (w : Wave) (width ln : Nat) (o : Opnd) : memberVal w.issued width ln o = memberVal w width ln o := by
  simp only [memberVal, src_issued]; rfl

/-- No executing thread raises LATCH where every lane of a mask can be read. -/
theorem Wave.unreadAll_eq_zero {w : Wave} {mem width : Nat} {o : Opnd} (h : w.unread mem width o = 0) (take : Nat) :
    w.issued.unreadAll take mem width o = 0 := by
  rw [Wave.unreadAll, Wave.unread_issued, if_pos h]

/-- Where the masks of R265 are right and no latch is missing, a format W instruction is its body; it does nothing where no
lane executes. -/
theorem waveIssue_leaves {i : Instr} {m : Mask} {bad : Wave → Nat → Nat} {body : Iss → State → Wave → Nat → State} {s : State}
    {r : WaveRef} {k : Task} {w : Wave} {pc front : Nat} {h : Share} (hr : ready s r i k w pc front = true)
    (hh : s.share? r.tid r.core = some h) (hsw : switches i = (false, false)) (hm : w.memberMask m (i.takes w front) = true)
    (hbad : bad w.issued (i.takes w front) = 0) (d : Opnd) (ws : List Word) (f : Nat → Thread → Thread)
    {eff : Nat → Thread → Thread → Prop}
    (hbody : ∀ (iss : Iss) (u : State), iss.r = r → iss.take = i.takes w front → iss.take ≠ 0 →
      At s u r { Expect.same s k h w with wave := w.issued } →
      At s (body iss u w.issued (w.members m)) r
        { Expect.same s k h w with wave := (w.issued.took iss.take d ws).modLanes iss.take f })
    (hf : ∀ ln th, (f ln th).park = th.park ∧ (f ln th).atBar = th.atBar)
    (heff : ∀ ln th th', ln < 32 → th'.base = (f ln th).base → th'.latch = latchesAfter i.isSwitch (f ln th).latch → eff ln th th') :
    ∃ t, waveIssue i m bad body s = .next t ∧
      Leaves s t r w i front { Expect.same s k h w with wave := w.took (i.takes w front) d ws } eff := by
  obtain ⟨-, hw, hk⟩ := ready_frontier hr
  obtain ⟨g, hg⟩ := Wave.took_fields (i.takes w front) d ws
  have hat0 : At s (s.modWave r Wave.issued) r { Expect.same s k h w with wave := w.issued } :=
    (At.refl s r k h w hk hh hw).modWave Wave.issued fun _ => rfl
  simp only [Wave.memberMask, Bool.and_eq_true, beq_iff_eq] at hm
  obtain ⟨hm1, hm2⟩ := hm
  obtain ⟨info, hi⟩ := ready_lane hr
  let iss : Iss := ⟨r, i, info, pc, front, i.takes w front⟩
  refine issue_leaves hr hsw
    (if i.takes w front = 0 then s.modWave r Wave.issued else body iss (s.modWave r Wave.issued) w.issued (w.members m)) _
    ((w.issued.took (i.takes w front) d ws).modLanes (i.takes w front) f) f eff (fun info' hi' => ?_) ?_ ?_ ?_
    (fun ln th hth => ?_) hf heff
  · obtain rfl : info = info' := Option.some.inj (hi.symm.trans hi')
    have hm1' : without (w.issued.members m) w.issued.live = 0 := hm1
    have hm2' : without (i.takes w front) (w.issued.members m) = 0 := hm2
    simp only [hat0.wave, Iss.badLatch, hbad, State.raiseAll_zero, without_zero, hm1', hm2', ne_eq, not_true, or_self, if_false]
    split <;> rfl
  · split
    · rename_i h0
      simp only [h0, Wave.took_zero, Wave.modLanes_zero]
      exact hat0
    · rename_i h0
      exact hbody iss _ rfl rfl h0 hat0
  · rw [hg, hg]; rfl
  · rw [hg]; rfl
  · rw [Wave.thread_modLanes, hg, show Wave.thread? { w.issued with s := g w.issued.s } ln = some th from hth]
    split <;> rfl

/-! ### Results for the lanes and for an s-register (R393) -/

theorem At.map {s u : State} {r : WaveRef} {e : Expect} (h : At s u r e) (iss : Iss) (hr : iss.r = r)
    (f : Wave → Nat → Thread → Thread) : At s (iss.map u f) r { e with wave := e.wave.modLanes iss.take (f e.wave) } := by
  subst hr
  exact h.modWave (fun w => w.modLanes iss.take (f w)) fun _ => rfl

/-- A result of a width that goes to each executing thread. -/
def Thread.putWide (th : Thread) (d : Opnd) (width x : Nat) (fl : Flags) : Thread :=
  (if width = 64 then th.put64 d false (BitVec.ofNat 64 x) else th.put32 d false (BitVec.ofNat 32 x)).flag fl

theorem At.putWave {s u : State} {r : WaveRef} {e : Expect} (h : At s u r e) (iss : Iss) (hr : iss.r = r) (h0 : iss.take ≠ 0)
    (d : Opnd) (width x : Nat) (fl : Flags) : At s (iss.putWave u d width x fl) r
      { e with wave := (e.wave.took iss.take d (words (regSpan width) x)).modLanes iss.take fun _ th => th.putWide d width x fl } := by
  subst hr
  cases d with
  | s n =>
    simp only [Wave.took, if_neg h0]
    obtain ⟨g, hg⟩ := Wave.setSs_fields n (words (regSpan width) x)
    exact (h.modWave (fun w => w.setSs n (words (regSpan width) x)) fun w => by rw [hg]).map iss rfl fun _ _ th => th.putWide _ _ _ _
  | _ => exact h.map iss rfl fun _ _ th => th.putWide _ _ _ _

theorem Thread.putWide_park (th : Thread) (d : Opnd) (width x : Nat) (fl : Flags) :
    (th.putWide d width x fl).park = th.park ∧ (th.putWide d width x fl).atBar = th.atBar := by
  unfold Thread.putWide
  split
  · exact th.put64_park _ _ _ _
  · exact th.put32_park _ _ _ _

/-- A thread that holds what a 32-bit result makes of it has been written so. -/
theorem Thread.wrote_put32 {th th' : Thread} {sw : Bool} {d : Opnd} {nw : Bool} {x : Word} {fl : Flags}
    (hb : th'.base = ((th.put32 d nw x).flag fl).base) (hl : th'.latch = latchesAfter sw ((th.put32 d nw x).flag fl).latch) :
    th.Wrote th' sw (dstRegs d nw [x]) (some ⟨x.setWidth 64, false⟩) fl := by
  rw [Thread.put32_toDst] at hb hl
  exact th.wrote_of th' sw d nw _ false _ _ hb hl

theorem words_two_mod (x : Nat) : words 2 (x % 2 ^ 64) = words 2 x := by
  simp only [words, List.cons.injEq, and_true]
  constructor
  · exact BitVec.eq_of_toNat_eq (by simp)
  · exact BitVec.eq_of_toNat_eq (by simp; omega)

theorem Thread.wrote_putWide {th th' : Thread} {sw : Bool} {d : Opnd} {width x : Nat} {fl : Flags} (hw : width = 32 ∨ width = 64)
    (hb : th'.base = (th.putWide d width x fl).base) (hl : th'.latch = latchesAfter sw (th.putWide d width x fl).latch) :
    th.Wrote th' sw (dstRegs d false (words (regSpan width) x)) (some ⟨BitVec.ofNat 64 (x % 2 ^ width), width == 64⟩) fl := by
  obtain rfl | rfl := hw
  · have hx : BitVec.ofNat 64 (x % 2 ^ 32) = (BitVec.ofNat 32 x).setWidth 64 := BitVec.eq_of_toNat_eq (by simp)
    rw [hx]
    exact Thread.wrote_put32 hb hl
  · have hx : BitVec.ofNat 64 (x % 2 ^ 64) = BitVec.ofNat 64 x := BitVec.eq_of_toNat_eq (by simp)
    have hp : th.putWide d 64 x fl = ((th.toDst d false (words 2 x)).enter true (BitVec.ofNat 64 x)).flag fl := by
      rw [Thread.putWide, if_pos rfl, Thread.put64_toDst, BitVec.toNat_ofNat, words_two_mod]
    rw [hp] at hb hl
    rw [hx]
    exact th.wrote_of th' sw d false _ true _ _ hb hl

end Sys2Proof.Machine
end

section
/-! SUPPORT. The tree of WRED and the prefixes of WSCAN as functions of the lane index (R115, R116), and the integer
reductions of 32 terms. -/

namespace Sys2Proof.Machine

open Host

/-! ### The tree over lane index (R115) -/

section

variable (f : Nat → Nat → Nat × Flags)

theorem treeLevel_length (k : Nat) (l : List Nat) (h : l.length = 2 ^ (k + 1)) : (treeLevel f l).1.length = 2 ^ k := by
  suffices ∀ (n : Nat) (l : List Nat), l.length = 2 * n → (treeLevel f l).1.length = n from this _ l (by rw [h, pow_succ'])
  intro n
  induction n with
  | zero => intro l hl; rw [List.length_eq_zero_iff.1 hl]; rfl
  | succ n ih =>
    intro l hl
    match l, hl with
    | a :: b :: r, hl =>
      have := ih r (by simp only [List.length_cons] at hl; omega)
      simp only [treeLevel, List.length_cons, this]

/-- A level of an even number of values and of what follows them. -/
theorem treeLevel_append (n : Nat) (l m : List Nat) (h : l.length = 2 * n) : treeLevel f (l ++ m) =
    ((treeLevel f l).1 ++ (treeLevel f m).1, (treeLevel f l).2 ||| (treeLevel f m).2) := by
  induction n generalizing l with
  | zero => rw [List.length_eq_zero_iff.1 h]; simp [treeLevel]
  | succ n ih =>
    match l, h with
    | a :: b :: r, h =>
      rw [List.cons_append, List.cons_append, treeLevel, treeLevel, ih r (by simp only [List.length_cons] at h; omega)]
      simp [BitVec.or_assoc]

/-- A tree is its two halves and one step, the lower half on the left. -/
theorem treeReduce_append (k : Nat) (l m : List Nat) (hl : l.length = 2 ^ k) (hm : m.length = 2 ^ k) :
    treeReduce f (k + 1) (l ++ m) =
      let a := treeReduce f k l
      let b := treeReduce f k m
      let c := f a.1 b.1
      (c.1, c.2 ||| a.2 ||| b.2) := by
  induction k generalizing l m with
  | zero =>
    obtain ⟨a, rfl⟩ := List.length_eq_one_iff.1 hl
    obtain ⟨b, rfl⟩ := List.length_eq_one_iff.1 hm
    simp [treeReduce, treeLevel]
  | succ k ih =>
    rw [treeReduce, treeLevel_append f (2 ^ k) l m (by rw [hl, pow_succ'])]
    simp only [ih _ _ (treeLevel_length f k l hl) (treeLevel_length f k m hm)]
    simp only [treeReduce, Prod.mk.injEq, true_and]
    ac_rfl

end

/-- 2^(k+1) terms from a place of the tree are its two subtrees' terms. -/
theorem treeTerms_succ {α : Type} (x : Nat → α) (k n : Nat) : (List.range (2 ^ (k + 1))).map (fun i => x (2 ^ (k + 1) * n + i)) =
    (List.range (2 ^ k)).map (fun i => x (2 ^ k * (2 * n) + i)) ++ (List.range (2 ^ k)).map fun i => x (2 ^ k * (2 * n + 1) + i) := by
  rw [show 2 ^ (k + 1) = 2 ^ k + 2 ^ k by omega, List.range_add, List.map_append, List.map_map]
  congr 1
  · refine List.map_congr_left fun i _ => congrArg x ?_
    ring
  · refine List.map_congr_left fun i _ => congrArg x ?_
    ring

/-- The value at a node and the flags of its steps are those of the reduction of its terms. -/
theorem treeReduce_eq_treeNode (fn : WredFn) (x : Nat → Nat) (k n : Nat) :
    treeReduce (WredFn.step fn) k ((List.range (2 ^ k)).map fun i => x (2 ^ k * n + i)) = treeNode fn x k n := by
  induction k generalizing n with
  | zero => simp [treeReduce, treeNode]
  | succ k ih =>
    rw [treeTerms_succ, treeReduce_append _ _ _ _ (by simp) (by simp), ih, ih]
    rfl

/-! ### Prefixes from lane 0 (R116) -/

/-- The terms from lane n on, the first apart. -/
theorem scanTerms_succ {α : Type} (y : Nat → α) (k n : Nat) : (List.range (k + 1)).map (fun i => y (n + i)) =
    y n :: (List.range k).map fun i => y (n + 1 + i) := by
  rw [List.range_succ_eq_map, List.map_cons, List.map_map]
  exact congrArg _ (List.map_congr_left fun i _ => congrArg y (by simp [Nat.succ_eq_add_one]; omega))

theorem scanFrom_eq_scanTo (fn : WredFn) (x : Nat → Nat) (k n : Nat) :
    (scanFrom (WredFn.step fn) (scanTo fn x n).1 ((List.range k).map fun i => x (n + 1 + i))).1 =
      ((List.range k).map fun i => (scanTo fn x (n + 1 + i)).1) ∧
    (scanFrom (WredFn.step fn) (scanTo fn x n).1 ((List.range k).map fun i => x (n + 1 + i))).2 ||| (scanTo fn x n).2 =
      (scanTo fn x (n + k)).2 := by
  induction k generalizing n with
  | zero => simp [scanFrom]
  | succ k ih =>
    obtain ⟨h1, h2⟩ := ih (n + 1)
    have hs : (WredFn.step fn (scanTo fn x n).1 (x (n + 1))).1 = (scanTo fn x (n + 1)).1 := rfl
    rw [scanTerms_succ x, scanTerms_succ fun i => (scanTo fn x i).1, scanFrom, hs]
    refine ⟨by rw [h1], ?_⟩
    rw [show n + (k + 1) = n + 1 + k by omega, ← h2, scanTo]
    simp only []
    ac_rfl

theorem prefixes_eq_scanTo (fn : WredFn) (x : Nat → Nat) (k : Nat) :
    prefixes (WredFn.step fn) ((List.range (k + 1)).map x) = ((List.range (k + 1)).map fun i => (scanTo fn x i).1, (scanTo fn x k).2) := by
  obtain ⟨h1, h2⟩ := scanFrom_eq_scanTo fn x k 0
  have hx := scanTerms_succ x k 0
  have hy := scanTerms_succ (fun i => (scanTo fn x i).1) k 0
  simp only [Nat.zero_add] at h1 h2 hx hy
  rw [hx, hy, prefixes]
  refine Prod.ext (congrArg (x 0 :: ·) h1) ?_
  rw [← h2]
  exact BitVec.or_zero.symm

/-! ### Integer reductions of 32 terms -/

/-- Where a step is an associative operation on words, a node is that operation over its terms. -/
theorem treeNode_fold (fn : WredFn) (op : Word → Word → Word) (e : Word) [Std.Associative op] (he : ∀ a, op e a = a)
    (he' : ∀ a, op a e = a)
    (hs : ∀ a b, BitVec.ofNat 32 (WredFn.step fn a b).1 = op (BitVec.ofNat 32 a) (BitVec.ofNat 32 b)) (x : Nat → Word) (k n : Nat) :
    BitVec.ofNat 32 (treeNode fn (fun i => (x i).toNat) k n).1 =
      ((List.range (2 ^ k)).map fun i => x (2 ^ k * n + i)).foldl op e := by
  induction k generalizing n with
  | zero => simp [treeNode, he]
  | succ k ih =>
    rw [treeTerms_succ, List.foldl_append, treeNode]
    simp only [hs, ih]
    rw [← List.foldl_assoc (op := op), he']

/-- Where a step selects one of its operands and is related to both, so is a node to all of its terms. -/
theorem treeNode_select (fn : WredFn) (R : Nat → Nat → Prop) (hrefl : ∀ a, R a a) (htrans : ∀ a b c, R a b → R b c → R a c)
    (hs : ∀ a b, ((WredFn.step fn a b).1 = a ∨ (WredFn.step fn a b).1 = b) ∧ R (WredFn.step fn a b).1 a ∧ R (WredFn.step fn a b).1 b)
    (x : Nat → Nat) (k n : Nat) : (∃ i < 2 ^ k, (treeNode fn x k n).1 = x (2 ^ k * n + i)) ∧
      ∀ i < 2 ^ k, R (treeNode fn x k n).1 (x (2 ^ k * n + i)) := by
  induction k generalizing n with
  | zero =>
    have h0 : ∀ i < 2 ^ 0, x (2 ^ 0 * n + i) = x n := fun i hi => congrArg x (by omega)
    exact ⟨⟨0, by simp, by simp [treeNode]⟩, fun i hi => by rw [h0 i hi]; exact hrefl _⟩
  | succ k ih =>
    obtain ⟨⟨i, hi, ha⟩, hra⟩ := ih (2 * n)
    obtain ⟨⟨j, hj, hb⟩, hrb⟩ := ih (2 * n + 1)
    obtain ⟨hsel, h1, h2⟩ := hs (treeNode fn x k (2 * n)).1 (treeNode fn x k (2 * n + 1)).1
    have hlo : ∀ i, 2 ^ (k + 1) * n + i = 2 ^ k * (2 * n) + i := fun i => by ring
    have hhi : ∀ i, 2 ^ (k + 1) * n + (2 ^ k + i) = 2 ^ k * (2 * n + 1) + i := fun i => by ring
    have hp : 2 ^ (k + 1) = 2 ^ k + 2 ^ k := by omega
    have hv : (treeNode fn x (k + 1) n).1 = (WredFn.step fn (treeNode fn x k (2 * n)).1 (treeNode fn x k (2 * n + 1)).1).1 := rfl
    rw [hv]
    refine ⟨?_, fun m hm => ?_⟩
    · obtain hc | hc := hsel
      · exact ⟨i, by omega, by rw [hlo, hc, ha]⟩
      · exact ⟨2 ^ k + j, by omega, by rw [hhi, hc, hb]⟩
    · by_cases hlt : m < 2 ^ k
      · rw [hlo]
        exact htrans _ _ _ h1 (hra m hlt)
      · obtain ⟨m, rfl⟩ := Nat.exists_eq_add_of_le (not_lt.1 hlt)
        rw [hhi]
        exact htrans _ _ _ h2 (hrb m (by omega))

theorem WscanFn.how_bits (fn : WscanFn) : (WscanFn.how fn).1.bits = 32 := by cases fn <;> rfl

theorem WredFn.bits_eq (fn : WredFn) : fn.bits = 32 ∨ fn.bits = 64 := by cases fn <;> simp [WredFn.bits]

/-- Where a step keeps its left operand unless that breaks a total order of the signed words, a tree of 32 terms gives one of
them, in that order with all of them. -/
theorem treeNode_extreme (fn : WredFn) (R : Int → Int → Prop) [IsPreorder Int R] [Std.Total R] [DecidableRel R]
    (hs : ∀ a b, (WredFn.step fn a b).1 = if R (BitVec.ofNat 32 a).toInt (BitVec.ofNat 32 b).toInt then a else b) (x : Nat → Word) :
    (∃ n < 32, BitVec.ofNat 32 (treeNode fn (fun i => (x i).toNat) 5 0).1 = x n) ∧
      ∀ n < 32, R (BitVec.ofNat 32 (treeNode fn (fun i => (x i).toNat) 5 0).1).toInt (x n).toInt := by
  obtain ⟨⟨n, hn, h1⟩, h2⟩ := treeNode_select fn (fun a b => R (BitVec.ofNat 32 a).toInt (BitVec.ofNat 32 b).toInt)
    (fun _ => refl_of R _) (fun _ _ _ => trans_of R) (fun a b => by
      rw [hs]
      split
      · exact ⟨.inl rfl, refl_of R _, ‹_›⟩
      · exact ⟨.inr rfl, (Std.Total.total _ _).resolve_left ‹_›, refl_of R _⟩) (fun i => (x i).toNat) 5 0
  refine ⟨⟨n, hn, ?_⟩, fun n hn => ?_⟩
  · rw [h1]; simp
  · simpa using h2 n hn

theorem step_minS32 (a b : Nat) : (WredFn.step .minS32 a b).1 =
    if (BitVec.ofNat 32 a).toInt ≤ (BitVec.ofNat 32 b).toInt then a else b := by
  simp only [WredFn.step, BitVec.slt, decide_eq_true_eq, ← not_le, ite_not]

theorem step_maxS32 (a b : Nat) : (WredFn.step .maxS32 a b).1 =
    if (BitVec.ofNat 32 a).toInt ≥ (BitVec.ofNat 32 b).toInt then a else b := by
  simp only [WredFn.step, BitVec.slt, decide_eq_true_eq, ← not_le, ite_not, ge_iff_le]

theorem treeNode_addS32 (x : Nat → Word) : BitVec.ofNat 32 (treeNode .addS32 (fun i => (x i).toNat) 5 0).1 = ((List.range 32).map x).sum := by
  rw [treeNode_fold .addS32 (· + ·) 0 BitVec.zero_add BitVec.add_zero (fun a b => by
    simp only [WredFn.step]; exact BitVec.eq_of_toNat_eq (by simp)), List.sum_eq_foldl]
  simp

theorem treeNode_and (x : Nat → Word) : BitVec.ofNat 32 (treeNode .and (fun i => (x i).toNat) 5 0).1 =
    ((List.range 32).map x).foldl (· &&& ·) 0xFFFFFFFF := by
  rw [treeNode_fold .and (· &&& ·) 0xFFFFFFFF (fun a => BitVec.allOnes_and) (fun a => BitVec.and_allOnes) fun a b => BitVec.ofNat_and]
  simp

theorem treeNode_or (x : Nat → Word) : BitVec.ofNat 32 (treeNode .or (fun i => (x i).toNat) 5 0).1 =
    ((List.range 32).map x).foldl (· ||| ·) 0 := by
  rw [treeNode_fold .or (· ||| ·) 0 (fun a => BitVec.zero_or) (fun a => BitVec.or_zero) fun a b => BitVec.ofNat_or]
  simp

theorem treeNode_xor (x : Nat → Word) : BitVec.ofNat 32 (treeNode .xor (fun i => (x i).toNat) 5 0).1 =
    ((List.range 32).map x).foldl (· ^^^ ·) 0 := by
  rw [treeNode_fold .xor (· ^^^ ·) 0 (fun a => BitVec.zero_xor) (fun a => BitVec.xor_zero) fun a b => BitVec.ofNat_xor]
  simp

end Sys2Proof.Machine
end

section
/-! SUPPORT. VOTE, WRED and WSCAN (R115, R116, R392–R394). -/

namespace Sys2Proof.Machine

open Host

/-- The number that VOTE delivers of the members that say yes (R392). -/
def voteResult (fn : VoteFn) (yes mem : Nat) : Nat :=
  match fn with
  | .ballot => yes
  | .any => if yes = 0 then 0 else 1
  | .all => if yes = mem then 1 else 0

section

variable {s : State} {r : WaveRef} {k : Task} {w : Wave} {pc front : Nat} {h : Share}

theorem execVote_leaves (f : VoteOp) (hr : ready s r (.vote f) k w pc front = true) (hh : s.share? r.tid r.core = some h)
    (hm : w.memberMask f.m ((Instr.vote f).takes w front) = true) :
    let x := BitVec.ofNat 32 (voteResult f.fn (w.maskWhere (fun th => th.rp f.p) &&& w.members f.m) (w.members f.m))
    ∃ t, execVote f s = .next t ∧
      Leaves s t r w (.vote f) front { Expect.same s k h w with wave := w.took ((Instr.vote f).takes w front) f.d [x] }
        fun _ th th' => th.Wrote th' (Instr.vote f).isSwitch (dstRegs f.d false [x]) (some ⟨x.setWidth 64, false⟩) 0 :=
  waveIssue_leaves hr hh rfl hm rfl f.d _ (fun _ th => th.putWide f.d 32 _ 0)
    (fun iss _ hi _ h0 hat => hat.putWave iss hi h0 f.d 32 _ 0) (fun _ th => th.putWide_park _ _ _ _)
    fun _ _ _ _ hb hl => Thread.wrote_put32 hb hl

theorem execWred_leaves (f : WOp WredFn) (hr : ready s r (.wred f) k w pc front = true) (hh : s.share? r.tid r.core = some h)
    (hm : w.memberMask f.m ((Instr.wred f).takes w front) = true) (hu : w.unread (w.members f.m) f.fn.bits f.a = 0) :
    let y := treeNode f.fn (w.term f.m f.fn f.a) 5 0
    let ws := words (regSpan f.fn.bits) y.1
    ∃ t, execWred f s = .next t ∧
      Leaves s t r w (.wred f) front { Expect.same s k h w with wave := w.took ((Instr.wred f).takes w front) f.d ws }
        fun _ th th' => th.Wrote th' (Instr.wred f).isSwitch (dstRegs f.d false ws)
          (some ⟨BitVec.ofNat 64 (y.1 % 2 ^ f.fn.bits), f.fn.bits == 64⟩) y.2 := by
  intro y ws
  have hy : y = treeReduce (WredFn.step f.fn) 5 ((List.range 32).map (w.term f.m f.fn f.a)) := by
    simpa using (treeReduce_eq_treeNode f.fn (w.term f.m f.fn f.a) 5 0).symm
  clear_value y
  subst hy
  refine waveIssue_leaves hr hh rfl hm (Wave.unreadAll_eq_zero hu _) f.d ws (fun _ th => th.putWide f.d f.fn.bits _ _)
    (fun iss u hi _ h0 hat => ?_) (fun _ th => th.putWide_park _ _ _ _) fun _ _ _ _ hb hl =>
      Thread.wrote_putWide (WredFn.bits_eq f.fn) hb hl
  simp only [memberVal_issued]
  exact hat.putWave iss hi h0 f.d f.fn.bits _ _

/-- What a lane receives of the prefixes (R116). -/
theorem nth_scanOut (fn : WredFn) (x : Nat → Nat) (excl : Bool) (n : Nat) (hn : n < 32) :
    let l := (List.range 32).map fun i => (scanTo fn x i).1
    nth (if excl then WredFn.identity fn :: l else l) n 0 =
      if excl then (if n = 0 then WredFn.identity fn else (scanTo fn x (n - 1)).1) else (scanTo fn x n).1 := by
  have hl : ∀ m < 32, nth ((List.range 32).map fun i => (scanTo fn x i).1) m 0 = (scanTo fn x m).1 := fun m hm => by
    simp [nth, List.getD_eq_getElem?_getD, List.getElem?_range hm]
  intro l
  cases excl with
  | false => simpa using hl n hn
  | true =>
    cases n with
    | zero => rfl
    | succ m => exact hl m (by omega)

theorem execWscan_ran (f : WOp WscanFn) (hr : ready s r (.wscan f) k w pc front = true)
    (hm : w.memberMask f.m ((Instr.wscan f).takes w front) = true) (hu : w.unread (w.members f.m) 32 f.a = 0) :
    let how := WscanFn.how f.fn
    let upTo := scanTo how.1 (w.term f.m how.1 f.a)
    ∃ t, execWscan f s = .next t ∧ Ran s t r w (.wscan f) front fun ln th th' =>
      let x : Word := BitVec.ofNat 32 (if how.2 then (if ln = 0 then WredFn.identity how.1 else (upTo (ln - 1)).1) else (upTo ln).1)
      th.Wrote th' (Instr.wscan f).isSwitch (dstRegs f.d false [x]) (some ⟨x.setWidth 64, false⟩) (upTo 31).2 := by
  intro how upTo
  obtain ⟨-, hw, hk⟩ := ready_frontier hr
  obtain ⟨h, hh⟩ := State.share_of_wave hw
  have hterm : w.term f.m how.1 f.a =
      fun ln => if (w.members f.m).testBit ln then memberVal w 32 ln f.a else WredFn.identity how.1 := by
    funext ln; rw [Wave.term, WscanFn.how_bits]
  have hp : prefixes (WredFn.step how.1) ((List.range 32).map (w.term f.m how.1 f.a)) =
      ((List.range 32).map fun i => (upTo i).1, (upTo 31).2) := prefixes_eq_scanTo how.1 _ 31
  rw [hterm] at hp
  refine Exists.imp (p := fun t => execWscan f s = .next t ∧ Leaves s t r w (.wscan f) front (Expect.same s k h w) _)
    (fun t ht => ⟨ht.1, ht.2.ran hk hh⟩) ?_
  refine waveIssue_leaves hr hh rfl hm (Wave.unreadAll_eq_zero hu _) .vz []
    (fun ln th => (th.put32 f.d false (BitVec.ofNat 32
      (nth (if how.2 then WredFn.identity how.1 :: (List.range 32).map fun i => (upTo i).1
        else (List.range 32).map fun i => (upTo i).1) ln 0))).flag (upTo 31).2)
    (fun iss u hi _ _ hat => ?_) (fun _ th => th.put32_park _ _ _ _) fun ln th th' hln hb hl => ?_
  · simp only [memberVal_issued]
    rw [hp]
    exact hat.map iss hi _
  · rw [nth_scanOut _ _ _ _ hln] at hb hl
    exact Thread.wrote_put32 hb hl

end

end Sys2Proof.Machine

open Sys2Proof Sys2Proof.Machine Host

/-- Settles O22: a format W instruction that passes R265 is its body (`waveIssue_leaves`), the model's level by level reduction
is the tree (`treeReduce_eq_treeNode`), its scan the prefixes (`prefixes_eq_scanTo`), and the integer steps are associative
(`treeNode_fold`) or select (`treeNode_extreme`). -/
theorem crossLaneReductions : Obligations.CrossLaneReductions := by
  unfold Obligations.CrossLaneReductions
  refine ⟨fun f s r k w pc front h hr hh => ?_, fun f s r k w pc front h hr hh => execWred_leaves f hr hh,
    fun f s r k w pc front hr => execWscan_ran f hr, fun x => ?_⟩
  · intro i yes x hm
    have hx : x = BitVec.ofNat 32 (voteResult f.fn yes (w.members f.m)) := rfl
    clear_value x
    subst hx
    exact execVote_leaves f hr hh hm
  · obtain ⟨min_mem, min_le⟩ := treeNode_extreme .minS32 (· ≤ ·) step_minS32 x
    obtain ⟨max_mem, le_max⟩ := treeNode_extreme .maxS32 (· ≥ ·) step_maxS32 x
    exact ⟨treeNode_addS32 x, treeNode_and x, treeNode_or x, treeNode_xor x, min_mem, min_le, max_mem, le_max⟩

end

section
/-! SUPPORT. Words of a 32-bit row that the decoder refuses (R33, R46): fields of a word as bits of a mask. -/

namespace Sys2Proof

theorem fld_eq_extract (w : BitVec 32) (lo n : Nat) : fld w.toNat lo n = (w.extractLsb' lo n).toNat := by
  simp [fld, Nat.shiftRight_eq_div_pow]

/-- The bits of a field (lowest bit, width) in a word. -/
def fieldMask (p : Nat × Nat) : BitVec 32 := (BitVec.allOnes p.2).setWidth 32 <<< p.1

theorem and_fieldMask (w : BitVec 32) (p : Nat × Nat) : w &&& fieldMask p = (w.extractLsb' p.1 p.2).setWidth 32 <<< p.1 := by
  ext i hi
  simp only [fieldMask, BitVec.getElem_and, BitVec.getElem_shiftLeft, BitVec.getElem_setWidth, BitVec.getLsbD_allOnes, BitVec.getLsbD_extractLsb']
  by_cases h : i < p.1
  · simp [h]
  · simp [h, Bool.and_comm, Nat.add_sub_cancel' (not_lt.1 h), ← BitVec.getLsbD_eq_getElem]

/-- Where a field is zero, so are its bits. -/
theorem and_fieldMask_eq_zero {w : BitVec 32} {p : Nat × Nat} (h : fld w.toNat p.1 p.2 = 0) : w &&& fieldMask p = 0 := by
  rw [fld_eq_extract] at h
  have h0 : w.extractLsb' p.1 p.2 = 0#p.2 := BitVec.eq_of_toNat_eq (by simpa using h)
  rw [and_fieldMask, h0]
  simp

/-- The bits of several fields. -/
def fieldsMask : List (Nat × Nat) → BitVec 32
  | [] => 0
  | p :: l => fieldMask p ||| fieldsMask l

theorem and_fieldsMask_eq_zero {w : BitVec 32} {l : List (Nat × Nat)} (h : ∀ p ∈ l, fld w.toNat p.1 p.2 = 0) :
    w &&& fieldsMask l = 0 := by
  induction l with
  | nil => exact BitVec.and_zero
  | cons p l ih =>
    obtain ⟨hp, hl⟩ := List.forall_mem_cons.1 h
    rw [fieldsMask, BitVec.and_or_distrib_left, and_fieldMask_eq_zero hp, ih hl]
    rfl

/-- R33: a word that has a bit of the fields set is ILLEGAL. -/
theorem zeros_illegal {w : BitVec 32} {l : List (Nat × Nat)} (h : w &&& fieldsMask l ≠ 0) : zeros w.toNat l = .error .illegal := by
  unfold zeros need
  rw [if_neg fun hl => h (and_fieldsMask_eq_zero fun p hp => by simpa using List.all_eq_true.1 hl p hp)]

theorem zeros_cases (w : Nat) (l : List (Nat × Nat)) : zeros w l = .ok () ∨ zeros w l = .error .illegal := by
  unfold zeros need
  split
  · exact .inl rfl
  · exact .inr rfl

theorem ofBytes_leBytes (n w : Nat) : ofBytes (leBytes n w) = w % 256 ^ n := by
  induction n generalizing w with
  | zero => simp [leBytes, ofBytes, Nat.mod_one]
  | succ n ih => rw [leBytes, ofBytes, ih, pow_succ', Nat.mod_mul]; simp

/-- The decoder on the bytes of a word whose bit 0 is 1 (R27). -/
theorem decodeBytes_word (w : BitVec 32) (h : w.toNat % 2 = 1) : decodeBytes (leBytes 4 w.toNat) = some (decode32 w.toNat) := by
  have hw : ofBytes (leBytes 4 w.toNat) = w.toNat := by rw [ofBytes_leBytes]; exact Nat.mod_eq_of_lt w.isLt
  have hb : ¬ (BitVec.ofNat 8 w.toNat).toNat % 2 = 0 := by simp; omega
  simp only [leBytes] at hw ⊢
  rw [decodeBytes, if_neg hb]
  simp only [hw]

/-- A row rejects what its decoder refuses: every word with a bit that must be zero, and the words said. -/
theorem rejects_of {α : Type} {fixed mask : BitVec 32} {bad : BitVec 32 → Bool} (l : List (Nat × Nat))
    (dec : Nat → Except DecErr α) (mk : α → Instr) (hrow : ∀ w, fld w 2 7 = fld fixed.toNat 2 7 → raw32 w = mk <$> dec w)
    (hodd : fixed.getLsbD 0 = true) (hmask : mask = 0x1FD ||| fieldsMask l)
    (hdec : ∀ w : BitVec 32, zeros w.toNat l = .error .illegal ∨ bad w = true → dec w.toNat = .error .illegal) :
    Rejects fixed mask bad := by
  rintro w rfl h
  have hop : fld w.toNat 2 7 = fld (w &&& 0x1FD).toNat 2 7 := by
    rw [fld_eq_extract, fld_eq_extract]
    congr 1
    ext i hi
    have hm : ∀ i < 7, (0x1FD#32).getLsbD (2 + i) = true := by decide
    simp [hm i hi]
  have h1 : w.toNat % 2 = 1 := by
    have : w.getLsbD 0 = true := by simpa using hodd
    simpa [BitVec.getLsbD, Nat.testBit_zero] using this
  have hz : zeros w.toNat l = .error .illegal ∨ bad w = true := h.imp_left fun hne => zeros_illegal fun h0 => hne (by
    rw [hmask, BitVec.and_or_distrib_left, h0]
    exact BitVec.or_zero)
  rw [decodeBytes_word w h1, decode32, hrow w.toNat hop, hdec w hz]
  rfl

end Sys2Proof
end

section
/-! SUPPORT. Address registers (R308–R310, R312): their arithmetic and parts as bit vectors, and the instructions that write one. -/

namespace Sys2Proof

/-- A part code of 3 or more is ILLEGAL (R310, R312). -/
theorem APart.of?_illegal {n : Nat} (h : 3 ≤ n) : APart.of? n = .error .illegal := by
  unfold APart.of?
  rw [if_neg (by omega), if_neg (by omega), if_neg (by omega)]

/-- The part code of a word. -/
theorem part_illegal {w : BitVec 32} (h : 3 ≤ w.toNat / 2 ^ 24) : APart.of? (fld w.toNat 24 8) = .error .illegal :=
  APart.of?_illegal (by
    have hw : w.toNat / 2 ^ 24 < 2 ^ 8 := by omega
    rwa [fld, Nat.mod_eq_of_lt hw])

theorem decAaddOp_illegal {w : Nat} (h : zeros w [(21, 4), (14, 4), (9, 2)] = .error .illegal) :
    decAaddOp w = .error .illegal := by rw [decAaddOp, h]; rfl

theorem decAaddiOp_illegal {w : Nat} (h : zeros w [(15, 1)] = .error .illegal) : decAaddiOp w = .error .illegal := by
  rw [decAaddiOp, h]; rfl

theorem decAputOp_illegal {w : Nat} (h : zeros w [(13, 4), (9, 1)] = .error .illegal ∨ APart.of? (fld w 24 8) = .error .illegal) :
    decAputOp w = .error .illegal := by
  obtain hz | hz := zeros_cases w [(13, 4), (9, 1)]
  · rw [decAputOp, hz, h.resolve_left (by simp [hz])]; rfl
  · rw [decAputOp, hz]; rfl

theorem decAgetOp_illegal {w : Nat} (h : zeros w [(20, 4)] = .error .illegal ∨ APart.of? (fld w 24 8) = .error .illegal) :
    decAgetOp w = .error .illegal := by
  obtain hz | hz := zeros_cases w [(20, 4)]
  · rw [decAgetOp, hz, h.resolve_left (by simp [hz])]; rfl
  · rw [decAgetOp, hz]; rfl

theorem aadd_rejects : Rejects 0x8D 0x01E3C7FD (fun _ => false) :=
  rejects_of [(21, 4), (14, 4), (9, 2)] decAaddOp .aadd (fun w hw => by simp only [raw32, hw]; rfl) rfl (by decide)
    fun _ h => decAaddOp_illegal (h.resolve_right Bool.false_ne_true)

theorem aaddi_rejects : Rejects 0x91 0x000081FD (fun _ => false) :=
  rejects_of [(15, 1)] decAaddiOp .aaddi (fun w hw => by simp only [raw32, hw]; rfl) rfl (by decide)
    fun _ h => decAaddiOp_illegal (h.resolve_right Bool.false_ne_true)

theorem aput_rejects : Rejects 0x95 0x0001E3FD (fun w => 3 ≤ w.toNat / 2 ^ 24) :=
  rejects_of [(13, 4), (9, 1)] decAputOp .aput (fun w hw => by simp only [raw32, hw]; rfl) rfl (by decide)
    fun _ h => decAputOp_illegal (h.imp_right fun hp => part_illegal (of_decide_eq_true hp))

theorem aget_rejects : Rejects 0x99 0x00F001FD (fun w => 3 ≤ w.toNat / 2 ^ 24) :=
  rejects_of [(20, 4)] decAgetOp .aget (fun w hw => by simp only [raw32, hw]; rfl) rfl (by decide)
    fun _ h => decAgetOp_illegal (h.imp_right fun hp => part_illegal (of_decide_eq_true hp))

end Sys2Proof

namespace Sys2Proof.Machine

open Host

/-- Adding a signed number to an address is adding its sign extension modulo 2^72. -/
theorem addrAdd_toInt {n : Nat} (a : Addr) (x : BitVec n) : addrAdd a x.toInt = a + x.signExtend 72 := by
  rw [addrAdd, BitVec.ofInt_add, BitVec.ofInt_natCast, BitVec.ofNat_toNat, BitVec.setWidth_eq]
  rfl

theorem toNat_append_add {m n : Nat} (x : BitVec m) (y : BitVec n) : (x ++ y).toNat = x.toNat * 2 ^ n + y.toNat := by
  rw [BitVec.toNat_append, ← Nat.shiftLeft_add_eq_or_of_lt y.isLt, Nat.shiftLeft_eq]

/-- APUT replaces one part of an address and keeps the others. -/
theorem aput_eq (a : Addr) (part : APart) (x : Word) : aput a part x = match part with
    | .lo => a.extractLsb' 32 40 ++ x
    | .mid => a.extractLsb' 64 8 ++ x ++ a.extractLsb' 0 32
    | .hi => x.extractLsb' 0 8 ++ a.extractLsb' 0 64 := by
  cases part <;> apply BitVec.eq_of_toNat_eq <;>
    simp only [aput, toNat_append_add, BitVec.extractLsb'_toNat, Nat.shiftRight_eq_div_pow, BitVec.toNat_ofNat] <;> omega

theorem aget_eq (a : Addr) (part : APart) : aget a part = match part with
    | .lo => a.extractLsb' 0 32
    | .mid => a.extractLsb' 32 32
    | .hi => (a.extractLsb' 64 8).setWidth 32 := by
  cases part <;> apply BitVec.eq_of_toNat_eq <;> simp [aget, Nat.shiftRight_eq_div_pow]

/-- An instruction that writes one address register. -/
theorem givesA_of (i : Instr) (d : Fin 8) (val f : Wave → Nat → Thread → Addr)
    (he : ∀ s, exec i s = perThread i (fun w ln th => th.setA d (f w ln th)) s) (hsw : switches i = (false, false))
    (hf : ∀ w ln th, f w.issued ln th = val w ln th) : GivesA i d val := by
  apply runs_perThread i _ he (fun _ _ _ => ⟨rfl, rfl⟩) hsw
  intro w ln th th' hb hl
  rw [hf] at hb hl
  refine ⟨fun n => ?_, hl, by rw [hb]; rfl⟩
  rw [show th'.ra n = th'.base.ra n from rfl, hb]
  exact th.ra_setA _ _ _

end Sys2Proof.Machine

open Sys2Proof Sys2Proof.Machine Host

/-- Settles O3: the model's sum and parts of an address are those of the bit vectors (`addrAdd_toInt`, `aput_eq`, `aget_eq`),
and a row refuses the words that its decoder does (`rejects_of`). -/
theorem addressResults : Obligations.AddressResults := by
  unfold Obligations.AddressResults
  refine ⟨fun f => givesA_of (.aadd f) f.d _ _ (fun _ => rfl) rfl fun w ln th => ?aadd,
    fun f => givesA_of (.aaddi f) f.d _ _ (fun _ => rfl) rfl fun w ln th => addrAdd_toInt _ _,
    fun f => givesA_of (.aput f) f.d _ _ (fun _ => rfl) rfl fun w ln th => ?aput,
    fun f => gives32_of (.aget f) f.d f.w _ _ _ (fun _ => rfl) rfl (fun w ln th => ?aget) fun w ln th => ?park,
    aadd_rejects, aaddi_rejects, aput_rejects, aget_rejects, ?words⟩
  case aadd => rw [src32_issued]; exact addrAdd_toInt _ _
  case aput => rw [src32_issued]; exact aput_eq _ _ _
  case aget => exact (congrArg (th.put32 f.d f.w) (aget_eq _ _)).trans (Thread.flag_zero _).symm
  case park => rw [← Thread.flag_zero (th.put32 _ _ _)]; exact th.put32_park _ _ _ _
  case words => unfold Decodes; decide

end

section
/-! SUPPORT. A wave that has come back from an eviction at a safe point, and a jump at which all its threads take FETCH while its
launch stops for a debugger (R28, R254, R264). -/

namespace Sys2Proof.Machine.RestoredJump

open Host

/-- One thread at PC 0. An eviction at that safe point has dropped the stop and kept the note of the safe point. -/
def wave : Wave := ({ wix := 0, stage := 0, slot := 0, lanes := [some (newThread 0 0)], stopped := true, atSafe := true } : Wave).saved false

/-- Another wave of the task, which goes on. -/
def other : Wave := { wix := 1, stage := 0, slot := 0, lanes := [some (newThread 1 0)] }

def share : Share := { c := 0, waves := [wave, other] }

def task : Machine.Task := { tid := 3, lid := 5, key := 0, kernel := 0, st := .resident, shares := [share] }

/-- Four bytes of code; a debugger has asked the launch to stop. -/
def launch : Launch := { lid := 5, queue := 0, asid := 1, cr := 0, code := { size := 4 }, rounds := [0], stopReq := true }

def ref : WaveRef := ⟨3, 0, 0⟩

def state : State := { tasks := [task], launches := [launch], issuer := some ref }

/-- A jump to the end of the code, which fails R28. -/
def jump : JOp := ⟨2, false⟩

theorem jump_met : ready state ref (.jmp jump) task wave 0 1 = true ∧ state.share? 3 0 = some share ∧
    state.launchOf? 3 = some launch ∧ launch.haltFatal = false ∧ task.prop = none ∧ task.goesOn ref wave 1 = true := by
  decide

theorem wave_atSafe : wave.atSafe = true := rfl

/-- The wave is blocked after the jump, so the debugger stops it, away from any safe point. -/
theorem jump_clears_atSafe :
    (match exec (.jmp jump) state with | .next t => (t.wave? ref).map (·.atSafe) | _ => none) = some false := by
  decide

end Sys2Proof.Machine.RestoredJump

open Sys2Proof Sys2Proof.Machine Host

/-- Refutes O24: where a wave whose threads all take FETCH stops for a debugger at once, the stop clears its note of a safe point
(`afterIssue`), which `Jumps` says is kept and which a restored wave can hold without being stopped. -/
theorem not_transfers : ¬ Obligations.Transfers := by
  unfold Obligations.Transfers
  rintro ⟨-, jumps, -⟩
  obtain ⟨hr, hh, hl, hf, hp, hg⟩ := RestoredJump.jump_met
  obtain ⟨t, ht, -, -, -, -, -, -, -, w', hw, hb, -⟩ :=
    jumps RestoredJump.jump _ _ _ _ _ _ _ _ hr hh hl (.inr ⟨hf, hp, hg⟩)
  have kept : w'.atSafe = true := (congrArg Wave.atSafe hb).trans RestoredJump.wave_atSafe
  have cleared := RestoredJump.jump_clears_atSafe
  simp only [ht, hw, Option.map_some, kept] at cleared
  cases cleared

end

section
/-! SUPPORT. Integer arithmetic, shifts and bit fields of the model as operations on bit vectors (R99, R316, R349), and the
instructions that deliver a 32-bit result without a flag. -/

namespace Sys2Proof.Machine

open Host

/-! ### Arithmetic (R99, R349) -/

/-- Bits 63:32 of an integer, taken from its 64-bit form. -/
theorem ofInt_div_eq_extract (z : Int) : BitVec.ofInt 32 (z / 2 ^ 32) = (BitVec.ofInt 64 z).extractLsb' 32 32 := by
  apply BitVec.eq_of_toNat_eq
  simp only [BitVec.toNat_ofInt, BitVec.extractLsb'_toNat, Nat.shiftRight_eq_div_pow]
  omega

theorem mulHigh_toInt (a b : Word) :
    mulHigh a.toInt b.toInt = (a.signExtend 64 * b.signExtend 64).extractLsb' 32 32 := by
  rw [mulHigh, ofInt_div_eq_extract, BitVec.ofInt_mul]
  rfl

theorem mulHigh_toNat (a b : Word) : mulHigh a.toNat b.toNat = (a.setWidth 64 * b.setWidth 64).extractLsb' 32 32 := by
  rw [mulHigh, ofInt_div_eq_extract, BitVec.ofInt_mul, BitVec.ofInt_natCast, BitVec.ofInt_natCast]
  simp only [BitVec.ofNat_toNat]

theorem sdiv32_eq (a b : Word) : sdiv32 a b = if b = 0 then 0xFFFFFFFF else a.sdiv b := by
  refine ite_congr rfl (fun _ => rfl) fun _ => BitVec.eq_of_toInt_eq ?_
  rw [BitVec.toInt_sdiv, BitVec.toInt_ofInt]

theorem udiv32_eq (a b : Word) : udiv32 a b = if b = 0 then 0xFFFFFFFF else a / b := by
  refine ite_congr rfl (fun _ => rfl) fun _ => ?_
  rw [← BitVec.toNat_udiv, BitVec.ofNat_toNat, BitVec.setWidth_eq]

theorem srem32_eq (a b : Word) : srem32 a b = if b = 0 then a else a.srem b := by
  refine ite_congr rfl (fun _ => rfl) fun _ => ?_
  rw [← BitVec.toInt_srem, BitVec.ofInt_toInt]

theorem urem32_eq (a b : Word) : urem32 a b = if b = 0 then a else a % b := by
  refine ite_congr rfl (fun _ => rfl) fun _ => ?_
  rw [← BitVec.toNat_umod, BitVec.ofNat_toNat, BitVec.setWidth_eq]

theorem smin32_eq (a b : Word) : smin32 a b = if a.toInt ≤ b.toInt then a else b := by
  simp only [smin32, BitVec.slt, decide_eq_true_eq, ← not_le, ite_not]

theorem umin32_eq (a b : Word) : umin32 a b = if a ≤ b then a else b := by
  simp only [umin32, BitVec.le_def, ← not_le, ite_not]

/-- Where the operands are equal, which of them a maximum takes does not count. -/
theorem smax32_eq (a b : Word) : smax32 a b = if a.toInt ≤ b.toInt then b else a := by
  unfold smax32
  obtain h | h | h := lt_trichotomy a.toInt b.toInt
  · simp [BitVec.slt, h, h.le]
  · simp [BitVec.toInt_inj.1 h]
  · simp [BitVec.slt, h.not_gt, h.not_ge]

theorem umax32_eq (a b : Word) : umax32 a b = if a ≤ b then b else a := by
  unfold umax32
  obtain h | h | h := lt_trichotomy a.toNat b.toNat
  · simp [BitVec.le_def, h, h.le]
  · simp [BitVec.toNat_inj.1 h]
  · simp [BitVec.le_def, h.not_gt, h.not_ge]

/-! ### Shifts and bit fields (R316, R349) -/

/-- The low five bits of a shift count. -/
theorem toNat_and_31 {n : Nat} (x : BitVec n) (hn : 5 ≤ n) : (x &&& 31).toNat = x.toNat % 32 := by
  have h31 : (31 : BitVec n).toNat = 2 ^ 5 - 1 :=
    Nat.mod_eq_of_lt ((show 31 < 2 ^ 5 by decide).trans_le (Nat.pow_le_pow_right (by decide) hn))
  rw [BitVec.toNat_and, h31, Nat.and_two_pow_sub_one_eq_mod]

theorem shl32_eq {n : Nat} (a : Word) (x : BitVec n) (hn : 5 ≤ n) : shl32 a x.toNat = a <<< (x &&& 31) := by
  rw [shl32, ← toNat_and_31 x hn]; rfl

theorem shru32_eq {n : Nat} (a : Word) (x : BitVec n) (hn : 5 ≤ n) : shru32 a x.toNat = a >>> (x &&& 31) := by
  rw [shru32, ← toNat_and_31 x hn]; rfl

theorem shrs32_eq {n : Nat} (a : Word) (x : BitVec n) (hn : 5 ≤ n) : shrs32 a x.toNat = a.sshiftRight' (x &&& 31) := by
  rw [shrs32, ← toNat_and_31 x hn]; rfl

/-- The k lowest bits, k up to 32. -/
theorem toNat_ones {k : Nat} (hk : k ≤ 32) : (((1 : BitVec 33) <<< k - 1).setWidth 32).toNat = 2 ^ k - 1 := by
  have h1 : 2 ^ k ≤ 2 ^ 32 := Nat.pow_le_pow_right (by decide) hk
  have h2 : 0 < 2 ^ k := Nat.two_pow_pos k
  have h3 : (1 : BitVec 33).toNat = 1 := rfl
  simp only [BitVec.toNat_setWidth, BitVec.toNat_sub, BitVec.toNat_shiftLeft, Nat.shiftLeft_eq, h3, Nat.one_mul]
  omega

/-- The position that b gives to a bit field. -/
theorem toNat_fieldPos (b : Word) : (b.extractLsb' 0 8).toNat = b.toNat % 256 := by simp

/-- Its length before the bound. -/
theorem toNat_fieldLen (b : Word) : (b.extractLsb' 8 8).toNat = b.toNat / 256 % 256 := by
  simp [Nat.shiftRight_eq_div_pow]

theorem ofNat_mul_two_pow (x : Word) (n : Nat) : BitVec.ofNat 32 (x.toNat * 2 ^ n) = x <<< n := by
  apply BitVec.eq_of_toNat_eq
  rw [BitVec.toNat_ofNat, BitVec.toNat_shiftLeft, Nat.shiftLeft_eq]

theorem bfx32_eq (a b : Word) : bfx32 a b =
    a >>> (b.extractLsb' 0 8).toNat &&& ((1 : BitVec 33) <<< min (b.extractLsb' 8 8).toNat 32 - 1).setWidth 32 := by
  apply BitVec.eq_of_toNat_eq
  rw [bfx32, BitVec.toNat_and, toNat_ones (min_le_right _ _), Nat.and_two_pow_sub_one_eq_mod, BitVec.toNat_ushiftRight,
    Nat.shiftRight_eq_div_pow, toNat_fieldPos, toNat_fieldLen, BitVec.toNat_ofNat]
  exact Nat.mod_eq_of_lt (((Nat.mod_le _ _).trans (Nat.div_le_self _ _)).trans_lt a.isLt)

theorem bfi32_eq (a b d : Word) : bfi32 a b d =
    (let mask := ((1 : BitVec 33) <<< min (b.extractLsb' 8 8).toNat 32 - 1).setWidth 32 <<< (b.extractLsb' 0 8).toNat
     d &&& ~~~mask ||| a <<< (b.extractLsb' 0 8).toNat &&& mask) := by
  simp only [bfi32, ← ofNat_mul_two_pow, toNat_ones (min_le_right _ _), toNat_fieldPos, toNat_fieldLen]

/-! ### Instructions that deliver a 32-bit result and raise no flag -/

section

variable (i : Instr) {val : Wave → Nat → Thread → Word}

/-- An instruction whose threads each put one 32-bit result. -/
theorem gives32_put (d : Opnd) (nw : Bool) (f : Wave → Nat → Thread → Word)
    (he : ∀ s, exec i s = perThread i (fun w ln th => th.put32 d nw (f w ln th)) s) (hsw : switches i = (false, false))
    (hv : ∀ w ln th, f w.issued ln th = val w ln th) : Gives32 i d nw val := by
  refine gives32_of i d nw val _ _ he hsw (fun w ln th => ?_) fun w ln th => ?_
  · rw [hv, Thread.flag_zero]
  · rw [← Thread.flag_zero (th.put32 _ _ _)]
    exact th.put32_park _ _ _ _

theorem alu3_gives32 (f : TOp) (op : Word → Word → Word → Word) (he : ∀ s, exec i s = alu3 i f op s)
    (hsw : switches i = (false, false))
    (hv : ∀ w ln th, op (src32 w ln th f.a) (src32 w ln th f.b) (src32 w ln th f.d) = val w ln th) : Gives32 i f.d f.w val :=
  gives32_put i f.d f.w _ he hsw fun w ln th => by simp only [src32_issued, hv]

theorem alu2_gives32 (f : TOp) (op : Word → Word → Word) (he : ∀ s, exec i s = alu2 i f op s)
    (hsw : switches i = (false, false)) (hv : ∀ w ln th, op (src32 w ln th f.a) (src32 w ln th f.b) = val w ln th) :
    Gives32 i f.d f.w val :=
  alu3_gives32 i f (fun a b _ => op a b) he hsw hv

theorem aluImm_gives32 (f : IOp) (op : Word → BitVec 8 → Word) (he : ∀ s, exec i s = aluImm i f op s)
    (hsw : switches i = (false, false)) (hv : ∀ w ln th, op (src32 w ln th f.a) f.imm = val w ln th) : Gives32 i f.d f.w val :=
  gives32_put i f.d f.w _ he hsw fun w ln th => by simp only [src32_issued, hv]

end

end Sys2Proof.Machine

open Sys2Proof Sys2Proof.Machine Host

/-- Settles O1: each instruction is its shared shape at an operation on words (`alu2_gives32`, `alu3_gives32`), and that
operation is the one on bit vectors (`mulHigh_toInt`, `sdiv32_eq`, `shl32_eq`, `bfx32_eq` and the like). -/
theorem integerResults : Obligations.IntegerResults := by
  unfold Obligations.IntegerResults
  refine ⟨fun f => ⟨alu2_gives32 (.iadd f) f (· + ·) (fun _ => rfl) rfl fun _ _ _ => rfl,
    alu2_gives32 (.isub f) f (· - ·) (fun _ => rfl) rfl fun _ _ _ => rfl,
    alu2_gives32 (.imul f) f (· * ·) (fun _ => rfl) rfl fun _ _ _ => rfl,
    alu3_gives32 (.imad f) f (fun a b d => a * b + d) (fun _ => rfl) rfl fun _ _ _ => rfl,
    alu2_gives32 (.imulh f) f (fun a b => mulHigh a.toInt b.toInt) (fun _ => rfl) rfl fun _ _ _ => mulHigh_toInt _ _,
    alu2_gives32 (.imulhu f) f (fun a b => mulHigh a.toNat b.toNat) (fun _ => rfl) rfl fun _ _ _ => mulHigh_toNat _ _,
    alu2_gives32 (.idiv f) f sdiv32 (fun _ => rfl) rfl fun _ _ _ => sdiv32_eq _ _,
    alu2_gives32 (.idivu f) f udiv32 (fun _ => rfl) rfl fun _ _ _ => udiv32_eq _ _,
    alu2_gives32 (.irem f) f srem32 (fun _ => rfl) rfl fun _ _ _ => srem32_eq _ _,
    alu2_gives32 (.iremu f) f urem32 (fun _ => rfl) rfl fun _ _ _ => urem32_eq _ _,
    alu2_gives32 (.imin f) f smin32 (fun _ => rfl) rfl fun _ _ _ => smin32_eq _ _,
    alu2_gives32 (.imax f) f smax32 (fun _ => rfl) rfl fun _ _ _ => smax32_eq _ _,
    alu2_gives32 (.umin f) f umin32 (fun _ => rfl) rfl fun _ _ _ => umin32_eq _ _,
    alu2_gives32 (.umax f) f umax32 (fun _ => rfl) rfl fun _ _ _ => umax32_eq _ _,
    alu2_gives32 (.and f) f (· &&& ·) (fun _ => rfl) rfl fun _ _ _ => rfl,
    alu2_gives32 (.or f) f (· ||| ·) (fun _ => rfl) rfl fun _ _ _ => rfl,
    alu2_gives32 (.xor f) f (· ^^^ ·) (fun _ => rfl) rfl fun _ _ _ => rfl,
    alu2_gives32 (.andn f) f (fun a b => a &&& ~~~b) (fun _ => rfl) rfl fun _ _ _ => rfl,
    alu2_gives32 (.shl f) f (fun a b => shl32 a b.toNat) (fun _ => rfl) rfl fun _ _ _ => shl32_eq _ _ (by decide),
    alu2_gives32 (.shru f) f (fun a b => shru32 a b.toNat) (fun _ => rfl) rfl fun _ _ _ => shru32_eq _ _ (by decide),
    alu2_gives32 (.shrs f) f (fun a b => shrs32 a b.toNat) (fun _ => rfl) rfl fun _ _ _ => shrs32_eq _ _ (by decide),
    alu2_gives32 (.bfx f) f bfx32 (fun _ => rfl) rfl fun _ _ _ => bfx32_eq _ _,
    alu3_gives32 (.bfi f) f bfi32 (fun _ => rfl) rfl fun _ _ _ => bfi32_eq _ _ _,
    gives32_put (.sel f) f.d f.w _ (fun _ => rfl) rfl fun _ _ _ => by simp only [src32_issued]⟩, ?words, ?compactWords⟩
  case words => unfold Decodes; decide
  case compactWords => unfold Decodes; decide

end

section
/-! SUPPORT. Bit counts and the generator of the model as operations on bit vectors and numbers (R113, R315), and the words of
FSGN and BCNT whose function does not exist. -/

namespace Sys2Proof

/-- The top byte of a word. -/
theorem fld_top (w : BitVec 32) : fld w.toNat 24 8 = w.toNat / 2 ^ 24 :=
  Nat.mod_eq_of_lt (by omega)

/-- R348: functions of 3 and more do not exist. -/
theorem FsgnFn.of?_illegal {n : Nat} (h : 3 ≤ n) : FsgnFn.of? n = .error .illegal := by
  unfold FsgnFn.of?
  rw [if_neg (by omega), if_neg (by omega), if_neg (by omega)]

/-- R315: functions of 4 and more do not exist. -/
theorem BcntFn.of?_illegal {n : Nat} (h : 4 ≤ n) : BcntFn.of? n = .error .illegal := by
  unfold BcntFn.of?
  rw [if_neg (by omega), if_neg (by omega), if_neg (by omega), if_neg (by omega)]

theorem decIFnOpFsgnFn_illegal {w : Nat} (h : FsgnFn.of? (fld w 24 8) = .error .illegal) :
    decIFnOpFsgnFn w = .error .illegal := by rw [decIFnOpFsgnFn, h]; rfl

theorem decIFnOpBcntFn_illegal {w : Nat} (h : BcntFn.of? (fld w 24 8) = .error .illegal) :
    decIFnOpBcntFn w = .error .illegal := by rw [decIFnOpBcntFn, h]; rfl

/-- A format without fields that must be zero refuses no word for them. -/
theorem zeros_nil (w : Nat) : zeros w [] ≠ .error .illegal := by rintro ⟨⟩

theorem fsgn_rejects : Rejects 0x1A5 0x1FD (fun w => 3 ≤ w.toNat / 2 ^ 24) :=
  rejects_of [] decIFnOpFsgnFn .fsgn (fun w hw => by simp only [raw32, hw]; rfl) rfl (by decide)
    fun w h => decIFnOpFsgnFn_illegal (FsgnFn.of?_illegal (by
      rw [fld_top]; exact of_decide_eq_true (h.resolve_left (zeros_nil _))))

theorem bcnt_rejects : Rejects 0x1B9 0x1FD (fun w => 4 ≤ w.toNat / 2 ^ 24) :=
  rejects_of [] decIFnOpBcntFn .bcnt (fun w hw => by simp only [raw32, hw]; rfl) rfl (by decide)
    fun w h => decIFnOpBcntFn_illegal (BcntFn.of?_illegal (by
      rw [fld_top]; exact of_decide_eq_true (h.resolve_left (zeros_nil _))))

end Sys2Proof

namespace Sys2Proof.Machine

open Host

/-! ### Bit counts (R315) -/

theorem popCount_eq (n : Nat) (a : Word) : popCount n a = ((List.range n).filter fun k => a.getLsbD k).length := by
  induction n with
  | zero => rfl
  | succ n ih =>
    rw [popCount, ih, List.range_succ, List.filter_append, List.length_append, Nat.add_comm]
    cases h : a.getLsbD n <;> simp [h]

theorem clzAuxRec_eq (a : Word) (n : Nat) (hn : n < 32) : a.clzAuxRec n = BitVec.ofNat 32 (31 - n + leadZeros (n + 1) a) := by
  induction n with
  | zero =>
    rw [BitVec.clzAuxRec_zero, leadZeros, leadZeros]
    split <;> rfl
  | succ n ih =>
    rw [BitVec.clzAuxRec_succ, leadZeros]
    split
    · rfl
    · rw [ih (by omega)]
      congr 1
      omega

theorem leadZeros_eq (a : Word) : BitVec.ofNat 32 (leadZeros 32 a) = a.clz := by
  simp [BitVec.clz, clzAuxRec_eq]

theorem revBits_eq (a : Word) : revBits a = a.reverse := by
  apply BitVec.eq_of_getLsbD_eq
  intro i hi
  rw [revBits, BitVec.getLsbD_ofNat, maskOf_testBit, BitVec.getLsbD_reverse, BitVec.getMsbD, Bool.eq_iff_iff]
  simp [hi]

theorem bcnt32_eq (fn : BcntFn) (a : Word) : bcnt32 fn a = match fn with
    | .pop => BitVec.ofNat 32 (((List.range 32).filter fun k => a.getLsbD k).length)
    | .clz => a.clz
    | .ctz => a.ctz
    | .rev => a.reverse := by
  cases fn with
  | pop => simp only [bcnt32, popCount_eq]
  | clz => simp only [bcnt32, leadZeros_eq]
  | ctz => simp only [bcnt32, revBits_eq, leadZeros_eq, BitVec.ctz]
  | rev => simp only [bcnt32, revBits_eq]

/-! ### The generator (R113) -/

theorem toNat_xor_shift (x : Word) (n : Nat) : (x ^^^ x >>> n).toNat = x.toNat ^^^ x.toNat / 2 ^ n := by
  rw [BitVec.toNat_xor, BitVec.toNat_ushiftRight, Nat.shiftRight_eq_div_pow]

theorem toNat_mul_ofNat (x : Word) (n : Nat) (h : n < 2 ^ 32) : (x * BitVec.ofNat 32 n).toNat = x.toNat * n % 2 ^ 32 := by
  rw [BitVec.toNat_mul, BitVec.toNat_ofNat, Nat.mod_eq_of_lt h]

theorem toNat_rngHash (ctr lo hi : Word) :
    let x := (ctr ^^^ lo).toNat * 0x2C9277B5 % 2 ^ 32
    let y := ((x ^^^ x / 2 ^ 15) ^^^ hi.toNat) * 0xAC564B05 % 2 ^ 32
    (rngHash ctr lo hi).toNat = y ^^^ y / 2 ^ 16 := by
  intro x y
  let u := (ctr ^^^ lo) * BitVec.ofNat 32 0x2C9277B5
  have hu : u.toNat = x := toNat_mul_ofNat _ _ (by decide)
  have hy : ((u ^^^ u >>> 15 ^^^ hi) * BitVec.ofNat 32 0xAC564B05).toNat = y := by
    rw [toNat_mul_ofNat _ _ (by decide), BitVec.toNat_xor, toNat_xor_shift, hu]
  rw [← hy]
  exact toNat_xor_shift _ 16

/-! ### MOVHI (R366) -/

/-- A half above the low half of a word. -/
theorem shiftLeft_or_low (x : BitVec 16) (y : Word) : (x.setWidth 32 <<< 16) ||| (y &&& 0xFFFF) = x ++ y.setWidth 16 := by
  have low : y &&& 0xFFFF = (y.setWidth 16).setWidth 32 := by
    have h16 : (0xFFFF : Word).toNat = 2 ^ 16 - 1 := rfl
    apply BitVec.eq_of_toNat_eq
    rw [BitVec.toNat_and, h16, Nat.and_two_pow_sub_one_eq_mod, BitVec.toNat_setWidth, BitVec.toNat_setWidth]
    omega
  rw [low, BitVec.append_def, BitVec.shiftLeftZeroExtend_eq]
  rfl

end Sys2Proof.Machine

open Sys2Proof Sys2Proof.Machine Host

/-- Settles O2: each instruction puts one result (`gives32_put`, `aluImm_gives32`), which is that of the bit vectors
(`shl32_eq`, `bcnt32_eq`), the hash is computed with numbers (`toNat_rngHash`), and a function that does not exist fails its
decoder (`rejects_of`). -/
theorem immediateResults : Obligations.ImmediateResults := by
  unfold Obligations.ImmediateResults
  refine ⟨fun f => ⟨aluImm_gives32 (.iaddi f) f (fun a n => a + n.signExtend 32) (fun _ => rfl) rfl fun _ _ _ => rfl,
      aluImm_gives32 (.andi f) f (fun a n => a &&& n.setWidth 32) (fun _ => rfl) rfl fun _ _ _ => rfl,
      aluImm_gives32 (.ori f) f (fun a n => a ||| n.setWidth 32) (fun _ => rfl) rfl fun _ _ _ => rfl,
      aluImm_gives32 (.xori f) f (fun a n => a ^^^ n.setWidth 32) (fun _ => rfl) rfl fun _ _ _ => rfl,
      aluImm_gives32 (.shli f) f (fun a n => shl32 a n.toNat) (fun _ => rfl) rfl fun _ _ _ => shl32_eq _ _ (by decide),
      aluImm_gives32 (.shrui f) f (fun a n => shru32 a n.toNat) (fun _ => rfl) rfl fun _ _ _ => shru32_eq _ _ (by decide),
      aluImm_gives32 (.shrsi f) f (fun a n => shrs32 a n.toNat) (fun _ => rfl) rfl fun _ _ _ => shrs32_eq _ _ (by decide)⟩,
    fun f => ⟨gives32_put (.movi f) f.d false _ (fun _ => rfl) rfl fun _ _ _ => rfl,
      gives32_put (.movhi f) f.d false _ (fun _ => rfl) rfl fun _ _ _ => ?movhi⟩,
    fun f => gives32_put (.mov f) f.d f.w _ (fun _ => rfl) rfl fun _ _ _ => src32_issued _ _ _ _,
    fun f => gives32_put (.rng f) f.d f.w _ (fun _ => rfl) rfl fun _ _ _ => ?rng,
    fun f => gives32_put (.fsgn f) f.d f.w _ (fun _ => rfl) rfl fun _ _ _ => ?fsgn,
    fun f => gives32_put (.bcnt f) f.d f.w _ (fun _ => rfl) rfl fun _ _ _ => ?bcnt,
    toNat_rngHash, fsgn_rejects, bcnt_rejects, ?words⟩
  case movhi => rw [src32_issued]; exact shiftLeft_or_low _ _
  case rng => rw [src32_issued]; rfl
  case fsgn => cases f.fn <;> simp only [src32_issued]
  case bcnt => rw [src32_issued]; exact bcnt32_eq _ _
  case words => unfold Decodes; decide

end

section
/-! SUPPORT. The integer conditions (R351), predicates that an instruction writes, and the words of ICMP, ICMPI and SETP that the
decoder refuses (R33, R46, R379). -/

namespace Sys2Proof

/-- R351: condition codes of 10 and more do not exist. -/
theorem ICond.of?_illegal {n : Nat} (h : 10 ≤ n) : ICond.of? n = .error .illegal := by
  unfold ICond.of?
  iterate 10 rw [if_neg (by omega)]

theorem decCmpOpICond_illegal {w : Nat} (h : zeros w [(10, 1)] = .error .illegal ∨ ICond.of? (fld w 14 4) = .error .illegal) :
    decCmpOpICond w = .error .illegal := by
  obtain hz | hz := zeros_cases w [(10, 1)]
  · rw [decCmpOpICond, hz, h.resolve_left (by simp [hz])]; rfl
  · rw [decCmpOpICond, hz]; rfl

theorem decCmpIOp_illegal {w : Nat} (h : zeros w [(9, 1)] = .error .illegal ∨ ICond.of? (fld w 13 4) = .error .illegal) :
    decCmpIOp w = .error .illegal := by
  obtain hz | hz := zeros_cases w [(9, 1)]
  · rw [decCmpIOp, hz, h.resolve_left (by simp [hz])]; rfl
  · rw [decCmpIOp, hz]; rfl

theorem icmp_rejects : Rejects 0x65 0x000005FD (fun w => 10 ≤ w.toNat / 2 ^ 14 % 16) :=
  rejects_of [(10, 1)] decCmpOpICond .icmp (fun w hw => by simp only [raw32, hw]; rfl) rfl (by decide)
    fun _ h => decCmpOpICond_illegal (h.imp_right fun hc => ICond.of?_illegal (of_decide_eq_true hc))

theorem icmpi_rejects : Rejects 0x1BD 0x000003FD (fun w => 10 ≤ w.toNat / 2 ^ 13 % 16) :=
  rejects_of [(9, 1)] decCmpIOp .icmpi (fun w hw => by simp only [raw32, hw]; rfl) rfl (by decide)
    fun _ h => decCmpIOp_illegal (h.imp_right fun hc => ICond.of?_illegal (of_decide_eq_true hc))

/-! ### SETP (R379): some of its words fail only once their fields are read -/

/-- A word with the opcode and bit 0 of a row is read as a 32-bit word of that row. -/
theorem decodeBytes_row {w fixed : BitVec 32} (h : w &&& 0x1FD = fixed) (hodd : fixed.getLsbD 0 = true) :
    decodeBytes (leBytes 4 w.toNat) = some (decode32 w.toNat) ∧ fld w.toNat 2 7 = fld fixed.toNat 2 7 := by
  subst h
  refine ⟨decodeBytes_word w ?_, ?_⟩
  · have : w.getLsbD 0 = true := by simpa using hodd
    simpa [BitVec.getLsbD, Nat.testBit_zero] using this
  · rw [fld_eq_extract, fld_eq_extract, BitVec.extractLsb'_and, show (0x1FD : BitVec 32).extractLsb' 2 7 = BitVec.allOnes 7 from rfl,
      BitVec.and_allOnes]

/-- R379: there is no function 7. -/
theorem SetpFn.of?_illegal {n : Nat} (h : 7 ≤ n) : SetpFn.of? n = .error .illegal := by
  unfold SetpFn.of?
  iterate 7 rw [if_neg (by omega)]

theorem decSetpOp_illegal {w : Nat} (h : zeros w [(30, 2), (20, 4), (13, 4), (9, 1)] = .error .illegal ∨
    SetpFn.of? (fld w 27 3) = .error .illegal) : decSetpOp w = .error .illegal := by
  obtain hz | hz := zeros_cases w [(30, 2), (20, 4), (13, 4), (9, 1)]
  · rw [decSetpOp, hz, h.resolve_left (by simp [hz])]; rfl
  · rw [decSetpOp, hz]; rfl

theorem fin?_fld (w lo : Nat) : fin? 8 (fld w lo 3) = .ok ⟨fld w lo 3, Nat.mod_lt _ (by decide)⟩ :=
  dif_pos (Nat.mod_lt _ (by decide))

/-- The function and the sources of a SETP that the format alone accepts. -/
theorem decSetpOp_ok {w : Nat} {fn : SetpFn} (hz : zeros w [(30, 2), (20, 4), (13, 4), (9, 1)] = .ok ())
    (hf : SetpFn.of? (fld w 27 3) = .ok fn) :
    ∃ f, decSetpOp w = .ok f ∧ f.fn = fn ∧ f.y.val = fld w 24 3 ∧ f.x.val = fld w 17 3 :=
  ⟨_, by rw [decSetpOp, hz, hf, fin?_fld, fin?_fld, fin?_fld]; rfl, rfl, rfl, rfl⟩

/-- A word whose function has a field that must be 0, and where it is not, is ILLEGAL. -/
theorem checked_setp_illegal {f : SetpOp}
    (h : (f.fn = .not ∧ f.y.val ≠ 0) ∨ ((f.fn = .one ∨ f.fn = .zero) ∧ (f.x.val ≠ 0 ∨ f.y.val ≠ 0))) :
    checked (.setp f) = .error .illegal := by
  have hs : ¬ setpOk f = true := by
    intro hok
    obtain ⟨hf, hy⟩ | ⟨hf | hf, hxy⟩ := h <;> simp only [setpOk, hf, Bool.and_eq_true, beq_iff_eq] at hok <;> omega
  exact if_neg hs

/-- The words of SETP that R379 leaves out. -/
abbrev setpReserved (w : Nat) : Prop := fld w 27 3 = 7 ∨ (fld w 27 3 = 4 ∧ fld w 24 3 ≠ 0) ∨
  ((fld w 27 3 = 5 ∨ fld w 27 3 = 6) ∧ (fld w 17 3 ≠ 0 ∨ fld w 24 3 ≠ 0))

theorem setp_illegal {w : Nat} (hop : fld w 2 7 = 112)
    (h : zeros w [(30, 2), (20, 4), (13, 4), (9, 1)] = .error .illegal ∨ setpReserved w) : decode32 w = .error .illegal := by
  have hraw : decode32 w = (Instr.setp <$> decSetpOp w) >>= checked := by simp only [decode32, raw32, hop]
  obtain hz | hz := zeros_cases w [(30, 2), (20, 4), (13, 4), (9, 1)]
  · have reject : ∀ fn, SetpFn.of? (fld w 27 3) = .ok fn →
        (fn = .not ∧ fld w 24 3 ≠ 0) ∨ ((fn = .one ∨ fn = .zero) ∧ (fld w 17 3 ≠ 0 ∨ fld w 24 3 ≠ 0)) →
        decode32 w = .error .illegal := by
      intro fn hf hr
      obtain ⟨f, hd, rfl, hy, hx⟩ := decSetpOp_ok hz hf
      rw [hraw, hd]
      exact checked_setp_illegal (by rwa [hy, hx])
    obtain h7 | ⟨h4, hy⟩ | ⟨h5 | h6, hxy⟩ := h.resolve_left (by simp [hz])
    · rw [hraw, decSetpOp_illegal (.inr (SetpFn.of?_illegal h7.ge))]; rfl
    · exact reject .not (by rw [h4]; rfl) (.inl ⟨rfl, hy⟩)
    · exact reject .one (by rw [h5]; rfl) (.inr ⟨.inl rfl, hxy⟩)
    · exact reject .zero (by rw [h6]; rfl) (.inr ⟨.inr rfl, hxy⟩)
  · rw [hraw, decSetpOp_illegal (.inl hz)]; rfl

theorem setp_rejects : Rejects 0x1C1 0xC0F1E3FD (fun w =>
    let op := w.toNat / 2 ^ 27 % 8
    let y := w.toNat / 2 ^ 24 % 8
    let x := w.toNat / 2 ^ 17 % 8
    op = 7 ∨ (op = 4 ∧ y ≠ 0) ∨ ((op = 5 ∨ op = 6) ∧ (x ≠ 0 ∨ y ≠ 0))) := by
  intro w hw h
  obtain ⟨hdec, hop⟩ := decodeBytes_row hw rfl
  have hmask : (0xC0F1E3FD : BitVec 32) = 0x1FD ||| fieldsMask [(30, 2), (20, 4), (13, 4), (9, 1)] := by decide
  rw [hdec, setp_illegal hop (h.imp (fun hne => zeros_illegal fun h0 => hne ?_) of_decide_eq_true)]
  rw [hmask, BitVec.and_or_distrib_left, h0, hw]
  exact BitVec.or_zero

end Sys2Proof

namespace Sys2Proof.Machine

open Host

/-! ### Conditions (R351) -/

theorem icmp32_signed (a b : Word) : icmp32 .lt a b = decide (a.toInt < b.toInt) ∧
    icmp32 .le a b = decide (a.toInt ≤ b.toInt) ∧ icmp32 .gt a b = decide (b.toInt < a.toInt) ∧
    icmp32 .ge a b = decide (b.toInt ≤ a.toInt) := by
  refine ⟨rfl, ?_, rfl, ?_⟩
  · simp only [icmp32, BitVec.slt, ← decide_not, not_lt]
  · simp only [icmp32, BitVec.slt, ← decide_not, not_lt]

theorem icmp32_ne (a b : Word) : icmp32 .ne a b = decide (a ≠ b) := by
  rw [decide_not]; rfl

/-! ### Instructions that write a predicate and raise no flag -/

theorem GivesP.congr {i : Instr} {p : Fin 8} {val val' : Wave → Nat → Thread → Bool} {fl : Wave → Nat → Thread → Flags}
    (h : GivesP i p val fl) (hv : ∀ w ln th, val w ln th = val' w ln th) : GivesP i p val' fl := by
  rwa [← funext fun w => funext fun ln => funext (hv w ln)]

end Sys2Proof.Machine

open Sys2Proof Sys2Proof.Machine Host

/-- Settles O4: each instruction writes one predicate (`givesP_of`), and a word is refused by its decoder (`rejects_of`) or, for
SETP, where a field that must be 0 is not (`setp_illegal`). -/
theorem predicateResults : Obligations.PredicateResults := by
  unfold Obligations.PredicateResults
  refine ⟨fun f => givesP_of (.icmp f) f.p (fun w ln th => (icmp32 f.c (src32 w ln th f.a) (src32 w ln th f.b), 0))
      (fun _ => rfl) rfl fun _ _ _ => ?icmp,
    fun f => givesP_of (.icmpi f) f.p (fun w ln th => (icmp32 f.c (src32 w ln th f.a) (f.imm.signExtend 32), 0))
      (fun _ => rfl) rfl fun _ _ _ => ?icmpi,
    fun f => (givesP_of (.setp f) f.d _ (fun _ => rfl) rfl fun _ _ _ => rfl).congr fun _ _ _ => ?setp,
    fun a b => ?conditions, icmp_rejects, icmpi_rejects, setp_rejects, ?words⟩
  case icmp => simp only [src32_issued]
  case icmpi => simp only [src32_issued]
  case setp => cases f.fn <;> rfl
  case conditions =>
    obtain ⟨lt, le, gt, ge⟩ := icmp32_signed a b
    exact ⟨rfl, icmp32_ne a b, lt, le, gt, ge, rfl, rfl, rfl, rfl⟩
  case words => unfold Decodes; decide

end
